-- ==== Sys2Proof/Word.lean ====
section
/-! DEFINITION. The word types of the drive block (`00_scope.md` R13 to R15, `30_encoding.md` R110). -/

namespace Sys2Proof

/-- A device register, a register address or an operand byte (u8). -/
abbrev Byte := BitVec 8

/-- A command word or a response word (R110). -/
abbrev Word := BitVec 32

/-- A 7-bit I2C device address (R71). -/
abbrev Addr := BitVec 7

/-- A raw s16 Q2.14 duty (R14); its value is `d.toInt / 16384`. -/
abbrev Duty := BitVec 16

/-- A channel number of one device, 0 to 15 (R11, `NCH`). -/
abbrev Channel := Fin 16

end Sys2Proof
end

