-- ==== Sys2Proof/Syntax.lean ====
section
/-! DEFINITION. The commands of DRV-CMD v1: one constructor for each row of `spec/opcode_table.json`, in the table's
order (`30_encoding.md` R114 to R125). Operands stand as R124 decodes them; range checks on them belong to execution. -/

namespace Sys2Proof

/-- A decoded command. `id` is the ID byte: a channel, a connector or a sequencer slot by the opcode (R124). -/
inductive Instr
  /-- REG_WR: write one device register (R150). -/
  | regWr (reg data : Byte)
  /-- REG_RD: read one device register (R152). -/
  | regRd (reg : Byte)
  /-- REG_BURST: write consecutive device registers; LEN is the length of `data`, D0 first (R116, R154). -/
  | regBurst (reg : Byte) (data : List Byte)
  /-- CTRL_INIT: construct the controller; `hz` is a Q16.16 frequency (R173). -/
  | ctrlInit (addr : Addr) (hz : Word)
  /-- CTRL_RESET (R174). -/
  | ctrlReset
  /-- CTRL_FREQ (R177). -/
  | ctrlFreq (hz : Word)
  /-- CTRL_DUTY (R180). -/
  | ctrlDuty (id : Byte) (duty : Duty)
  /-- CH_BIND (R200). -/
  | chBind (id : Byte)
  /-- CH_RELEASE (R202). -/
  | chRelease (id : Byte)
  /-- CH_DUTY (R204). -/
  | chDuty (id : Byte) (duty : Duty)
  /-- LINE_SET (R206). -/
  | lineSet (id : Byte) (b : Bool)
  /-- LINE_GET (R208). -/
  | lineGet (id : Byte)
  /-- HB_CONFIG (R230). -/
  | hbConfig (id : Byte)
  /-- HB_SET (R233). -/
  | hbSet (id : Byte) (duty : Duty)
  /-- HB_BRAKE (R238). -/
  | hbBrake (id : Byte)
  /-- HB_RELEASE (R240). -/
  | hbRelease (id : Byte)
  /-- HB_GET (R242). -/
  | hbGet (id : Byte)
  /-- SEQ_CONFIG (R266). -/
  | seqConfig (id bra brb : Byte) (nsteps : BitVec 16)
  /-- SEQ_STEP; `dir` is the 2-bit two's-complement direction (R270, R271). -/
  | seqStep (id : Byte) (dir : BitVec 2)
  /-- SEQ_RELEASE (R275). -/
  | seqRelease (id : Byte)
  /-- SEQ_GET (R277). -/
  | seqGet (id : Byte)
  deriving DecidableEq, Repr

end Sys2Proof
end

