-- ==== Sys2Proof/WellFormed.lean ====
section
/-! DEFINITION. Which terms of `Instr` are commands the encoding can hold. Every operand but one has exactly the
width of its field; the length of a REG_BURST does not (`30_encoding.md` R116, R125, R126). -/

namespace Sys2Proof

/-- A REG_BURST carries 1 to 4 data bytes (R125: `1 ≤ LEN ≤ 4`); every other operand fills its field by its type. -/
def Instr.wellFormed : Instr → Bool
  | .regBurst _ data => 1 ≤ data.length && data.length ≤ 4
  | .regWr _ _ | .regRd _ | .ctrlInit _ _ | .ctrlReset | .ctrlFreq _ | .ctrlDuty _ _ => true
  | .chBind _ | .chRelease _ | .chDuty _ _ | .lineSet _ _ | .lineGet _ => true
  | .hbConfig _ | .hbSet _ _ | .hbBrake _ | .hbRelease _ | .hbGet _ => true
  | .seqConfig _ _ _ _ | .seqStep _ _ | .seqRelease _ | .seqGet _ => true

end Sys2Proof
end

