-- ==== Sys2Proof/Decode.lean ====
section
/-! DEFINITION. The encoding DRV-CMD v1 (`30_encoding.md`): fields of a word, the opcode map R125 as a table of
mask and match rows, the decoder (total on any list of words, refusing by name, R126), and the encoder. -/

namespace Sys2Proof

/-! ## Fields of a word (R13) -/

/-- `w[lo+n-1 : lo]`. -/
def field (lo n : Nat) (w : Word) : BitVec n := w.extractLsb' lo n

/-- `x` standing in the bits `lo+n-1 : lo` of a word, every other bit 0. -/
def place {n : Nat} (lo : Nat) (x : BitVec n) : Word := x.setWidth 32 <<< lo

/-- `OPC = w0[31:24]` (R111). -/
def opcodeOf (w0 : Word) : Byte := field 24 8 w0

/-- How many words a command takes, from its opcode alone: 0x03, 0x10, 0x12 and 0x40 take two, every other byte
value, listed or not, takes one (R111, R112). -/
def wordCount (opc : Byte) : Nat :=
  if opc = 0x03#8 || opc = 0x10#8 || opc = 0x12#8 || opc = 0x40#8 then 2 else 1

/-! ## The opcode map (R125) -/

/-- The 21 commands, without their operands. -/
inductive Op
  | regWr | regRd | regBurst
  | ctrlInit | ctrlReset | ctrlFreq | ctrlDuty
  | chBind | chRelease | chDuty | lineSet | lineGet
  | hbConfig | hbSet | hbBrake | hbRelease | hbGet
  | seqConfig | seqStep | seqRelease | seqGet
  deriving DecidableEq, Repr

/-- One row of R125: `(w0 & mask) == pattern` selects the command. -/
structure OpcodeRow where
  op : Op
  opc : Byte
  pattern : Word
  mask : Word
  deriving DecidableEq, Repr

/-- The register-bus and controller rows of R125. -/
def busRows : List OpcodeRow :=
  [ ⟨.regWr,     0x01#8, 0x01000000#32, 0xFFFF0000#32⟩,
    ⟨.regRd,     0x02#8, 0x02000000#32, 0xFFFF00FF#32⟩,
    ⟨.regBurst,  0x03#8, 0x03000000#32, 0xFFF800FF#32⟩,
    ⟨.ctrlInit,  0x10#8, 0x10000000#32, 0xFFFFFF80#32⟩,
    ⟨.ctrlReset, 0x11#8, 0x11000000#32, 0xFFFFFFFF#32⟩,
    ⟨.ctrlFreq,  0x12#8, 0x12000000#32, 0xFFFFFFFF#32⟩,
    ⟨.ctrlDuty,  0x13#8, 0x13000000#32, 0xFF000000#32⟩ ]

/-- The channel and line rows of R125. -/
def channelRows : List OpcodeRow :=
  [ ⟨.chBind,    0x20#8, 0x20000000#32, 0xFF00FFFF#32⟩,
    ⟨.chRelease, 0x21#8, 0x21000000#32, 0xFF00FFFF#32⟩,
    ⟨.chDuty,    0x22#8, 0x22000000#32, 0xFF000000#32⟩,
    ⟨.lineSet,   0x23#8, 0x23000000#32, 0xFF00FFFE#32⟩,
    ⟨.lineGet,   0x24#8, 0x24000000#32, 0xFF00FFFF#32⟩ ]

/-- The H-bridge and sequencer rows of R125. -/
def motorRows : List OpcodeRow :=
  [ ⟨.hbConfig,   0x30#8, 0x30000000#32, 0xFF00FFFF#32⟩,
    ⟨.hbSet,      0x31#8, 0x31000000#32, 0xFF000000#32⟩,
    ⟨.hbBrake,    0x32#8, 0x32000000#32, 0xFF00FFFF#32⟩,
    ⟨.hbRelease,  0x33#8, 0x33000000#32, 0xFF00FFFF#32⟩,
    ⟨.hbGet,      0x34#8, 0x34000000#32, 0xFF00FFFF#32⟩,
    ⟨.seqConfig,  0x40#8, 0x40000000#32, 0xFF000000#32⟩,
    ⟨.seqStep,    0x41#8, 0x41000000#32, 0xFF00FFFC#32⟩,
    ⟨.seqRelease, 0x42#8, 0x42000000#32, 0xFF00FFFF#32⟩,
    ⟨.seqGet,     0x43#8, 0x43000000#32, 0xFF00FFFF#32⟩ ]

/-- The complete opcode map of R125. -/
def opcodeMap : List OpcodeRow := busRows ++ channelRows ++ motorRows

/-- `w0` matches a row of R125. -/
def OpcodeRow.accepts (r : OpcodeRow) (w0 : Word) : Bool := w0 &&& r.mask == r.pattern

/-! ## Decoding -/

/-- Why a command is illegal (R126). -/
inductive Illegal
  /-- The opcode is not in R125. -/
  | unknownOpcode
  /-- A reserved-zero bit of w0 is 1. -/
  | reservedBit
  /-- REG_BURST with LEN = 0 or LEN > 4. -/
  | burstLength
  /-- REG_BURST with a data byte beyond LEN that is not zero. -/
  | burstPadding
  /-- SEQ_CONFIG with `w1[31:16] ≠ 0`. -/
  | seqPadding
  deriving DecidableEq, Repr

/-- The four data bytes of the second word of format W, D0 first (R116). -/
def burstBytes (w1 : Word) : List Byte := [field 0 8 w1, field 8 8 w1, field 16 8 w1, field 24 8 w1]

/-- The operands of a command, from its words (R114 to R124), or the extra decode condition of R125 it fails. -/
def Op.build (w0 w1 : Word) : Op → Except Illegal Instr
  | .regWr => .ok (.regWr (field 8 8 w0) (field 0 8 w0))
  | .regRd => .ok (.regRd (field 8 8 w0))
  | .regBurst =>
    let len := (field 16 3 w0).toNat
    if len = 0 || 4 < len then .error .burstLength
    else if len < 4 && w1 >>> (8 * len) != 0 then .error .burstPadding
    else .ok (.regBurst (field 8 8 w0) ((burstBytes w1).take len))
  | .ctrlInit => .ok (.ctrlInit (field 0 7 w0) w1)
  | .ctrlReset => .ok .ctrlReset
  | .ctrlFreq => .ok (.ctrlFreq w1)
  | .ctrlDuty => .ok (.ctrlDuty (field 16 8 w0) (field 0 16 w0))
  | .chBind => .ok (.chBind (field 16 8 w0))
  | .chRelease => .ok (.chRelease (field 16 8 w0))
  | .chDuty => .ok (.chDuty (field 16 8 w0) (field 0 16 w0))
  | .lineSet => .ok (.lineSet (field 16 8 w0) (field 0 1 w0 == 1#1))
  | .lineGet => .ok (.lineGet (field 16 8 w0))
  | .hbConfig => .ok (.hbConfig (field 16 8 w0))
  | .hbSet => .ok (.hbSet (field 16 8 w0) (field 0 16 w0))
  | .hbBrake => .ok (.hbBrake (field 16 8 w0))
  | .hbRelease => .ok (.hbRelease (field 16 8 w0))
  | .hbGet => .ok (.hbGet (field 16 8 w0))
  | .seqConfig =>
    if field 16 16 w1 != 0 then .error .seqPadding
    else .ok (.seqConfig (field 16 8 w0) (field 8 8 w0) (field 0 8 w0) (field 0 16 w1))
  | .seqStep => .ok (.seqStep (field 16 8 w0) (field 0 2 w0))
  | .seqRelease => .ok (.seqRelease (field 16 8 w0))
  | .seqGet => .ok (.seqGet (field 16 8 w0))

/-- One command from its words (R125, R126); `w1` is ignored by the one-word formats. -/
def decodeCommand (w0 w1 : Word) : Except Illegal Instr :=
  match opcodeMap.find? (fun r => r.accepts w0) with
  | some r => r.op.build w0 w1
  | none => .error (if opcodeMap.any (fun r => r.opc == opcodeOf w0) then .reservedBit else .unknownOpcode)

/-- What the words at the command port begin with. -/
inductive Decoded
  /-- Not all the words of the command have arrived (R110). -/
  | incomplete
  /-- An illegal command, consumed with the length R111 gives; `rest` follows it (R126). -/
  | illegal (why : Illegal) (rest : List Word)
  /-- A command, with the words that follow it. -/
  | command (i : Instr) (rest : List Word)
  deriving DecidableEq, Repr

/-- A decoded command together with the words after it. -/
def Decoded.of (r : Except Illegal Instr) (rest : List Word) : Decoded :=
  match r with
  | .ok i => .command i rest
  | .error why => .illegal why rest

/-- The command at the head of a list of words (R110, R111, R126, R127). -/
def decode : List Word → Decoded
  | [] => .incomplete
  | w0 :: ws =>
    if wordCount (opcodeOf w0) = 2 then
      match ws with
      | [] => .incomplete
      | w1 :: rest => .of (decodeCommand w0 w1) rest
    else .of (decodeCommand w0 0#32) ws

/-- The words a transport's bytes make, the least significant byte of each word first (`20_memory.md` R70); one to
three bytes left over are no word yet. -/
def wordsOfBytes : List Byte → List Word
  | b0 :: b1 :: b2 :: b3 :: bs => (place 0 b0 ||| place 8 b1 ||| place 16 b2 ||| place 24 b3) :: wordsOfBytes bs
  | _ => []

/-- The bytes of a word in the order a transport carries them (R70). -/
def bytesOfWord (w : Word) : List Byte := [field 0 8 w, field 8 8 w, field 16 8 w, field 24 8 w]

/-- The decoder on bytes: total on any bytes. -/
def decodeBytes (bs : List Byte) : Decoded := decode (wordsOfBytes bs)

/-! ## Encoding -/

/-- The command an instruction is an instance of. -/
def Instr.op : Instr → Op
  | .regWr _ _ => .regWr
  | .regRd _ => .regRd
  | .regBurst _ _ => .regBurst
  | .ctrlInit _ _ => .ctrlInit
  | .ctrlReset => .ctrlReset
  | .ctrlFreq _ => .ctrlFreq
  | .ctrlDuty _ _ => .ctrlDuty
  | .chBind _ => .chBind
  | .chRelease _ => .chRelease
  | .chDuty _ _ => .chDuty
  | .lineSet _ _ => .lineSet
  | .lineGet _ => .lineGet
  | .hbConfig _ => .hbConfig
  | .hbSet _ _ => .hbSet
  | .hbBrake _ => .hbBrake
  | .hbRelease _ => .hbRelease
  | .hbGet _ => .hbGet
  | .seqConfig _ _ _ _ => .seqConfig
  | .seqStep _ _ => .seqStep
  | .seqRelease _ => .seqRelease
  | .seqGet _ => .seqGet

/-- Format K (R120). -/
def formatK (opc id : Byte) : Word := place 24 opc ||| place 16 id

/-- Format C (R119). -/
def formatC (opc id : Byte) (duty : Duty) : Word := place 24 opc ||| place 16 id ||| place 0 duty

/-- The words of a command (R114 to R125). -/
def encode : Instr → List Word
  | .regWr reg data => [place 24 0x01#8 ||| place 8 reg ||| place 0 data]
  | .regRd reg => [place 24 0x02#8 ||| place 8 reg]
  | .regBurst reg data =>
    [place 24 0x03#8 ||| place 16 (BitVec.ofNat 3 data.length) ||| place 8 reg,
     place 0 (data.getD 0 0#8) ||| place 8 (data.getD 1 0#8) ||| place 16 (data.getD 2 0#8)
       ||| place 24 (data.getD 3 0#8)]
  | .ctrlInit addr hz => [place 24 0x10#8 ||| place 0 addr, hz]
  | .ctrlReset => [place 24 0x11#8]
  | .ctrlFreq hz => [place 24 0x12#8, hz]
  | .ctrlDuty id duty => [formatC 0x13#8 id duty]
  | .chBind id => [formatK 0x20#8 id]
  | .chRelease id => [formatK 0x21#8 id]
  | .chDuty id duty => [formatC 0x22#8 id duty]
  | .lineSet id b => [place 24 0x23#8 ||| place 16 id ||| place 0 (BitVec.ofBool b)]
  | .lineGet id => [formatK 0x24#8 id]
  | .hbConfig id => [formatK 0x30#8 id]
  | .hbSet id duty => [formatC 0x31#8 id duty]
  | .hbBrake id => [formatK 0x32#8 id]
  | .hbRelease id => [formatK 0x33#8 id]
  | .hbGet id => [formatK 0x34#8 id]
  | .seqConfig id bra brb nsteps =>
    [place 24 0x40#8 ||| place 16 id ||| place 8 bra ||| place 0 brb, place 0 nsteps]
  | .seqStep id dir => [place 24 0x41#8 ||| place 16 id ||| place 0 dir]
  | .seqRelease id => [formatK 0x42#8 id]
  | .seqGet id => [formatK 0x43#8 id]

/-! ## The host's view of one opcode-table word -/

/-- The words of an instruction whose bits are `w`, bit 0 the least significant bit of the first word: as many as
its opcode takes (R111). The bits of `w` above `nbits` are taken as 0. -/
def tableWords (nbits w : Nat) : List Word :=
  let bits := w % 2 ^ nbits
  let w0 := BitVec.ofNat 32 bits
  if wordCount (opcodeOf w0) = 2 then [w0, BitVec.ofNat 32 (bits / 2 ^ 32)] else [w0]

/-- The instruction the decoder reads from an opcode-table word, laid out as the transport's bytes. -/
def decodeTableWord (nbits w : Nat) : Option Instr :=
  match decodeBytes ((tableWords nbits w).flatMap bytesOfWord) with
  | .command i _ => some i
  | .illegal _ _ | .incomplete => none

end Sys2Proof
end

