-- ==== Sys2Proof/Config.lean ====
section
/-! DEFINITION. The implementation parameters of `00_scope.md` R11: the fixed constants, the types of the rows
marked *parameter* (their values stand in `State`, so that every claim is about every choice of them), and the one
free value no State field supplies. -/

namespace Sys2Proof

namespace Config

/-- `OSC_HZ`, the device's internal oscillator (R11). -/
def oscHz : Nat := 25000000

/-- `PRESCALE_MIN` (R11). -/
def prescaleMin : Nat := 3

/-- `PRESCALE_MAX` (R11). -/
def prescaleMax : Nat := 255

/-- `ADDR_DEFAULT`, the default device address (R11). -/
def addrDefault : Addr := 0x60#7

/-- `T_OSC_MIN_US`, the least wait after a MODE1 clear, in microseconds (R11). -/
def tOscMinUs : Nat := 1000

/-- The default number of sequencer slots, `NSEQ` (R11). -/
def nseqDefault : Nat := 2

/-- `ONE`, the raw value of the duty +1.0 (R14). -/
def one : Nat := 16384

end Config

/-- `TRIG_DIVISOR(N)`: the divisor D of the angle step 2π/D of a generated table (R11, R264). -/
inductive TrigDivisor
  /-- D = N − 1, the literal behaviour of the source and the default. -/
  | nMinusOne
  /-- D = N. -/
  | n
  deriving DecidableEq, Repr

/-- One entry of a tabulated `TRIG_Q`: the pair (cos, sin) for the table size `n` at the index `i`. -/
structure TrigEntry where
  n : Nat
  i : Nat
  cos : Duty
  sin : Duty
  deriving DecidableEq, Repr

/-- `TRIG_Q(N, i)`: how the entries of a generated table are quantised (R11, R264). -/
inductive TrigQ
  /-- The default: the nearest Q2.14 value, ties to even. -/
  | rne
  /-- A tabulated choice; a pair (N, i) that is not listed takes the default. -/
  | table (entries : List TrigEntry)
  deriving DecidableEq, Repr

/-- `ALLOC_SCOPE`, the key of the channel-allocation set (R11, R34, `90_conflicts.md` C6). -/
inductive AllocScope
  | perController
  | global
  deriving DecidableEq, Repr

/-- The parameters of R11 that are not the length of a list of `State` (`NSEQ` is the number of slots,
`DEVICES` the addresses of the reference devices). -/
structure Params where
  trigDivisor : TrigDivisor
  trigQ : TrigQ
  allocScope : AllocScope
  deriving DecidableEq, Repr

/-- The defaults of R11. -/
def Params.default : Params :=
  { trigDivisor := .nMinusOne, trigQ := .rne, allocScope := .perController }

/-- What a PWM output shows (`10_state.md` R49, `60_exceptions.md` R321). -/
inductive Output
  /-- Constantly low (full-off). -/
  | low
  /-- Constantly high (full-on). -/
  | high
  /-- High from count `on` to count `off` of each 4096-count period. -/
  | pwm (on off : BitVec 12)
  /-- The device sleeps: its oscillator and all PWM outputs are stopped (R321). -/
  | stopped
  deriving DecidableEq, Repr, Inhabited

/-- FREE VALUE (`70_reset_and_hazards.md` R353, `93_implementation_defined.md` I1): what a channel of the device at an
address shows while the modulation frequency changes there, where every output is *any value*. The two numbers tell the
moments apart: how many responses have gone out, and how many events of the outside world are still to come. -/
opaque Config.freeOutput : Nat → Nat → Addr → Channel → Output

end Sys2Proof
end

