-- ==== Sys2Proof/Machine/State.lean ====
section
/-! DEFINITION. The state of the machine: the block record of `10_state.md` R30, the command port, the reference
devices on the bus (`20_memory.md` R80), what the rest of the system holds, and the environment's inputs. -/

namespace Sys2Proof.Machine

/-! ## The block's own types (R30) -/

/-- `ctrl.phase` (R31). -/
inductive Phase
  | uninit
  | ready
  deriving DecidableEq, Repr

/-- A motor connector, numbered 1 to 4; bridge k is the bridge on connector k (R12, R36). -/
inductive Conn
  | c1 | c2 | c3 | c4
  deriving DecidableEq, Repr

/-- `alloc[ch]`: who owns a channel in this block's allocation set (R34). -/
inductive Owner
  | free
  /-- Bound by CH_BIND. -/
  | port
  /-- One of the three channels of bridge `k`. -/
  | bridge (k : Conn)
  deriving DecidableEq, Repr

/-- `Entry(ch)`: the allocation entry as this block sees it (`42_channel.md` R212). -/
inductive Entry
  | free
  | port
  | bridge (k : Conn)
  /-- Owned by another block, under the global allocation scope. -/
  | other
  deriving DecidableEq, Repr

/-- `bridge[k]` (R36). -/
structure Bridge where
  cfg : Bool
  duty : Duty
  deriving DecidableEq, Repr

/-- `seq[s]` (R38). -/
structure Seq where
  cfg : Bool
  ph1 : Conn
  ph2 : Conn
  n : BitVec 16
  idx : BitVec 16
  deriving DecidableEq, Repr

/-- Status codes of a response (`60_exceptions.md` R300). -/
inductive Status
  | ok
  | configurationError
  | resourceConflict
  | transportError
  | illegalCommand
  | notReady
  | notConfigured
  deriving DecidableEq, Repr

/-! ## The bus (R72, R73) -/

/-- A bus frame (R72). -/
inductive Frame
  /-- `W(a, [reg, data…])`: a write frame, register pointer first. -/
  | write (a : Addr) (reg : Byte) (data : List Byte)
  /-- `Rd(a)`: a one-byte read frame. -/
  | read (a : Addr)
  /-- `Delay(t)`: at least `us` microseconds without bus activity of this block. -/
  | delay (us : Nat)
  deriving DecidableEq, Repr

/-- The bus's answer to a frame (R72). -/
inductive Answer
  | ack
  | data (v : Byte)
  | fail
  /-- A `Delay` has ended; it always completes. -/
  | elapsed
  deriving DecidableEq, Repr

/-- A frame with the answer it got, as the test vectors write traces (`Rd(0x60)→0xA0`). -/
structure BusEvent where
  frame : Frame
  answer : Answer
  deriving DecidableEq, Repr

/-- A bus group: the frames one primitive emits under one hold of the lock (R73). -/
abbrev Group := List BusEvent

/-- A device's register space: the registers that hold something else than their power-on value, by address. -/
abbrev Memory := List Host.Cell

/-- A reference device: `reg[0..255]` and `ptr` (R80), at its 7-bit address. -/
structure Device where
  addr : Addr
  mem : Memory
  ptr : Byte
  deriving DecidableEq, Repr

/-- How the bus, an oracle, answers the next frame (R96). -/
inductive Reply
  /-- As the reference bus does (R91). -/
  | reference
  /-- The frame succeeds: a write is acknowledged, a read returns `v`. -/
  | answer (v : Byte)
  /-- The frame fails, and the device it was sent to is left with the registers `regs` (from register 0 up; those
  not listed at their power-on value) and the pointer `ptr`: a draw (R93). -/
  | fail (regs : List Byte) (ptr : Byte)
  deriving DecidableEq, Repr

/-- A frame of another bus agent, with its answer (R73, R102, `70_reset_and_hazards.md` R358). -/
structure ForeignFrame where
  frame : Frame
  reply : Reply
  deriving DecidableEq, Repr

/-- What the world outside the block does, between commands (`60_exceptions.md` R319, R322). -/
inductive HostEvent
  /-- The host sends a command word. -/
  | word (w : Word)
  /-- The host asserts block reset. -/
  | blockReset
  /-- Another block becomes READY at device address `a`. -/
  | peerReady (a : Addr)
  /-- The block that was READY at `a` is reset. Under the global scope the channels it held are given up by `peerRelease`
  events, not by this one (log entry 22). -/
  | peerDown (a : Addr)
  /-- Another block asks for all of `chs` at once (its CH_BIND or HB_CONFIG). -/
  | peerBind (chs : List Channel)
  /-- Another block gives up the channels `chs`. -/
  | peerRelease (chs : List Channel)
  /-- Another block enters (`on`) or leaves a frequency change of the device at `a` (R353). -/
  | peerChange (a : Addr) (on : Bool)
  /-- A whole group of another bus agent goes out while this block is between two commands (R102, R358). -/
  | foreign (g : List ForeignFrame)
  deriving DecidableEq, Repr

/-! ## The state -/

/-- The machine. The first nine fields are R30's record of one drive block, `trace` last. -/
structure State where
  phase : Phase
  addr : Addr
  alloc : Vector Owner 16
  chDuty : Vector Duty 16
  bridges : Vector Bridge 4
  seqs : List Seq
  trace : List Group
  inbox : List Word
  responses : List Word
  devices : List Device
  /-- The devices whose modulation frequency is being changed (R353), by address, no repeats: the model's own record of
  how far a change has come (log entry 12). -/
  changing : List Addr
  params : Params
  peers : List Addr
  heldElsewhere : Vector Bool 16
  replies : List Reply
  traffic : List (List (List ForeignFrame))
  events : List HostEvent
  deriving DecidableEq, Repr

/-- No command stops the machine: an error is a status code in the response, and there is no trap mechanism
(`60_exceptions.md` R300, R314). The type of faults is therefore empty, which is the safe side: nothing can be
claimed to stop that the spec lets go on. -/
inductive Fault
  deriving DecidableEq, Repr

/-- Why a step has no meaning. -/
inductive Refusal
  /-- Raised by `exec` for an instruction that has no meaning yet, by the mnemonic of its row; safe. -/
  | notModelled (mnemonic : String)
  deriving DecidableEq, Repr

/-- A sequencer slot after block reset; `cfg` is R30's, the other fields have no value there (log entry 1). -/
def Seq.reset : Seq := { cfg := false, ph1 := .c1, ph2 := .c1, n := 0#16, idx := 0#16 }

/-- A bridge after block reset; `duty` has no value there (log entry 1). -/
def Bridge.reset : Bridge := { cfg := false, duty := 0#16 }

/-- The machine right after block reset (`70_reset_and_hazards.md` R340): the last column of R30, default
parameters (R11), one reference device at 0x60 at its power-on values (R80, R341), a quiet environment. -/
def State.reset : State :=
  { phase := .uninit
    addr := Config.addrDefault
    alloc := Vector.replicate 16 .free
    chDuty := Vector.replicate 16 0#16
    bridges := Vector.replicate 4 Bridge.reset
    seqs := List.replicate Config.nseqDefault Seq.reset
    trace := []
    inbox := []
    responses := []
    devices := [{ addr := Config.addrDefault, mem := [], ptr := 0x00#8 }]
    changing := []
    params := Params.default
    peers := []
    heldElsewhere := Vector.replicate 16 false
    replies := []
    traffic := []
    events := [] }

end Sys2Proof.Machine
end

