-- ==== Sys2Proof/Machine/Device.lean ====
section
/-! DEFINITION. The reference PCA9685 (`10_state.md` R42 to R47, `20_memory.md` R80 to R95) and the bus that
answers a frame (R91, R93, R96). -/

namespace Sys2Proof.Machine

/-! ## The register map (R42, R43) -/

/-- MODE1. -/
def regMode1 : Byte := 0x00#8

/-- PRE_SCALE. -/
def regPreScale : Byte := 0xFE#8

/-- ALL_LED_ON_L, the first of the four broadcast registers. -/
def regAllLed : Byte := 0xFA#8

/-- `ON_L(n) = 0x06 + 4n`, the first of the four registers of channel n (R42, `41_controller.md` R181). -/
def regLed (ch : Channel) : Byte := BitVec.ofNat 8 (6 + 4 * ch.val)

/-- MODE1 bit 7 (R43). -/
def bitRestart : Byte := 0x80#8

/-- MODE1 bit 5, register auto-increment (R43). -/
def bitAI : Byte := 0x20#8

/-- MODE1 bit 4 (R43). -/
def bitSleep : Byte := 0x10#8

/-- The power-on value of a register (R42, R80): what a register that `Memory` does not list holds. Reserved registers
store nothing. -/
def powerOn (r : Nat) : Byte :=
  if r = 0x00 then 0x11#8
  else if r = 0x01 then 0x04#8
  else if r = 0x02 then 0xE2#8
  else if r = 0x03 then 0xE4#8
  else if r = 0x04 then 0xE8#8
  else if r = 0x05 then 0xE0#8
  else if 0x06 ≤ r ∧ r ≤ 0x45 ∧ (r - 0x06) % 4 = 3 then 0x10#8
  else if r = 0xFE then 0x1E#8
  else 0x00#8

/-! ## A device's register space -/

/-- The byte register `r` holds. -/
def Memory.read : Memory → Nat → Byte
  | [], r => powerOn r
  | (k, v) :: m, r => if k = r then v else Memory.read m r

/-- List `v` at `r`, keeping the addresses rising. -/
def Memory.list (r : Nat) (v : Byte) : Memory → Memory
  | [] => [(r, v)]
  | (k, w) :: m =>
    if r < k then (r, v) :: (k, w) :: m
    else if k = r then (r, v) :: m
    else (k, w) :: Memory.list r v m

/-- Take register `r` off the list. -/
def Memory.unlist (r : Nat) : Memory → Memory
  | [] => []
  | (k, w) :: m => if k = r then m else (k, w) :: Memory.unlist r m

/-- Store `v` in register `r`; the value an unlisted register reads as takes the entry away. -/
def Memory.write (m : Memory) (r : Nat) (v : Byte) : Memory :=
  if v = powerOn r then Memory.unlist r m else Memory.list r v m

/-- The canonical form: addresses strictly rising, inside the register space, no entry at its power-on value. -/
abbrev Memory.wf (m : Memory) : Prop :=
  m.Pairwise (fun c d => c.1 < d.1) ∧ ∀ c ∈ m, c.1 < 256 ∧ c.2 ≠ powerOn c.1

/-- The register space whose registers from `r` up hold `vs`, every other one its power-on value. -/
def Memory.ofBytes (r : Nat) : List Byte → Memory
  | [] => []
  | v :: vs =>
    if r < 256 ∧ v ≠ powerOn r then (r, v) :: Memory.ofBytes (r + 1) vs else Memory.ofBytes (r + 1) vs

/-! ## One device -/

/-- The contents of `reg[r]` (R80). -/
def Device.reg (d : Device) (r : Byte) : Byte := d.mem.read r.toNat

/-- `reg[r] <- v`. -/
def Device.setReg (d : Device) (r v : Byte) : Device := { d with mem := d.mem.write r.toNat v }

/-- MODE1.AI is set (R82). -/
def Device.autoInc (d : Device) : Bool := d.reg regMode1 &&& bitAI != 0#8

/-- MODE1.SLEEP is set (R86). -/
def Device.asleep (d : Device) : Bool := d.reg regMode1 &&& bitSleep != 0#8

/-- `DevRead(r)` (R89). -/
def Device.devRead (d : Device) (r : Byte) : Byte :=
  if (0x46 ≤ r.toNat ∧ r.toNat ≤ 0xFD) ∨ r.toNat = 0xFF then 0x00#8 else d.reg r

/-- Register `0x06 + 4n + j` of every channel n takes `v` (R45, R87). -/
def Device.broadcast (d : Device) (j : Nat) (v : Byte) : Device :=
  (List.range 16).foldl (fun d n => d.setReg (BitVec.ofNat 8 (0x06 + 4 * n + j)) v) d

/-- `DevWrite(r, v)` (R84): broadcast (R87), PRE_SCALE only while asleep (R86), reserved registers keep nothing
(R88), any other register is plain storage (R85). -/
def Device.devWrite (d : Device) (r v : Byte) : Device :=
  if 0xFA ≤ r.toNat ∧ r.toNat ≤ 0xFD then d.broadcast (r.toNat - 0xFA) v
  else if r = regPreScale then (if d.asleep then d.setReg r v else d)
  else if (0x46 ≤ r.toNat ∧ r.toNat ≤ 0xF9) ∨ r.toNat = 0xFF then d
  else d.setReg r v

/-- The pointer moves on, modulo 256, when AI is set (R82, R83). -/
def Device.advance (d : Device) : Device := if d.autoInc then { d with ptr := d.ptr + 1#8 } else d

/-- One data byte of a write frame: stored at the pointer, then AI is tested (R82). -/
def Device.writeByte (d : Device) (v : Byte) : Device := (d.devWrite d.ptr v).advance

/-- A write frame's effect (R82). -/
def Device.writeFrame (d : Device) (p : Byte) (data : List Byte) : Device :=
  data.foldl Device.writeByte { d with ptr := p }

/-- A read frame's value (R83). -/
def Device.readValue (d : Device) : Byte := d.devRead d.ptr

/-- The device after a failed frame: a draw (R93). -/
def Device.draw (d : Device) (regs : List Byte) (ptr : Byte) : Device :=
  { d with mem := Memory.ofBytes 0 regs, ptr := ptr }

/-- A frame's effect on the device it is sent to, when the bus answers it (R82, R83). -/
def Device.accept (d : Device) : Frame → Device
  | .write _ reg data => d.writeFrame reg data
  | .read _ => d.advance
  | .delay _ => d

/-! ## The bus -/

/-- The device that answers address `a`, if any (R81). -/
def findDevice (devs : List Device) (a : Addr) : Option Device := devs.find? (fun d => d.addr == a)

/-- Only the device at `a` sees a frame sent to `a` (R81). -/
def updateDevice (devs : List Device) (a : Addr) (f : Device → Device) : List Device :=
  devs.map (fun d => if d.addr == a then f d else d)

/-- The address a frame is sent to; a `Delay` is sent to none. -/
def Frame.dest : Frame → Option Addr
  | .write a _ _ => some a
  | .read a => some a
  | .delay _ => none

/-- The answer of an oracle that lets the frame succeed with byte `v` (R96). -/
def Frame.success (v : Byte) : Frame → Answer
  | .write _ _ _ => .ack
  | .read _ => .data v
  | .delay _ => .elapsed

/-- One frame on the bus: its answer and the devices after it. The reference bus acknowledges every frame to a device
that exists and fails every other one (R81, R91); an oracle may answer anything (R96); a failed frame leaves its device
at a draw (R93). A `Delay` always completes (R72). -/
def transact (devs : List Device) (f : Frame) (r : Reply) : Answer × List Device :=
  match f.dest with
  | none => (.elapsed, devs)
  | some a =>
    match r with
    | .fail regs ptr => (.fail, updateDevice devs a (fun d => d.draw regs ptr))
    | .answer v => (f.success v, updateDevice devs a (fun d => d.accept f))
    | .reference =>
      match findDevice devs a with
      | none => (.fail, devs)
      | some d => (f.success d.readValue, updateDevice devs a (fun d => d.accept f))

/-- A frame of another agent reaches the devices like any frame (R102). -/
def ForeignFrame.apply (devs : List Device) (f : ForeignFrame) : List Device :=
  (transact devs f.frame f.reply).2

/-- What other agents put on the bus in one gap: whole groups, in order (R73, R102). -/
def applyForeign (devs : List Device) (gap : List (List ForeignFrame)) : List Device :=
  gap.foldl (fun devs g => g.foldl ForeignFrame.apply devs) devs

end Sys2Proof.Machine
end

