-- ==== Sys2Proof/Machine/Ops.lean ====
section
/-! DEFINITION. The shared operations of the commands: the running of a pseudocode body with its `raise` and
`respond` (`00_scope.md` R16, R17), writes of block fields, the bus primitives (`20_memory.md` R74 to R79), and the
two ends of a command. The block has no traps; ending a command with a status code stands in the place of taking an
exception (`60_exceptions.md` R306, R314). -/

namespace Sys2Proof.Machine

/-- A pseudocode body: it runs on the state, and either returns or raises a status. Either way the state written so
far stays (R17, R306). -/
abbrev Cmd (α : Type) := EStateM Status State α

/-- What a step of this machine answers. -/
abbrev Result := Host.Outcome State Fault Refusal

/-! ## Reads and writes of block fields -/

def Conn.idx : Conn → Fin 4
  | .c1 => 0
  | .c2 => 1
  | .c3 => 2
  | .c4 => 3

def State.bridge (s : State) (k : Conn) : Bridge := s.bridges[k.idx]

def State.setBridge (s : State) (k : Conn) (b : Bridge) : State := { s with bridges := s.bridges.set k.idx b }

def State.setBridgeDuty (s : State) (k : Conn) (d : Duty) : State := s.setBridge k { s.bridge k with duty := d }

def State.owner (s : State) (ch : Channel) : Owner := s.alloc[ch]

def State.setOwner (s : State) (ch : Channel) (o : Owner) : State := { s with alloc := s.alloc.set ch o }

def State.duty (s : State) (ch : Channel) : Duty := s.chDuty[ch]

def State.setDuty (s : State) (ch : Channel) (d : Duty) : State := { s with chDuty := s.chDuty.set ch d }

/-- `NSEQ`: the number of slots. -/
def State.nseq (s : State) : Nat := s.seqs.length

def State.seq (s : State) (i : Nat) : Seq := s.seqs.getD i Seq.reset

def State.setSeq (s : State) (i : Nat) (q : Seq) : State := { s with seqs := s.seqs.set i q }

/-- `Entry(ch)` (R212): under the global scope an entry another block owns counts as `other`. -/
def State.entry (s : State) (ch : Channel) : Entry :=
  if s.params.allocScope = .global ∧ s.heldElsewhere[ch] = true then .other
  else match s.owner ch with
    | .free => .free
    | .port => .port
    | .bridge k => .bridge k

/-! ## Raising and responding -/

/-- `if not ok: raise e`. -/
def check (ok : Bool) (e : Status) : Cmd Unit := if ok then pure () else throw e

/-- `if c: x`. -/
def onlyIf (c : Bool) (x : Cmd Unit) : Cmd Unit := if c then x else pure ()

/-- `x <- v` for a block field. -/
def update (f : State → State) : Cmd Unit := modify f

/-- The numeric code of a status (R300). -/
def Status.code : Status → Byte
  | .ok => 0#8
  | .configurationError => 1#8
  | .resourceConflict => 2#8
  | .transportError => 3#8
  | .illegalCommand => 4#8
  | .notReady => 5#8
  | .notConfigured => 6#8

/-- The response word: `STATUS = r[31:24]`, `r[23:16] = 0`, `DATA = r[15:0]` (`30_encoding.md` R113). -/
def responseWord (e : Status) (data : BitVec 16) : Word := place 24 e.code ||| place 0 data

/-- One response word goes to the host (R110). -/
def State.respond (s : State) (e : Status) (data : BitVec 16) : State :=
  { s with responses := s.responses ++ [responseWord e data] }

/-- THE END OF A COMMAND. `respond(data)` ends it with OK; a raised status ends it with that code and DATA = 0
(R113, R308), the state written before the raise staying (R306). Nothing else is saved, masked or transferred
(R314). -/
def endCommand : EStateM.Result Status State (BitVec 16) → Result
  | .ok data t => .next (t.respond .ok data)
  | .error e t => .next (t.respond e 0#16)

/-- The ready check (R302): it comes before a command's own checks. -/
def requireReady : Cmd Unit := do
  let s ← get
  check (s.phase == .ready) .notReady

/-- A command that is accepted in either phase; CTRL_INIT alone (R302). -/
def runCommand (body : Cmd (BitVec 16)) (s : State) : Result := endCommand (body s)

/-- Every other command: the ready check, then its pseudocode. -/
def runReady (body : Cmd (BitVec 16)) (s : State) : Result :=
  runCommand (do requireReady; body) s

/-! ## Groups and frames (R72, R73) -/

/-- The other agents' groups that fall in the next gap reach the devices (R73, R98, R102). -/
def State.interleave (s : State) : State :=
  { s with devices := applyForeign s.devices (s.traffic.headD []), traffic := s.traffic.tail }

/-- A new, still empty, group at the end of the trace. -/
def State.newGroup (s : State) : State := { s with trace := s.trace ++ [[]] }

/-- A frame with its answer at the end of the current group (R41). -/
def State.record (s : State) (e : BusEvent) : State :=
  { s with trace := s.trace.dropLast ++ [s.trace.getLastD [] ++ [e]] }

/-- The device at `a` enters a frequency change (R353). -/
def State.openChange (s : State) (a : Addr) : State :=
  { s with changing := if a ∈ s.changing then s.changing else s.changing ++ [a] }

/-- The device at `a` has left its frequency change (R353). -/
def State.closeChange (s : State) (a : Addr) : State := { s with changing := s.changing.filter (fun b => b != a) }

/-- A group begins: other agents' groups may have come before it, none comes inside it (R73). -/
def beginGroup : Cmd Unit := update (fun s => s.interleave.newGroup)

/-- The frame goes out, the bus's next reply answers it, and the trace holds both (R96, R101). -/
def State.send (s : State) (f : Frame) : Answer × State :=
  let r := transact s.devices f (s.replies.headD .reference)
  (r.1, State.record { s with devices := r.2, replies := s.replies.tail } { frame := f, answer := r.1 })

/-- `emit(f)`: the byte the bus returns (0 for a write, which returns none); `Fail` raises TRANSPORT_ERROR at once
(R79, R306). -/
def emit (f : Frame) : Cmd Byte := do
  let r := (← get).send f
  set r.2
  match r.1 with
  | .fail => throw .transportError
  | .data v => pure v
  | .ack | .elapsed => pure 0#8

/-- `emit(W(a, [reg, data…]))`. -/
def emitWrite (reg : Byte) (data : List Byte) : Cmd Unit := do
  let s ← get
  let _ ← emit (.write s.addr reg data)

/-- `emit(Rd(a))`. -/
def emitRead : Cmd Byte := do
  let s ← get
  emit (.read s.addr)

/-! ## Bus primitives (R74 to R79) -/

/-- R74. -/
def busWrite1 (reg v : Byte) : Cmd Unit := do
  beginGroup
  emitWrite reg [v]

/-- R75. -/
def busRead1 (reg : Byte) : Cmd Byte := do
  beginGroup
  emitWrite reg []
  emitRead

/-- R76: read MODE1, set AI if it is clear, then the burst, all in one group. -/
def busBurst (start : Byte) (bs : List Byte) : Cmd Unit := do
  beginGroup
  emitWrite regMode1 []
  let m ← emitRead
  onlyIf (m &&& bitAI == 0#8) (emitWrite regMode1 [m ||| bitAI])
  emitWrite start bs

/-- R77. What going out of the frame that sets the bits does to the machine's own record, whatever its answer, is `mark`
(R353). -/
def busSetBits (reg mask : Byte) (mark : State → State) : Cmd Unit := do
  beginGroup
  emitWrite reg []
  let m ← emitRead
  update mark
  emitWrite reg [m ||| mask]

/-- R78. -/
def busSetBitsIfClear (reg mask : Byte) : Cmd Unit := do
  beginGroup
  emitWrite reg []
  let m ← emitRead
  onlyIf (m &&& mask == 0#8) (emitWrite reg [m ||| mask])

/-- R79: a group of its own, no lock held. It takes no reply: a `Delay` is not answered by the bus. -/
def busDelay (us : Nat) : Cmd Unit := do
  beginGroup
  update (fun s => s.record { frame := .delay us, answer := .elapsed })

end Sys2Proof.Machine
end

