-- ==== Sys2Proof/Machine/Flags.lean ====
section
/-! DEFINITION. The derived flags: no flag is stored, each is a function of a stored duty (`10_state.md` R37,
`42_channel.md` R211). Duties are read as raw signed integers (`00_scope.md` R14). -/

namespace Sys2Proof.Machine

/-- The duty +1.0. -/
def dutyOne : Duty := BitVec.ofNat 16 Config.one

/-- A raw integer as an s16 duty. -/
def dutyOfInt (x : Int) : Duty := BitVec.ofInt 16 x

/-- `polarity`: `true` is Forward, `false` is Reverse; 0 is Forward (R37, `90_conflicts.md` C8). -/
def polarity (d : Duty) : Bool := decide (0 ≤ d.toInt)

/-- `power = abs(duty)`, as a mathematical integer (R37). -/
def power (d : Duty) : Nat := d.toInt.natAbs

/-- `power` as the duty of a power line; exact for a duty in [−ONE, ONE] (R234). -/
def magnitude (d : Duty) : Duty := BitVec.ofNat 16 (power d)

/-- A channel duty is in [0, ONE] (R204, R209). -/
def inUnit (d : Duty) : Bool := decide (0 ≤ d.toInt ∧ d.toInt ≤ Config.one)

/-- A bridge duty is in [−ONE, ONE] (R233). -/
def inSigned (d : Duty) : Bool := decide (-(Config.one : Int) ≤ d.toInt ∧ d.toInt ≤ Config.one)

/-- `LineState`: a stored channel duty read as a boolean line (R35, R211). -/
def lineState (d : Duty) : Bool := decide ((Config.one : Int) ≤ d.toInt)

/-- The duty a line write commits (R210). -/
def lineDuty (b : Bool) : Duty := if b then dutyOne else 0#16

/-- The state of a bridge as HBridgeState: polarity and power (R37). -/
def State.bridgeState (s : State) (k : Conn) : Bool × Nat := (polarity (s.bridge k).duty, power (s.bridge k).duty)

end Sys2Proof.Machine
end

