-- ==== Sys2Proof/Machine/Operands.lean ====
section
/-! DEFINITION. The operand forms: ID as a channel, a connector or a slot with its range check
(`60_exceptions.md` R303), the connector map (`00_scope.md` R12), the ownership checks of the port commands
(`42_channel.md` R202 to R208), and the direction (`30_encoding.md` R124). -/

namespace Sys2Proof.Machine

/-! ## Connectors -/

/-- Connector number k as an operand byte, 1 to 4 (R303). -/
def Conn.ofByte (id : Byte) : Option Conn :=
  if id = 1#8 then some .c1
  else if id = 2#8 then some .c2
  else if id = 3#8 then some .c3
  else if id = 4#8 then some .c4
  else none

/-- The number of a connector. -/
def Conn.number : Conn → Byte
  | .c1 => 1#8
  | .c2 => 2#8
  | .c3 => 3#8
  | .c4 => 4#8

/-- The channel of direction line IN1 (R12, `43_hbridge.md` R232). -/
def Conn.in1 : Conn → Channel
  | .c1 => 10
  | .c2 => 11
  | .c3 => 5
  | .c4 => 4

/-- The channel of direction line IN2. -/
def Conn.in2 : Conn → Channel
  | .c1 => 9
  | .c2 => 12
  | .c3 => 6
  | .c4 => 3

/-- The channel of the power line. -/
def Conn.pwm : Conn → Channel
  | .c1 => 8
  | .c2 => 13
  | .c3 => 7
  | .c4 => 2

/-- `CONN[k]`, in the order (IN1, IN2, PWM). -/
def Conn.channels (k : Conn) : List Channel := [k.in1, k.in2, k.pwm]

/-! ## Operand checks -/

/-- ID as a channel; `raise CONFIGURATION_ERROR` when ID > 15 (R303). -/
def channelOf (id : Byte) : Cmd Channel :=
  if h : id.toNat < 16 then pure ⟨id.toNat, h⟩ else throw .configurationError

/-- ID, BRA or BRB as a connector; `raise CONFIGURATION_ERROR` outside 1..4 (R303). -/
def connOf (id : Byte) : Cmd Conn :=
  match Conn.ofByte id with
  | some k => pure k
  | none => throw .configurationError

/-- ID as a connector whose bridge is configured: the two checks of HB_BRAKE, HB_RELEASE and HB_GET, in order
(`43_hbridge.md` R238, R240, R242). -/
def configuredBridge (id : Byte) : Cmd Conn := do
  let k ← connOf id
  let s ← get
  check (s.bridge k).cfg .notConfigured
  pure k

/-- ID as a sequencer slot; `raise CONFIGURATION_ERROR` when ID ≥ NSEQ (R303). -/
def slotOf (id : Byte) : Cmd Nat := do
  let s ← get
  check (decide (id.toNat < s.nseq)) .configurationError
  pure id.toNat

/-- The slot is configured; `raise NOT_CONFIGURED` otherwise. -/
def requireSeq (i : Nat) : Cmd Unit := do
  let s ← get
  check (s.seq i).cfg .notConfigured

/-- The channel is bound by the port: NOT_CONFIGURED when it is free, RESOURCE_CONFLICT when a bridge or another
block owns it (`42_channel.md` R202, R204, R206, R208). -/
def requirePort (ch : Channel) : Cmd Unit := do
  let s ← get
  check (s.entry ch != .free) .notConfigured
  check (s.entry ch == .port) .resourceConflict

/-- The channel is free; RESOURCE_CONFLICT otherwise (R200, R230). -/
def requireFree (ch : Channel) : Cmd Unit := do
  let s ← get
  check (s.entry ch == .free) .resourceConflict

/-! ## The direction -/

/-- The legal directions of SEQ_STEP (`44_sequencer.md` R271). -/
inductive Dir
  | hold
  | forward
  | backward
  deriving DecidableEq, Repr

/-- DIR as a 2-bit two's-complement number: `00` = 0, `01` = +1, `11` = −1; `10` is no direction (R124). -/
def Dir.ofBits (b : BitVec 2) : Option Dir :=
  if b = 0#2 then some .hold
  else if b = 1#2 then some .forward
  else if b = 3#2 then some .backward
  else none

/-- The direction; `raise CONFIGURATION_ERROR` for `10` (R270, R271). -/
def dirOf (b : BitVec 2) : Cmd Dir :=
  match Dir.ofBits b with
  | some d => pure d
  | none => throw .configurationError

end Sys2Proof.Machine
end

