-- ==== Sys2Proof/Machine/RegisterBus.lean ====
section
/-! DEFINITION. The register-bus commands (`40_register_bus.md`). -/

namespace Sys2Proof.Machine

/-- REG_WR (R150, R151). -/
def execRegWr (reg data : Byte) (s : State) : Result :=
  runReady (do
    busWrite1 reg data
    return 0#16) s

/-- REG_RD (R152, R153). -/
def execRegRd (reg : Byte) (s : State) : Result :=
  runReady (do
    let v ← busRead1 reg
    return v.setWidth 16) s

/-- REG_BURST (R154, R155). -/
def execRegBurst (reg : Byte) (data : List Byte) (s : State) : Result :=
  runReady (do
    busBurst reg data
    return 0#16) s

end Sys2Proof.Machine
end

