-- ==== Sys2Proof/Machine/Controller.lean ====
section
/-! DEFINITION. The controller's internal sequences and commands (`41_controller.md`). -/

namespace Sys2Proof.Machine

/-! ## Register patterns (R179) -/

/-- The FULL-ON override. -/
def fullOn : List Byte := [0x00#8, 0x10#8, 0x00#8, 0x00#8]

/-- The FULL-OFF override. -/
def fullOff : List Byte := [0x00#8, 0x00#8, 0x00#8, 0x10#8]

/-- `count[7:0]`. -/
def countLow (c : BitVec 12) : Byte := c.extractLsb' 0 8

/-- `zext_8(count[11:8])`. -/
def countHigh (c : BitVec 12) : Byte := (c.extractLsb' 8 4).setWidth 8

/-- `[onLow, onHigh, offLow, offHigh]` (`20_memory.md` R70). -/
def countBytes (on off : BitVec 12) : List Byte := [countLow on, countHigh on, countLow off, countHigh off]

/-- The off-count of a duty strictly between 0 and ONE: `floor(4096 × duty)`, bumped to 1 when it is 0 (R179). -/
def offCount (d : Duty) : Nat :=
  let off := 4096 * d.toInt.toNat / Config.one
  if off ≤ 0 then 0 + 1 else off

/-- `Pattern(d)` (R179). -/
def pattern (d : Duty) : List Byte :=
  if (Config.one : Int) ≤ d.toInt then fullOn
  else if d.toInt ≤ 0 then fullOff
  else countBytes 0#12 (BitVec.ofNat 12 (offCount d))

/-! ## Prescale (R171, R176) -/

/-- `OSC_HZ / 4096 / hz` as a fraction over the raw Q16.16 frequency: `400 000 000 / h` (R15, R176). -/
def prescaleNumerator : Nat := Config.oscHz * 65536 / 4096

/-- `Prescale(h)`; `none` is *invalid* (R171). -/
def prescale (h : Word) : Option Byte :=
  if h.toNat = 0 then none
  else
    let r := (2 * prescaleNumerator + h.toNat) / (2 * h.toNat)
    if r < Config.prescaleMin + 1 ∨ Config.prescaleMax + 1 < r then none
    else some (BitVec.ofNat 8 (r - 1))

/-- `p <- Prescale(HZ); if p is invalid: raise CONFIGURATION_ERROR`. -/
def prescaleOf (h : Word) : Cmd Byte :=
  match prescale h with
  | some p => pure p
  | none => throw .configurationError

/-! ## Internal sequences -/

/-- `ResetSeq()` (R170, R175). A frequency change of the device ends with the ALL_LED burst
(`70_reset_and_hazards.md` R353). -/
def resetSeq : Cmd Unit := do
  busWrite1 regMode1 0x00#8
  busDelay Config.tOscMinUs
  busBurst regAllLed fullOff
  update (fun s => s.closeChange s.addr)
  busSetBitsIfClear regMode1 bitRestart

/-- `FreqSeq(p)` (R172, R178). The frame that sets SLEEP begins a frequency change of the device
(`70_reset_and_hazards.md` R353). -/
def freqSeq (p : Byte) : Cmd Unit := do
  busSetBits regMode1 bitSleep (fun s => s.openChange s.addr)
  busWrite1 regPreScale p
  resetSeq

/-! ## Commands -/

/-- CTRL_INIT (R173), the one command of the UNINIT phase (`60_exceptions.md` R302). -/
def execCtrlInit (addr : Addr) (hz : Word) (s : State) : Result :=
  runCommand (do
    let s ← get
    check (s.phase != .ready) .configurationError
    check (!s.peers.contains addr) .configurationError
    let p ← prescaleOf hz
    update (fun s => { s with addr := addr })
    resetSeq
    freqSeq p
    update (fun s => { s with phase := .ready })
    return 0#16) s

/-- CTRL_RESET (R174). -/
def execCtrlReset (s : State) : Result :=
  runReady (do
    resetSeq
    return 0#16) s

/-- CTRL_FREQ (R177). -/
def execCtrlFreq (hz : Word) (s : State) : Result :=
  runReady (do
    let p ← prescaleOf hz
    freqSeq p
    return 0#16) s

/-- CTRL_DUTY (R180, R181). -/
def execCtrlDuty (id : Byte) (duty : Duty) (s : State) : Result :=
  runReady (do
    let ch ← channelOf id
    busBurst (regLed ch) (pattern duty)
    return 0#16) s

end Sys2Proof.Machine
end

