-- ==== Sys2Proof/Machine/Channel.lean ====
section
/-! DEFINITION. The channel and boolean-line operations and commands (`42_channel.md`). -/

namespace Sys2Proof.Machine

/-- `SetDuty(ch, d)` (R209): the duty is stored before the bus write. -/
def setDuty (ch : Channel) (d : Duty) : Cmd Unit := do
  check (inUnit d) .configurationError
  update (fun s => s.setDuty ch d)
  busBurst (regLed ch) (pattern d)

/-- `SetLine(ch, b)` (R210). -/
def setLine (ch : Channel) (b : Bool) : Cmd Unit := setDuty ch (lineDuty b)

/-- CH_BIND (R200). -/
def execChBind (id : Byte) (s : State) : Result :=
  runReady (do
    let ch ← channelOf id
    requireFree ch
    update (fun s => (s.setOwner ch .port).setDuty ch 0#16)
    return 0#16) s

/-- CH_RELEASE (R202, R203). -/
def execChRelease (id : Byte) (s : State) : Result :=
  runReady (do
    let ch ← channelOf id
    requirePort ch
    update (fun s => s.setOwner ch .free)
    return 0#16) s

/-- CH_DUTY (R204, R205). -/
def execChDuty (id : Byte) (duty : Duty) (s : State) : Result :=
  runReady (do
    let ch ← channelOf id
    check (inUnit duty) .configurationError
    requirePort ch
    setDuty ch duty
    return 0#16) s

/-- LINE_SET (R206). -/
def execLineSet (id : Byte) (b : Bool) (s : State) : Result :=
  runReady (do
    let ch ← channelOf id
    requirePort ch
    setLine ch b
    return 0#16) s

/-- LINE_GET (R208). -/
def execLineGet (id : Byte) (s : State) : Result :=
  runReady (do
    let ch ← channelOf id
    requirePort ch
    let s ← get
    return (if lineState (s.duty ch) then 1#16 else 0#16)) s

end Sys2Proof.Machine
end

