-- ==== Sys2Proof/Machine/HBridge.lean ====
section
/-! DEFINITION. The H-bridge: the direction-reversal sequence BridgeSet and the commands (`43_hbridge.md`). -/

namespace Sys2Proof.Machine

/-- Step 3 of BridgeSet: the line of the other direction goes low first, then this direction's goes high, so that the
two are never high together (R234). -/
def setDirection (k : Conn) (forward : Bool) : Cmd Unit := do
  if forward then
    setLine k.in2 false
    setLine k.in1 true
  else
    setLine k.in1 false
    setLine k.in2 true

/-- `BridgeSet(k, d)`, d in [−ONE, ONE] (R234, R235): the polarity stored before the call decides whether the power
line is forced to 0 first. -/
def bridgeSet (k : Conn) (d : Duty) : Cmd Unit := do
  let s ← get
  let oldPol := polarity (s.bridge k).duty
  update (fun s => s.setBridgeDuty k d)
  let newPol := polarity d
  onlyIf (newPol != oldPol) (setDuty k.pwm 0#16)
  setDirection k newPol
  setDuty k.pwm (magnitude d)

/-- HB_CONFIG binds its three channels to bridge k, each at duty 0, and configures the bridge at duty 0 (R230). -/
def State.bindBridge (s : State) (k : Conn) : State :=
  (k.channels.foldl (fun s c => (s.setOwner c (.bridge k)).setDuty c 0#16) s).setBridge k { cfg := true, duty := 0#16 }

/-- HB_CONFIG (R230, R231): all three channels are checked before any is bound. -/
def execHbConfig (id : Byte) (s : State) : Result :=
  runReady (do
    let k ← connOf id
    let s ← get
    check (!(s.bridge k).cfg) .configurationError
    requireFree k.in1
    requireFree k.in2
    requireFree k.pwm
    update (fun s => s.bindBridge k)
    return 0#16) s

/-- HB_SET (R233). -/
def execHbSet (id : Byte) (duty : Duty) (s : State) : Result :=
  runReady (do
    let k ← connOf id
    check (inSigned duty) .configurationError
    let s ← get
    check (s.bridge k).cfg .notConfigured
    bridgeSet k duty
    return 0#16) s

/-- HB_BRAKE (R238). -/
def execHbBrake (id : Byte) (s : State) : Result :=
  runReady (do
    let k ← configuredBridge id
    setLine k.in1 true
    setLine k.in2 true
    return 0#16) s

/-- HB_RELEASE (R240). -/
def execHbRelease (id : Byte) (s : State) : Result :=
  runReady (do
    let k ← configuredBridge id
    setDuty k.pwm 0#16
    setLine k.in1 false
    setLine k.in2 false
    return 0#16) s

/-- HB_GET (R242). -/
def execHbGet (id : Byte) (s : State) : Result :=
  runReady (do
    let k ← configuredBridge id
    let s ← get
    return (s.bridge k).duty) s

end Sys2Proof.Machine
end

