-- ==== Sys2Proof/Machine/Tables.lean ====
section
/-! DEFINITION. The step tables of the sequencer (`44_sequencer.md` R260 to R265), computed on demand
(`10_state.md` R39), and the index advance (R269). -/

namespace Sys2Proof.Machine

/-- `ValidN(n)` (R261). -/
def validN (n : Nat) : Bool := n == 4 || n == 8 || decide (8 < n)

/-! ## The fixed tables -/

/-- +1, 0 or −1 as a duty. -/
def unitDuty (x : Int) : Duty := dutyOfInt (x * Config.one)

/-- R262, in phase. -/
def wholeT1 : List Int := [1, -1, -1, 1]

/-- R262, out of phase. -/
def wholeT2 : List Int := [1, 1, -1, -1]

/-- R263, in phase. -/
def halfT1 : List Int := [1, 1, 0, -1, -1, -1, 0, 1]

/-- R263, out of phase. -/
def halfT2 : List Int := [0, 1, 1, 1, 0, -1, -1, -1]

/-! ## The generated tables (R264)

`Q(cos θ)` and `Q(sin θ)` by exact integer arithmetic. The angle 2π·i/D is reduced to the first octant exactly; there
cos and sin are Taylor polynomials of exact fractions, the only approximate constant being π/2. Their error is far below
the distance of any entry from a rounding boundary (log entry 10). -/

/-- π/2 · 2^128, rounded down. -/
def halfPi : Nat := 534514292032483373929840186580935391650

/-- The denominator of `halfPi`. -/
def halfPiDen : Nat := 2 ^ 128

/-- `1 − x²/((j+1)(j+2)) · (1 − x²/((j+3)(j+4)) · (… ))` with `levels` factors, as a numerator and a denominator, for
`x² = a2/b2`: with j = 0 it is the Taylor polynomial of cos x, with j = 1 that of sin x / x. -/
def nestedSeries (a2 b2 : Nat) : Nat → Nat → Nat × Nat
  | 0, _ => (1, 1)
  | levels + 1, j =>
    let r := nestedSeries a2 b2 levels (j + 2)
    let q := (j + 1) * (j + 2) * b2
    (r.2 * q - a2 * r.1, r.2 * q)

/-- The integer nearest to `ONE · num / den`, at most ONE. -/
def nearestDuty (num den : Nat) : Nat := min Config.one ((2 * Config.one * num + den) / (2 * den))

/-- `(Q(cos φ), Q(sin φ))` for φ = (π/2)·r/D in the first octant. -/
def octantCosSin (r D : Nat) : Nat × Nat :=
  let a := halfPi * r
  let b := halfPiDen * D
  let c := nestedSeries (a * a) (b * b) 14 0
  let s := nestedSeries (a * a) (b * b) 14 1
  (nearestDuty c.1 c.2, nearestDuty (a * s.1) (b * s.2))

/-- `(Q(cos φ), Q(sin φ))` for φ = (π/2)·r/D in the first quadrant. -/
def quadrantCosSin (r D : Nat) : Nat × Nat :=
  if 2 * r ≤ D then octantCosSin r D else ((octantCosSin (D - r) D).2, (octantCosSin (D - r) D).1)

/-- `(Q(cos θ), Q(sin θ))` for θ = 2π·i/D. -/
def circleCosSin (i D : Nat) : Int × Int :=
  let p := quadrantCosSin (4 * i % D) D
  let c : Int := p.1
  let s : Int := p.2
  match 4 * i / D % 4 with
  | 0 => (c, s)
  | 1 => (-s, c)
  | 2 => (-c, -s)
  | _ => (s, -c)

/-- `TRIG_DIVISOR(n)`. -/
def trigDivisorOf (t : TrigDivisor) (n : Nat) : Nat :=
  match t with
  | .nMinusOne => n - 1
  | .n => n

/-- `TRIG_Q(n, i)`: the quantised (cos, sin) pair of entry i. -/
def trigPair (p : Params) (n i : Nat) : Duty × Duty :=
  let q := circleCosSin i (trigDivisorOf p.trigDivisor n)
  let computed := (dutyOfInt q.1, dutyOfInt q.2)
  match p.trigQ with
  | .rne => computed
  | .table es =>
    match es.find? (fun e => e.n == n && e.i == i) with
    | some e => (e.cos, e.sin)
    | none => computed

/-! ## The tables by size -/

/-- `T1(n, i)`, written to phase 1 (R260, R261). -/
def stepT1 (p : Params) (n i : Nat) : Duty :=
  if n = 4 then unitDuty (wholeT1.getD i 0)
  else if n = 8 then unitDuty (halfT1.getD i 0)
  else (trigPair p n i).1

/-- `T2(n, i)`, written to phase 2 (R260, R261). -/
def stepT2 (p : Params) (n i : Nat) : Duty :=
  if n = 4 then unitDuty (wholeT2.getD i 0)
  else if n = 8 then unitDuty (halfT2.getD i 0)
  else (trigPair p n i).2

/-- `Advance(idx, n, dir)` (R269). -/
def advanceIdx (idx n : Nat) : Dir → Nat
  | .forward => (idx + 1) % n
  | .backward => (idx + n - 1) % n
  | .hold => idx

end Sys2Proof.Machine
end

