-- ==== Sys2Proof/Machine/Sequencer.lean ====
section
/-! DEFINITION. The sequencer commands (`44_sequencer.md`). -/

namespace Sys2Proof.Machine

/-- SEQ_CONFIG (R266, R268). -/
def execSeqConfig (id bra brb : Byte) (nsteps : BitVec 16) (s : State) : Result :=
  runReady (do
    let i ← slotOf id
    let ka ← connOf bra
    let kb ← connOf brb
    check (ka != kb) .configurationError
    check (validN nsteps.toNat) .configurationError
    let s ← get
    check (!(s.seq i).cfg) .configurationError
    check ((s.bridge ka).cfg && (s.bridge kb).cfg) .notConfigured
    update (fun s => s.setSeq i { cfg := true, ph1 := ka, ph2 := kb, n := nsteps, idx := 0#16 })
    return 0#16) s

/-- `seq[i].idx <- Advance(idx, n, dir)` (R269). -/
def Seq.advance (q : Seq) (d : Dir) : Seq :=
  { q with idx := BitVec.ofNat 16 (advanceIdx q.idx.toNat q.n.toNat d) }

/-- SEQ_STEP (R270, R272, R273): the index advances first, then phase 1 is written, then phase 2. -/
def execSeqStep (id : Byte) (dir : BitVec 2) (s : State) : Result :=
  runReady (do
    let i ← slotOf id
    let d ← dirOf dir
    requireSeq i
    update (fun s => s.setSeq i ((s.seq i).advance d))
    let s ← get
    let q := s.seq i
    bridgeSet q.ph1 (stepT1 s.params q.n.toNat q.idx.toNat)
    bridgeSet q.ph2 (stepT2 s.params q.n.toNat q.idx.toNat)
    return 0#16) s

/-- SEQ_RELEASE (R275, R276): both phases to zero power through BridgeSet; the index is kept. -/
def execSeqRelease (id : Byte) (s : State) : Result :=
  runReady (do
    let i ← slotOf id
    requireSeq i
    let s ← get
    let q := s.seq i
    bridgeSet q.ph1 0#16
    bridgeSet q.ph2 0#16
    return 0#16) s

/-- SEQ_GET (R277). -/
def execSeqGet (id : Byte) (s : State) : Result :=
  runReady (do
    let i ← slotOf id
    requireSeq i
    let s ← get
    return (s.seq i).idx) s

end Sys2Proof.Machine
end

