-- ==== Sys2Proof/Machine/Dispatch.lean ====
section
/-! DEFINITION. One arm for each command. -/

namespace Sys2Proof.Machine

def exec (i : Instr) (s : State) : Host.Outcome State Fault Refusal :=
  match i with
  -- register bus
  | .regWr reg data => Sys2Proof.Machine.execRegWr reg data s
  | .regRd reg => Sys2Proof.Machine.execRegRd reg s
  | .regBurst reg data => Sys2Proof.Machine.execRegBurst reg data s
  -- controller
  | .ctrlInit addr hz => Sys2Proof.Machine.execCtrlInit addr hz s
  | .ctrlReset => Sys2Proof.Machine.execCtrlReset s
  | .ctrlFreq hz => Sys2Proof.Machine.execCtrlFreq hz s
  | .ctrlDuty id duty => Sys2Proof.Machine.execCtrlDuty id duty s
  -- channels and lines
  | .chBind id => Sys2Proof.Machine.execChBind id s
  | .chRelease id => Sys2Proof.Machine.execChRelease id s
  | .chDuty id duty => Sys2Proof.Machine.execChDuty id duty s
  | .lineSet id b => Sys2Proof.Machine.execLineSet id b s
  | .lineGet id => Sys2Proof.Machine.execLineGet id s
  -- H-bridges
  | .hbConfig id => Sys2Proof.Machine.execHbConfig id s
  | .hbSet id duty => Sys2Proof.Machine.execHbSet id duty s
  | .hbBrake id => Sys2Proof.Machine.execHbBrake id s
  | .hbRelease id => Sys2Proof.Machine.execHbRelease id s
  | .hbGet id => Sys2Proof.Machine.execHbGet id s
  -- sequencers
  | .seqConfig id bra brb nsteps => Sys2Proof.Machine.execSeqConfig id bra brb nsteps s
  | .seqStep id dir => Sys2Proof.Machine.execSeqStep id dir s
  | .seqRelease id => Sys2Proof.Machine.execSeqRelease id s
  | .seqGet id => Sys2Proof.Machine.execSeqGet id s

end Sys2Proof.Machine
end

