-- ==== Sys2Proof/Machine/Output.lean ====
section
/-! DEFINITION. What the device's channels show (`10_state.md` R49, `20_memory.md` R92): a view of the registers, read
by no command. -/

namespace Sys2Proof.Machine

/-- Register `j` of channel `ch`, j = 0..3: ON_L, ON_H, OFF_L, OFF_H (R44). -/
def Device.ledReg (d : Device) (ch : Channel) (j : Nat) : Byte := d.reg (regLed ch + BitVec.ofNat 8 j)

/-- `on = {ON_H[3:0], ON_L[7:0]}` (R44). -/
def Device.onCount (d : Device) (ch : Channel) : BitVec 12 :=
  (d.ledReg ch 1).extractLsb' 0 4 ++ d.ledReg ch 0

/-- `off = {OFF_H[3:0], OFF_L[7:0]}` (R44). -/
def Device.offCount (d : Device) (ch : Channel) : BitVec 12 :=
  (d.ledReg ch 3).extractLsb' 0 4 ++ d.ledReg ch 2

/-- The override bit, bit 4 of ON_H and of OFF_H (R44). -/
def bitFull : Byte := 0x10#8

/-- The channel output view (R49): full-off wins over full-on, otherwise a PWM wave. -/
def Device.channelOutput (d : Device) (ch : Channel) : Output :=
  if d.ledReg ch 3 &&& bitFull != 0#8 then .low
  else if d.ledReg ch 1 &&& bitFull != 0#8 then .high
  else .pwm (d.onCount ch) (d.offCount ch)

/-- A sleeping device shows nothing: its oscillator and all PWM outputs are stopped (`60_exceptions.md` R321). -/
def Device.output (d : Device) (ch : Channel) : Output := if d.asleep then .stopped else d.channelOutput ch

/-- The PWM period in periods of the 25 MHz oscillator: `(PRE_SCALE + 1) × 4096` (R46, R176, R364). -/
def Device.pwmPeriod (d : Device) : Nat := ((d.reg regPreScale).toNat + 1) * 4096

/-- What channel `ch` of the device at address `a` shows between two commands, `none` where there is no device: *any
value* while a frequency change is under way there (`70_reset_and_hazards.md` R353), else what the registers say (R92).
The view is of a bus address and no part of the block's record: before CTRL_INIT the block has no device (R30, R302), and
`ctrl.addr` is not read here (log entry 21). -/
def State.output (s : State) (a : Addr) (ch : Channel) : Option Output :=
  (findDevice s.devices a).map (fun d =>
    if a ∈ s.changing then Config.freeOutput s.responses.length s.events.length a ch else d.output ch)

/-- The direction lines and the power line of bridge k as the device shows them: the triple (IN1, IN2, P) of
`43_hbridge.md` R243, each line by its output. -/
def Device.bridgeTriple (d : Device) (k : Conn) : Output × Output × Output :=
  (d.channelOutput k.in1, d.channelOutput k.in2, d.channelOutput k.pwm)

/-- The named device states of a bridge (R243), read from its two direction lines. -/
inductive BridgeShape
  | forward
  | reverse
  | free
  | brake
  /-- A direction line that is neither constantly high nor constantly low. -/
  | mixed
  deriving DecidableEq, Repr

/-- FORWARD = (1,0,·), REVERSE = (0,1,·), FREE = (0,0,·), BRAKE = (1,1,·) (R49, R243). -/
def Device.shape (d : Device) (k : Conn) : BridgeShape :=
  match d.channelOutput k.in1, d.channelOutput k.in2 with
  | .high, .low => .forward
  | .low, .high => .reverse
  | .low, .low => .free
  | .high, .high => .brake
  | _, _ => .mixed

end Sys2Proof.Machine
end

