-- ==== Sys2Proof/Machine/Port.lean ====
section
/-! DEFINITION. The command port and the events of the outside world (`30_encoding.md` R110,
`60_exceptions.md` R301, R319, R322, `70_reset_and_hazards.md` R340). -/

namespace Sys2Proof.Machine

/-- The command at the port (R110). -/
def State.fetch (s : State) : Decoded := decode s.inbox

/-- The words of the command at the port have been taken; `rest` follows them (R110). -/
def State.consume (s : State) (rest : List Word) : State := { s with inbox := rest }

/-- An illegal command: consumed with its length, answered ILLEGAL_COMMAND, with no other effect (R126, R301). -/
def State.refuseIllegal (s : State) (rest : List Word) : State := (s.consume rest).respond .illegalCommand 0#16

/-- Block reset (R340): every block field takes its reset value, nothing goes out on the bus, and the device is not
touched; a frequency change that has begun at a device goes on there. Words of a command that has not arrived whole are
lost. -/
def State.blockReset (s : State) : State :=
  { s with
    phase := State.reset.phase
    addr := State.reset.addr
    alloc := State.reset.alloc
    chDuty := State.reset.chDuty
    bridges := State.reset.bridges
    seqs := s.seqs.map (fun _ => Seq.reset)
    trace := []
    inbox := [] }

/-- Another block takes the channels `chs`, all or none (R105, R212); it can only take free ones. Under the
per-controller scope its allocation set is its own. -/
def State.peerBind (s : State) (chs : List Channel) : State :=
  if s.params.allocScope = .global ∧ chs.all (fun c => s.entry c == .free) then
    { s with heldElsewhere := chs.foldl (fun v (c : Channel) => v.set c.val true c.isLt) s.heldElsewhere }
  else s

/-- Another block gives up channels. -/
def State.peerRelease (s : State) (chs : List Channel) : State :=
  { s with heldElsewhere := chs.foldl (fun v (c : Channel) => v.set c.val false c.isLt) s.heldElsewhere }

/-- Another block becomes READY at `a`; its CTRL_INIT is refused at an address a READY block holds (R173). -/
def State.peerReady (s : State) (a : Addr) : State :=
  if s.peers.contains a || (s.phase == .ready && s.addr == a) then s else { s with peers := s.peers ++ [a] }

/-- Another block enters or leaves a frequency change of the device at `a` (R353). No other block is READY at the address
of a READY block (R173), so that device it cannot change. -/
def State.peerChange (s : State) (a : Addr) (on : Bool) : State :=
  if s.phase == .ready && s.addr == a then s else if on then s.openChange a else s.closeChange a

/-- A group of another agent reaches the devices between two commands of this block (`20_memory.md` R102). -/
def State.foreignGroup (s : State) (g : List ForeignFrame) : State := { s with devices := applyForeign s.devices [g] }

/-- One event of the outside world, which falls between two commands (R322). DESIGN CHOICE (log entry 22): `peerDown` alone
leaves the other block's entries of a shared allocation set as they were, since neither R212 nor R340 says what the reset of
another block does to them; a `peerRelease` event gives them up. -/
def State.hostEvent (s : State) : HostEvent → State
  | .word w => { s with inbox := s.inbox ++ [w] }
  | .blockReset => s.blockReset
  | .peerReady a => s.peerReady a
  | .peerDown a => { s with peers := s.peers.filter (fun b => b != a) }
  | .peerBind chs => s.peerBind chs
  | .peerRelease chs => s.peerRelease chs
  | .peerChange a on => s.peerChange a on
  | .foreign g => s.foreignGroup g

/-- No whole command has arrived: the block waits, and the next event of the outside world, if there is one, happens
(R110, R340). -/
def State.idle (s : State) : State :=
  match s.events with
  | [] => s
  | e :: es => State.hostEvent { s with events := es } e

end Sys2Proof.Machine
end

