-- ==== Sys2Proof/Machine/Step.lean ====
section
/-! DEFINITION. One step: a whole command when one has arrived, otherwise one event of the outside world
(`30_encoding.md` R110, `60_exceptions.md` R301, R319). -/

namespace Sys2Proof.Machine

/-- The step. A legal command runs to its end; an illegal one is answered; without a whole command the block waits. -/
def step (s : State) : Host.Outcome State Fault Refusal :=
  match s.fetch with
  | .command i rest => exec i (s.consume rest)
  | .illegal _ rest => .next (s.refuseIllegal rest)
  | .incomplete => .next s.idle

/-- `s` with the words of one opcode-table instruction at the command port, so that the next step runs it. -/
def State.withFetchWord (s : State) (nbits w : Nat) : State := { s with inbox := tableWords nbits w }

end Sys2Proof.Machine
end

