-- ==== Sys2Proof/Machine/Assembler.lean ====
section
/-! DEFINITION. The assembler of DRV-CMD v1 (`30_encoding.md` R128, R129): one line of text to one command. It refuses a
literal that is not exactly representable and never rounds. -/

namespace Sys2Proof

/-- A number as written: decimal with `places` digits after the point (`num / 10^places`), or raw after `#`. -/
inductive Literal
  | number (num : Int) (places : Nat)
  | raw (n : Int)
  deriving DecidableEq, Repr

/-! ## Text -/

/-- The value of a digit in base 16 or 10. -/
def digitValue (c : Char) : Option Nat :=
  if '0' ≤ c ∧ c ≤ '9' then some (c.toNat - '0'.toNat)
  else if 'a' ≤ c ∧ c ≤ 'f' then some (c.toNat - 'a'.toNat + 10)
  else if 'A' ≤ c ∧ c ≤ 'F' then some (c.toNat - 'A'.toNat + 10)
  else none

/-- Digits of a base as a number, continuing from `acc`; at least the characters given, all of them digits. -/
def digits (base acc : Nat) : List Char → Option Nat
  | [] => some acc
  | c :: cs =>
    match digitValue c with
    | some d => if d < base then digits base (base * acc + d) cs else none
    | none => none

/-- A non-empty run of digits. -/
def natOf (base : Nat) (cs : List Char) : Option Nat := if cs.isEmpty then none else digits base 0 cs

/-- An unsigned number: `0x` hexadecimal, decimal, or decimal with a fraction. -/
def unsignedLiteral (cs : List Char) : Option (Nat × Nat) :=
  match cs with
  | '0' :: 'x' :: hs => (natOf 16 hs).map (fun n => (n, 0))
  | _ =>
    let whole := cs.takeWhile (fun c => c != '.')
    let after := (cs.dropWhile (fun c => c != '.')).drop 1
    if cs.contains '.' then
      match natOf 10 whole, natOf 10 after with
      | some _, some _ => (digits 10 0 (whole ++ after)).map (fun n => (n, after.length))
      | _, _ => none
    else (natOf 10 whole).map (fun n => (n, 0))

/-- A number with an optional sign. -/
def signedLiteral (cs : List Char) : Option (Int × Nat) :=
  match cs with
  | '-' :: rest => (unsignedLiteral rest).map (fun p => (-(p.1 : Int), p.2))
  | '+' :: rest => (unsignedLiteral rest).map (fun p => ((p.1 : Int), p.2))
  | _ => (unsignedLiteral cs).map (fun p => ((p.1 : Int), p.2))

/-- An operand's literal; `#` introduces a raw value. -/
def literalOf (cs : List Char) : Option Literal :=
  match cs with
  | '#' :: rest => (signedLiteral rest).bind (fun p => if p.2 = 0 then some (.raw p.1) else none)
  | _ => (signedLiteral cs).map (fun p => .number p.1 p.2)

/-- The operands of a line, split at the commas, spaces dropped. -/
def splitOperands (cs : List Char) : List (List Char) :=
  let cs := cs.filter (fun c => c != ' ')
  if cs.isEmpty then [] else (cs.splitOn ',')

/-! ## Operands -/

/-- An integer operand of `bits` bits, unsigned. -/
def Literal.unsigned (bits : Nat) : Literal → Option (BitVec bits)
  | .number n 0 => if 0 ≤ n ∧ n < 2 ^ bits then some (BitVec.ofInt bits n) else none
  | .number _ _ => none
  | .raw _ => none

/-- A fixed-point value `num / 10^places` scaled by `scale`, when the result is an integer. -/
def scaled (scale : Nat) (num : Int) (places : Nat) : Option Int :=
  if num * scale % (10 ^ places : Nat) = 0 then some (num * scale / (10 ^ places : Nat)) else none

/-- A DUTY operand: an exact multiple of 2^−14 in [−2, 2 − 2^−14], or `#` and the raw s16 (a signed value, or its
bit pattern). -/
def Literal.duty : Literal → Option Duty
  | .number n p => (scaled 16384 n p).bind (fun v => if -32768 ≤ v ∧ v ≤ 32767 then some (BitVec.ofInt 16 v) else none)
  | .raw v => if -32768 ≤ v ∧ v < 65536 then some (BitVec.ofInt 16 v) else none

/-- An HZ operand: an exact multiple of 2^−16 in [0, 65536 − 2^−16], or `#` and the raw u32. -/
def Literal.hz : Literal → Option Word
  | .number n p => (scaled 65536 n p).bind (fun v => if 0 ≤ v ∧ v < 2 ^ 32 then some (BitVec.ofInt 32 v) else none)
  | .raw v => if 0 ≤ v ∧ v < 2 ^ 32 then some (BitVec.ofInt 32 v) else none

/-- A DIR operand: +1, 0 or −1. -/
def Literal.dir : Literal → Option (BitVec 2)
  | .number n 0 => if n = 0 then some 0#2 else if n = 1 then some 1#2 else if n = -1 then some 3#2 else none
  | _ => none

/-- A list of bytes. -/
def bytesOf (ls : List Literal) : Option (List Byte) := ls.mapM (Literal.unsigned 8)

/-! ## Lines -/

/-- The pseudo-instructions with their expansions (R129). -/
def assemblePseudo (mnemonic : String) (ops : List Literal) : Option Instr :=
  match mnemonic, ops with
  | "seq.fwd", [s] => (s.unsigned 8).map (fun s => .seqStep s 1#2)
  | "seq.back", [s] => (s.unsigned 8).map (fun s => .seqStep s 3#2)
  | "seq.hold", [s] => (s.unsigned 8).map (fun s => .seqStep s 0#2)
  | "line.on", [ch] => (ch.unsigned 8).map (fun ch => .lineSet ch true)
  | "line.off", [ch] => (ch.unsigned 8).map (fun ch => .lineSet ch false)
  | "hb.zero", [k] => (k.unsigned 8).map (fun k => .hbSet k 0#16)
  | "ctrl.init.default", [hz] => hz.hz.map (fun hz => .ctrlInit 0x60#7 hz)
  | _, _ => none

/-- The commands whose operands are all identifiers (R128). -/
def assembleIds (mnemonic : String) (ops : List Literal) : Option Instr :=
  match mnemonic, ops with
  | "reg.wr", [reg, data] => do return .regWr (← reg.unsigned 8) (← data.unsigned 8)
  | "reg.rd", [reg] => do return .regRd (← reg.unsigned 8)
  | "reg.burst", reg :: data => do
    let bs ← bytesOf data
    if 1 ≤ bs.length ∧ bs.length ≤ 4 then return .regBurst (← reg.unsigned 8) bs else none
  | "ctrl.reset", [] => some .ctrlReset
  | "ch.bind", [ch] => do return .chBind (← ch.unsigned 8)
  | "ch.release", [ch] => do return .chRelease (← ch.unsigned 8)
  | "line.get", [ch] => do return .lineGet (← ch.unsigned 8)
  | "hb.config", [k] => do return .hbConfig (← k.unsigned 8)
  | "hb.brake", [k] => do return .hbBrake (← k.unsigned 8)
  | "hb.release", [k] => do return .hbRelease (← k.unsigned 8)
  | "hb.get", [k] => do return .hbGet (← k.unsigned 8)
  | "seq.release", [s] => do return .seqRelease (← s.unsigned 8)
  | "seq.get", [s] => do return .seqGet (← s.unsigned 8)
  | _, _ => none

/-- The commands with a duty, a frequency, a boolean, a direction or a table size (R128). -/
def assembleTyped (mnemonic : String) (ops : List Literal) : Option Instr :=
  match mnemonic, ops with
  | "ctrl.init", [addr, hz] => do return .ctrlInit (← addr.unsigned 7) (← hz.hz)
  | "ctrl.freq", [hz] => do return .ctrlFreq (← hz.hz)
  | "ctrl.duty", [ch, d] => do return .ctrlDuty (← ch.unsigned 8) (← d.duty)
  | "ch.duty", [ch, d] => do return .chDuty (← ch.unsigned 8) (← d.duty)
  | "line.set", [ch, b] => do return .lineSet (← ch.unsigned 8) ((← b.unsigned 1) == 1#1)
  | "hb.set", [k, d] => do return .hbSet (← k.unsigned 8) (← d.duty)
  | "seq.config", [s, ka, kb, n] => do
    return .seqConfig (← s.unsigned 8) (← ka.unsigned 8) (← kb.unsigned 8) (← n.unsigned 16)
  | "seq.step", [s, d] => do return .seqStep (← s.unsigned 8) (← d.dir)
  | _, _ => none

/-- One command of assembly text, given its mnemonic and its operands. -/
def assembleCommand (mnemonic : String) (ops : List Literal) : Option Instr :=
  (assembleIds mnemonic ops).orElse fun _ =>
    (assembleTyped mnemonic ops).orElse fun _ => assemblePseudo mnemonic ops

/-- One line of assembly text (R128). -/
def assembleLine (line : List Char) : Option Instr := do
  let mnemonic := line.takeWhile (fun c => c != ' ')
  let ops ← (splitOperands (line.dropWhile (fun c => c != ' '))).mapM literalOf
  assembleCommand (String.ofList mnemonic) ops

end Sys2Proof
end

