-- ==== Sys2Proof/Safety.lean ====
section
/-! DEFINITION. What counts as a safe state and a safe run, in the terms the claims use: the invariants of
`10_state.md` R48, the environment of a run, and the parts of a trace. -/

namespace Sys2Proof.Machine

/-! ## Invariants (R34, R48) -/

/-- Every entry of a tabulated `TRIG_Q` is in [−ONE, ONE], as every table entry is (`44_sequencer.md` R260, R265). -/
def paramsOk (p : Params) : Bool :=
  match p.trigQ with
  | .rne => true
  | .table es => es.all (fun e => inSigned e.cos && inSigned e.sin)

/-- Both direction lines of bridge k are stored high. -/
def State.bothHigh (s : State) (k : Conn) : Bool := lineState (s.duty k.in1) && lineState (s.duty k.in2)

/-- A configured slot names two different configured bridges, a valid table size, and an index inside the table (R38,
R48 item 1). -/
structure SeqOk (s : State) (q : Seq) : Prop where
  phases : q.ph1 ≠ q.ph2
  bridge1 : (s.bridge q.ph1).cfg = true
  bridge2 : (s.bridge q.ph2).cfg = true
  size : validN q.n.toNat = true
  index : q.idx.toNat < q.n.toNat

/-- The invariant of the block. Item 5 of R48 is about the history of a bridge and is no part of it. -/
structure Inv (s : State) : Prop where
  /-- R48 item 1. -/
  seqs : ∀ q ∈ s.seqs, q.cfg = true → SeqOk s q
  /-- R48 item 2. -/
  bridgeDuty : ∀ k, (s.bridge k).cfg = true → inSigned (s.bridge k).duty = true
  /-- R48 item 3. -/
  bridgeOwns : ∀ k, ∀ c ∈ k.channels, (s.bridge k).cfg = true ↔ s.owner c = .bridge k
  /-- R48 item 4. -/
  chDuty : ∀ c, s.owner c ≠ .free → inUnit (s.duty c) = true
  /-- A channel has one owner in the whole system under the global scope (R34). -/
  exclusive : s.params.allocScope = .global → ∀ c, s.owner c ≠ .free → s.heldElsewhere[c] = false
  /-- Before CTRL_INIT nothing is bound or configured (R302, R340). -/
  uninit : s.phase = .uninit →
    (∀ c, s.owner c = .free) ∧ (∀ k, (s.bridge k).cfg = false) ∧ (∀ q ∈ s.seqs, q.cfg = false)
  /-- The parameters keep the step tables in range. -/
  params : paramsOk s.params = true
  /-- Every device's register space is in canonical form. -/
  devices : ∀ d ∈ s.devices, d.mem.wf
  /-- No device is listed twice as changing its frequency. -/
  changing : s.changing.Nodup

/-! ## The environment of a command -/

/-- The reply fails the frame. -/
def Reply.isFail : Reply → Bool
  | .fail _ _ => true
  | .reference | .answer _ => false

/-- No frame sent to address `a` fails: a device is there, and no reply to come is a failure. Any byte may be read,
and other agents may do anything between groups. -/
def State.answersAt (s : State) (a : Addr) : Prop :=
  (findDevice s.devices a).isSome = true ∧ ∀ r ∈ s.replies, r.isFail = false

/-- No frame of the block fails (its device is at `ctrl.addr`). -/
def State.answers (s : State) : Prop := s.answersAt s.addr

/-- The reference bus with no other agent on it (R91). -/
def State.quiet (s : State) : Prop := s.replies = [] ∧ s.traffic = []

/-- The host's commands have all been answered, and nothing more comes (`60_exceptions.md` R323). -/
def State.ended (s : State) : Bool := s.inbox.isEmpty && s.events.isEmpty

/-- What is seen at the end of a run (R323): responses, trace, and the block's and the devices' state. -/
structure Observation where
  responses : List Word
  trace : List Group
  phase : Phase
  addr : Addr
  alloc : Vector Owner 16
  chDuty : Vector Duty 16
  bridges : Vector Bridge 4
  seqs : List Seq
  devices : List Device
  deriving DecidableEq, Repr

/-- The observation of a state. -/
def State.observe (s : State) : Observation :=
  { responses := s.responses, trace := s.trace, phase := s.phase, addr := s.addr, alloc := s.alloc,
    chDuty := s.chDuty, bridges := s.bridges, seqs := s.seqs, devices := s.devices }

/-! ## What bus traffic changes -/

/-- The events are those of a reference bus with no other agent: each frame gets the answer the reference devices give,
and `ds` become `ds'` (`20_memory.md` R91, R102). -/
def ReferenceRun : List Device → List BusEvent → List Device → Prop
  | ds, [], ds' => ds' = ds
  | ds, e :: es, ds' =>
    e.answer = (transact ds e.frame .reference).1 ∧ ReferenceRun (transact ds e.frame .reference).2 es ds'

/-- Everything bus traffic can change: the trace grows by `gs`, the devices change but not their addresses or their
canonical form, replies and other agents' traffic are used up; on the reference bus the devices do what they are sent. -/
structure BusEffect (s t : State) (gs : List Group) : Prop where
  rest : t = { s with trace := s.trace ++ gs, devices := t.devices, replies := t.replies, traffic := t.traffic }
  addrs : t.devices.map (·.addr) = s.devices.map (·.addr)
  wf : (∀ d ∈ s.devices, d.mem.wf) → ∀ d ∈ t.devices, d.mem.wf
  replies : ∃ n, t.replies = s.replies.drop n
  reference : s.quiet → t.quiet ∧ ReferenceRun s.devices gs.flatten t.devices

/-! ## Groups (`20_memory.md` R74 to R78) -/

/-- The event of an acknowledged write. -/
abbrev wrote (a : Addr) (reg : Byte) (data : List Byte) : BusEvent := { frame := .write a reg data, answer := .ack }

/-- The event of a successful read. -/
abbrev didRead (a : Addr) (v : Byte) : BusEvent := { frame := .read a, answer := .data v }

/-- The events that set bits of a register when `write` holds, after a read of `m`. -/
abbrev setEvents (a : Addr) (reg m mask : Byte) (write : Bool) : List BusEvent :=
  if write then [wrote a reg [m ||| mask]] else []

/-- The group of a burst (R76). -/
def BurstGroup (a : Addr) (start : Byte) (bs : List Byte) (g : Group) : Prop :=
  ∃ m, g = [wrote a regMode1 [], didRead a m] ++ setEvents a regMode1 m bitAI (m &&& bitAI == 0#8)
    ++ [wrote a start bs]

/-- The groups of ResetSeq (`41_controller.md` R170): MODE1 cleared, the wait, the broadcast of full-off, RESTART set
if it reads clear (R175). -/
def ResetGroups (a : Addr) (gs : List Group) : Prop :=
  ∃ g m, BurstGroup a regAllLed fullOff g ∧
    gs = [[wrote a regMode1 [0x00#8]], [{ frame := .delay Config.tOscMinUs, answer := .elapsed }], g,
      [wrote a regMode1 [], didRead a m] ++ setEvents a regMode1 m bitRestart (m &&& bitRestart == 0#8)]

/-- The groups of FreqSeq (`41_controller.md` R172): SLEEP set, the prescale written, then ResetSeq. -/
def FreqGroups (a : Addr) (p : Byte) (gs : List Group) : Prop :=
  ∃ m rs, ResetGroups a rs ∧
    gs = [[wrote a regMode1 [], didRead a m, wrote a regMode1 [m ||| bitSleep]], [wrote a regPreScale [p]]] ++ rs

/-- What FreqSeq does to the record of frequency changes, by the groups it sent (`70_reset_and_hazards.md` R353): the
change begins with the third frame of the first group, the one that sets SLEEP, and ends when the sixth group, the one
after the ALL_LED burst, begins. -/
def State.afterFreq (s : State) (gs : List Group) : State :=
  match gs with
  | [] => s
  | [g] => if g.length = 3 then s.openChange s.addr else s
  | _ :: rest => if rest.length = 5 then s.closeChange s.addr else s.openChange s.addr

/-- The events of a failed run: only the last one failed. -/
def FailsAtEnd (es : List BusEvent) : Prop :=
  ∃ ds f, es = ds ++ [{ frame := f, answer := .fail }] ∧ ∀ e ∈ ds, e.answer ≠ .fail

/-! ## Parts of a trace (R320) -/

/-- A channel burst: channel and register pattern. -/
abbrev Burst := Channel × List Byte

/-- The channel burst a group carries: its last frame, when that is an acknowledged write that starts at a channel's
first register and has four data bytes. -/
def groupBurst (g : Group) : Option Burst :=
  match g.getLast? with
  | some { frame := .write _ reg data, answer := .ack } =>
    if data.length = 4 then
      ((List.finRange 16).find? (fun ch => regLed ch == reg)).map (fun ch => (ch, data))
    else none
  | _ => none

/-- The channel bursts of a trace, in order: the source's "write order" of a mock PWM sink (R320). -/
def bursts (t : List Group) : List Burst := t.filterMap groupBurst

/-- The duties a whole BridgeSet commits, in order (R234): the power line forced to 0 when the polarity flips, the other
direction line low, this direction's high, the power line at the magnitude. -/
def bridgeWrites (k : Conn) (oldPol : Bool) (d : Duty) : List (Channel × Duty) :=
  (if polarity d != oldPol then [(k.pwm, 0#16)] else []) ++
    (if polarity d then [(k.in2, 0#16), (k.in1, dutyOne)] else [(k.in1, 0#16), (k.in2, dutyOne)]) ++
    [(k.pwm, magnitude d)]

/-- The channel burst that commits a duty (R209). -/
def dutyBurst (w : Channel × Duty) : Burst := (w.1, pattern w.2)

/-- The duties stored by the first writes of a command (R209: each before its bus write). -/
def State.applyDuties (s : State) (ws : List (Channel × Duty)) : State := ws.foldl (fun s w => s.setDuty w.1 w.2) s

/-- The block after the first `n` writes of `BridgeSet(k, d)` have begun (R234, `60_exceptions.md` R310). -/
def State.bridgeAfter (s : State) (k : Conn) (d : Duty) (n : Nat) : State :=
  (s.setBridgeDuty k d).applyDuties ((bridgeWrites k (polarity (s.bridge k).duty) d).take n)

/-- The groups `gs` are the bursts `bs`, one each, in order. -/
def BurstGroups (a : Addr) : List Burst → List Group → Prop
  | [], gs => gs = []
  | b :: bs, gs => ∃ g gs', gs = g :: gs' ∧ BurstGroup a (regLed b.1) b.2 g ∧ BurstGroups a bs gs'

/-- The frames of a trace that are no `Delay` (`70_reset_and_hazards.md` R362). -/
def frameCount (t : List Group) : Nat := (t.flatten.filter (fun e => e.frame.dest.isSome)).length

/-- The `Delay` events of a trace. -/
def delayCount (t : List Group) : Nat := (t.flatten.filter (fun e => e.frame.dest.isNone)).length

/-- The reference device after the AI check of a burst: AI set, every other bit of MODE1 as it was (R76). -/
def Device.enableAI (d : Device) : Device :=
  if d.autoInc then d else d.setReg regMode1 (d.reg regMode1 ||| bitAI)

/-- The reference device after a burst (R76). -/
def Device.burst (d : Device) (start : Byte) (bs : List Byte) : Device := d.enableAI.writeFrame start bs

/-- The register contents `reg` after one channel burst: AI is set, and the four bytes stand in the channel's registers,
ON_L first (R76, R181). Every other register is as before. -/
def storeBurst (reg : Byte → Byte) (b : Burst) (r : Byte) : Byte :=
  if r = regMode1 then reg r ||| bitAI
  else if (r - regLed b.1).toNat < 4 then b.2.getD (r - regLed b.1).toNat 0#8
  else reg r

/-- The register contents after channel bursts. -/
def registersAfter (bs : List Burst) (reg : Byte → Byte) : Byte → Byte := bs.foldl storeBurst reg

/-- The registers ResetSeq leaves (R342, R343). -/
def resetRegs (reg : Byte → Byte) (r : Byte) : Byte :=
  if r = regMode1 then 0xA0#8
  else if 0x06 ≤ r.toNat ∧ r.toNat ≤ 0x45 then fullOff.getD ((r.toNat - 0x06) % 4) 0#8
  else reg r

/-- The registers FreqSeq leaves (R344). -/
def freqRegs (p : Byte) (reg : Byte → Byte) (r : Byte) : Byte :=
  if r = regPreScale then p else resetRegs reg r

/-- The devices after each group of a trace, from `devs`, as the reference bus applies the frames (R92). -/
def deviceHistory (devs : List Device) : List Group → List (List Device)
  | [] => []
  | g :: t =>
    let next := g.foldl (fun ds e => (transact ds e.frame .reference).2) devs
    next :: deviceHistory next t

/-! ## What a command checks (`60_exceptions.md` R304, R307) -/

/-- `Entry(ID)` for an ID byte; a byte that is no channel has no entry. -/
def State.entryAt (s : State) (id : Byte) : Option Entry :=
  if h : id.toNat < 16 then some (s.entry ⟨id.toNat, h⟩) else none

/-- `bridge[ID].cfg` for an ID byte; a byte that is no connector has no bridge. -/
def State.bridgeCfgAt (s : State) (id : Byte) : Bool :=
  match Conn.ofByte id with
  | some k => (s.bridge k).cfg
  | none => false

/-- The channels of the connector an ID byte names are free. -/
def State.connectorFree (s : State) (id : Byte) : Bool :=
  match Conn.ofByte id with
  | some k => k.channels.all (fun c => s.entry c == .free)
  | none => false

/-- The checks of a command's pseudocode, in its order: what must hold, and the status raised when it does not. -/
def State.checks (s : State) (i : Instr) : List (Bool × Status) :=
  match i with
  | .regWr _ _ | .regRd _ | .regBurst _ _ | .ctrlReset => []
  | .ctrlInit addr hz =>
    [(s.phase != .ready, .configurationError), (!s.peers.contains addr, .configurationError),
     ((prescale hz).isSome, .configurationError)]
  | .ctrlFreq hz => [((prescale hz).isSome, .configurationError)]
  | .ctrlDuty id _ => [(decide (id.toNat < 16), .configurationError)]
  | .chBind id =>
    [(decide (id.toNat < 16), .configurationError), (s.entryAt id == some .free, .resourceConflict)]
  | .chDuty id d =>
    [(decide (id.toNat < 16), .configurationError), (inUnit d, .configurationError),
     (s.entryAt id != some .free, .notConfigured), (s.entryAt id == some .port, .resourceConflict)]
  | .chRelease id | .lineSet id _ | .lineGet id =>
    [(decide (id.toNat < 16), .configurationError), (s.entryAt id != some .free, .notConfigured),
     (s.entryAt id == some .port, .resourceConflict)]
  | .hbConfig id =>
    [((Conn.ofByte id).isSome, .configurationError), (!s.bridgeCfgAt id, .configurationError),
     (s.connectorFree id, .resourceConflict)]
  | .hbSet id d =>
    [((Conn.ofByte id).isSome, .configurationError), (inSigned d, .configurationError),
     (s.bridgeCfgAt id, .notConfigured)]
  | .hbBrake id | .hbRelease id | .hbGet id =>
    [((Conn.ofByte id).isSome, .configurationError), (s.bridgeCfgAt id, .notConfigured)]
  | .seqConfig id bra brb n =>
    [(decide (id.toNat < s.nseq), .configurationError),
     ((Conn.ofByte bra).isSome && (Conn.ofByte brb).isSome, .configurationError), (bra != brb, .configurationError),
     (validN n.toNat, .configurationError), (!(s.seq id.toNat).cfg, .configurationError),
     (s.bridgeCfgAt bra && s.bridgeCfgAt brb, .notConfigured)]
  | .seqStep id dir =>
    [(decide (id.toNat < s.nseq), .configurationError), (dir != 2#2, .configurationError),
     ((s.seq id.toNat).cfg, .notConfigured)]
  | .seqRelease id | .seqGet id =>
    [(decide (id.toNat < s.nseq), .configurationError), ((s.seq id.toNat).cfg, .notConfigured)]

/-- The status of the first check that fails: the ready check, then the command's own (R302, R307). CTRL_INIT has no
ready check. -/
def State.failedCheck (s : State) (i : Instr) : Option Status :=
  if i.op = .ctrlInit ∨ s.phase = .ready then ((s.checks i).find? (fun c => !c.1)).map (·.2) else some .notReady

/-- The command's last response. -/
def State.lastResponse (s : State) : Word := s.responses.getLastD 0#32

end Sys2Proof.Machine
end

