-- ==== Sys2Proof/Certificates/Slice0/Obligations.lean ====
section
/-! DEFINITION. The statements for the provers, and the few terms only they use. Each docstring names the rules of the
spec its statement formalises. -/

open Sys2Proof Sys2Proof.Machine

namespace Sys2Proof.Machine

/-! ## Terms of the statements -/

/-- The bits of w0 that a command's format marks reserved-zero (`30_encoding.md` R114 to R123; for REG_RD also `w0[7:0]`,
`40_register_bus.md` R152). -/
def reservedZero : Op → Word
  | .regWr => 0x00FF0000#32
  | .regRd => 0x00FF00FF#32
  | .regBurst => 0x00F800FF#32
  | .ctrlInit => 0x00FFFF80#32
  | .ctrlReset | .ctrlFreq => 0x00FFFFFF#32
  | .ctrlDuty | .chDuty | .hbSet | .seqConfig => 0x00000000#32
  | .chBind | .chRelease | .lineGet | .hbConfig | .hbBrake | .hbRelease | .hbGet | .seqRelease | .seqGet =>
    0x0000FFFF#32
  | .lineSet => 0x0000FFFE#32
  | .seqStep => 0x0000FFFC#32

/-- The command an opcode byte names, by the opcode column of R125. -/
def opOfOpcode (opc : Byte) : Option Op := (opcodeMap.find? (fun r => r.opc == opc)).map (·.op)

/-- `w0`, `w1` are the words of an illegal command (R126). -/
def illegalWords (w0 w1 : Word) : Prop :=
  match opOfOpcode (w0.extractLsb' 24 8) with
  | none => True
  | some op =>
    w0 &&& reservedZero op ≠ 0#32 ∨
      (op = .regBurst ∧ ((w0.extractLsb' 16 3).toNat = 0 ∨ 4 < (w0.extractLsb' 16 3).toNat ∨
        ∃ j, (w0.extractLsb' 16 3).toNat ≤ j ∧ j < 4 ∧ w1.extractLsb' (8 * j) 8 ≠ 0#8)) ∨
      (op = .seqConfig ∧ w1.extractLsb' 16 16 ≠ 0#16)

/-- The opcodes of the two-word commands (R112). -/
def twoWordOpcodes : List Byte := [0x03#8, 0x10#8, 0x12#8, 0x40#8]

/-- STATUS of a response word (R113). -/
def statusOf (r : Word) : Byte := r.extractLsb' 24 8

/-- The registers of the block's device go from `reg` to `f reg` on the reference bus with no other agent, and no other
device changes. The device's register space is in canonical form, as `Inv` says of every device. -/
def ReferenceRegisters (s t : State) (f : (Byte → Byte) → Byte → Byte) : Prop :=
  s.quiet → ∀ d, findDevice s.devices t.addr = some d → d.mem.wf →
    ∃ d', findDevice t.devices t.addr = some d' ∧ (∀ r, d'.reg r = f d.reg r) ∧
      ∀ b, b ≠ t.addr → findDevice t.devices b = findDevice s.devices b

/-- The output of a channel after the burst of a duty (`41_controller.md` R179, `10_state.md` R49). -/
def dutyOutput (d : Duty) : Output :=
  if 16384 ≤ d.toInt then .high
  else if d.toInt ≤ 0 then .low
  else .pwm 0#12 (BitVec.ofNat 12 (max 1 (d.toInt.toNat / 4)))

/-- The channel duties after a whole BridgeSet (`43_hbridge.md` R234). -/
def bridgeDuties (k : Conn) (d : Duty) (duty : Channel → Duty) (c : Channel) : Duty :=
  if c = k.pwm then magnitude d
  else if c = k.in1 then lineDuty (polarity d)
  else if c = k.in2 then lineDuty (!polarity d)
  else duty c

/-- The device states of one HB_SET, burst by burst, by the stored polarity before and after (`43_hbridge.md` R243): from
`(a, b, p)` to the power `m`. -/
def hbSetTriples (before after : Bool) (a b p m : Output) : List (Output × Output × Output) :=
  match before, after with
  | true, true => [(a, .low, p), (.high, .low, p), (.high, .low, m)]
  | false, true => [(a, b, .low), (a, .low, .low), (.high, .low, .low), (.high, .low, m)]
  | false, false => [(.low, b, p), (.low, .high, p), (.low, .high, m)]
  | true, false => [(a, b, .low), (.low, b, .low), (.low, .high, .low), (.low, .high, m)]

/-- The bursts of `BridgeSet(k, d)` from stored polarity `oldPol` (R234): the power line to full-off when the polarity
flips, the other direction line to full-off, this direction's to full-on, the power line to the magnitude. -/
def bridgeBursts (k : Conn) (oldPol : Bool) (d : Duty) : List Burst :=
  (if polarity d != oldPol then [(k.pwm, fullOff)] else []) ++
    (if polarity d then [(k.in2, fullOff), (k.in1, fullOn)] else [(k.in1, fullOff), (k.in2, fullOn)]) ++
    [(k.pwm, pattern (magnitude d))]

/-- The block after the first `n` channel writes of two BridgeSet calls have begun (`60_exceptions.md` R310). -/
def State.twoBridgesAfter (s : State) (k1 : Conn) (d1 : Duty) (k2 : Conn) (d2 : Duty) (n : Nat) : State :=
  let n1 := (bridgeWrites k1 (polarity (s.bridge k1).duty) d1).length
  if n ≤ n1 then s.bridgeAfter k1 d1 n else (s.bridgeAfter k1 d1 n1).bridgeAfter k2 d2 (n - n1)

/-- The block state a command has written when its `n`-th group holds the failed frame (R310). -/
def State.partialAfter (s : State) (i : Instr) (n : Nat) : State :=
  match i with
  | .regWr _ _ | .regRd _ | .regBurst _ _ | .ctrlReset | .ctrlFreq _ | .ctrlDuty _ _ => s
  | .chBind _ | .chRelease _ | .lineGet _ | .hbConfig _ | .hbGet _ | .seqConfig _ _ _ _ | .seqGet _ => s
  | .ctrlInit addr _ => { s with addr := addr }
  | .chDuty id d => if h : id.toNat < 16 then s.setDuty ⟨id.toNat, h⟩ d else s
  | .lineSet id b => if h : id.toNat < 16 then s.setDuty ⟨id.toNat, h⟩ (lineDuty b) else s
  | .hbSet id d =>
    match Conn.ofByte id with
    | some k => s.bridgeAfter k d n
    | none => s
  | .hbBrake id =>
    match Conn.ofByte id with
    | some k => s.applyDuties ([(k.in1, dutyOne), (k.in2, dutyOne)].take n)
    | none => s
  | .hbRelease id =>
    match Conn.ofByte id with
    | some k => s.applyDuties ([(k.pwm, 0#16), (k.in1, 0#16), (k.in2, 0#16)].take n)
    | none => s
  | .seqStep id dir =>
    match Dir.ofBits dir with
    | some d =>
      let q := (s.seq id.toNat).advance d
      (s.setSeq id.toNat q).twoBridgesAfter q.ph1 (stepT1 s.params q.n.toNat q.idx.toNat)
        q.ph2 (stepT2 s.params q.n.toNat q.idx.toNat) n
    | none => s
  | .seqRelease id => s.twoBridgesAfter (s.seq id.toNat).ph1 0#16 (s.seq id.toNat).ph2 0#16 n

/-- Commands one after the other, without the command port. -/
def runAll : List Instr → State → Option State
  | [], s => some s
  | i :: is, s =>
    match exec i s with
    | .next t => runAll is t
    | .fault _ => none
    | .refused _ => none

/-- What a command that ends with OK puts on the bus: fewest and most groups, fewest and most frames, `Delay` events
(`70_reset_and_hazards.md` R362). -/
structure Activity where
  groupsMin : Nat
  groupsMax : Nat
  framesMin : Nat
  framesMax : Nat
  delays : Nat
  deriving DecidableEq, Repr

/-- The table of R362. The rows of HB_SET are told apart by the stored polarity. -/
def State.activity (s : State) : Instr → Activity
  | .regWr _ _ => ⟨1, 1, 1, 1, 0⟩
  | .regRd _ => ⟨1, 1, 2, 2, 0⟩
  | .regBurst _ _ => ⟨1, 1, 3, 4, 0⟩
  | .ctrlInit _ _ => ⟨10, 10, 16, 20, 2⟩
  | .ctrlReset => ⟨4, 4, 6, 8, 1⟩
  | .ctrlFreq _ => ⟨6, 6, 10, 12, 1⟩
  | .ctrlDuty _ _ | .chDuty _ _ | .lineSet _ _ => ⟨1, 1, 3, 4, 0⟩
  | .chBind _ | .chRelease _ | .lineGet _ | .hbConfig _ | .hbGet _ | .seqConfig _ _ _ _ | .seqGet _ => ⟨0, 0, 0, 0, 0⟩
  | .hbSet id d =>
    match Conn.ofByte id with
    | some k => if polarity (s.bridge k).duty = polarity d then ⟨3, 3, 9, 12, 0⟩ else ⟨4, 4, 12, 16, 0⟩
    | none => ⟨0, 0, 0, 0, 0⟩
  | .hbBrake _ => ⟨2, 2, 6, 8, 0⟩
  | .hbRelease _ => ⟨3, 3, 9, 12, 0⟩
  | .seqStep _ _ | .seqRelease _ => ⟨6, 8, 18, 32, 0⟩

/-- The write frames of the commands other than REG_WR and REG_BURST (`20_memory.md` R97, `10_state.md` R46, R47): a
pointer alone, a MODE1 byte, a prescale of at least 3, a channel's four bytes, or the broadcast of full-off. -/
def listedWrite (reg : Byte) (data : List Byte) : Prop :=
  data = [] ∨ (reg = regMode1 ∧ data.length = 1) ∨ (reg = regPreScale ∧ ∃ p : Byte, data = [p] ∧ 3 ≤ p.toNat) ∨
    (∃ ch, reg = regLed ch ∧ data.length = 4) ∨ (reg = regAllLed ∧ data = fullOff)

/-- The registers after `DevWrite(p, v)`, as `20_memory.md` R84 to R88 say: a broadcast, PRE_SCALE while SLEEP is set, a
reserved register, plain storage. -/
def storeByte (reg : Byte → Byte) (p v r : Byte) : Byte :=
  if 0xFA ≤ p.toNat ∧ p.toNat ≤ 0xFD then
    (if 0x06 ≤ r.toNat ∧ r.toNat ≤ 0x45 ∧ (r.toNat - 0x06) % 4 = p.toNat - 0xFA then v else reg r)
  else if p = 0xFE#8 then (if r = 0xFE#8 ∧ reg 0x00#8 &&& 0x10#8 ≠ 0#8 then v else reg r)
  else if (0x46 ≤ p.toNat ∧ p.toNat ≤ 0xF9) ∨ p = 0xFF#8 then reg r
  else if r = p then v else reg r

/-- The registers and the pointer after a write frame from pointer `p`, as R82 says: each byte is stored at the pointer,
and AI, tested in what MODE1 then holds, moves the pointer on by one, modulo 256. -/
def frameAfter (reg : Byte → Byte) (p : Byte) : List Byte → (Byte → Byte) × Byte
  | [] => (reg, p)
  | v :: vs => frameAfter (storeByte reg p v) (if storeByte reg p v 0x00#8 &&& 0x20#8 ≠ 0#8 then p + 1#8 else p) vs

/-- The registers after the AI check of a burst (`20_memory.md` R76). -/
def withAI (reg : Byte → Byte) (r : Byte) : Byte := if r = 0x00#8 then reg r ||| 0x20#8 else reg r

/-- What registers `reg` make channel n show, by `10_state.md` R44 and R49: ON_L(n) is `0x06 + 4n`, and ON_H, OFF_L and
OFF_H follow it. -/
def outputOf (reg : Byte → Byte) (n : Channel) : Output :=
  let byte (j : Nat) : Byte := reg (BitVec.ofNat 8 (0x06 + 4 * n.val + j))
  if byte 3 &&& 0x10#8 ≠ 0#8 then .low
  else if byte 1 &&& 0x10#8 ≠ 0#8 then .high
  else .pwm (BitVec.ofNat 12 ((byte 1).toNat % 16 * 256 + (byte 0).toNat))
    (BitVec.ofNat 12 ((byte 3).toNat % 16 * 256 + (byte 2).toNat))

/-- Whether a frequency change is under way after the groups of one ResetSeq, which ends with the ALL_LED burst, its third
group (`70_reset_and_hazards.md` R353). The fourth group begins only when the third has succeeded. -/
def resetWindow (before : Bool) (gs : List Group) : Bool := before && decide (gs.length ≤ 3)

/-- The same after the groups of one FreqSeq: the change begins with the third frame of the first group, the one that sets
SLEEP, and the ALL_LED burst that ends it is the fifth group. -/
def freqWindow (before : Bool) (gs : List Group) : Bool :=
  match gs with
  | [] => before
  | [g] => before || decide (g.length = 3)
  | _ :: _ :: _ => decide (gs.length ≤ 5)

/-- Whether a frequency change is under way at the block's address after a command that put `gs` on the bus. CTRL_INIT is a
ResetSeq of four groups and then a FreqSeq. -/
def windowAfter (i : Instr) (before : Bool) (gs : List Group) : Bool :=
  match i.op with
  | .ctrlReset => resetWindow before gs
  | .ctrlFreq => freqWindow before gs
  | .ctrlInit => if gs.length ≤ 4 then resetWindow before gs else freqWindow false (gs.drop 4)
  | _ => before

/-- The power-on value of a register as `10_state.md` R42 lists it, `none` for one it gives no value. -/
def powerOnRow (r : Nat) : Option Byte :=
  if r = 0x00 then some 0x11#8
  else if r = 0x01 then some 0x04#8
  else if r = 0x02 then some 0xE2#8
  else if r = 0x03 then some 0xE4#8
  else if r = 0x04 then some 0xE8#8
  else if r = 0x05 then some 0xE0#8
  else if 0x06 ≤ r ∧ r ≤ 0x45 then some ([0x00#8, 0x00#8, 0x00#8, 0x10#8].getD ((r - 0x06) % 4) 0x00#8)
  else if r = 0xFE then some 0x1E#8
  else none

end Sys2Proof.Machine

/-! ## Encoding -/

/-- The encoding examples of R130: the assembler text gives the words and the words decode to the command; the word with
DIR = `10` decodes and is rejected at execution, the word with a reserved bit is illegal. -/
def Obligations.SampleWordsDecode : Prop :=
  (assembleLine "hb.set 1, -0.5".toList).map encode = some [0x3101E000#32] ∧
  (assembleLine "seq.step 0, +1".toList).map encode = some [0x41000001#32] ∧
  (assembleLine "seq.step 0, -1".toList).map encode = some [0x41000003#32] ∧
  (assembleLine "seq.step 0, 0".toList).map encode = some [0x41000000#32] ∧
  (assembleLine "seq.config 0, 1, 2, 4".toList).map encode = some [0x40000102#32, 0x00000004#32] ∧
  (assembleLine "ctrl.init 0x60, 1600".toList).map encode = some [0x10000060#32, 0x06400000#32] ∧
  (assembleLine "ctrl.duty 5, 0.5".toList).map encode = some [0x13052000#32] ∧
  (assembleLine "reg.burst 0x06, 0x00, 0x00, 0x00, 0x08".toList).map encode = some [0x03040600#32, 0x08000000#32] ∧
  (assembleLine "line.set 9, 1".toList).map encode = some [0x23090001#32] ∧
  (assembleLine "reg.rd 0x00".toList).map encode = some [0x02000000#32] ∧
  decode [0x3101E000#32] = .command (.hbSet 1#8 0xE000#16) [] ∧
  decode [0x41000001#32] = .command (.seqStep 0#8 1#2) [] ∧
  decode [0x41000003#32] = .command (.seqStep 0#8 3#2) [] ∧
  decode [0x41000000#32] = .command (.seqStep 0#8 0#2) [] ∧
  decode [0x40000102#32, 0x00000004#32] = .command (.seqConfig 0#8 1#8 2#8 4#16) [] ∧
  decode [0x10000060#32, 0x06400000#32] = .command (.ctrlInit 0x60#7 0x06400000#32) [] ∧
  decode [0x13052000#32] = .command (.ctrlDuty 5#8 0x2000#16) [] ∧
  decode [0x03040600#32, 0x08000000#32] = .command (.regBurst 0x06#8 [0x00#8, 0x00#8, 0x00#8, 0x08#8]) [] ∧
  decode [0x23090001#32] = .command (.lineSet 9#8 true) [] ∧
  decode [0x02000000#32] = .command (.regRd 0x00#8) [] ∧
  decode [0x41000002#32] = .command (.seqStep 0#8 2#2) [] ∧
  (∀ s : State, s.phase = .ready →
    exec (.seqStep 0#8 2#2) s = .next { s with responses := s.responses ++ [0x01000000#32] }) ∧
  decode [0x41000004#32] = .illegal .reservedBit []

/-- R114 to R125: the words of every well-formed command decode to it, whatever follows them. -/
def Obligations.DecodeOfEncode : Prop :=
  ∀ (i : Instr) (rest : List Word), i.wellFormed = true → decode (encode i ++ rest) = .command i rest

/-- R114 to R125: the words a command decodes from are the words it encodes to, so no two encodings share a meaning. -/
def Obligations.EncodeOfDecode : Prop :=
  ∀ (ws : List Word) (i : Instr) (rest : List Word), decode ws = .command i rest →
    i.wellFormed = true ∧ ws = encode i ++ rest

/-- R126: exactly these commands are illegal, and an illegal command is consumed with the length R111 gives. -/
def Obligations.IllegalCommandsAreExactlyThese : Prop :=
  ∀ (w0 w1 : Word) (rest : List Word),
    (illegalWords w0 w1 → ∃ why, decode (w0 :: w1 :: rest) =
      .illegal why (if w0.extractLsb' 24 8 ∈ twoWordOpcodes then rest else w1 :: rest)) ∧
    (¬ illegalWords w0 w1 → ∃ i, decode (w0 :: w1 :: rest) =
      .command i (if w0.extractLsb' 24 8 ∈ twoWordOpcodes then rest else w1 :: rest))

/-- R111, R112, R127: the length of a command comes from `w0[31:24]` alone, for listed and unlisted opcodes. -/
def Obligations.CommandLengthComesFromTheOpcode : Prop :=
  ∀ ws : List Word,
    match decode ws with
    | .incomplete => ws = [] ∨ ∃ w0 : Word, ws = [w0] ∧ w0.extractLsb' 24 8 ∈ twoWordOpcodes
    | .illegal _ rest | .command _ rest =>
      ∃ (w0 : Word) (tail : List Word), ws = w0 :: tail ∧
        if w0.extractLsb' 24 8 ∈ twoWordOpcodes then ∃ w1, tail = w1 :: rest else tail = rest

/-- R125: no word matches two rows of the opcode map, and every row a word matches has the word's opcode. -/
def Obligations.OpcodeRowsNeverOverlap : Prop :=
  ∀ (w : Word) (r r' : OpcodeRow), r ∈ opcodeMap → r' ∈ opcodeMap → r.accepts w = true → r'.accepts w = true →
    r = r' ∧ r.opc = w.extractLsb' 24 8

/-! ## The step -/

/-- R110: a step runs the command at the port, which is the one its words decode to. The second clause, the same for the
words of one opcode-table row with an empty port after them, is the model's way to place a command (log entry 6, DESIGN
CHOICE). -/
def Obligations.StepRunsTheDecodedCommand : Prop :=
  (∀ (s : State) (i : Instr) (rest : List Word), decode s.inbox = .command i rest →
    step s = exec i { s with inbox := rest }) ∧
  (∀ (s : State) (i : Instr) (nbits w : Nat), decodeTableWord nbits w = some i →
    step (s.withFetchWord nbits w) = exec i { s with inbox := [] })

/-- R301: an illegal command is consumed with the length its opcode gives, answered with ILLEGAL_COMMAND, in any state and
with no other effect. -/
def Obligations.IllegalCommandIsRefusedWithoutEffect : Prop :=
  ∀ (s : State) (why : Illegal) (rest : List Word), decode s.inbox = .illegal why rest →
    step s = .next { s with inbox := rest, responses := s.responses ++ [0x04000000#32] } ∧
    ∃ w0 : Word, s.inbox.head? = some w0 ∧
      rest = s.inbox.drop (if w0.extractLsb' 24 8 ∈ twoWordOpcodes then 2 else 1)

/-- R110, R322: until all the words of a command have arrived the block does nothing of its own: no response, no frame. A
word the host sends joins the end of the port; a group of another agent reaches the devices and nothing else (R102); no
other event touches a device. The form of the port and of the events is the model's (log entries 5, 6 and 8). -/
def Obligations.IncompleteCommandWaits : Prop :=
  ∀ s : State, decode s.inbox = .incomplete → ∃ t, step s = .next t ∧
    t.responses = s.responses ∧ t.params = s.params ∧ t.replies = s.replies ∧
    t.traffic = s.traffic ∧ t.events = s.events.tail ∧
    (s.events = [] → t = s) ∧
    (∀ (w : Word) (es : List HostEvent), s.events = .word w :: es →
      t = { s with inbox := s.inbox ++ [w], events := es }) ∧
    (∀ (g : List ForeignFrame) (es : List HostEvent), s.events = .foreign g :: es →
      t = { s with devices := g.foldl (fun ds f => (transact ds f.frame f.reply).2) s.devices, events := es }) ∧
    ((∀ (g : List ForeignFrame) (es : List HostEvent), s.events ≠ .foreign g :: es) → t.devices = s.devices) ∧
    ((∀ (a : Addr) (on : Bool) (es : List HostEvent), s.events ≠ .peerChange a on :: es) → t.changing = s.changing) ∧
    (∀ (a : Addr) (on : Bool) (es : List HostEvent), s.events = .peerChange a on :: es →
      ∀ b : Addr, b ∈ t.changing ↔ if b = a ∧ ¬ (s.phase = .ready ∧ s.addr = a) then on = true else b ∈ s.changing) ∧
    ((∀ es : List HostEvent, s.events ≠ .blockReset :: es) →
      t.phase = s.phase ∧ t.addr = s.addr ∧ t.alloc = s.alloc ∧ t.chDuty = s.chDuty ∧ t.bridges = s.bridges ∧
        t.seqs = s.seqs ∧ t.trace = s.trace ∧ s.inbox <+: t.inbox)

/-- R340: block reset gives every field its reset value, sends no frame and touches no device; after it the only command the
block accepts is CTRL_INIT. What the device shows stays too (R313), and a frequency change that has begun there goes on.
What stays outside the block (responses, parameters, other blocks) is the model's reading (log entries 7 and 12). -/
def Obligations.BlockResetRestoresTheBlock : Prop :=
  ∀ (s : State) (es : List HostEvent), decode s.inbox = .incomplete → s.events = .blockReset :: es →
    ∃ t, step s = .next t ∧ t.phase = .uninit ∧ (∀ c, t.owner c = .free) ∧ (∀ k, (t.bridge k).cfg = false) ∧
      t.nseq = s.nseq ∧ (∀ i, (t.seq i).cfg = false) ∧ t.trace = [] ∧ t.devices = s.devices ∧
      t.responses = s.responses ∧ t.replies = s.replies ∧ t.traffic = s.traffic ∧ t.params = s.params ∧
      t.peers = s.peers ∧ t.heldElsewhere = s.heldElsewhere ∧ t.events = es ∧ t.changing = s.changing ∧
      (∀ (a : Addr) (ch : Channel), a ∉ s.changing → t.output a ch = s.output a ch) ∧
      ∀ i : Instr, i.op ≠ .ctrlInit → exec i t = .next (t.respond .notReady 0#16)

/-- R30, R80, R341: the machine after reset. The values of fields R30 gives none are the model's (log entry 1) and are no
part of this; R42's registers without a value are none either. -/
def Obligations.ResetStateIsAsListed : Prop :=
  State.reset.phase = .uninit ∧ (∀ c, State.reset.owner c = .free) ∧ (∀ k, (State.reset.bridge k).cfg = false) ∧
    State.reset.nseq = 2 ∧ (∀ i, (State.reset.seq i).cfg = false) ∧ State.reset.trace = [] ∧
    ∃ d, findDevice State.reset.devices 0x60#7 = some d ∧ d.ptr = 0x00#8 ∧
      ∀ (r : Byte) (v : Byte), powerOnRow r.toNat = some v → d.reg r = v

/-! ## Responses and errors -/

/-- R110, R113, R300: every command answers with one response word; its STATUS is 0 to 6, `r[23:16]` is 0, and DATA is 0
unless STATUS is OK and the command is a query. -/
def Obligations.EveryCommandAnswersOnce : Prop :=
  ∀ (i : Instr) (s : State), ∃ (t : State) (r : Word), exec i s = .next t ∧ t.responses = s.responses ++ [r] ∧
    (statusOf r).toNat ≤ 6 ∧ r.extractLsb' 16 8 = 0#8 ∧
    (r.extractLsb' 0 16 ≠ 0#16 → statusOf r = 0#8 ∧ i.op ∈ [Op.regRd, Op.lineGet, Op.hbGet, Op.seqGet])

/-- R302: before CTRL_INIT every other legal command returns NOT_READY and has no effect; after it, CTRL_INIT returns
CONFIGURATION_ERROR and has no effect. -/
def Obligations.NotReadyBeforeInit : Prop :=
  ∀ (i : Instr) (s : State),
    (s.phase = .uninit → i.op ≠ .ctrlInit →
      exec i s = .next { s with responses := s.responses ++ [0x05000000#32] }) ∧
    (s.phase = .ready → i.op = .ctrlInit →
      exec i s = .next { s with responses := s.responses ++ [0x01000000#32] })

/-- R304, R307: the first check that fails, in the order of the pseudocode after the ready check, gives the status; the
command has no other effect. -/
def Obligations.FirstFailedCheckIsReported : Prop :=
  ∀ (i : Instr) (s : State) (e : Status), s.failedCheck i = some e → exec i s = .next (s.respond e 0#16)

/-- R307, R304: a command none of whose checks fails ends with OK when the bus answers it. -/
def Obligations.CommandsWithoutFailedCheckComplete : Prop :=
  ∀ (i : Instr) (s : State), paramsOk s.params = true → s.failedCheck i = none →
    (∀ addr hz, i = .ctrlInit addr hz → s.answersAt addr) → (i.op ≠ .ctrlInit → s.answers) →
    ∃ t, exec i s = .next t ∧ statusOf t.lastResponse = 0#8

/-- R305: a command that ends with a status other than OK and TRANSPORT_ERROR leaves everything as it was, an illegal one
too. The premise is part of `Inv`. -/
def Obligations.FailedChecksHaveNoEffect : Prop :=
  (∀ (i : Instr) (s t : State) (r : Word), paramsOk s.params = true → exec i s = .next t →
    t.responses = s.responses ++ [r] → statusOf r ≠ 0#8 → statusOf r ≠ 3#8 →
    t = { s with responses := s.responses ++ [r] }) ∧
  ∀ (s : State) (why : Illegal) (rest : List Word), decode s.inbox = .illegal why rest →
    ∃ r, statusOf r = 4#8 ∧ step s = .next { s with inbox := rest, responses := s.responses ++ [r] }

/-- R32, R73, R79, R306: every frame of a command goes to the block's address, no group is empty, and a failed frame is
the last of the command, which then ends with TRANSPORT_ERROR; no other command does. -/
def Obligations.FailedFrameEndsTheCommand : Prop :=
  ∀ (i : Instr) (s t : State) (r : Word), exec i s = .next t → t.responses = s.responses ++ [r] →
    ∃ gs, t.trace = s.trace ++ gs ∧ (∀ g ∈ gs, g ≠ []) ∧
      (∀ e ∈ gs.flatten, e.frame.dest = some t.addr ∨ e.frame.dest = none) ∧
      (if statusOf r = 3#8 then FailsAtEnd gs.flatten else ∀ e ∈ gs.flatten, e.answer ≠ .fail)

/-- R324: every command sends at most 32 frames and at most 2 `Delay` events, whatever the bus answers. -/
def Obligations.FramesAreBounded : Prop :=
  ∀ (i : Instr) (s : State), ∃ t gs, exec i s = .next t ∧ t.trace = s.trace ++ gs ∧ frameCount gs ≤ 32 ∧
    delayCount gs ≤ 2

/-- R362: the groups, frames and `Delay` events of a command that ends with OK, by command. -/
def Obligations.BusActivityIsAsListed : Prop :=
  ∀ (i : Instr) (s t : State) (gs : List Group), exec i s = .next t → statusOf t.lastResponse = 0#8 →
    t.trace = s.trace ++ gs →
    (s.activity i).groupsMin ≤ gs.length ∧ gs.length ≤ (s.activity i).groupsMax ∧
      (s.activity i).framesMin ≤ frameCount gs ∧ frameCount gs ≤ (s.activity i).framesMax ∧
      delayCount gs = (s.activity i).delays

/-- R46, R47, R97: the write frames of every command but REG_WR and REG_BURST are of the listed forms; MODE2, the
sub-addresses and ALLCALLADR are never among them. -/
def Obligations.WriteFramesAreOfTheListedForms : Prop :=
  ∀ (i : Instr) (s t : State) (gs : List Group), exec i s = .next t → t.trace = s.trace ++ gs →
    i.op ≠ .regWr → i.op ≠ .regBurst →
    ∀ e ∈ gs.flatten, ∀ a reg data, e.frame = .write a reg data → listedWrite reg data

/-- R306, R310: the block state a command leaves when it ends with TRANSPORT_ERROR, by the number of groups it reached. The
record of frequency changes is no block state; `FrequencyChangesBeginAndEnd` says what becomes of it. -/
def Obligations.TransportErrorLeavesThePartialEffects : Prop :=
  ∀ (i : Instr) (s t : State) (r : Word) (gs : List Group), paramsOk s.params = true → exec i s = .next t →
    t.responses = s.responses ++ [r] → statusOf r = 3#8 → t.trace = s.trace ++ gs →
    t = { s.partialAfter i gs.length with
      trace := t.trace, responses := t.responses, devices := t.devices, changing := t.changing, replies := t.replies,
      traffic := t.traffic }

/-! ## The reference device and the bus -/

/-- R81, R91: the reference bus acknowledges every frame to a device that is there and answers reads with what it holds;
a frame to an address without a device fails; other devices ignore the frame. That a frame no device acknowledges leaves
every device as it was, though R93 speaks of any failed frame, is the model's reading (log entry 3, DEDUCED). -/
def Obligations.ReferenceBusAnswersItsDevices : Prop :=
  ∀ (ds : List Device) (f : Frame) (a : Addr), f.dest = some a →
    (∀ d, findDevice ds a = some d →
      (transact ds f .reference).1 = (match f with
        | .write _ _ _ => .ack
        | .read _ => .data (d.devRead d.ptr)
        | .delay _ => .elapsed) ∧
      ∀ b, b ≠ a → findDevice (transact ds f .reference).2 b = findDevice ds b) ∧
    (findDevice ds a = none → transact ds f .reference = (.fail, ds))

/-- R93, R96: the bus may answer a frame in every way, and after a failed frame the device may hold anything. That the
addressed device alone is drawn is the model's reading (log entry 3). -/
def Obligations.EveryAnswerAndEveryDrawIsPossible : Prop :=
  ∀ (ds : List Device) (f : Frame) (a : Addr), f.dest = some a → (findDevice ds a).isSome = true →
    (∀ v : Byte, ∃ r, (transact ds f r).1 = f.success v) ∧
    (∀ (regs : Byte → Byte) (ptr : Byte), ∃ r, (transact ds f r).1 = .fail ∧
      ∃ d, findDevice (transact ds f r).2 a = some d ∧ d.ptr = ptr ∧ ∀ x, d.reg x = regs x)

/-- R82, R84 to R88, R95: where the bytes of any write frame go. The first clause is R82 for every start and every length.
The others say it in closed form: AI clear, every byte goes to the frame's register; AI set, a run of bytes, those past
0x45 dropped; a start at MODE1, where AI is tested in the byte just stored; a run past 0xFF, which goes on at MODE1. -/
def Obligations.WriteFrameFollowsThePointer : Prop :=
  ∀ (d : Device) (p : Byte) (bs : List Byte), d.mem.wf →
    ((d.writeFrame p bs).ptr = (frameAfter d.reg p bs).2 ∧ ∀ r, (d.writeFrame p bs).reg r = (frameAfter d.reg p bs).1 r) ∧
    (d.autoInc = false → 1 ≤ p.toNat → p.toNat ≤ 0x45 → bs ≠ [] →
      (d.writeFrame p bs).ptr = p ∧ ∀ r, (d.writeFrame p bs).reg r = if r = p then bs.getLastD 0#8 else d.reg r) ∧
    (d.autoInc = true → 1 ≤ p.toNat → p.toNat + bs.length ≤ 0xFA →
      (d.writeFrame p bs).ptr.toNat = p.toNat + bs.length ∧ ∀ r : Byte, (d.writeFrame p bs).reg r =
        if p.toNat ≤ r.toNat ∧ r.toNat < p.toNat + bs.length ∧ r.toNat ≤ 0x45 then bs.getD (r.toNat - p.toNat) 0#8
        else d.reg r) ∧
    (∀ v w : Byte,
      (v &&& 0x20#8 ≠ 0#8 → (d.writeFrame 0x00#8 [v, w]).ptr = 0x02#8 ∧ ∀ r, (d.writeFrame 0x00#8 [v, w]).reg r =
        if r = 0x00#8 then v else if r = 0x01#8 then w else d.reg r) ∧
      (v &&& 0x20#8 = 0#8 → (d.writeFrame 0x00#8 [v, w]).ptr = (if w &&& 0x20#8 ≠ 0#8 then 0x01#8 else 0x00#8) ∧
        ∀ r, (d.writeFrame 0x00#8 [v, w]).reg r = if r = 0x00#8 then w else d.reg r)) ∧
    (d.autoInc = true → ∀ v w : Byte,
      (d.writeFrame 0xFF#8 [v, w]).ptr = (if w &&& 0x20#8 ≠ 0#8 then 0x01#8 else 0x00#8) ∧
        ∀ r, (d.writeFrame 0xFF#8 [v, w]).reg r = if r = 0x00#8 then w else d.reg r)

/-- R94: a read changes no register, only the pointer when AI is set, and writing a byte twice leaves what writing it once
leaves. -/
def Obligations.ReadsAndRepeatedWritesChangeNothing : Prop :=
  ∀ (d : Device) (a : Addr) (r v : Byte), d.mem.wf →
    (d.accept (.read a) = if d.reg 0x00#8 &&& 0x20#8 ≠ 0#8 then { d with ptr := d.ptr + 1#8 } else d) ∧
    (∀ x, (d.accept (.read a)).reg x = d.reg x) ∧ (d.devWrite r v).devWrite r v = d.devWrite r v

/-! ## Register-bus commands -/

/-- R150, R151, with R84 to R88 for the device: one frame, no block field, and on the reference device the registers that
R84 says. -/
def Obligations.RegWrWritesOneRegister : Prop :=
  ∀ (s : State) (reg v : Byte), s.phase = .ready → s.answers →
    ∃ t, exec (.regWr reg v) s = .next (t.respond .ok 0#16) ∧ BusEffect s t [[wrote s.addr reg [v]]] ∧
      ReferenceRegisters s t (fun f r =>
        if 0xFA ≤ reg.toNat ∧ reg.toNat ≤ 0xFD then
          (if 0x06 ≤ r.toNat ∧ r.toNat ≤ 0x45 ∧ (r.toNat - 0x06) % 4 = reg.toNat - 0xFA then v else f r)
        else if reg = 0xFE#8 then (if r = 0xFE#8 ∧ f 0x00#8 &&& 0x10#8 ≠ 0#8 then v else f r)
        else if (0x46 ≤ reg.toNat ∧ reg.toNat ≤ 0xF9) ∨ reg = 0xFF#8 then f r
        else if r = reg then v else f r)

/-- R152, R153, with R83 and R89: the byte returned is the one the device sent, and no register changes. -/
def Obligations.RegRdReturnsTheDeviceByte : Prop :=
  ∀ (s : State) (reg : Byte), s.phase = .ready → s.answers →
    ∃ (t : State) (v : Byte), exec (.regRd reg) s = .next (t.respond .ok (v.setWidth 16)) ∧
      BusEffect s t [[wrote s.addr reg [], didRead s.addr v]] ∧ ReferenceRegisters s t (fun f r => f r) ∧
      (s.quiet → ∀ d, findDevice s.devices s.addr = some d →
        v = if (0x46 ≤ reg.toNat ∧ reg.toNat ≤ 0xFD) ∨ reg = 0xFF#8 then 0x00#8 else d.reg reg)

/-- R154, R155: MODE1 is read, AI set when it is clear with every other bit kept, then the burst, in one group. On the
reference device the burst leaves what R82 and R84 say, from any start; in closed form: a burst that runs from 0x01 to 0x45
or on into the reserved registers, one that starts at MODE1 with AI clear in its bytes, one that starts at PRE_SCALE and
wraps to MODE1, and a broadcast to all 16 channels. -/
def Obligations.RegBurstSetsAutoIncrement : Prop :=
  ∀ (s : State) (reg : Byte) (data : List Byte), s.phase = .ready → s.answers → 1 ≤ data.length → data.length ≤ 4 →
    ∃ (t : State) (m : Byte), exec (.regBurst reg data) s = .next (t.respond .ok 0#16) ∧
      BusEffect s t [[wrote s.addr 0x00#8 [], didRead s.addr m] ++
        (if m &&& 0x20#8 = 0#8 then [wrote s.addr 0x00#8 [m ||| 0x20#8]] else []) ++ [wrote s.addr reg data]] ∧
      ReferenceRegisters s t (fun f r => (frameAfter (withAI f) reg data).1 r) ∧
      (s.quiet → ∀ d, findDevice s.devices s.addr = some d → d.mem.wf →
        ∃ d', findDevice t.devices s.addr = some d' ∧ d'.ptr = (frameAfter (withAI d.reg) reg data).2) ∧
      (1 ≤ reg.toNat → reg.toNat + data.length ≤ 0xFA → ReferenceRegisters s t (fun f r =>
        if reg.toNat ≤ r.toNat ∧ r.toNat < reg.toNat + data.length ∧ r.toNat ≤ 0x45 then
          data.getD (r.toNat - reg.toNat) 0#8
        else withAI f r)) ∧
      (reg = 0x00#8 → (∀ v ∈ data, v &&& 0x20#8 = 0#8) → ReferenceRegisters s t (fun f r =>
        if r = 0x00#8 then data.getLastD 0#8 else f r)) ∧
      (∀ p u v : Byte, reg = 0xFE#8 → data = [p, u, v] → ReferenceRegisters s t (fun f r =>
        if r = 0xFE#8 ∧ f 0x00#8 &&& 0x10#8 ≠ 0#8 then p else if r = 0x00#8 then v else f r)) ∧
      (reg = 0xFA#8 → data.length = 4 → ReferenceRegisters s t (fun f r =>
        if 0x06 ≤ r.toNat ∧ r.toNat ≤ 0x45 then data.getD ((r.toNat - 0x06) % 4) 0#8 else withAI f r))

/-! ## Controller commands -/

/-- R171: the accepted frequencies are exactly the raw values from 1 559 455 to 114 285 714, and the prescale is
`round(400 000 000 / h) − 1`, rounded half up. -/
def Obligations.PrescaleIsRoundedHalfUp : Prop :=
  ∀ h : Word, ((prescale h).isSome = true ↔ 1559455 ≤ h.toNat ∧ h.toNat ≤ 114285714) ∧
    ∀ p, prescale h = some p → 3 ≤ p.toNat ∧ p.toNat + 1 = (800000000 + h.toNat) / (2 * h.toNat) ∧
      2 * h.toNat * (p.toNat + 1) ≤ 800000000 + h.toNat ∧ 800000000 < h.toNat * (2 * p.toNat + 3)

/-- R179, with R44, R49 and R76: the four bytes of every duty, and what the channel shows once they stand in its registers:
constantly high from +1.0 up, constantly low from 0 down, else `floor(4096 × duty)` counts, at least 1. -/
def Obligations.PatternGivesItsOutput : Prop :=
  ∀ (d : Duty) (ch : Channel) (dev : Device), dev.mem.wf →
    (pattern d).length = 4 ∧
    (16384 ≤ d.toInt → pattern d = [0x00#8, 0x10#8, 0x00#8, 0x00#8]) ∧
    (d.toInt ≤ 0 → pattern d = [0x00#8, 0x00#8, 0x00#8, 0x10#8]) ∧
    (dev.burst (regLed ch) (pattern d)).channelOutput ch = dutyOutput d ∧
    (∀ c, c ≠ ch → (dev.burst (regLed ch) (pattern d)).channelOutput c = dev.channelOutput c) ∧
    (0 < d.toInt → d.toInt < 16384 →
      pattern d = [0x00#8, 0x00#8, BitVec.ofNat 8 (max 1 (d.toInt.toNat / 4)),
        BitVec.ofNat 8 (max 1 (d.toInt.toNat / 4) / 256)] ∧ max 1 (d.toInt.toNat / 4) ≤ 4095)

/-- R170, R173, R342: CTRL_INIT on a bus that answers: the address is taken, ResetSeq and FreqSeq run, and the block is
READY; the registers of the reference device are then R342's. No frequency change is under way there afterwards (R353). -/
def Obligations.CtrlInitConstructsTheController : Prop :=
  ∀ (s : State) (addr : Addr) (hz : Word) (p : Byte), s.phase = .uninit → addr ∉ s.peers → prescale hz = some p →
    s.answersAt addr →
    ∃ t gs hs, exec (.ctrlInit addr hz) s = .next (State.respond { t with phase := .ready } .ok 0#16) ∧
      BusEffect { s with addr := addr, changing := s.changing.filter (fun b => b != addr) } t (gs ++ hs) ∧ ResetGroups addr gs ∧ FreqGroups addr p hs ∧
      ReferenceRegisters s t (freqRegs p) ∧
      (s.quiet → ∀ d, findDevice s.devices addr = some d → d.mem.wf →
        ∃ d', findDevice t.devices addr = some d' ∧ d'.ptr = 0x01#8)

/-- R170, R174, R343: CTRL_RESET on a bus that answers; no block field changes, and PRE_SCALE is kept. A frequency change
of the device is over afterwards (R353). -/
def Obligations.CtrlResetForcesEveryChannelOff : Prop :=
  ∀ s : State, s.phase = .ready → s.answers →
    ∃ t gs, exec .ctrlReset s = .next (t.respond .ok 0#16) ∧
      BusEffect { s with changing := s.changing.filter (fun b => b != s.addr) } t gs ∧ ResetGroups s.addr gs ∧
      ReferenceRegisters s t (fun f r =>
        if r = 0x00#8 then 0xA0#8
        else if 0x06 ≤ r.toNat ∧ r.toNat ≤ 0x45 then (if (r.toNat - 0x06) % 4 = 3 then 0x10#8 else 0x00#8)
        else f r)

/-- R172, R177, R344: CTRL_FREQ on a bus that answers; no block field changes. The frequency change is over afterwards
(R353). -/
def Obligations.CtrlFreqWritesThePrescale : Prop :=
  ∀ (s : State) (hz : Word) (p : Byte), s.phase = .ready → s.answers → prescale hz = some p →
    ∃ t gs, exec (.ctrlFreq hz) s = .next (t.respond .ok 0#16) ∧
      BusEffect { s with changing := s.changing.filter (fun b => b != s.addr) } t gs ∧ FreqGroups s.addr p gs ∧
      ReferenceRegisters s t (fun f r =>
        if r = 0xFE#8 then p
        else if r = 0x00#8 then 0xA0#8
        else if 0x06 ≤ r.toNat ∧ r.toNat ≤ 0x45 then (if (r.toNat - 0x06) % 4 = 3 then 0x10#8 else 0x00#8)
        else f r)

/-- R180, R181: CTRL_DUTY sends one channel's pattern, bound or not, and writes no block field. -/
def Obligations.CtrlDutyWritesOneChannel : Prop :=
  ∀ (s : State) (id : Byte) (d : Duty) (h : id.toNat < 16), s.phase = .ready → s.answers →
    ∃ t g, exec (.ctrlDuty id d) s = .next (t.respond .ok 0#16) ∧ BusEffect s t [g] ∧
      BurstGroup s.addr (BitVec.ofNat 8 (0x06 + 4 * id.toNat)) (pattern d) g ∧
      ReferenceRegisters s t (registersAfter [(⟨id.toNat, h⟩, pattern d)])

/-! ## What the device shows -/

/-- R49, R92, R313, R321, R353: what a channel shows between two commands, and what the commands do to it on the reference
bus with no other agent. Outside a frequency change a sleeping device shows nothing and any other what its registers say;
inside one, any value; no device, nothing. A REG_WR to MODE1 puts the outputs to sleep and wakes them; after CTRL_INIT,
CTRL_RESET and CTRL_FREQ every channel is low; a channel burst changes its channel's output alone. Two things in it are the
model's and no rule's: that the window of R353 is read from `changing`, and that the any value in it is Config.freeOutput of
the numbers of responses and events, the address and the channel (log entry 12, DESIGN CHOICE); and that the view is of a
bare bus address (log entry 21, DEDUCED). -/
def Obligations.OutputsFollowTheRegisters : Prop :=
  ∀ (s : State) (a : Addr) (ch : Channel),
    (findDevice s.devices a = none → s.output a ch = none) ∧
    (∀ d, findDevice s.devices a = some d → s.output a ch = some (
      if a ∈ s.changing then Config.freeOutput s.responses.length s.events.length a ch
      else if d.reg 0x00#8 &&& 0x10#8 ≠ 0#8 then .stopped
      else outputOf d.reg ch)) ∧
    (s.quiet → (∀ d ∈ s.devices, d.mem.wf) →
      (∀ (i : Instr) (t : State), i.op ∈ [Op.ctrlInit, Op.ctrlReset, Op.ctrlFreq] → exec i s = .next t →
        statusOf t.lastResponse = 0#8 → t.output t.addr ch = some .low) ∧
      (s.phase = .ready → s.addr ∉ s.changing → ∀ d, findDevice s.devices s.addr = some d →
        (∀ v : Byte, ∃ t, exec (.regWr 0x00#8 v) s = .next t ∧
          t.output s.addr ch = some (if v &&& 0x10#8 ≠ 0#8 then .stopped else outputOf d.reg ch)) ∧
        (∀ (id : Byte) (duty : Duty), id.toNat < 16 → ∃ t, exec (.ctrlDuty id duty) s = .next t ∧
          t.output s.addr ch = some (
            if d.reg 0x00#8 &&& 0x10#8 ≠ 0#8 then .stopped
            else if ch.val = id.toNat then dutyOutput duty
            else outputOf d.reg ch) ∧
          (a ≠ s.addr → a ∉ s.changing → t.output a ch = s.output a ch))))

/-- R353: when a frequency change of the block's device is under way after a command, by the groups the command sent, with
any answers of the bus; and no command begins or ends one at another address. A raw write to MODE1 begins none (R321). That
a SLEEP frame counts although it failed, and an ALL_LED burst that failed does not, is the model's reading (log entry 12). -/
def Obligations.FrequencyChangesBeginAndEnd : Prop :=
  ∀ (i : Instr) (s t : State) (gs : List Group), exec i s = .next t → t.trace = s.trace ++ gs →
    (t.addr ∈ t.changing ↔ windowAfter i (decide (t.addr ∈ s.changing)) gs = true) ∧
    ∀ b, b ≠ t.addr → (b ∈ t.changing ↔ b ∈ s.changing)

/-! ## Channel and line commands -/

/-- R200, R202: CH_BIND takes a free channel and sets its duty to 0; CH_RELEASE frees a channel the port holds, and its
duty stays. Nothing else changes, and no frame is sent. -/
def Obligations.ChBindAndChReleaseTakeAndFreeAChannel : Prop :=
  ∀ (s : State) (id : Byte) (h : id.toNat < 16), s.phase = .ready →
    (s.entry ⟨id.toNat, h⟩ = .free → exec (.chBind id) s = .next { s with
      alloc := s.alloc.set id.toNat .port, chDuty := s.chDuty.set id.toNat 0#16,
      responses := s.responses ++ [0x00000000#32] }) ∧
    (s.entry ⟨id.toNat, h⟩ = .port → exec (.chRelease id) s = .next { s with
      alloc := s.alloc.set id.toNat .free, responses := s.responses ++ [0x00000000#32] })

/-- R204, R209: CH_DUTY stores the duty of a channel the port holds and sends its pattern. -/
def Obligations.ChDutyStoresAndSendsTheDuty : Prop :=
  ∀ (s : State) (id : Byte) (d : Duty) (h : id.toNat < 16), s.phase = .ready → s.answers →
    0 ≤ d.toInt → d.toInt ≤ 16384 → s.entry ⟨id.toNat, h⟩ = .port →
    ∃ t g, exec (.chDuty id d) s = .next (t.respond .ok 0#16) ∧
      BusEffect { s with chDuty := s.chDuty.set id.toNat d } t [g] ∧
      BurstGroup s.addr (BitVec.ofNat 8 (0x06 + 4 * id.toNat)) (pattern d) g ∧
      ReferenceRegisters s t (registersAfter [(⟨id.toNat, h⟩, pattern d)])

/-- R206, R207, R210: LINE_SET stores +1.0 or 0 and sends the full-on or the full-off pattern. -/
def Obligations.LineSetSendsAnOverride : Prop :=
  ∀ (s : State) (id : Byte) (b : Bool) (h : id.toNat < 16), s.phase = .ready → s.answers →
    s.entry ⟨id.toNat, h⟩ = .port →
    ∃ t g, exec (.lineSet id b) s = .next (t.respond .ok 0#16) ∧
      BusEffect { s with chDuty := s.chDuty.set id.toNat (if b then 0x4000#16 else 0x0000#16) } t [g] ∧
      BurstGroup s.addr (BitVec.ofNat 8 (0x06 + 4 * id.toNat))
        (if b then [0x00#8, 0x10#8, 0x00#8, 0x00#8] else [0x00#8, 0x00#8, 0x00#8, 0x10#8]) g ∧
      ReferenceRegisters s t (registersAfter [(⟨id.toNat, h⟩, if b then fullOn else fullOff)])

/-- R208, R211: LINE_GET returns whether the stored duty is at least +1.0; nothing changes. -/
def Obligations.LineGetReadsTheStoredDuty : Prop :=
  ∀ (s : State) (id : Byte) (h : id.toNat < 16), s.phase = .ready → s.entry ⟨id.toNat, h⟩ = .port →
    exec (.lineGet id) s = .next { s with responses := s.responses ++
      [if 16384 ≤ (s.chDuty[id.toNat]).toInt then 0x00000001#32 else 0x00000000#32] }

/-! ## H-bridge commands -/

/-- R12, R230, R231: HB_CONFIG binds the three channels of connector k, each at duty 0, and configures the bridge at duty
0; nothing else changes, and no frame is sent. -/
def Obligations.HbConfigBindsThreeChannels : Prop :=
  ∀ (s : State) (id : Byte) (k : Conn), s.phase = .ready → Conn.ofByte id = some k → (s.bridge k).cfg = false →
    s.entry k.in1 = .free → s.entry k.in2 = .free → s.entry k.pwm = .free →
    ∃ t : State, exec (.hbConfig id) s = .next (t.respond .ok 0#16) ∧
      t = { s with alloc := t.alloc, chDuty := t.chDuty, bridges := t.bridges } ∧
      (∀ c, t.owner c = if c = k.in1 ∨ c = k.in2 ∨ c = k.pwm then .bridge k else s.owner c) ∧
      (∀ c, t.duty c = if c = k.in1 ∨ c = k.in2 ∨ c = k.pwm then 0#16 else s.duty c) ∧
      (∀ k', t.bridge k' = if k' = k then { cfg := true, duty := 0#16 } else s.bridge k') ∧
      (k.in1, k.in2, k.pwm) = (match k with
        | .c1 => (10, 9, 8)
        | .c2 => (11, 12, 13)
        | .c3 => (5, 6, 7)
        | .c4 => (4, 3, 2))

/-- R233 to R236: HB_SET stores the duty and sends three bursts, four when the stored polarity flips, in R234's order:
the power line off first on a flip, then the other direction line off, this direction's on, then the power line at the
magnitude. Polarity and power are then the duty's. -/
def Obligations.HbSetWritesLinesThenPower : Prop :=
  ∀ (s : State) (id : Byte) (d : Duty) (k : Conn), s.phase = .ready → s.answers → Conn.ofByte id = some k →
    -16384 ≤ d.toInt → d.toInt ≤ 16384 → (s.bridge k).cfg = true →
    ∃ t gs, exec (.hbSet id d) s = .next (t.respond .ok 0#16) ∧
      BusEffect { s with chDuty := t.chDuty, bridges := t.bridges } t gs ∧
      BurstGroups s.addr (bridgeBursts k (polarity (s.bridge k).duty) d) gs ∧
      gs.length = (if polarity d = polarity (s.bridge k).duty then 3 else 4) ∧
      (∀ c, t.duty c = bridgeDuties k d s.duty c) ∧
      (∀ k', t.bridge k' = if k' = k then { cfg := true, duty := d } else s.bridge k') ∧
      t.bridgeState k = (decide (0 ≤ d.toInt), d.toInt.natAbs) ∧
      ReferenceRegisters s t (registersAfter (bridgeBursts k (polarity (s.bridge k).duty) d))

/-- R238: HB_BRAKE sets both direction lines high, IN1 first; the stored bridge duty and the power line stay. -/
def Obligations.HbBrakeSetsBothLinesHigh : Prop :=
  ∀ (s : State) (id : Byte) (k : Conn), s.phase = .ready → s.answers → Conn.ofByte id = some k →
    (s.bridge k).cfg = true →
    ∃ t gs, exec (.hbBrake id) s = .next (t.respond .ok 0#16) ∧
      BusEffect { s with chDuty := t.chDuty } t gs ∧
      BurstGroups s.addr [(k.in1, fullOn), (k.in2, fullOn)] gs ∧
      (∀ c, t.duty c = if c = k.in1 ∨ c = k.in2 then 0x4000#16 else s.duty c) ∧
      ReferenceRegisters s t (registersAfter [(k.in1, fullOn), (k.in2, fullOn)])

/-- R240: HB_RELEASE sets the power line and then both direction lines to 0; the stored bridge duty stays. -/
def Obligations.HbReleaseFreesTheMotor : Prop :=
  ∀ (s : State) (id : Byte) (k : Conn), s.phase = .ready → s.answers → Conn.ofByte id = some k →
    (s.bridge k).cfg = true →
    ∃ t gs, exec (.hbRelease id) s = .next (t.respond .ok 0#16) ∧
      BusEffect { s with chDuty := t.chDuty } t gs ∧
      BurstGroups s.addr [(k.pwm, fullOff), (k.in1, fullOff), (k.in2, fullOff)] gs ∧
      (∀ c, t.duty c = if c = k.in1 ∨ c = k.in2 ∨ c = k.pwm then 0x0000#16 else s.duty c) ∧
      ReferenceRegisters s t (registersAfter [(k.pwm, fullOff), (k.in1, fullOff), (k.in2, fullOff)])

/-- R243: the device states of a bridge, burst by burst, on the reference bus with no other agent: the six rows of the
table, each from any state of the three outputs. -/
def Obligations.BridgeDeviceStatesFollowTheTable : Prop :=
  ∀ (s : State) (id : Byte) (k : Conn) (d : Device) (a b p : Output), s.phase = .ready → s.quiet →
    findDevice s.devices s.addr = some d → d.mem.wf → Conn.ofByte id = some k → (s.bridge k).cfg = true →
    d.bridgeTriple k = (a, b, p) →
    (∀ duty : Duty, -16384 ≤ duty.toInt → duty.toInt ≤ 16384 →
      ∃ t gs, exec (.hbSet id duty) s = .next t ∧ t.trace = s.trace ++ gs ∧
        (deviceHistory s.devices gs).map (fun ds => (findDevice ds s.addr).map (·.bridgeTriple k)) =
          (hbSetTriples (decide (0 ≤ (s.bridge k).duty.toInt)) (decide (0 ≤ duty.toInt)) a b p
            (dutyOutput (magnitude duty))).map some) ∧
    (∃ t gs, exec (.hbBrake id) s = .next t ∧ t.trace = s.trace ++ gs ∧
      (deviceHistory s.devices gs).map (fun ds => (findDevice ds s.addr).map (·.bridgeTriple k)) =
        [some (.high, b, p), some (.high, .high, p)]) ∧
    (∃ t gs, exec (.hbRelease id) s = .next t ∧ t.trace = s.trace ++ gs ∧
      (deviceHistory s.devices gs).map (fun ds => (findDevice ds s.addr).map (·.bridgeTriple k)) =
        [some (a, b, .low), some (.low, b, .low), some (.low, .low, .low)])

/-- R48 item 5, R239: a command that leaves both stored lines of a configured bridge high, where they were not, is the
HB_BRAKE of that bridge, however the bus answers it. -/
def Obligations.OnlyBrakeRaisesBothLines : Prop :=
  ∀ (i : Instr) (s t : State) (k : Conn), Inv s → exec i s = .next t → (s.bridge k).cfg = true →
    s.bothHigh k = false → t.bothHigh k = true → ∃ id, i = .hbBrake id ∧ Conn.ofByte id = some k

/-! ## Sequencer commands -/

/-- R262, R263, R265 item 5: the whole-step and half-step tables, and the worked generated tables, computed by the
arithmetic of log entry 10. -/
def Obligations.TablesAreAsListed : Prop :=
  (∀ p : Params,
    (List.range 4).map (stepT1 p 4) = [0x4000#16, 0xC000#16, 0xC000#16, 0x4000#16] ∧
    (List.range 4).map (stepT2 p 4) = [0x4000#16, 0x4000#16, 0xC000#16, 0xC000#16] ∧
    (List.range 8).map (stepT1 p 8) =
      [0x4000#16, 0x4000#16, 0x0000#16, 0xC000#16, 0xC000#16, 0xC000#16, 0x0000#16, 0x4000#16] ∧
    (List.range 8).map (stepT2 p 8) =
      [0x0000#16, 0x4000#16, 0x4000#16, 0x4000#16, 0x0000#16, 0xC000#16, 0xC000#16, 0xC000#16]) ∧
  (List.range 9).map (fun i => (stepT1 Params.default 9 i).toInt) =
    [16384, 11585, 0, -11585, -16384, -11585, 0, 11585, 16384] ∧
  (List.range 9).map (fun i => (stepT2 Params.default 9 i).toInt) =
    [0, 11585, 16384, 11585, 0, -11585, -16384, -11585, 0] ∧
  (List.range 12).map (fun i => (stepT1 Params.default 12 i).toInt) =
    [16384, 13783, 6806, -2332, -10729, -15720, -15720, -10729, -2332, 6806, 13783, 16384] ∧
  (List.range 12).map (fun i => (stepT2 Params.default 12 i).toInt) =
    [0, 8858, 14903, 16217, 12382, 4616, -4616, -12382, -16217, -14903, -8858, 0] ∧
  (List.range 16).map (fun i => (stepT1 Params.default 16 i).toInt) =
    [16384, 14968, 10963, 5063, -1713, -8192, -13255, -16026, -16026, -13255, -8192, -1713, 5063, 10963, 14968, 16384] ∧
  (List.range 16).map (fun i => (stepT2 Params.default 16 i).toInt) =
    [0, 6664, 12176, 15582, 16294, 14189, 9630, 3406, -3406, -9630, -14189, -16294, -15582, -12176, -6664, 0] ∧
  (List.range 12).map (fun i => (stepT1 { Params.default with trigDivisor := .n } 12 i).toInt) =
    [16384, 14189, 8192, 0, -8192, -14189, -16384, -14189, -8192, 0, 8192, 14189]

/-- R260, R265 items 1 to 3: every entry of every table is in [−ONE, ONE]; a generated table starts at (ONE, 0), and with
the divisor N − 1 its last entry is its first again. -/
def Obligations.TableEntriesAreDuties : Prop :=
  (∀ (p : Params) (n i : Nat), paramsOk p = true →
    (-16384 ≤ (stepT1 p n i).toInt ∧ (stepT1 p n i).toInt ≤ 16384) ∧
      -16384 ≤ (stepT2 p n i).toInt ∧ (stepT2 p n i).toInt ≤ 16384) ∧
  (∀ (p : Params) (n : Nat), p.trigQ = .rne → 8 < n → n < 65536 →
    stepT1 p n 0 = 0x4000#16 ∧ stepT2 p n 0 = 0x0000#16 ∧
      (p.trigDivisor = .nMinusOne → stepT1 p n (n - 1) = 0x4000#16 ∧ stepT2 p n (n - 1) = 0x0000#16))

/-- R264: with the default quantisation, every entry of every generated table is the cosine or the sine of its angle times
ONE, to the nearest integer: off by at most one half and a margin of 2^−40. No entry lies so near a rounding boundary
(log entry 10), so the nearest integer is the one given. -/
def Obligations.GeneratedTablesAreCosAndSin : Prop :=
  ∀ (p : Params) (n i D : Nat), p.trigQ = .rne → 8 < n → n < 65536 → i < n →
    D = (match p.trigDivisor with
      | .nMinusOne => n - 1
      | .n => n) →
    |((stepT1 p n i).toInt : ℝ) - 16384 * Real.cos (2 * Real.pi * i / D)| ≤ 1 / 2 + 1 / 2 ^ 40 ∧
    |((stepT2 p n i).toInt : ℝ) - 16384 * Real.sin (2 * Real.pi * i / D)| ≤ 1 / 2 + 1 / 2 ^ 40

/-- R261, R266, R268: SEQ_CONFIG configures a free slot at index 0; nothing else changes, and no frame is sent. -/
def Obligations.SeqConfigConfiguresASlot : Prop :=
  ∀ (s : State) (id bra brb : Byte) (n : BitVec 16) (ka kb : Conn), s.phase = .ready → id.toNat < s.nseq →
    Conn.ofByte bra = some ka → Conn.ofByte brb = some kb → ka ≠ kb →
    (n.toNat = 4 ∨ n.toNat = 8 ∨ 8 < n.toNat) → (s.seq id.toNat).cfg = false → (s.bridge ka).cfg = true →
    (s.bridge kb).cfg = true →
    exec (.seqConfig id bra brb n) s = .next { s with
      seqs := s.seqs.set id.toNat { cfg := true, ph1 := ka, ph2 := kb, n := n, idx := 0#16 }
      responses := s.responses ++ [0x00000000#32] }

/-- R269 to R272: SEQ_STEP advances the index, then writes the pair of table entries, phase 1 before phase 2, each as an
HB_SET does. The two phases of a configured slot differ, and the tables are in range (both part of `Inv`). -/
def Obligations.SeqStepAdvancesThenWritesThePair : Prop :=
  ∀ (s : State) (id : Byte) (dir : BitVec 2) (q : Seq) (idx : Nat), s.phase = .ready → s.answers →
    paramsOk s.params = true → id.toNat < s.nseq → s.seq id.toNat = q → q.cfg = true → q.ph1 ≠ q.ph2 →
    q.idx.toNat < q.n.toNat →
    (dir = 0#2 ∧ idx = q.idx.toNat ∨ dir = 1#2 ∧ idx = (q.idx.toNat + 1) % q.n.toNat ∨
      dir = 3#2 ∧ idx = (q.idx.toNat + q.n.toNat - 1) % q.n.toNat) →
    ∃ t gs d1 d2, d1 = stepT1 s.params q.n.toNat idx ∧ d2 = stepT2 s.params q.n.toNat idx ∧
      exec (.seqStep id dir) s = .next (t.respond .ok 0#16) ∧
      BusEffect { s with chDuty := t.chDuty, bridges := t.bridges, seqs := t.seqs } t gs ∧
      BurstGroups s.addr (bridgeBursts q.ph1 (polarity (s.bridge q.ph1).duty) d1 ++
        bridgeBursts q.ph2 (polarity (s.bridge q.ph2).duty) d2) gs ∧
      t.seqs = s.seqs.set id.toNat { q with idx := BitVec.ofNat 16 idx } ∧
      (∀ c, t.duty c = bridgeDuties q.ph2 d2 (bridgeDuties q.ph1 d1 s.duty) c) ∧
      (∀ k, t.bridge k = if k = q.ph1 then { s.bridge k with duty := d1 }
        else if k = q.ph2 then { s.bridge k with duty := d2 } else s.bridge k) ∧
      ReferenceRegisters s t (registersAfter (bridgeBursts q.ph1 (polarity (s.bridge q.ph1).duty) d1 ++
        bridgeBursts q.ph2 (polarity (s.bridge q.ph2).duty) d2))

/-- R275, R276: SEQ_RELEASE writes duty 0 to both phases, phase 1 first, each as an HB_SET does; the index is kept. -/
def Obligations.SeqReleaseZeroesBothPhases : Prop :=
  ∀ (s : State) (id : Byte) (q : Seq), s.phase = .ready → s.answers → id.toNat < s.nseq → s.seq id.toNat = q →
    q.cfg = true → q.ph1 ≠ q.ph2 →
    ∃ t gs, exec (.seqRelease id) s = .next (t.respond .ok 0#16) ∧
      BusEffect { s with chDuty := t.chDuty, bridges := t.bridges } t gs ∧
      BurstGroups s.addr (bridgeBursts q.ph1 (polarity (s.bridge q.ph1).duty) 0#16 ++
        bridgeBursts q.ph2 (polarity (s.bridge q.ph2).duty) 0#16) gs ∧
      (∀ c, t.duty c = bridgeDuties q.ph2 0#16 (bridgeDuties q.ph1 0#16 s.duty) c) ∧
      (∀ k, t.bridge k = if k = q.ph1 ∨ k = q.ph2 then { s.bridge k with duty := 0#16 } else s.bridge k) ∧
      ReferenceRegisters s t (registersAfter (bridgeBursts q.ph1 (polarity (s.bridge q.ph1).duty) 0#16 ++
        bridgeBursts q.ph2 (polarity (s.bridge q.ph2).duty) 0#16))

/-- R242, R277: HB_GET returns the stored duty of a configured bridge and SEQ_GET the index of a configured slot; nothing
changes. -/
def Obligations.HbGetAndSeqGetReturnStoredState : Prop :=
  ∀ (s : State) (id : Byte), s.phase = .ready →
    (∀ k : Conn, Conn.ofByte id = some k → (s.bridge k).cfg = true →
      exec (.hbGet id) s = .next { s with responses := s.responses ++ [(s.bridge k).duty.setWidth 32] }) ∧
    (id.toNat < s.nseq → (s.seq id.toNat).cfg = true →
      exec (.seqGet id) s = .next { s with responses := s.responses ++ [(s.seq id.toNat).idx.setWidth 32] })

/-- R274, R278: `m` steps forward, or backward, of a configured slot move its index by `m` modulo its table size, whatever
the bus answers; so the table size many steps return it, and on the way each index is met once. -/
def Obligations.StepsArePeriodic : Prop :=
  ∀ (s : State) (id : Byte) (q : Seq) (m : Nat), s.phase = .ready → id.toNat < s.nseq → s.seq id.toNat = q →
    q.cfg = true → q.idx.toNat < q.n.toNat →
    (∃ t, runAll (List.replicate m (.seqStep id 1#2)) s = some t ∧
      (t.seq id.toNat).idx.toNat = (q.idx.toNat + m) % q.n.toNat) ∧
    (∃ t, runAll (List.replicate m (.seqStep id 3#2)) s = some t ∧
      ((t.seq id.toNat).idx.toNat + m) % q.n.toNat = q.idx.toNat ∧ (t.seq id.toNat).idx.toNat < q.n.toNat) ∧
    (∃ t, runAll (List.replicate q.n.toNat (.seqStep id 1#2)) s = some t ∧ t.seq id.toNat = q) ∧
    (∃ t, runAll [.seqStep id 1#2, .seqStep id 3#2] s = some t ∧ t.seq id.toNat = q)

/-- R279: four steps forward of a whole-step slot at index 0 write [−1,+1], [−1,−1], [+1,−1], [+1,+1], and the index is 0
again. -/
def Obligations.WholeStepScenario : Prop :=
  ∀ (s : State) (id : Byte) (q : Seq), s.phase = .ready → s.answers → id.toNat < s.nseq → s.seq id.toNat = q →
    q.cfg = true → q.ph1 ≠ q.ph2 → q.n = 4#16 → q.idx = 0#16 →
    ∃ t1 t2 t3 t4, exec (.seqStep id 1#2) s = .next t1 ∧ exec (.seqStep id 1#2) t1 = .next t2 ∧
      exec (.seqStep id 1#2) t2 = .next t3 ∧ exec (.seqStep id 1#2) t3 = .next t4 ∧
      [t1, t2, t3, t4].map (fun t => ((t.bridge q.ph1).duty, (t.bridge q.ph2).duty)) =
        [(0xC000#16, 0x4000#16), (0xC000#16, 0xC000#16), (0x4000#16, 0xC000#16), (0x4000#16, 0x4000#16)] ∧
      t4.seq id.toNat = q

/-! ## The whole machine -/

/-- R48: the invariant holds right after reset. -/
def Obligations.InvHoldsAtReset : Prop := Inv State.reset

/-- R34, R48: from every state that meets it, a step keeps the invariant: a command with any answers of the bus, an
illegal command, an event of the outside world. -/
def Obligations.StepKeepsInv : Prop := ∀ s t : State, Inv s → step s = .next t → Inv t

/-- R31, R32, R34 to R38, R203, R347: which commands may change each field of the block, and that nothing returns READY to
UNINIT or un-configures a bridge or a sequencer. Only the commands with a ResetSeq begin or end a frequency change (R321,
R353). -/
def Obligations.FieldsChangeOnlyByTheirCommands : Prop :=
  ∀ (i : Instr) (s t : State), exec i s = .next t →
    (t.phase ≠ s.phase → i.op = .ctrlInit ∧ t.phase = .ready ∧ statusOf t.lastResponse = 0#8) ∧
    (t.addr ≠ s.addr → i.op = .ctrlInit ∧ s.phase = .uninit) ∧
    (t.alloc ≠ s.alloc → i.op ∈ [Op.chBind, Op.chRelease, Op.hbConfig]) ∧
    (t.chDuty ≠ s.chDuty → i.op ∈ [Op.chBind, Op.chDuty, Op.lineSet, Op.hbConfig, Op.hbSet, Op.hbBrake, Op.hbRelease,
      Op.seqStep, Op.seqRelease]) ∧
    (t.bridges ≠ s.bridges → i.op ∈ [Op.hbConfig, Op.hbSet, Op.seqStep, Op.seqRelease]) ∧
    (t.seqs ≠ s.seqs → i.op ∈ [Op.seqConfig, Op.seqStep]) ∧
    (t.changing ≠ s.changing → i.op ∈ [Op.ctrlInit, Op.ctrlReset, Op.ctrlFreq]) ∧
    (i.op ∈ [Op.chBind, Op.chRelease, Op.lineGet, Op.hbConfig, Op.hbGet, Op.seqConfig, Op.seqGet] →
      t.trace = s.trace ∧ t.devices = s.devices ∧ t.replies = s.replies ∧ t.traffic = s.traffic) ∧
    (∀ k, (s.bridge k).cfg = true → (t.bridge k).cfg = true) ∧
    (∀ j, (s.seq j).cfg = true → (t.seq j).cfg = true) ∧
    t.nseq = s.nseq ∧ t.inbox = s.inbox ∧ t.params = s.params ∧ t.peers = s.peers ∧
    t.heldElsewhere = s.heldElsewhere ∧ t.events = s.events

/-- R34, R212: under the per-controller scope a command does the same whatever channels other blocks hold. -/
def Obligations.OtherBlocksChannelsDoNotMatter : Prop :=
  ∀ (i : Instr) (s t : State) (v : Vector Bool 16), s.params.allocScope = .perController → exec i s = .next t →
    exec i { s with heldElsewhere := v } = .next { t with heldElsewhere := v }

/-- R96, R106: the block keeps no copy of a device register: with the same answers of the bus, whatever the devices hold,
a command gives the same responses, the same trace and the same block state. 32 answers are enough for any command. -/
def Obligations.OnlyTheAnswersMatter : Prop :=
  ∀ (i : Instr) (s t : State) (ds : List Device), (∀ r ∈ s.replies, r ≠ .reference) → 32 ≤ s.replies.length →
    exec i s = .next t → ∃ t', exec i { s with devices := ds } = .next t' ∧ t' = { t with devices := t'.devices }
end

