-- ==== Sys2Proof/Laws/Cmd.lean ====
section
/-! SUPPORT. How a pseudocode body runs: one equation for each way a body is built, and the rule that says what a whole
body can do from what its parts can do. -/

namespace Sys2Proof.Machine

variable {α β : Type}

/-! ## Equations -/

@[simp] theorem Cmd.bind_run (x : Cmd α) (f : α → Cmd β) (s : State) :
    (x >>= f) s = match x s with
      | .ok a t => f a t
      | .error e t => .error e t := by
  show EStateM.bind x f s = _
  unfold EStateM.bind
  cases x s <;> rfl

@[simp] theorem Cmd.map_run (f : α → β) (x : Cmd α) (s : State) :
    (f <$> x) s = match x s with
      | .ok a t => .ok (f a) t
      | .error e t => .error e t := by
  show EStateM.map f x s = _
  unfold EStateM.map
  cases x s <;> rfl

@[simp] theorem Cmd.pure_run (a : α) (s : State) : (pure a : Cmd α) s = .ok a s := rfl

@[simp] theorem Cmd.throw_run (e : Status) (s : State) : (throw e : Cmd α) s = .error e s := rfl

@[simp] theorem Cmd.get_run (s : State) : (get : Cmd State) s = .ok s s := rfl

@[simp] theorem Cmd.set_run (s t : State) : (set t : Cmd PUnit) s = .ok ⟨⟩ t := rfl

@[simp] theorem Cmd.ite_run (c : Prop) [Decidable c] (x y : Cmd α) (s : State) :
    (if c then x else y) s = if c then x s else y s := by split <;> rfl

@[simp] theorem Cmd.dite_run (c : Prop) [Decidable c] (x : c → Cmd α) (y : ¬ c → Cmd α) (s : State) :
    (dite c x y) s = if h : c then x h s else y h s := by split <;> rfl

@[simp] theorem update_run (f : State → State) (s : State) : update f s = .ok () (f s) := rfl

theorem check_run (ok : Bool) (e : Status) (s : State) :
    check ok e s = if ok = true then .ok () s else .error e s := by
  cases ok <;> rfl

@[simp] theorem check_true (e : Status) (s : State) : check true e s = .ok () s := rfl

@[simp] theorem check_false (e : Status) (s : State) : check false e s = .error e s := rfl

@[simp] theorem onlyIf_true (x : Cmd Unit) (s : State) : onlyIf true x s = x s := rfl

@[simp] theorem onlyIf_false (x : Cmd Unit) (s : State) : onlyIf false x s = .ok () s := rfl

/-- A passed check is no more than its condition. -/
theorem check_ok {ok : Bool} {e : Status} {s t : State} (h : check ok e s = .ok () t) : ok = true ∧ t = s := by
  cases ok
  · simp at h
  · simp at h; exact ⟨rfl, h.symm⟩

/-! ## What a body can do -/

/-- From a state with `P`, the body returns only with `Q`, and raises only with `E`. -/
def Cmd.Does (P : State → Prop) (c : Cmd α) (Q : α → State → Prop) (E : Status → State → Prop) : Prop :=
  ∀ s, P s → match c s with
    | .ok a t => Q a t
    | .error e t => E e t

theorem Cmd.Does.bind {P : State → Prop} {x : Cmd α} {f : α → Cmd β} {Q : α → State → Prop} {R : β → State → Prop}
    {E : Status → State → Prop} (hx : Cmd.Does P x Q E) (hf : ∀ a, Cmd.Does (Q a) (f a) R E) :
    Cmd.Does P (x >>= f) R E := by
  intro s hs
  have h := hx s hs
  rw [Cmd.bind_run]
  cases hr : x s with
  | ok a t => rw [hr] at h; exact hf a t h
  | error e t => rw [hr] at h; exact h

theorem Cmd.Does.weaken {P P' : State → Prop} {x : Cmd α} {Q Q' : α → State → Prop} {E E' : Status → State → Prop}
    (hx : Cmd.Does P x Q E) (hP : ∀ s, P' s → P s) (hQ : ∀ a s, Q a s → Q' a s) (hE : ∀ e s, E e s → E' e s) :
    Cmd.Does P' x Q' E' := by
  intro s hs
  have h := hx s (hP s hs)
  cases hr : x s with
  | ok a t => rw [hr] at h; exact hQ a t h
  | error e t => rw [hr] at h; exact hE e t h

/-- A relation between the state before and the state after, whether the body returns or raises. -/
def Cmd.Keeps (R : State → State → Prop) (c : Cmd α) : Prop :=
  ∀ s, match c s with
    | .ok _ t => R s t
    | .error _ t => R s t

theorem Cmd.Keeps.bind {R : State → State → Prop} (hR : ∀ a b c, R a b → R b c → R a c) {x : Cmd α} {f : α → Cmd β}
    (hx : Cmd.Keeps R x) (hf : ∀ a, Cmd.Keeps R (f a)) : Cmd.Keeps R (x >>= f) := by
  intro s
  have h := hx s
  rw [Cmd.bind_run]
  cases hr : x s with
  | ok a t =>
    rw [hr] at h
    have h2 := hf a t
    show match f a t with
      | .ok _ u => R s u
      | .error _ u => R s u
    cases hr2 : f a t with
    | ok b u => rw [hr2] at h2; exact hR _ _ _ h h2
    | error e u => rw [hr2] at h2; exact hR _ _ _ h h2
  | error e t => rw [hr] at h; exact h

theorem Cmd.Keeps.pure {R : State → State → Prop} (hR : ∀ a, R a a) (a : α) :
    Cmd.Keeps R (Pure.pure a : Cmd α) := fun s => hR s

theorem Cmd.Keeps.throw {R : State → State → Prop} (hR : ∀ a, R a a) (e : Status) :
    Cmd.Keeps R (MonadExcept.throw e : Cmd α) := fun s => hR s

theorem Cmd.Keeps.get {R : State → State → Prop} (hR : ∀ a, R a a) : Cmd.Keeps R (MonadState.get : Cmd State) :=
  fun s => hR s

theorem Cmd.Keeps.update {R : State → State → Prop} {f : State → State} (h : ∀ s, R s (f s)) :
    Cmd.Keeps R (update f) := fun s => h s

theorem Cmd.Keeps.check {R : State → State → Prop} (hR : ∀ a, R a a) (ok : Bool) (e : Status) :
    Cmd.Keeps R (check ok e) := by
  intro s; cases ok <;> exact hR s

theorem Cmd.Keeps.onlyIf {R : State → State → Prop} (hR : ∀ a, R a a) (c : Bool) {x : Cmd Unit}
    (hx : Cmd.Keeps R x) : Cmd.Keeps R (onlyIf c x) := by
  cases c
  · exact fun s => hR s
  · exact hx

end Sys2Proof.Machine
end

