-- ==== Sys2Proof/Laws/Memory.lean ====
section
/-! SUPPORT. The register space of a device: read after write, and the canonical form, which every operation keeps and
under which equal contents are equal data. -/

namespace Sys2Proof.Machine

/-- Every listed address is above `r`. -/
abbrev Memory.above (r : Nat) (m : Memory) : Prop := ∀ c ∈ m, r < c.1

theorem Memory.read_above {m : Memory} {r : Nat} (h : Memory.above r m) : Memory.read m r = powerOn r := by
  induction m with
  | nil => rfl
  | cons c m ih =>
    obtain ⟨k, v⟩ := c
    have hk : r < k := h (k, v) (by simp)
    have : k ≠ r := by omega
    simp only [Memory.read, if_neg this]
    exact ih (fun c hc => h c (by simp [hc]))

/-! ## Read after write -/

theorem Memory.read_list (m : Memory) (r : Nat) (v : Byte) (a : Nat) :
    Memory.read (Memory.list r v m) a = if a = r then v else Memory.read m a := by
  induction m with
  | nil => simp [Memory.list, Memory.read, eq_comm]
  | cons c m ih =>
    obtain ⟨k, w⟩ := c
    simp only [Memory.list]
    split
    · simp only [Memory.read, eq_comm]
    · split
      · rename_i h1 h2
        subst h2
        simp only [Memory.read]
        by_cases hak : a = k
        · simp [hak]
        · have : ¬ k = a := fun e => hak e.symm
          simp [this, hak]
      · simp only [Memory.read, ih]
        split
        · rename_i h1 h2 h3
          have : a ≠ r := by omega
          simp [this]
        · rfl

theorem Memory.read_unlist {m : Memory} (h : m.Pairwise (fun c d => c.1 < d.1)) (r a : Nat) :
    Memory.read (Memory.unlist r m) a = if a = r then powerOn r else Memory.read m a := by
  induction m with
  | nil => by_cases ha : a = r <;> simp [Memory.unlist, Memory.read, ha]
  | cons c m ih =>
    obtain ⟨k, w⟩ := c
    rw [List.pairwise_cons] at h
    simp only [Memory.unlist]
    split
    · rename_i hk
      subst hk
      by_cases ha : a = k
      · subst ha; simp [Memory.read_above (r := a) (fun c hc => h.1 c hc)]
      · have : ¬ k = a := fun e => ha e.symm
        simp [Memory.read, this, ha]
    · simp only [Memory.read, ih h.2]
      split
      · rename_i h1 h2
        have : a ≠ r := by omega
        simp [this]
      · rfl

/-- A read after a write: the value written at its register, the old value at any other. -/
theorem Memory.read_write {m : Memory} (h : m.wf) (r : Nat) (v : Byte) (a : Nat) :
    Memory.read (m.write r v) a = if a = r then v else Memory.read m a := by
  unfold Memory.write
  split
  · rename_i hv
    rw [Memory.read_unlist h.1, hv]
  · exact Memory.read_list m r v a

/-! ## The canonical form -/

@[simp] theorem Memory.wf_nil : Memory.wf [] := by simp [Memory.wf]

theorem Memory.mem_list {m : Memory} {r : Nat} {v : Byte} {c : Host.Cell} (h : c ∈ Memory.list r v m) :
    c = (r, v) ∨ c ∈ m := by
  induction m with
  | nil => simpa [Memory.list] using h
  | cons d m ih =>
    obtain ⟨k, w⟩ := d
    simp only [Memory.list] at h
    split at h
    · simpa using h
    · split at h
      · simp only [List.mem_cons] at h ⊢; tauto
      · simp only [List.mem_cons] at h ⊢
        rcases h with h | h
        · tauto
        · have := ih h; tauto

theorem Memory.mem_unlist {m : Memory} {r : Nat} {c : Host.Cell} (h : c ∈ Memory.unlist r m) : c ∈ m := by
  induction m with
  | nil => simp [Memory.unlist] at h
  | cons d m ih =>
    obtain ⟨k, w⟩ := d
    simp only [Memory.unlist] at h
    split at h
    · simp [h]
    · simp only [List.mem_cons] at h ⊢
      rcases h with h | h
      · exact Or.inl h
      · exact Or.inr (ih h)

theorem Memory.pairwise_list {m : Memory} (h : m.Pairwise (fun c d => c.1 < d.1)) (r : Nat) (v : Byte) :
    (Memory.list r v m).Pairwise (fun c d => c.1 < d.1) := by
  induction m with
  | nil => simp [Memory.list]
  | cons c m ih =>
    obtain ⟨k, w⟩ := c
    have hc := List.pairwise_cons.mp h
    simp only [Memory.list]
    split
    · rename_i hk
      refine List.pairwise_cons.mpr ⟨?_, h⟩
      intro d hd
      rcases List.mem_cons.mp hd with rfl | hd
      · exact hk
      · exact lt_trans hk (hc.1 d hd)
    · split
      · rename_i h1 h2
        subst h2
        exact List.pairwise_cons.mpr ⟨fun d hd => hc.1 d hd, hc.2⟩
      · rename_i h1 h2
        refine List.pairwise_cons.mpr ⟨?_, ih hc.2⟩
        intro d hd
        rcases Memory.mem_list hd with rfl | hd
        · show k < r; omega
        · exact hc.1 d hd

theorem Memory.pairwise_unlist {m : Memory} (h : m.Pairwise (fun c d => c.1 < d.1)) (r : Nat) :
    (Memory.unlist r m).Pairwise (fun c d => c.1 < d.1) := by
  induction m with
  | nil => simp [Memory.unlist]
  | cons c m ih =>
    obtain ⟨k, w⟩ := c
    have hc := List.pairwise_cons.mp h
    simp only [Memory.unlist]
    split
    · exact hc.2
    · exact List.pairwise_cons.mpr ⟨fun d hd => hc.1 d (Memory.mem_unlist hd), ih hc.2⟩

/-- A write keeps the canonical form. -/
theorem Memory.write_wf {m : Memory} (h : m.wf) {r : Nat} (hr : r < 256) (v : Byte) : (m.write r v).wf := by
  unfold Memory.write
  split
  · exact ⟨Memory.pairwise_unlist h.1 r, fun c hc => h.2 c (Memory.mem_unlist hc)⟩
  · rename_i hv
    refine ⟨Memory.pairwise_list h.1 r v, fun c hc => ?_⟩
    rcases Memory.mem_list hc with rfl | hc
    · exact ⟨hr, hv⟩
    · exact h.2 c hc

theorem Memory.above_ofBytes (vs : List Byte) (r : Nat) : ∀ c ∈ Memory.ofBytes r vs, r ≤ c.1 := by
  induction vs generalizing r with
  | nil => simp [Memory.ofBytes]
  | cons v vs ih =>
    intro c hc
    simp only [Memory.ofBytes] at hc
    split at hc
    · rcases List.mem_cons.mp hc with rfl | hc
      · exact le_refl _
      · have := ih (r + 1) c hc; omega
    · have := ih (r + 1) c hc; omega

/-- A draw is in canonical form. -/
theorem Memory.ofBytes_wf (vs : List Byte) (r : Nat) : (Memory.ofBytes r vs).wf := by
  induction vs generalizing r with
  | nil => exact Memory.wf_nil
  | cons v vs ih =>
    simp only [Memory.ofBytes]
    split
    · rename_i hv
      refine ⟨List.pairwise_cons.mpr ⟨fun c hc => ?_, (ih (r + 1)).1⟩, fun c hc => ?_⟩
      · have := Memory.above_ofBytes vs (r + 1) c hc; show r < c.1; omega
      · rcases List.mem_cons.mp hc with rfl | hc
        · exact hv
        · exact (ih (r + 1)).2 c hc
    · exact ih (r + 1)

/-- What a draw reads as. -/
theorem Memory.read_ofBytes (vs : List Byte) (r a : Nat) (ha : a < 256) (hra : r ≤ a) :
    Memory.read (Memory.ofBytes r vs) a = vs.getD (a - r) (powerOn a) := by
  induction vs generalizing r with
  | nil => simp [Memory.ofBytes, Memory.read]
  | cons v vs ih =>
    simp only [Memory.ofBytes]
    by_cases hr : r = a
    · subst hr
      have hab : Memory.above r (Memory.ofBytes (r + 1) vs) := fun c hc => by
        have := Memory.above_ofBytes vs (r + 1) c hc; omega
      split
      · simp [Memory.read]
      · rename_i hv
        have : v = powerOn r := by
          by_contra hne; exact hv ⟨ha, hne⟩
        simp [Memory.read_above hab, this]
    · have hlt : r + 1 ≤ a := by omega
      have hsub : a - r = (a - (r + 1)) + 1 := by omega
      split
      · simp only [Memory.read, if_neg hr, ih (r + 1) hlt]
        rw [hsub]; simp
      · rw [ih (r + 1) hlt, hsub]; simp

/-- Canonical memories that read alike are the same data. -/
theorem Memory.eq_of_read {m m' : Memory} (h : m.wf) (h' : m'.wf)
    (heq : ∀ r, r < 256 → Memory.read m r = Memory.read m' r) : m = m' := by
  induction m generalizing m' with
  | nil =>
    cases m' with
    | nil => rfl
    | cons c m' =>
      obtain ⟨k, v⟩ := c
      have hk := h'.2 (k, v) (by simp)
      have := heq k hk.1
      simp [Memory.read] at this
      exact absurd this.symm hk.2
  | cons c m ih =>
    obtain ⟨k, v⟩ := c
    have hk := h.2 (k, v) (by simp)
    have hp := List.pairwise_cons.mp h.1
    cases m' with
    | nil =>
      have := heq k hk.1
      simp [Memory.read] at this
      exact absurd this hk.2
    | cons c' m' =>
      obtain ⟨k', v'⟩ := c'
      have hk' := h'.2 (k', v') (by simp)
      have hp' := List.pairwise_cons.mp h'.1
      have hkk : k = k' := by
        rcases lt_trichotomy k k' with hlt | he | hgt
        · have h1 := heq k hk.1
          have hab : Memory.above k ((k', v') :: m') := by
            intro d hd
            rcases List.mem_cons.mp hd with rfl | hd
            · exact hlt
            · exact lt_trans hlt (hp'.1 d hd)
          rw [Memory.read_above hab] at h1
          simp [Memory.read] at h1
          exact absurd h1 hk.2
        · exact he
        · have h1 := heq k' hk'.1
          have hab : Memory.above k' ((k, v) :: m) := by
            intro d hd
            rcases List.mem_cons.mp hd with rfl | hd
            · exact hgt
            · exact lt_trans hgt (hp.1 d hd)
          rw [Memory.read_above hab] at h1
          simp [Memory.read] at h1
          exact absurd h1.symm hk'.2
      subst hkk
      have hv : v = v' := by
        have := heq k hk.1
        simpa [Memory.read] using this
      subst hv
      have hm : m = m' := by
        refine ih ⟨hp.2, fun c hc => h.2 c (by simp [hc])⟩ ⟨hp'.2, fun c hc => h'.2 c (by simp [hc])⟩ ?_
        intro r hr
        by_cases hrk : r = k
        · subst hrk
          rw [Memory.read_above (fun c hc => hp.1 c hc), Memory.read_above (fun c hc => hp'.1 c hc)]
        · have h1 := heq r hr
          have : ¬ k = r := fun e => hrk e.symm
          simpa [Memory.read, this] using h1
      rw [hm]

end Sys2Proof.Machine
end

