-- ==== Sys2Proof/Laws/Device.lean ====
section
/-! SUPPORT. What a frame does to the reference device, register by register, and to the devices on the bus. -/

namespace Sys2Proof.Machine

/-! ## Registers -/

theorem Device.reg_setReg {d : Device} (h : d.mem.wf) (r v a : Byte) :
    (d.setReg r v).reg a = if a = r then v else d.reg a := by
  simp only [Device.reg, Device.setReg, Memory.read_write h, BitVec.toNat_inj]

theorem Device.setReg_wf {d : Device} (h : d.mem.wf) (r v : Byte) : (d.setReg r v).mem.wf :=
  Memory.write_wf h r.isLt v

@[simp] theorem Device.setReg_ptr (d : Device) (r v : Byte) : (d.setReg r v).ptr = d.ptr := rfl

@[simp] theorem Device.setReg_addr (d : Device) (r v : Byte) : (d.setReg r v).addr = d.addr := rfl

@[simp] theorem Device.reg_ptr (d : Device) (p : Byte) (a : Byte) : Device.reg { d with ptr := p } a = d.reg a := rfl

/-- Devices in canonical form with the same address, pointer and registers are the same data. -/
theorem Device.ext_reg {d d' : Device} (h : d.mem.wf) (h' : d'.mem.wf) (ha : d.addr = d'.addr) (hp : d.ptr = d'.ptr)
    (hr : ∀ a, d.reg a = d'.reg a) : d = d' := by
  obtain ⟨a, m, p⟩ := d
  obtain ⟨a', m', p'⟩ := d'
  simp only at ha hp
  have : m = m' := by
    refine Memory.eq_of_read h h' (fun r hr' => ?_)
    have := hr (BitVec.ofNat 8 r)
    simpa [Device.reg, Nat.mod_eq_of_lt hr'] using this
  subst ha hp this
  rfl

/-! ## Broadcast (R87) -/

/-- The registers a broadcast to `0xFA + j` writes. -/
abbrev isLedByte (j : Nat) (a : Byte) : Prop := 0x06 ≤ a.toNat ∧ a.toNat ≤ 0x45 ∧ (a.toNat - 0x06) % 4 = j

theorem Device.foldl_broadcast (j : Nat) (v : Byte) (ns : List Nat) (d : Device) (h : d.mem.wf) :
    let e := ns.foldl (fun d n => d.setReg (BitVec.ofNat 8 (0x06 + 4 * n + j)) v) d
    e.mem.wf ∧ e.addr = d.addr ∧ e.ptr = d.ptr ∧
      ∀ a, e.reg a = if ∃ n ∈ ns, a = BitVec.ofNat 8 (0x06 + 4 * n + j) then v else d.reg a := by
  induction ns generalizing d with
  | nil => exact ⟨h, rfl, rfl, fun a => by simp⟩
  | cons n ns ih =>
    have hn := ih (d.setReg (BitVec.ofNat 8 (0x06 + 4 * n + j)) v)
      (Device.setReg_wf h _ _)
    obtain ⟨h1, h2, h3, h4⟩ := hn
    refine ⟨h1, h2, h3, fun a => ?_⟩
    rw [List.foldl_cons, h4 a, Device.reg_setReg h]
    by_cases h5 : ∃ m ∈ ns, a = BitVec.ofNat 8 (0x06 + 4 * m + j)
    · have : ∃ m ∈ n :: ns, a = BitVec.ofNat 8 (0x06 + 4 * m + j) := by
        obtain ⟨m, hm, ha⟩ := h5; exact ⟨m, by simp [hm], ha⟩
      rw [if_pos h5, if_pos this]
    · rw [if_neg h5]
      by_cases h6 : a = BitVec.ofNat 8 (0x06 + 4 * n + j)
      · have : ∃ m ∈ n :: ns, a = BitVec.ofNat 8 (0x06 + 4 * m + j) := ⟨n, by simp, h6⟩
        rw [if_pos h6, if_pos this]
      · have : ¬ ∃ m ∈ n :: ns, a = BitVec.ofNat 8 (0x06 + 4 * m + j) := by
          rintro ⟨m, hm, ha⟩
          rcases List.mem_cons.mp hm with rfl | hm
          · exact h6 ha
          · exact h5 ⟨m, hm, ha⟩
        rw [if_neg h6, if_neg this]

theorem exists_led_iff {j : Nat} (hj : j < 4) (a : Byte) :
    (∃ n ∈ List.range 16, a = BitVec.ofNat 8 (0x06 + 4 * n + j)) ↔ isLedByte j a := by
  constructor
  · rintro ⟨n, hn, rfl⟩
    have hn := List.mem_range.mp hn
    simp only [isLedByte, BitVec.toNat_ofNat]
    omega
  · rintro ⟨h1, h2, h3⟩
    refine ⟨(a.toNat - 6) / 4, List.mem_range.mpr (by omega), ?_⟩
    apply BitVec.eq_of_toNat_eq
    simp only [BitVec.toNat_ofNat]
    omega

theorem Device.reg_broadcast {d : Device} (h : d.mem.wf) {j : Nat} (hj : j < 4) (v a : Byte) :
    (d.broadcast j v).reg a = if isLedByte j a then v else d.reg a := by
  have := (Device.foldl_broadcast j v (List.range 16) d h).2.2.2 a
  simp only [Device.broadcast]
  rw [this]
  simp only [exists_led_iff hj]

theorem Device.broadcast_wf {d : Device} (h : d.mem.wf) (j : Nat) (v : Byte) :
    (d.broadcast j v).mem.wf :=
  (Device.foldl_broadcast j v (List.range 16) d h).1

theorem Device.foldl_setReg_fields (rs : List Byte) (v : Byte) (d : Device) :
    (rs.foldl (fun d r => d.setReg r v) d).addr = d.addr ∧ (rs.foldl (fun d r => d.setReg r v) d).ptr = d.ptr := by
  induction rs generalizing d with
  | nil => simp
  | cons r rs ih => exact ih (d.setReg r v)

@[simp] theorem Device.broadcast_addr (d : Device) (j : Nat) (v : Byte) : (d.broadcast j v).addr = d.addr := by
  have := (Device.foldl_setReg_fields ((List.range 16).map (fun n => BitVec.ofNat 8 (0x06 + 4 * n + j))) v d).1
  rwa [List.foldl_map] at this

@[simp] theorem Device.broadcast_ptr (d : Device) (j : Nat) (v : Byte) : (d.broadcast j v).ptr = d.ptr := by
  have := (Device.foldl_setReg_fields ((List.range 16).map (fun n => BitVec.ofNat 8 (0x06 + 4 * n + j))) v d).2
  rwa [List.foldl_map] at this

/-! ## One register write (R84) -/

@[simp] theorem Device.devWrite_addr (d : Device) (r v : Byte) : (d.devWrite r v).addr = d.addr := by
  unfold Device.devWrite; split
  · simp
  · split
    · split <;> rfl
    · split <;> rfl

@[simp] theorem Device.devWrite_ptr (d : Device) (r v : Byte) : (d.devWrite r v).ptr = d.ptr := by
  unfold Device.devWrite; split
  · simp
  · split
    · split <;> rfl
    · split <;> rfl

theorem Device.devWrite_wf {d : Device} (h : d.mem.wf) (r v : Byte) : (d.devWrite r v).mem.wf := by
  unfold Device.devWrite; split
  · exact Device.broadcast_wf h _ v
  · split
    · split
      · exact Device.setReg_wf h r v
      · exact h
    · split
      · exact h
      · exact Device.setReg_wf h r v

/-- The register `a` after `DevWrite(r, v)`: every case of R84 to R88. -/
theorem Device.reg_devWrite {d : Device} (h : d.mem.wf) (r v a : Byte) :
    (d.devWrite r v).reg a =
      if 0xFA ≤ r.toNat ∧ r.toNat ≤ 0xFD then (if isLedByte (r.toNat - 0xFA) a then v else d.reg a)
      else if r = regPreScale then (if d.asleep ∧ a = r then v else d.reg a)
      else if (0x46 ≤ r.toNat ∧ r.toNat ≤ 0xF9) ∨ r.toNat = 0xFF then d.reg a
      else if a = r then v else d.reg a := by
  unfold Device.devWrite
  split
  · exact Device.reg_broadcast h (by omega) v a
  · split
    · split
      · rename_i hs; simp [Device.reg_setReg h, hs]
      · rename_i hs; simp [hs]
    · split
      · rfl
      · exact Device.reg_setReg h r v a

/-! ## Frames -/

@[simp] theorem Device.advance_addr (d : Device) : d.advance.addr = d.addr := by unfold Device.advance; split <;> rfl

@[simp] theorem Device.advance_mem (d : Device) : d.advance.mem = d.mem := by unfold Device.advance; split <;> rfl

@[simp] theorem Device.advance_reg (d : Device) (a : Byte) : d.advance.reg a = d.reg a := by
  simp [Device.reg]

@[simp] theorem Device.writeByte_addr (d : Device) (v : Byte) : (d.writeByte v).addr = d.addr := by
  simp [Device.writeByte]

theorem Device.writeByte_wf {d : Device} (h : d.mem.wf) (v : Byte) : (d.writeByte v).mem.wf := by
  simpa [Device.writeByte] using Device.devWrite_wf h d.ptr v

theorem Device.foldl_writeByte_wf (vs : List Byte) {d : Device} (h : d.mem.wf) :
    (vs.foldl Device.writeByte d).mem.wf := by
  induction vs generalizing d with
  | nil => exact h
  | cons v vs ih => exact ih (Device.writeByte_wf h v)

theorem Device.foldl_writeByte_addr (vs : List Byte) (d : Device) : (vs.foldl Device.writeByte d).addr = d.addr := by
  induction vs generalizing d with
  | nil => rfl
  | cons v vs ih => rw [List.foldl_cons, ih, Device.writeByte_addr]

theorem Device.writeFrame_wf {d : Device} (h : d.mem.wf) (p : Byte) (vs : List Byte) : (d.writeFrame p vs).mem.wf :=
  Device.foldl_writeByte_wf vs (d := { d with ptr := p }) h

@[simp] theorem Device.writeFrame_addr (d : Device) (p : Byte) (vs : List Byte) : (d.writeFrame p vs).addr = d.addr :=
  Device.foldl_writeByte_addr vs { d with ptr := p }

theorem Device.accept_wf {d : Device} (h : d.mem.wf) (f : Frame) : (d.accept f).mem.wf := by
  cases f with
  | write a reg data => exact Device.writeFrame_wf h reg data
  | read a => simpa [Device.accept] using h
  | delay us => exact h

@[simp] theorem Device.accept_addr (d : Device) (f : Frame) : (d.accept f).addr = d.addr := by
  cases f <;> simp [Device.accept]

theorem Device.draw_wf (d : Device) (regs : List Byte) (ptr : Byte) : (d.draw regs ptr).mem.wf :=
  Memory.ofBytes_wf regs 0

/-! ## The devices on the bus -/

theorem updateDevice_addrs (devs : List Device) (a : Addr) (f : Device → Device) (hf : ∀ d, (f d).addr = d.addr) :
    (updateDevice devs a f).map (·.addr) = devs.map (·.addr) := by
  simp only [updateDevice, List.map_map]
  refine List.map_congr_left (fun d _ => ?_)
  simp only [Function.comp]
  split <;> simp [hf]

theorem updateDevice_wf {devs : List Device} (h : ∀ d ∈ devs, d.mem.wf) (a : Addr) {f : Device → Device}
    (hf : ∀ d, d.mem.wf → (f d).mem.wf) : ∀ d ∈ updateDevice devs a f, d.mem.wf := by
  intro d hd
  simp only [updateDevice, List.mem_map] at hd
  obtain ⟨d', hd', rfl⟩ := hd
  split
  · exact hf d' (h d' hd')
  · exact h d' hd'

theorem findDevice_isSome (devs : List Device) (a : Addr) :
    (findDevice devs a).isSome = (devs.map (·.addr)).contains a := by
  induction devs with
  | nil => rfl
  | cons d devs ih =>
    by_cases h : d.addr = a
    · simp [findDevice, h]
    · have h' : ¬ a = d.addr := fun e => h e.symm
      have hb : (d.addr == a) = false := by simpa using h
      simp only [findDevice, List.find?_cons, hb, List.map_cons, List.contains_cons, beq_eq_false_iff_ne.mpr h',
        Bool.false_or]
      exact ih

/-- The device at `a` after a change of the device at `a`. -/
theorem findDevice_update (devs : List Device) (a : Addr) (f : Device → Device) (hf : ∀ d, (f d).addr = d.addr) :
    findDevice (updateDevice devs a f) a = (findDevice devs a).map f := by
  induction devs with
  | nil => rfl
  | cons d devs ih =>
    by_cases h : d.addr = a
    · simp [findDevice, updateDevice, h, hf]
    · have hb : (d.addr == a) = false := by simpa using h
      simp only [findDevice, updateDevice, List.map_cons, List.find?_cons, hb, Bool.false_eq_true, if_false]
      exact ih

/-- A device at another address ignores the frame (R81). -/
theorem findDevice_update_other (devs : List Device) {a b : Addr} (hab : b ≠ a) (f : Device → Device)
    (hf : ∀ d, (f d).addr = d.addr) : findDevice (updateDevice devs a f) b = findDevice devs b := by
  induction devs with
  | nil => rfl
  | cons d devs ih =>
    by_cases h : d.addr = a
    · have h2 : ¬ d.addr = b := fun e => hab (e ▸ h)
      have hb : ((f d).addr == b) = false := by rw [hf]; simpa using h2
      have hb' : (d.addr == b) = false := by simpa using h2
      have ha : (d.addr == a) = true := by simpa using h
      simp only [findDevice, updateDevice, List.map_cons, ha, if_true, List.find?_cons, hb, hb']
      exact ih
    · have ha : (d.addr == a) = false := by simpa using h
      simp only [findDevice, updateDevice, List.map_cons, ha, List.find?_cons]
      by_cases hb : d.addr = b
      · simp [hb]
      · have hb' : (d.addr == b) = false := by simpa using hb
        simp only [Bool.false_eq_true, if_false, hb']
        exact ih

theorem findDevice_addr {devs : List Device} {a : Addr} {d : Device} (h : findDevice devs a = some d) : d.addr = a := by
  have := List.find?_some h
  simpa using this

theorem findDevice_mem {devs : List Device} {a : Addr} {d : Device} (h : findDevice devs a = some d) : d ∈ devs :=
  List.mem_of_find?_eq_some h

/-! ## One frame on the bus -/

theorem transact_addrs (devs : List Device) (f : Frame) (r : Reply) :
    (transact devs f r).2.map (·.addr) = devs.map (·.addr) := by
  unfold transact
  split
  · rfl
  · cases r with
    | fail regs ptr => exact updateDevice_addrs _ _ _ (fun d => rfl)
    | answer v => exact updateDevice_addrs _ _ _ (fun d => by simp)
    | reference =>
      simp only
      split
      · rfl
      · exact updateDevice_addrs _ _ _ (fun d => by simp)

theorem transact_wf {devs : List Device} (h : ∀ d ∈ devs, d.mem.wf) (f : Frame) (r : Reply) :
    ∀ d ∈ (transact devs f r).2, d.mem.wf := by
  unfold transact
  split
  · exact h
  · cases r with
    | fail regs ptr => exact updateDevice_wf h _ (fun d _ => Device.draw_wf d regs ptr)
    | answer v => exact updateDevice_wf h _ (fun d hd => Device.accept_wf hd f)
    | reference =>
      simp only
      split
      · exact h
      · exact updateDevice_wf h _ (fun d hd => Device.accept_wf hd f)

/-- A frame to a device that exists, with a reply that is no failure, succeeds. -/
theorem transact_ok {devs : List Device} {f : Frame} {r : Reply} {a : Addr} (hf : f.dest = some a)
    (hd : (findDevice devs a).isSome = true) (hr : ∀ regs ptr, r ≠ .fail regs ptr) :
    ∃ v, (transact devs f r).1 = f.success v := by
  obtain ⟨d, hd⟩ := Option.isSome_iff_exists.mp hd
  unfold transact
  rw [hf]
  cases r with
  | fail regs ptr => exact absurd rfl (hr regs ptr)
  | answer v => exact ⟨v, rfl⟩
  | reference => exact ⟨d.readValue, by simp [hd]⟩

/-- The answers a frame can get. -/
theorem transact_answer (devs : List Device) (f : Frame) (r : Reply) :
    (transact devs f r).1 = .fail ∨ ∃ v, (transact devs f r).1 = f.success v := by
  unfold transact
  split
  · rename_i h
    cases f with
    | write a reg data => simp [Frame.dest] at h
    | read a => simp [Frame.dest] at h
    | delay us => exact Or.inr ⟨0#8, rfl⟩
  · cases r with
    | fail regs ptr => exact Or.inl rfl
    | answer v => exact Or.inr ⟨v, rfl⟩
    | reference =>
      simp only
      split
      · exact Or.inl rfl
      · rename_i d hd; exact Or.inr ⟨d.readValue, rfl⟩

/-- The reference bus and a device that is there. -/
theorem transact_reference {devs : List Device} {f : Frame} {a : Addr} {d : Device} (hf : f.dest = some a)
    (hd : findDevice devs a = some d) :
    transact devs f .reference = (f.success d.readValue, updateDevice devs a (fun d => d.accept f)) := by
  unfold transact
  rw [hf]
  simp [hd]

/-! ## Other agents -/

theorem applyForeign_addrs (gap : List (List ForeignFrame)) (devs : List Device) :
    (applyForeign devs gap).map (·.addr) = devs.map (·.addr) := by
  have hg : ∀ (g : List ForeignFrame) (devs : List Device),
      (g.foldl ForeignFrame.apply devs).map (·.addr) = devs.map (·.addr) := by
    intro g
    induction g with
    | nil => intro devs; rfl
    | cons f g ih => intro devs; rw [List.foldl_cons, ih]; exact transact_addrs _ _ _
  unfold applyForeign
  induction gap generalizing devs with
  | nil => rfl
  | cons g gap ih => rw [List.foldl_cons, ih, hg]

theorem applyForeign_wf (gap : List (List ForeignFrame)) {devs : List Device} (h : ∀ d ∈ devs, d.mem.wf) :
    ∀ d ∈ applyForeign devs gap, d.mem.wf := by
  have hg : ∀ (g : List ForeignFrame) (devs : List Device), (∀ d ∈ devs, d.mem.wf) →
      ∀ d ∈ g.foldl ForeignFrame.apply devs, d.mem.wf := by
    intro g
    induction g with
    | nil => intro devs h; exact h
    | cons f g ih => intro devs h; exact ih _ (transact_wf h _ _)
  unfold applyForeign
  induction gap generalizing devs with
  | nil => exact h
  | cons g gap ih => exact ih (hg g devs h)

/-- Two changes of the device at one address are one change. -/
theorem updateDevice_update (devs : List Device) (a : Addr) (f g : Device → Device) (hf : ∀ d, (f d).addr = d.addr) :
    updateDevice (updateDevice devs a f) a g = updateDevice devs a (fun d => g (f d)) := by
  simp only [updateDevice, List.map_map]
  refine List.map_congr_left (fun d _ => ?_)
  simp only [Function.comp]
  by_cases h : d.addr = a
  · simp [h, hf]
  · simp [h]

end Sys2Proof.Machine
end

