-- ==== Sys2Proof/Laws/State.lean ====
section
/-! SUPPORT. What each update of the state does to each field: one lemma a field, true by `rfl`; then the accessors over
the updates. -/

namespace Sys2Proof.Machine

variable (s : State)

/-! ## `setBridge` -/

@[simp] theorem State.setBridge_phase (k : Conn) (b : Bridge) : (s.setBridge k b).phase = s.phase := rfl
@[simp] theorem State.setBridge_addr (k : Conn) (b : Bridge) : (s.setBridge k b).addr = s.addr := rfl
@[simp] theorem State.setBridge_alloc (k : Conn) (b : Bridge) : (s.setBridge k b).alloc = s.alloc := rfl
@[simp] theorem State.setBridge_chDuty (k : Conn) (b : Bridge) : (s.setBridge k b).chDuty = s.chDuty := rfl
@[simp] theorem State.setBridge_seqs (k : Conn) (b : Bridge) : (s.setBridge k b).seqs = s.seqs := rfl
@[simp] theorem State.setBridge_trace (k : Conn) (b : Bridge) : (s.setBridge k b).trace = s.trace := rfl
@[simp] theorem State.setBridge_inbox (k : Conn) (b : Bridge) : (s.setBridge k b).inbox = s.inbox := rfl
@[simp] theorem State.setBridge_responses (k : Conn) (b : Bridge) : (s.setBridge k b).responses = s.responses := rfl
@[simp] theorem State.setBridge_devices (k : Conn) (b : Bridge) : (s.setBridge k b).devices = s.devices := rfl
@[simp] theorem State.setBridge_changing (k : Conn) (b : Bridge) : (s.setBridge k b).changing = s.changing := rfl
@[simp] theorem State.setBridge_params (k : Conn) (b : Bridge) : (s.setBridge k b).params = s.params := rfl
@[simp] theorem State.setBridge_peers (k : Conn) (b : Bridge) : (s.setBridge k b).peers = s.peers := rfl
@[simp] theorem State.setBridge_heldElsewhere (k : Conn) (b : Bridge) : (s.setBridge k b).heldElsewhere = s.heldElsewhere := rfl
@[simp] theorem State.setBridge_replies (k : Conn) (b : Bridge) : (s.setBridge k b).replies = s.replies := rfl
@[simp] theorem State.setBridge_traffic (k : Conn) (b : Bridge) : (s.setBridge k b).traffic = s.traffic := rfl
@[simp] theorem State.setBridge_events (k : Conn) (b : Bridge) : (s.setBridge k b).events = s.events := rfl

/-! ## `setBridgeDuty` -/

@[simp] theorem State.setBridgeDuty_phase (k : Conn) (d : Duty) : (s.setBridgeDuty k d).phase = s.phase := rfl
@[simp] theorem State.setBridgeDuty_addr (k : Conn) (d : Duty) : (s.setBridgeDuty k d).addr = s.addr := rfl
@[simp] theorem State.setBridgeDuty_alloc (k : Conn) (d : Duty) : (s.setBridgeDuty k d).alloc = s.alloc := rfl
@[simp] theorem State.setBridgeDuty_chDuty (k : Conn) (d : Duty) : (s.setBridgeDuty k d).chDuty = s.chDuty := rfl
@[simp] theorem State.setBridgeDuty_seqs (k : Conn) (d : Duty) : (s.setBridgeDuty k d).seqs = s.seqs := rfl
@[simp] theorem State.setBridgeDuty_trace (k : Conn) (d : Duty) : (s.setBridgeDuty k d).trace = s.trace := rfl
@[simp] theorem State.setBridgeDuty_inbox (k : Conn) (d : Duty) : (s.setBridgeDuty k d).inbox = s.inbox := rfl
@[simp] theorem State.setBridgeDuty_responses (k : Conn) (d : Duty) : (s.setBridgeDuty k d).responses = s.responses := rfl
@[simp] theorem State.setBridgeDuty_devices (k : Conn) (d : Duty) : (s.setBridgeDuty k d).devices = s.devices := rfl
@[simp] theorem State.setBridgeDuty_changing (k : Conn) (d : Duty) : (s.setBridgeDuty k d).changing = s.changing := rfl
@[simp] theorem State.setBridgeDuty_params (k : Conn) (d : Duty) : (s.setBridgeDuty k d).params = s.params := rfl
@[simp] theorem State.setBridgeDuty_peers (k : Conn) (d : Duty) : (s.setBridgeDuty k d).peers = s.peers := rfl
@[simp] theorem State.setBridgeDuty_heldElsewhere (k : Conn) (d : Duty) : (s.setBridgeDuty k d).heldElsewhere = s.heldElsewhere := rfl
@[simp] theorem State.setBridgeDuty_replies (k : Conn) (d : Duty) : (s.setBridgeDuty k d).replies = s.replies := rfl
@[simp] theorem State.setBridgeDuty_traffic (k : Conn) (d : Duty) : (s.setBridgeDuty k d).traffic = s.traffic := rfl
@[simp] theorem State.setBridgeDuty_events (k : Conn) (d : Duty) : (s.setBridgeDuty k d).events = s.events := rfl

/-! ## `setOwner` -/

@[simp] theorem State.setOwner_phase (ch : Channel) (o : Owner) : (s.setOwner ch o).phase = s.phase := rfl
@[simp] theorem State.setOwner_addr (ch : Channel) (o : Owner) : (s.setOwner ch o).addr = s.addr := rfl
@[simp] theorem State.setOwner_chDuty (ch : Channel) (o : Owner) : (s.setOwner ch o).chDuty = s.chDuty := rfl
@[simp] theorem State.setOwner_bridges (ch : Channel) (o : Owner) : (s.setOwner ch o).bridges = s.bridges := rfl
@[simp] theorem State.setOwner_seqs (ch : Channel) (o : Owner) : (s.setOwner ch o).seqs = s.seqs := rfl
@[simp] theorem State.setOwner_trace (ch : Channel) (o : Owner) : (s.setOwner ch o).trace = s.trace := rfl
@[simp] theorem State.setOwner_inbox (ch : Channel) (o : Owner) : (s.setOwner ch o).inbox = s.inbox := rfl
@[simp] theorem State.setOwner_responses (ch : Channel) (o : Owner) : (s.setOwner ch o).responses = s.responses := rfl
@[simp] theorem State.setOwner_devices (ch : Channel) (o : Owner) : (s.setOwner ch o).devices = s.devices := rfl
@[simp] theorem State.setOwner_changing (ch : Channel) (o : Owner) : (s.setOwner ch o).changing = s.changing := rfl
@[simp] theorem State.setOwner_params (ch : Channel) (o : Owner) : (s.setOwner ch o).params = s.params := rfl
@[simp] theorem State.setOwner_peers (ch : Channel) (o : Owner) : (s.setOwner ch o).peers = s.peers := rfl
@[simp] theorem State.setOwner_heldElsewhere (ch : Channel) (o : Owner) : (s.setOwner ch o).heldElsewhere = s.heldElsewhere := rfl
@[simp] theorem State.setOwner_replies (ch : Channel) (o : Owner) : (s.setOwner ch o).replies = s.replies := rfl
@[simp] theorem State.setOwner_traffic (ch : Channel) (o : Owner) : (s.setOwner ch o).traffic = s.traffic := rfl
@[simp] theorem State.setOwner_events (ch : Channel) (o : Owner) : (s.setOwner ch o).events = s.events := rfl

/-! ## `setDuty` -/

@[simp] theorem State.setDuty_phase (ch : Channel) (d : Duty) : (s.setDuty ch d).phase = s.phase := rfl
@[simp] theorem State.setDuty_addr (ch : Channel) (d : Duty) : (s.setDuty ch d).addr = s.addr := rfl
@[simp] theorem State.setDuty_alloc (ch : Channel) (d : Duty) : (s.setDuty ch d).alloc = s.alloc := rfl
@[simp] theorem State.setDuty_bridges (ch : Channel) (d : Duty) : (s.setDuty ch d).bridges = s.bridges := rfl
@[simp] theorem State.setDuty_seqs (ch : Channel) (d : Duty) : (s.setDuty ch d).seqs = s.seqs := rfl
@[simp] theorem State.setDuty_trace (ch : Channel) (d : Duty) : (s.setDuty ch d).trace = s.trace := rfl
@[simp] theorem State.setDuty_inbox (ch : Channel) (d : Duty) : (s.setDuty ch d).inbox = s.inbox := rfl
@[simp] theorem State.setDuty_responses (ch : Channel) (d : Duty) : (s.setDuty ch d).responses = s.responses := rfl
@[simp] theorem State.setDuty_devices (ch : Channel) (d : Duty) : (s.setDuty ch d).devices = s.devices := rfl
@[simp] theorem State.setDuty_changing (ch : Channel) (d : Duty) : (s.setDuty ch d).changing = s.changing := rfl
@[simp] theorem State.setDuty_params (ch : Channel) (d : Duty) : (s.setDuty ch d).params = s.params := rfl
@[simp] theorem State.setDuty_peers (ch : Channel) (d : Duty) : (s.setDuty ch d).peers = s.peers := rfl
@[simp] theorem State.setDuty_heldElsewhere (ch : Channel) (d : Duty) : (s.setDuty ch d).heldElsewhere = s.heldElsewhere := rfl
@[simp] theorem State.setDuty_replies (ch : Channel) (d : Duty) : (s.setDuty ch d).replies = s.replies := rfl
@[simp] theorem State.setDuty_traffic (ch : Channel) (d : Duty) : (s.setDuty ch d).traffic = s.traffic := rfl
@[simp] theorem State.setDuty_events (ch : Channel) (d : Duty) : (s.setDuty ch d).events = s.events := rfl

/-! ## `setSeq` -/

@[simp] theorem State.setSeq_phase (i : Nat) (q : Seq) : (s.setSeq i q).phase = s.phase := rfl
@[simp] theorem State.setSeq_addr (i : Nat) (q : Seq) : (s.setSeq i q).addr = s.addr := rfl
@[simp] theorem State.setSeq_alloc (i : Nat) (q : Seq) : (s.setSeq i q).alloc = s.alloc := rfl
@[simp] theorem State.setSeq_chDuty (i : Nat) (q : Seq) : (s.setSeq i q).chDuty = s.chDuty := rfl
@[simp] theorem State.setSeq_bridges (i : Nat) (q : Seq) : (s.setSeq i q).bridges = s.bridges := rfl
@[simp] theorem State.setSeq_seqs (i : Nat) (q : Seq) : (s.setSeq i q).seqs = s.seqs.set i q := rfl
@[simp] theorem State.setSeq_trace (i : Nat) (q : Seq) : (s.setSeq i q).trace = s.trace := rfl
@[simp] theorem State.setSeq_inbox (i : Nat) (q : Seq) : (s.setSeq i q).inbox = s.inbox := rfl
@[simp] theorem State.setSeq_responses (i : Nat) (q : Seq) : (s.setSeq i q).responses = s.responses := rfl
@[simp] theorem State.setSeq_devices (i : Nat) (q : Seq) : (s.setSeq i q).devices = s.devices := rfl
@[simp] theorem State.setSeq_changing (i : Nat) (q : Seq) : (s.setSeq i q).changing = s.changing := rfl
@[simp] theorem State.setSeq_params (i : Nat) (q : Seq) : (s.setSeq i q).params = s.params := rfl
@[simp] theorem State.setSeq_peers (i : Nat) (q : Seq) : (s.setSeq i q).peers = s.peers := rfl
@[simp] theorem State.setSeq_heldElsewhere (i : Nat) (q : Seq) : (s.setSeq i q).heldElsewhere = s.heldElsewhere := rfl
@[simp] theorem State.setSeq_replies (i : Nat) (q : Seq) : (s.setSeq i q).replies = s.replies := rfl
@[simp] theorem State.setSeq_traffic (i : Nat) (q : Seq) : (s.setSeq i q).traffic = s.traffic := rfl
@[simp] theorem State.setSeq_events (i : Nat) (q : Seq) : (s.setSeq i q).events = s.events := rfl

/-! ## `respond` -/

@[simp] theorem State.respond_phase (e : Status) (data : BitVec 16) : (s.respond e data).phase = s.phase := rfl
@[simp] theorem State.respond_addr (e : Status) (data : BitVec 16) : (s.respond e data).addr = s.addr := rfl
@[simp] theorem State.respond_alloc (e : Status) (data : BitVec 16) : (s.respond e data).alloc = s.alloc := rfl
@[simp] theorem State.respond_chDuty (e : Status) (data : BitVec 16) : (s.respond e data).chDuty = s.chDuty := rfl
@[simp] theorem State.respond_bridges (e : Status) (data : BitVec 16) : (s.respond e data).bridges = s.bridges := rfl
@[simp] theorem State.respond_seqs (e : Status) (data : BitVec 16) : (s.respond e data).seqs = s.seqs := rfl
@[simp] theorem State.respond_trace (e : Status) (data : BitVec 16) : (s.respond e data).trace = s.trace := rfl
@[simp] theorem State.respond_inbox (e : Status) (data : BitVec 16) : (s.respond e data).inbox = s.inbox := rfl
@[simp] theorem State.respond_responses (e : Status) (data : BitVec 16) : (s.respond e data).responses = s.responses ++ [responseWord e data] := rfl
@[simp] theorem State.respond_devices (e : Status) (data : BitVec 16) : (s.respond e data).devices = s.devices := rfl
@[simp] theorem State.respond_changing (e : Status) (data : BitVec 16) : (s.respond e data).changing = s.changing := rfl
@[simp] theorem State.respond_params (e : Status) (data : BitVec 16) : (s.respond e data).params = s.params := rfl
@[simp] theorem State.respond_peers (e : Status) (data : BitVec 16) : (s.respond e data).peers = s.peers := rfl
@[simp] theorem State.respond_heldElsewhere (e : Status) (data : BitVec 16) : (s.respond e data).heldElsewhere = s.heldElsewhere := rfl
@[simp] theorem State.respond_replies (e : Status) (data : BitVec 16) : (s.respond e data).replies = s.replies := rfl
@[simp] theorem State.respond_traffic (e : Status) (data : BitVec 16) : (s.respond e data).traffic = s.traffic := rfl
@[simp] theorem State.respond_events (e : Status) (data : BitVec 16) : (s.respond e data).events = s.events := rfl

/-! ## `interleave` -/

@[simp] theorem State.interleave_phase : (s.interleave).phase = s.phase := rfl
@[simp] theorem State.interleave_addr : (s.interleave).addr = s.addr := rfl
@[simp] theorem State.interleave_alloc : (s.interleave).alloc = s.alloc := rfl
@[simp] theorem State.interleave_chDuty : (s.interleave).chDuty = s.chDuty := rfl
@[simp] theorem State.interleave_bridges : (s.interleave).bridges = s.bridges := rfl
@[simp] theorem State.interleave_seqs : (s.interleave).seqs = s.seqs := rfl
@[simp] theorem State.interleave_trace : (s.interleave).trace = s.trace := rfl
@[simp] theorem State.interleave_inbox : (s.interleave).inbox = s.inbox := rfl
@[simp] theorem State.interleave_responses : (s.interleave).responses = s.responses := rfl
@[simp] theorem State.interleave_devices : (s.interleave).devices = applyForeign s.devices (s.traffic.headD []) := rfl
@[simp] theorem State.interleave_changing : (s.interleave).changing = s.changing := rfl
@[simp] theorem State.interleave_params : (s.interleave).params = s.params := rfl
@[simp] theorem State.interleave_peers : (s.interleave).peers = s.peers := rfl
@[simp] theorem State.interleave_heldElsewhere : (s.interleave).heldElsewhere = s.heldElsewhere := rfl
@[simp] theorem State.interleave_replies : (s.interleave).replies = s.replies := rfl
@[simp] theorem State.interleave_traffic : (s.interleave).traffic = s.traffic.tail := rfl
@[simp] theorem State.interleave_events : (s.interleave).events = s.events := rfl

/-! ## `newGroup` -/

@[simp] theorem State.newGroup_phase : (s.newGroup).phase = s.phase := rfl
@[simp] theorem State.newGroup_addr : (s.newGroup).addr = s.addr := rfl
@[simp] theorem State.newGroup_alloc : (s.newGroup).alloc = s.alloc := rfl
@[simp] theorem State.newGroup_chDuty : (s.newGroup).chDuty = s.chDuty := rfl
@[simp] theorem State.newGroup_bridges : (s.newGroup).bridges = s.bridges := rfl
@[simp] theorem State.newGroup_seqs : (s.newGroup).seqs = s.seqs := rfl
@[simp] theorem State.newGroup_trace : (s.newGroup).trace = s.trace ++ [[]] := rfl
@[simp] theorem State.newGroup_inbox : (s.newGroup).inbox = s.inbox := rfl
@[simp] theorem State.newGroup_responses : (s.newGroup).responses = s.responses := rfl
@[simp] theorem State.newGroup_devices : (s.newGroup).devices = s.devices := rfl
@[simp] theorem State.newGroup_changing : (s.newGroup).changing = s.changing := rfl
@[simp] theorem State.newGroup_params : (s.newGroup).params = s.params := rfl
@[simp] theorem State.newGroup_peers : (s.newGroup).peers = s.peers := rfl
@[simp] theorem State.newGroup_heldElsewhere : (s.newGroup).heldElsewhere = s.heldElsewhere := rfl
@[simp] theorem State.newGroup_replies : (s.newGroup).replies = s.replies := rfl
@[simp] theorem State.newGroup_traffic : (s.newGroup).traffic = s.traffic := rfl
@[simp] theorem State.newGroup_events : (s.newGroup).events = s.events := rfl

/-! ## `record` -/

@[simp] theorem State.record_phase (e : BusEvent) : (s.record e).phase = s.phase := rfl
@[simp] theorem State.record_addr (e : BusEvent) : (s.record e).addr = s.addr := rfl
@[simp] theorem State.record_alloc (e : BusEvent) : (s.record e).alloc = s.alloc := rfl
@[simp] theorem State.record_chDuty (e : BusEvent) : (s.record e).chDuty = s.chDuty := rfl
@[simp] theorem State.record_bridges (e : BusEvent) : (s.record e).bridges = s.bridges := rfl
@[simp] theorem State.record_seqs (e : BusEvent) : (s.record e).seqs = s.seqs := rfl
@[simp] theorem State.record_inbox (e : BusEvent) : (s.record e).inbox = s.inbox := rfl
@[simp] theorem State.record_responses (e : BusEvent) : (s.record e).responses = s.responses := rfl
@[simp] theorem State.record_devices (e : BusEvent) : (s.record e).devices = s.devices := rfl
@[simp] theorem State.record_changing (e : BusEvent) : (s.record e).changing = s.changing := rfl
@[simp] theorem State.record_params (e : BusEvent) : (s.record e).params = s.params := rfl
@[simp] theorem State.record_peers (e : BusEvent) : (s.record e).peers = s.peers := rfl
@[simp] theorem State.record_heldElsewhere (e : BusEvent) : (s.record e).heldElsewhere = s.heldElsewhere := rfl
@[simp] theorem State.record_replies (e : BusEvent) : (s.record e).replies = s.replies := rfl
@[simp] theorem State.record_traffic (e : BusEvent) : (s.record e).traffic = s.traffic := rfl
@[simp] theorem State.record_events (e : BusEvent) : (s.record e).events = s.events := rfl

/-! ## `consume` -/

@[simp] theorem State.consume_phase (rest : List Word) : (s.consume rest).phase = s.phase := rfl
@[simp] theorem State.consume_addr (rest : List Word) : (s.consume rest).addr = s.addr := rfl
@[simp] theorem State.consume_alloc (rest : List Word) : (s.consume rest).alloc = s.alloc := rfl
@[simp] theorem State.consume_chDuty (rest : List Word) : (s.consume rest).chDuty = s.chDuty := rfl
@[simp] theorem State.consume_bridges (rest : List Word) : (s.consume rest).bridges = s.bridges := rfl
@[simp] theorem State.consume_seqs (rest : List Word) : (s.consume rest).seqs = s.seqs := rfl
@[simp] theorem State.consume_trace (rest : List Word) : (s.consume rest).trace = s.trace := rfl
@[simp] theorem State.consume_inbox (rest : List Word) : (s.consume rest).inbox = rest := rfl
@[simp] theorem State.consume_responses (rest : List Word) : (s.consume rest).responses = s.responses := rfl
@[simp] theorem State.consume_devices (rest : List Word) : (s.consume rest).devices = s.devices := rfl
@[simp] theorem State.consume_changing (rest : List Word) : (s.consume rest).changing = s.changing := rfl
@[simp] theorem State.consume_params (rest : List Word) : (s.consume rest).params = s.params := rfl
@[simp] theorem State.consume_peers (rest : List Word) : (s.consume rest).peers = s.peers := rfl
@[simp] theorem State.consume_heldElsewhere (rest : List Word) : (s.consume rest).heldElsewhere = s.heldElsewhere := rfl
@[simp] theorem State.consume_replies (rest : List Word) : (s.consume rest).replies = s.replies := rfl
@[simp] theorem State.consume_traffic (rest : List Word) : (s.consume rest).traffic = s.traffic := rfl
@[simp] theorem State.consume_events (rest : List Word) : (s.consume rest).events = s.events := rfl

/-! ## `openChange` -/

@[simp] theorem State.openChange_phase (a : Addr) : (s.openChange a).phase = s.phase := rfl
@[simp] theorem State.openChange_addr (a : Addr) : (s.openChange a).addr = s.addr := rfl
@[simp] theorem State.openChange_alloc (a : Addr) : (s.openChange a).alloc = s.alloc := rfl
@[simp] theorem State.openChange_chDuty (a : Addr) : (s.openChange a).chDuty = s.chDuty := rfl
@[simp] theorem State.openChange_bridges (a : Addr) : (s.openChange a).bridges = s.bridges := rfl
@[simp] theorem State.openChange_seqs (a : Addr) : (s.openChange a).seqs = s.seqs := rfl
@[simp] theorem State.openChange_trace (a : Addr) : (s.openChange a).trace = s.trace := rfl
@[simp] theorem State.openChange_inbox (a : Addr) : (s.openChange a).inbox = s.inbox := rfl
@[simp] theorem State.openChange_responses (a : Addr) : (s.openChange a).responses = s.responses := rfl
@[simp] theorem State.openChange_devices (a : Addr) : (s.openChange a).devices = s.devices := rfl
@[simp] theorem State.openChange_params (a : Addr) : (s.openChange a).params = s.params := rfl
@[simp] theorem State.openChange_peers (a : Addr) : (s.openChange a).peers = s.peers := rfl
@[simp] theorem State.openChange_heldElsewhere (a : Addr) : (s.openChange a).heldElsewhere = s.heldElsewhere := rfl
@[simp] theorem State.openChange_replies (a : Addr) : (s.openChange a).replies = s.replies := rfl
@[simp] theorem State.openChange_traffic (a : Addr) : (s.openChange a).traffic = s.traffic := rfl
@[simp] theorem State.openChange_events (a : Addr) : (s.openChange a).events = s.events := rfl

/-! ## `closeChange` -/

@[simp] theorem State.closeChange_phase (a : Addr) : (s.closeChange a).phase = s.phase := rfl
@[simp] theorem State.closeChange_addr (a : Addr) : (s.closeChange a).addr = s.addr := rfl
@[simp] theorem State.closeChange_alloc (a : Addr) : (s.closeChange a).alloc = s.alloc := rfl
@[simp] theorem State.closeChange_chDuty (a : Addr) : (s.closeChange a).chDuty = s.chDuty := rfl
@[simp] theorem State.closeChange_bridges (a : Addr) : (s.closeChange a).bridges = s.bridges := rfl
@[simp] theorem State.closeChange_seqs (a : Addr) : (s.closeChange a).seqs = s.seqs := rfl
@[simp] theorem State.closeChange_trace (a : Addr) : (s.closeChange a).trace = s.trace := rfl
@[simp] theorem State.closeChange_inbox (a : Addr) : (s.closeChange a).inbox = s.inbox := rfl
@[simp] theorem State.closeChange_responses (a : Addr) : (s.closeChange a).responses = s.responses := rfl
@[simp] theorem State.closeChange_devices (a : Addr) : (s.closeChange a).devices = s.devices := rfl
@[simp] theorem State.closeChange_params (a : Addr) : (s.closeChange a).params = s.params := rfl
@[simp] theorem State.closeChange_peers (a : Addr) : (s.closeChange a).peers = s.peers := rfl
@[simp] theorem State.closeChange_heldElsewhere (a : Addr) : (s.closeChange a).heldElsewhere = s.heldElsewhere := rfl
@[simp] theorem State.closeChange_replies (a : Addr) : (s.closeChange a).replies = s.replies := rfl
@[simp] theorem State.closeChange_traffic (a : Addr) : (s.closeChange a).traffic = s.traffic := rfl
@[simp] theorem State.closeChange_events (a : Addr) : (s.closeChange a).events = s.events := rfl

/-! ## Accessors over updates -/

@[simp] theorem Conn.idx_inj {k k' : Conn} : k.idx = k'.idx ↔ k = k' := by cases k <;> cases k' <;> decide

theorem State.owner_setOwner (ch c : Channel) (o : Owner) :
    (s.setOwner ch o).owner c = if c = ch then o else s.owner c := by
  simp only [State.owner, State.setOwner, Fin.getElem_fin, Vector.getElem_set, Fin.ext_iff, eq_comm]

theorem State.duty_setDuty (ch c : Channel) (d : Duty) :
    (s.setDuty ch d).duty c = if c = ch then d else s.duty c := by
  simp only [State.duty, State.setDuty, Fin.getElem_fin, Vector.getElem_set, Fin.ext_iff, eq_comm]

theorem State.bridge_setBridge (k k' : Conn) (b : Bridge) :
    (s.setBridge k b).bridge k' = if k' = k then b else s.bridge k' := by
  have h : ((k.idx : Fin 4) : Nat) = k'.idx ↔ k' = k := by
    rw [← Fin.ext_iff, Conn.idx_inj]; exact eq_comm
  simp only [State.bridge, State.setBridge, Fin.getElem_fin, Vector.getElem_set, h]

theorem State.bridge_setBridgeDuty (k k' : Conn) (d : Duty) :
    (s.setBridgeDuty k d).bridge k' = if k' = k then { s.bridge k with duty := d } else s.bridge k' := by
  simp only [State.setBridgeDuty, State.bridge_setBridge]

theorem State.seq_setSeq (i j : Nat) (q : Seq) :
    (s.setSeq i q).seq j = if j = i ∧ i < s.nseq then q else s.seq j := by
  simp only [State.seq, State.setSeq, State.nseq, List.getD_eq_getElem?_getD, List.getElem?_set]
  by_cases h : i = j
  · subst h
    by_cases hl : i < s.seqs.length <;> simp [hl]
  · have h' : ¬ j = i := fun e => h e.symm
    simp [h, h']

@[simp] theorem State.nseq_setSeq (i : Nat) (q : Seq) : (s.setSeq i q).nseq = s.nseq := by
  simp [State.nseq]

@[simp] theorem State.owner_setBridge (k : Conn) (b : Bridge) (c : Channel) : (s.setBridge k b).owner c = s.owner c := rfl
@[simp] theorem State.owner_setBridgeDuty (k : Conn) (d : Duty) (c : Channel) : (s.setBridgeDuty k d).owner c = s.owner c := rfl
@[simp] theorem State.owner_setDuty (ch : Channel) (d : Duty) (c : Channel) : (s.setDuty ch d).owner c = s.owner c := rfl
@[simp] theorem State.owner_setSeq (i : Nat) (q : Seq) (c : Channel) : (s.setSeq i q).owner c = s.owner c := rfl
@[simp] theorem State.owner_respond (e : Status) (data : BitVec 16) (c : Channel) : (s.respond e data).owner c = s.owner c := rfl
@[simp] theorem State.owner_interleave (c : Channel) : (s.interleave).owner c = s.owner c := rfl
@[simp] theorem State.owner_newGroup (c : Channel) : (s.newGroup).owner c = s.owner c := rfl
@[simp] theorem State.owner_record (e : BusEvent) (c : Channel) : (s.record e).owner c = s.owner c := rfl
@[simp] theorem State.owner_openChange (a : Addr) (c : Channel) : (s.openChange a).owner c = s.owner c := rfl
@[simp] theorem State.owner_closeChange (a : Addr) (c : Channel) : (s.closeChange a).owner c = s.owner c := rfl
@[simp] theorem State.owner_consume (rest : List Word) (c : Channel) : (s.consume rest).owner c = s.owner c := rfl
@[simp] theorem State.duty_setBridge (k : Conn) (b : Bridge) (c : Channel) : (s.setBridge k b).duty c = s.duty c := rfl
@[simp] theorem State.duty_setBridgeDuty (k : Conn) (d : Duty) (c : Channel) : (s.setBridgeDuty k d).duty c = s.duty c := rfl
@[simp] theorem State.duty_setOwner (ch : Channel) (o : Owner) (c : Channel) : (s.setOwner ch o).duty c = s.duty c := rfl
@[simp] theorem State.duty_setSeq (i : Nat) (q : Seq) (c : Channel) : (s.setSeq i q).duty c = s.duty c := rfl
@[simp] theorem State.duty_respond (e : Status) (data : BitVec 16) (c : Channel) : (s.respond e data).duty c = s.duty c := rfl
@[simp] theorem State.duty_interleave (c : Channel) : (s.interleave).duty c = s.duty c := rfl
@[simp] theorem State.duty_newGroup (c : Channel) : (s.newGroup).duty c = s.duty c := rfl
@[simp] theorem State.duty_record (e : BusEvent) (c : Channel) : (s.record e).duty c = s.duty c := rfl
@[simp] theorem State.duty_openChange (a : Addr) (c : Channel) : (s.openChange a).duty c = s.duty c := rfl
@[simp] theorem State.duty_closeChange (a : Addr) (c : Channel) : (s.closeChange a).duty c = s.duty c := rfl
@[simp] theorem State.duty_consume (rest : List Word) (c : Channel) : (s.consume rest).duty c = s.duty c := rfl
@[simp] theorem State.bridge_setOwner (ch : Channel) (o : Owner) (k0 : Conn) : (s.setOwner ch o).bridge k0 = s.bridge k0 := rfl
@[simp] theorem State.bridge_setDuty (ch : Channel) (d : Duty) (k0 : Conn) : (s.setDuty ch d).bridge k0 = s.bridge k0 := rfl
@[simp] theorem State.bridge_setSeq (i : Nat) (q : Seq) (k0 : Conn) : (s.setSeq i q).bridge k0 = s.bridge k0 := rfl
@[simp] theorem State.bridge_respond (e : Status) (data : BitVec 16) (k0 : Conn) : (s.respond e data).bridge k0 = s.bridge k0 := rfl
@[simp] theorem State.bridge_interleave (k0 : Conn) : (s.interleave).bridge k0 = s.bridge k0 := rfl
@[simp] theorem State.bridge_newGroup (k0 : Conn) : (s.newGroup).bridge k0 = s.bridge k0 := rfl
@[simp] theorem State.bridge_record (e : BusEvent) (k0 : Conn) : (s.record e).bridge k0 = s.bridge k0 := rfl
@[simp] theorem State.bridge_openChange (a : Addr) (k0 : Conn) : (s.openChange a).bridge k0 = s.bridge k0 := rfl
@[simp] theorem State.bridge_closeChange (a : Addr) (k0 : Conn) : (s.closeChange a).bridge k0 = s.bridge k0 := rfl
@[simp] theorem State.bridge_consume (rest : List Word) (k0 : Conn) : (s.consume rest).bridge k0 = s.bridge k0 := rfl
@[simp] theorem State.seq_setBridge (k : Conn) (b : Bridge) (j : Nat) : (s.setBridge k b).seq j = s.seq j := rfl
@[simp] theorem State.seq_setBridgeDuty (k : Conn) (d : Duty) (j : Nat) : (s.setBridgeDuty k d).seq j = s.seq j := rfl
@[simp] theorem State.seq_setOwner (ch : Channel) (o : Owner) (j : Nat) : (s.setOwner ch o).seq j = s.seq j := rfl
@[simp] theorem State.seq_setDuty (ch : Channel) (d : Duty) (j : Nat) : (s.setDuty ch d).seq j = s.seq j := rfl
@[simp] theorem State.seq_respond (e : Status) (data : BitVec 16) (j : Nat) : (s.respond e data).seq j = s.seq j := rfl
@[simp] theorem State.seq_interleave (j : Nat) : (s.interleave).seq j = s.seq j := rfl
@[simp] theorem State.seq_newGroup (j : Nat) : (s.newGroup).seq j = s.seq j := rfl
@[simp] theorem State.seq_record (e : BusEvent) (j : Nat) : (s.record e).seq j = s.seq j := rfl
@[simp] theorem State.seq_openChange (a : Addr) (j : Nat) : (s.openChange a).seq j = s.seq j := rfl
@[simp] theorem State.seq_closeChange (a : Addr) (j : Nat) : (s.closeChange a).seq j = s.seq j := rfl
@[simp] theorem State.seq_consume (rest : List Word) (j : Nat) : (s.consume rest).seq j = s.seq j := rfl
@[simp] theorem State.entry_setBridge (k : Conn) (b : Bridge) (c : Channel) : (s.setBridge k b).entry c = s.entry c := rfl
@[simp] theorem State.entry_setBridgeDuty (k : Conn) (d : Duty) (c : Channel) : (s.setBridgeDuty k d).entry c = s.entry c := rfl
@[simp] theorem State.entry_setDuty (ch : Channel) (d : Duty) (c : Channel) : (s.setDuty ch d).entry c = s.entry c := rfl
@[simp] theorem State.entry_setSeq (i : Nat) (q : Seq) (c : Channel) : (s.setSeq i q).entry c = s.entry c := rfl
@[simp] theorem State.entry_respond (e : Status) (data : BitVec 16) (c : Channel) : (s.respond e data).entry c = s.entry c := rfl
@[simp] theorem State.entry_interleave (c : Channel) : (s.interleave).entry c = s.entry c := rfl
@[simp] theorem State.entry_newGroup (c : Channel) : (s.newGroup).entry c = s.entry c := rfl
@[simp] theorem State.entry_record (e : BusEvent) (c : Channel) : (s.record e).entry c = s.entry c := rfl
@[simp] theorem State.entry_openChange (a : Addr) (c : Channel) : (s.openChange a).entry c = s.entry c := rfl
@[simp] theorem State.entry_closeChange (a : Addr) (c : Channel) : (s.closeChange a).entry c = s.entry c := rfl
@[simp] theorem State.entry_consume (rest : List Word) (c : Channel) : (s.consume rest).entry c = s.entry c := rfl
@[simp] theorem State.nseq_setBridge (k : Conn) (b : Bridge) : (s.setBridge k b).nseq = s.nseq := rfl
@[simp] theorem State.nseq_setBridgeDuty (k : Conn) (d : Duty) : (s.setBridgeDuty k d).nseq = s.nseq := rfl
@[simp] theorem State.nseq_setOwner (ch : Channel) (o : Owner) : (s.setOwner ch o).nseq = s.nseq := rfl
@[simp] theorem State.nseq_setDuty (ch : Channel) (d : Duty) : (s.setDuty ch d).nseq = s.nseq := rfl
@[simp] theorem State.nseq_respond (e : Status) (data : BitVec 16) : (s.respond e data).nseq = s.nseq := rfl
@[simp] theorem State.nseq_interleave : (s.interleave).nseq = s.nseq := rfl
@[simp] theorem State.nseq_newGroup : (s.newGroup).nseq = s.nseq := rfl
@[simp] theorem State.nseq_record (e : BusEvent) : (s.record e).nseq = s.nseq := rfl
@[simp] theorem State.nseq_openChange (a : Addr) : (s.openChange a).nseq = s.nseq := rfl
@[simp] theorem State.nseq_closeChange (a : Addr) : (s.closeChange a).nseq = s.nseq := rfl
@[simp] theorem State.nseq_consume (rest : List Word) : (s.consume rest).nseq = s.nseq := rfl

/-! ## Frequency changes (R353) -/

@[simp] theorem State.mem_openChange (a b : Addr) : b ∈ (s.openChange a).changing ↔ b = a ∨ b ∈ s.changing := by
  unfold State.openChange
  by_cases h : a ∈ s.changing
  · simp only [h, if_true]
    exact ⟨Or.inr, fun k => k.elim (fun e => e ▸ h) id⟩
  · simp [h, or_comm]

@[simp] theorem State.mem_closeChange (a b : Addr) : b ∈ (s.closeChange a).changing ↔ b ∈ s.changing ∧ b ≠ a := by
  simp [State.closeChange]

/-- A change that has begun and ended leaves no mark. -/
@[simp] theorem State.closeChange_openChange (a : Addr) : (s.openChange a).closeChange a = s.closeChange a := by
  by_cases h : a ∈ s.changing <;> simp [State.openChange, State.closeChange, h]

theorem State.openChange_nodup {s : State} (h : s.changing.Nodup) (a : Addr) : (s.openChange a).changing.Nodup := by
  unfold State.openChange
  by_cases ha : a ∈ s.changing
  · simpa [ha] using h
  · simpa [ha, List.nodup_append] using ⟨h, fun b hb e => ha (e ▸ hb)⟩

theorem State.closeChange_nodup {s : State} (h : s.changing.Nodup) (a : Addr) : (s.closeChange a).changing.Nodup :=
  h.filter _

theorem State.entry_setOwner (ch c : Channel) (o : Owner) (h : c ≠ ch) : (s.setOwner ch o).entry c = s.entry c := by
  simp [State.entry, State.owner_setOwner, h]

/-- An entry is `free` exactly when this block does not own the channel and no other block does in its scope. -/
theorem State.entry_free_iff (c : Channel) : s.entry c = .free ↔
    ¬ (s.params.allocScope = .global ∧ s.heldElsewhere[c] = true) ∧ s.owner c = .free := by
  unfold State.entry
  by_cases h : s.params.allocScope = .global ∧ s.heldElsewhere[c] = true
  · simp [h]
  · simp only [h, if_false]; cases s.owner c <;> simp

theorem State.entry_port_iff (c : Channel) : s.entry c = .port ↔
    ¬ (s.params.allocScope = .global ∧ s.heldElsewhere[c] = true) ∧ s.owner c = .port := by
  unfold State.entry
  by_cases h : s.params.allocScope = .global ∧ s.heldElsewhere[c] = true
  · simp [h]
  · simp only [h, if_false]; cases s.owner c <;> simp

end Sys2Proof.Machine
end

