-- ==== Sys2Proof/Laws/Bus.lean ====
section
/-! SUPPORT. What a bus primitive can do: one specification each, over every answer of the bus. Every primitive adds one
group to the trace, touches nothing of the block, and ends with OK, or with TRANSPORT_ERROR at the frame that failed. -/

namespace Sys2Proof.Machine

/-! ## The effect of bus traffic -/

theorem ReferenceRun.append {ds es ds' : List Device} {xs ys : List BusEvent} (h : ReferenceRun ds xs es)
    (k : ReferenceRun es ys ds') : ReferenceRun ds (xs ++ ys) ds' := by
  induction xs generalizing ds with
  | nil => cases h; exact k
  | cons e xs ih => exact ⟨h.1, ih h.2⟩

theorem ReferenceRun.devices {ds ds' : List Device} {es : List BusEvent} (h : ReferenceRun ds es ds') :
    ds' = es.foldl (fun ds e => (transact ds e.frame .reference).2) ds := by
  induction es generalizing ds with
  | nil => exact h
  | cons e es ih => exact ih h.2

namespace BusEffect

variable {s t u : State} {gs hs : List Group}

theorem refl (s : State) : BusEffect s s [] :=
  ⟨by simp, rfl, fun h => h, ⟨0, rfl⟩, fun hq => ⟨hq, rfl⟩⟩

theorem trans (h : BusEffect s t gs) (k : BusEffect t u hs) : BusEffect s u (gs ++ hs) := by
  obtain ⟨n, hn⟩ := h.replies
  obtain ⟨m, hm⟩ := k.replies
  refine ⟨?_, k.addrs.trans h.addrs, fun hw => k.wf (h.wf hw), ⟨n + m, ?_⟩, fun hq => ?_⟩
  · rw [k.rest, h.rest]; simp
  · rw [hm, hn, List.drop_drop]
  · obtain ⟨hq', hr⟩ := h.reference hq
    obtain ⟨hq'', hr'⟩ := k.reference hq'
    exact ⟨hq'', by rw [List.flatten_append]; exact hr.append hr'⟩

theorem trace (h : BusEffect s t gs) : t.trace = s.trace ++ gs := by rw [h.rest]
theorem phase (h : BusEffect s t gs) : t.phase = s.phase := by rw [h.rest]
theorem addr (h : BusEffect s t gs) : t.addr = s.addr := by rw [h.rest]
theorem alloc (h : BusEffect s t gs) : t.alloc = s.alloc := by rw [h.rest]
theorem chDuty (h : BusEffect s t gs) : t.chDuty = s.chDuty := by rw [h.rest]
theorem bridges (h : BusEffect s t gs) : t.bridges = s.bridges := by rw [h.rest]
theorem seqs (h : BusEffect s t gs) : t.seqs = s.seqs := by rw [h.rest]
theorem inbox (h : BusEffect s t gs) : t.inbox = s.inbox := by rw [h.rest]
theorem responses (h : BusEffect s t gs) : t.responses = s.responses := by rw [h.rest]
theorem params (h : BusEffect s t gs) : t.params = s.params := by rw [h.rest]
theorem peers (h : BusEffect s t gs) : t.peers = s.peers := by rw [h.rest]
theorem held (h : BusEffect s t gs) : t.heldElsewhere = s.heldElsewhere := by rw [h.rest]
theorem events (h : BusEffect s t gs) : t.events = s.events := by rw [h.rest]
theorem changing (h : BusEffect s t gs) : t.changing = s.changing := by rw [h.rest]

/-- The record of frequency changes does not touch the bus. -/
theorem openChange (h : BusEffect s t gs) (a : Addr) : BusEffect (s.openChange a) (t.openChange a) gs := by
  refine ⟨?_, h.addrs, h.wf, h.replies, h.reference⟩
  conv_lhs => rw [h.rest]
  simp only [State.openChange]

theorem closeChange (h : BusEffect s t gs) (a : Addr) : BusEffect (s.closeChange a) (t.closeChange a) gs := by
  refine ⟨?_, h.addrs, h.wf, h.replies, h.reference⟩
  conv_lhs => rw [h.rest]
  simp only [State.closeChange]

theorem bridge (h : BusEffect s t gs) (k : Conn) : t.bridge k = s.bridge k := by
  simp [State.bridge, h.bridges]
theorem owner (h : BusEffect s t gs) (c : Channel) : t.owner c = s.owner c := by
  simp [State.owner, h.alloc]
theorem duty (h : BusEffect s t gs) (c : Channel) : t.duty c = s.duty c := by
  simp [State.duty, h.chDuty]
theorem seq (h : BusEffect s t gs) (i : Nat) : t.seq i = s.seq i := by
  simp [State.seq, h.seqs]
theorem entry (h : BusEffect s t gs) (c : Channel) : t.entry c = s.entry c := by
  simp [State.entry, h.params, h.held, h.owner]

theorem isSome (h : BusEffect s t gs) (a : Addr) :
    (findDevice t.devices a).isSome = (findDevice s.devices a).isSome := by
  rw [findDevice_isSome, findDevice_isSome, h.addrs]

theorem answersAt (h : BusEffect s t gs) {a : Addr} (hs : s.answersAt a) : t.answersAt a := by
  obtain ⟨n, hn⟩ := h.replies
  refine ⟨by rw [h.isSome]; exact hs.1, fun r hr => hs.2 r ?_⟩
  rw [hn] at hr
  exact List.mem_of_mem_drop hr

theorem answers (h : BusEffect s t gs) (hs : s.answers) : t.answers := by
  unfold State.answers; rw [h.addr]; exact h.answersAt hs

end BusEffect

/-! ## Inside a group -/

/-- What a body does inside an open group: it adds events sent to the block's device; it returns with the events it is
meant to send, none failed, or it ends with TRANSPORT_ERROR at a failed one, which cannot be when the bus answers. -/
def Frames {α : Type} (c : Cmd α) (shape : Addr → α → List BusEvent → Prop) : Prop :=
  ∀ s t g, BusEffect s t [g] → ∃ u es, BusEffect s u [g ++ es] ∧ (∀ e ∈ es, e.frame.dest = some s.addr) ∧
    ((∃ v, c t = .ok v u ∧ shape s.addr v es ∧ ∀ e ∈ es, e.answer ≠ .fail) ∨
      (c t = .error .transportError u ∧ FailsAtEnd es ∧ ¬ s.answers))

namespace Frames

variable {α β : Type}

theorem pure (v : α) : Frames (Pure.pure v) (fun _ w es => w = v ∧ es = []) := by
  intro s t g h
  exact ⟨t, [], by simpa using h, by simp, Or.inl ⟨v, rfl, ⟨rfl, rfl⟩, by simp⟩⟩

theorem bind {x : Cmd α} {f : α → Cmd β} {S : Addr → α → List BusEvent → Prop}
    {T : α → Addr → β → List BusEvent → Prop} (hx : Frames x S) (hf : ∀ v, Frames (f v) (T v)) :
    Frames (x >>= f) (fun a w es => ∃ v es1 es2, es = es1 ++ es2 ∧ S a v es1 ∧ T v a w es2) := by
  intro s t g h
  obtain ⟨u, es, hu, hdest, hr⟩ := hx s t g h
  rcases hr with ⟨v, hv, hS, hno⟩ | ⟨he, hfail, hans⟩
  · obtain ⟨w, es', hw, hdest', hr'⟩ := hf v s u (g ++ es) hu
    refine ⟨w, es ++ es', by simpa using hw, ?_, ?_⟩
    · intro e he
      rcases List.mem_append.mp he with he | he
      · exact hdest e he
      · exact hdest' e he
    · rcases hr' with ⟨v', hv', hT, hno'⟩ | ⟨he', ⟨ds, fr, hds, hdno⟩, hans⟩
      · refine Or.inl ⟨v', by rw [Cmd.bind_run, hv]; exact hv', ⟨v, es, es', rfl, hS, hT⟩, ?_⟩
        intro e he
        rcases List.mem_append.mp he with he | he
        · exact hno e he
        · exact hno' e he
      · refine Or.inr ⟨by rw [Cmd.bind_run, hv]; exact he', ⟨es ++ ds, fr, by simp [hds], ?_⟩, hans⟩
        intro e he
        rcases List.mem_append.mp he with he | he
        · exact hno e he
        · exact hdno e he
  · exact ⟨u, es, hu, hdest, Or.inr ⟨by rw [Cmd.bind_run, he], hfail, hans⟩⟩

theorem weaken {x : Cmd α} {S T : Addr → α → List BusEvent → Prop} (hx : Frames x S)
    (h : ∀ a v es, S a v es → T a v es) : Frames x T := by
  intro s t g hg
  obtain ⟨u, es, hu, hdest, hr⟩ := hx s t g hg
  refine ⟨u, es, hu, hdest, ?_⟩
  rcases hr with ⟨v, hv, hS, hno⟩ | hr
  · exact Or.inl ⟨v, hv, h _ _ _ hS, hno⟩
  · exact Or.inr hr

theorem onlyIf {c : Bool} {x : Cmd Unit} {S : Addr → Unit → List BusEvent → Prop} (hx : Frames x S) :
    Frames (onlyIf c x) (fun a v es => if c then S a v es else es = []) := by
  cases c
  · exact (Frames.pure ()).weaken (fun a v es h => by simpa using h.2)
  · exact hx.weaken (fun a v es h => by simpa using h)

end Frames

/-- The state after a frame has gone out. -/
theorem send_effect {s t : State} {g : Group} (h : BusEffect s t [g]) (f : Frame) :
    BusEffect s (t.send f).2 [g ++ [{ frame := f, answer := (t.send f).1 }]] := by
  obtain ⟨n, hn⟩ := h.replies
  have ht : t.trace = s.trace ++ [g] := h.trace
  refine ⟨?_, (transact_addrs t.devices f _).trans h.addrs, fun hw => transact_wf (h.wf hw) f _, ⟨n + 1, ?_⟩, fun hq => ?_⟩
  · show State.record _ _ = _
    simp only [State.record, ht, List.dropLast_concat, List.getLastD_concat]
    rw [h.rest]
    simp only [State.send, State.record]
  · show t.replies.tail = _
    rw [hn, List.tail_drop]
  · obtain ⟨hq', hr⟩ := h.reference hq
    have hrep : t.replies = [] := hq'.1
    have hsend : (t.send f).1 = (transact t.devices f .reference).1 ∧
        (t.send f).2.devices = (transact t.devices f .reference).2 := by
      simp [State.send, hrep]
    refine ⟨⟨?_, hq'.2⟩, ?_⟩
    · show t.replies.tail = []
      rw [hrep]; rfl
    · simp only [List.flatten_cons, List.flatten_nil, List.append_nil] at hr ⊢
      exact hr.append ⟨hsend.1, hsend.2⟩

/-- A frame of the block adds one event to the open group: emitted with success, or with TRANSPORT_ERROR. -/
theorem emit_run {s t : State} {g : Group} (h : BusEffect s t [g]) (f : Addr → Frame) (hf : ∀ a, (f a).dest = some a) :
    ∃ u e, BusEffect s u [g ++ [e]] ∧ e.frame = f s.addr ∧
      ((∃ v w, (do let s ← get; emit (f s.addr) : Cmd Byte) t = .ok v u ∧ e.answer = (f s.addr).success w ∧
          (∀ b, f s.addr = .read b → v = w)) ∨
        ((do let s ← get; emit (f s.addr) : Cmd Byte) t = .error .transportError u ∧ e.answer = .fail ∧ ¬ s.answers)) := by
  have hat : t.addr = s.addr := h.addr
  refine ⟨(t.send (f s.addr)).2, { frame := f s.addr, answer := (t.send (f s.addr)).1 },
    send_effect h (f s.addr), rfl, ?_⟩
  have hrun : (do let s ← get; emit (f s.addr) : Cmd Byte) t =
      match (t.send (f s.addr)).1 with
      | .fail => .error .transportError (t.send (f s.addr)).2
      | .data v => .ok v (t.send (f s.addr)).2
      | .ack => .ok 0#8 (t.send (f s.addr)).2
      | .elapsed => .ok 0#8 (t.send (f s.addr)).2 := by
    simp only [Cmd.bind_run, Cmd.get_run, emit, Cmd.set_run, hat]
    cases (t.send (f s.addr)).1 <;> rfl
  have hans : (t.send (f s.addr)).1 = (transact t.devices (f s.addr) (t.replies.headD .reference)).1 := rfl
  rcases transact_answer t.devices (f s.addr) (t.replies.headD .reference) with hfail | ⟨w, hw⟩
  · refine Or.inr ⟨?_, hans.trans hfail, ?_⟩
    · rw [hrun, hans, hfail]
    · intro hs
      have htans := h.answersAt hs
      have hnf : ∀ regs ptr, t.replies.headD .reference ≠ .fail regs ptr := by
        intro regs ptr heq
        cases hrep : t.replies with
        | nil => rw [hrep] at heq; simp at heq
        | cons r rs =>
          rw [hrep] at heq
          have := htans.2 r (by rw [hrep]; simp)
          simp only [List.headD_cons] at heq
          rw [heq] at this
          simp [Reply.isFail] at this
      obtain ⟨v, hv⟩ := transact_ok (hf s.addr) htans.1 hnf
      rw [hfail] at hv
      cases hfr : f s.addr with
      | write a r d => rw [hfr] at hv; simp [Frame.success] at hv
      | read a => rw [hfr] at hv; simp [Frame.success] at hv
      | delay n => rw [hfr] at hv; simp [Frame.success] at hv
  · refine Or.inl ?_
    rw [hrun, hans, hw]
    cases hfr : f s.addr with
    | write a r d =>
      exact ⟨0#8, w, rfl, rfl, by simp⟩
    | read a =>
      exact ⟨w, w, rfl, rfl, by simp⟩
    | delay n =>
      have := hf s.addr; rw [hfr] at this; simp [Frame.dest] at this

theorem frames_emit (f : Addr → Frame) (hf : ∀ a, (f a).dest = some a) :
    Frames (do let s ← get; emit (f s.addr)) (fun a v es => ∃ w,
      es = [{ frame := f a, answer := (f a).success w }] ∧ (∀ b, f a = .read b → v = w)) := by
  intro s t g h
  obtain ⟨u, e, hu, he, hr⟩ := emit_run h f hf
  obtain ⟨fr, an⟩ := e
  subst he
  refine ⟨u, [_], hu, by simp [hf], ?_⟩
  rcases hr with ⟨v, w, hrun, rfl, hv⟩ | ⟨hrun, rfl, hn⟩
  · have hne : (f s.addr).success w ≠ .fail := by cases f s.addr <;> simp [Frame.success]
    exact Or.inl ⟨v, hrun, ⟨w, rfl, hv⟩, by simpa using hne⟩
  · exact Or.inr ⟨hrun, ⟨[], f s.addr, rfl, by simp⟩, hn⟩

/-- A write frame adds one event. -/
theorem emitWrite_run {s t : State} {g : Group} (h : BusEffect s t [g]) (reg : Byte) (data : List Byte) :
    ∃ u, (emitWrite reg data t = .ok () u ∧ BusEffect s u [g ++ [wrote s.addr reg data]]) ∨
      (emitWrite reg data t = .error .transportError u ∧ ¬ s.answers ∧
        BusEffect s u [g ++ [{ frame := .write s.addr reg data, answer := .fail }]]) := by
  obtain ⟨u, ⟨fr, an⟩, hu, he, hr⟩ := emit_run h (fun a => .write a reg data) (fun a => rfl)
  subst he
  have hrun : emitWrite reg data t = match (do let s ← get; emit (.write s.addr reg data) : Cmd Byte) t with
      | .ok _ u => .ok () u
      | .error e u => .error e u := by
    simp only [emitWrite, Cmd.bind_run, Cmd.get_run]
    cases emit (.write t.addr reg data) t <;> rfl
  rcases hr with ⟨v, w, hr, rfl, -⟩ | ⟨hr, rfl, hn⟩
  · exact ⟨u, Or.inl ⟨by rw [hrun, hr], hu⟩⟩
  · exact ⟨u, Or.inr ⟨by rw [hrun, hr], hn, hu⟩⟩

/-- A read frame adds one event. -/
theorem emitRead_run {s t : State} {g : Group} (h : BusEffect s t [g]) :
    ∃ u, (∃ v, emitRead t = .ok v u ∧ BusEffect s u [g ++ [didRead s.addr v]]) ∨
      (emitRead t = .error .transportError u ∧ ¬ s.answers ∧
        BusEffect s u [g ++ [{ frame := .read s.addr, answer := .fail }]]) := by
  obtain ⟨u, ⟨fr, an⟩, hu, he, hr⟩ := emit_run h (fun a => .read a) (fun a => rfl)
  subst he
  rcases hr with ⟨v, w, hr, rfl, hv⟩ | ⟨hr, rfl, hn⟩
  · obtain rfl := hv s.addr rfl
    exact ⟨u, Or.inl ⟨v, hr, hu⟩⟩
  · exact ⟨u, Or.inr ⟨hr, hn, hu⟩⟩

theorem frames_emitWrite (reg : Byte) (data : List Byte) :
    Frames (emitWrite reg data) (fun a _ es => es = [wrote a reg data]) := by
  have h := frames_emit (fun a => .write a reg data) (fun a => rfl)
  have h2 := Frames.bind h (fun v => Frames.pure ())
  refine Frames.weaken (x := emitWrite reg data) h2 ?_
  rintro a v es ⟨w, es1, es2, rfl, ⟨x, rfl, -⟩, -, rfl⟩
  simp [Frame.success]

theorem frames_emitRead : Frames emitRead (fun a v es => es = [didRead a v]) := by
  refine Frames.weaken (x := emitRead) (frames_emit (fun a => .read a) (fun a => rfl)) ?_
  rintro a v es ⟨w, rfl, h⟩
  simp [Frame.success, h a rfl]

/-! ## Whole groups -/

/-- What a bus primitive does: one group of events to the block's device, and nothing to the block. -/
def GroupSpec {α : Type} (c : Cmd α) (shape : Addr → α → Group → Prop) : Prop :=
  ∀ s, ∃ t g, BusEffect s t [g] ∧ (∀ e ∈ g, e.frame.dest = some s.addr) ∧
    ((∃ v, c s = .ok v t ∧ shape s.addr v g ∧ ∀ e ∈ g, e.answer ≠ .fail) ∨
      (c s = .error .transportError t ∧ FailsAtEnd g ∧ ¬ s.answers))

theorem beginGroup_effect (s : State) : BusEffect s s.interleave.newGroup [[]] :=
  ⟨rfl, applyForeign_addrs _ _, fun h => applyForeign_wf _ h, ⟨0, rfl⟩, fun hq => by
    obtain ⟨hr, ht⟩ := hq
    refine ⟨⟨hr, by simp [ht]⟩, ?_⟩
    simp [ht, applyForeign, ReferenceRun]⟩

theorem Frames.group {α : Type} {c : Cmd α} {shape : Addr → α → List BusEvent → Prop} (h : Frames c shape) :
    GroupSpec (do beginGroup; c) shape := by
  intro s
  obtain ⟨u, es, hu, hdest, hr⟩ := h s _ [] (beginGroup_effect s)
  refine ⟨u, es, by simpa using hu, hdest, ?_⟩
  have hrun : (do beginGroup; c : Cmd α) s = c s.interleave.newGroup := rfl
  rw [hrun]
  exact hr

theorem GroupSpec.weaken {α : Type} {c : Cmd α} {S T : Addr → α → Group → Prop} (h : GroupSpec c S)
    (hST : ∀ a v g, S a v g → T a v g) : GroupSpec c T := by
  intro s
  obtain ⟨t, g, ht, hd, hr⟩ := h s
  refine ⟨t, g, ht, hd, ?_⟩
  rcases hr with ⟨v, hv, hS, hno⟩ | hr
  · exact Or.inl ⟨v, hv, hST _ _ _ hS, hno⟩
  · exact Or.inr hr

/-- R74. -/
theorem busWrite1_spec (reg v : Byte) :
    GroupSpec (busWrite1 reg v) (fun a _ g => g = [wrote a reg [v]]) :=
  (frames_emitWrite reg [v]).group

/-- R75. -/
theorem busRead1_spec (reg : Byte) :
    GroupSpec (busRead1 reg) (fun a v g => g = [wrote a reg [], didRead a v]) := by
  refine GroupSpec.weaken (((frames_emitWrite reg []).bind (fun _ => frames_emitRead)).group) ?_
  rintro a v g ⟨_, _, _, rfl, rfl, rfl⟩
  rfl

theorem frames_setIfClear (reg m mask : Byte) :
    Frames (onlyIf (m &&& mask == 0#8) (emitWrite reg [m ||| mask]))
      (fun a _ es => es = setEvents a reg m mask (m &&& mask == 0#8)) := by
  refine (Frames.onlyIf (frames_emitWrite reg [m ||| mask])).weaken ?_
  intro a v es h
  by_cases hm : (m &&& mask == 0#8) = true
  · rw [if_pos hm] at h; rw [h, setEvents, if_pos hm]
  · rw [if_neg hm] at h; rw [h, setEvents, if_neg hm]

/-- R76. -/
theorem busBurst_spec (start : Byte) (bs : List Byte) :
    GroupSpec (busBurst start bs) (fun a _ g => BurstGroup a start bs g) := by
  refine GroupSpec.weaken (((frames_emitWrite regMode1 []).bind (fun _ => frames_emitRead.bind (fun m =>
    (frames_setIfClear regMode1 m bitAI).bind (fun _ => frames_emitWrite start bs)))).group) ?_
  rintro a v g ⟨_, _, _, rfl, rfl, m, _, _, rfl, rfl, _, _, _, rfl, rfl, rfl⟩
  exact ⟨m, by simp⟩

theorem FailsAtEnd.single {es : List BusEvent} {f : Frame} (h : ∀ e ∈ es, e.answer ≠ .fail) :
    FailsAtEnd (es ++ [{ frame := f, answer := .fail }]) := ⟨es, f, rfl, h⟩

/-- R77, with the beginning of a frequency change as its mark (R353): the change has begun exactly when the third frame,
the one that sets the bits, has gone out. -/
theorem busSetBits_open (reg mask : Byte) (s : State) :
    ∃ t g, BusEffect (if g.length = 3 then s.openChange s.addr else s) t [g] ∧ (∀ e ∈ g, e.frame.dest = some s.addr) ∧
      g.length ≤ 3 ∧
      ((busSetBits reg mask (fun s => s.openChange s.addr) s = .ok () t ∧
          (∃ m, g = [wrote s.addr reg [], didRead s.addr m, wrote s.addr reg [m ||| mask]])) ∨
        (busSetBits reg mask (fun s => s.openChange s.addr) s = .error .transportError t ∧ FailsAtEnd g ∧ ¬ s.answers)) := by
  have h0 := beginGroup_effect s
  have hrun : busSetBits reg mask (fun s => s.openChange s.addr) s =
      (do
        emitWrite reg []
        let m ← emitRead
        update (fun s => s.openChange s.addr)
        emitWrite reg [m ||| mask] : Cmd Unit) s.interleave.newGroup := rfl
  rw [hrun]
  obtain ⟨t1, ⟨r1, h1⟩ | ⟨r1, n1, h1⟩⟩ := emitWrite_run h0 reg []
  swap
  · exact ⟨t1, [{ frame := .write s.addr reg [], answer := .fail }], by simpa using h1, by simp [Frame.dest], by simp,
      Or.inr ⟨by simp [r1], FailsAtEnd.single (es := []) (by simp), n1⟩⟩
  obtain ⟨t2, ⟨m, r2, h2⟩ | ⟨r2, n2, h2⟩⟩ := emitRead_run h1
  swap
  · exact ⟨t2, [wrote s.addr reg [], { frame := .read s.addr, answer := .fail }], by simpa using h2, by simp [Frame.dest],
      by simp, Or.inr ⟨by simp [r1, r2], FailsAtEnd.single (es := [_]) (by simp), n2⟩⟩
  have h2' : BusEffect (s.openChange s.addr) (t2.openChange t2.addr)
      [[] ++ [wrote s.addr reg []] ++ [didRead s.addr m]] := by
    rw [h2.addr]; exact h2.openChange s.addr
  obtain ⟨t3, ⟨r3, h3⟩ | ⟨r3, n3, h3⟩⟩ := emitWrite_run h2' reg [m ||| mask]
  · exact ⟨t3, [wrote s.addr reg [], didRead s.addr m, wrote s.addr reg [m ||| mask]], by simpa using h3,
      by simp [Frame.dest], by simp, Or.inl ⟨by simp [r1, r2, r3], m, rfl⟩⟩
  · exact ⟨t3, [wrote s.addr reg [], didRead s.addr m, { frame := .write s.addr reg [m ||| mask], answer := .fail }],
      by simpa using h3, by simp [Frame.dest], by simp,
      Or.inr ⟨by simp [r1, r2, r3], FailsAtEnd.single (es := [_, _]) (by simp), n3⟩⟩

/-- R78. -/
theorem busSetBitsIfClear_spec (reg mask : Byte) :
    GroupSpec (busSetBitsIfClear reg mask) (fun a _ g => ∃ m,
      g = [wrote a reg [], didRead a m] ++ setEvents a reg m mask (m &&& mask == 0#8)) := by
  refine GroupSpec.weaken (((frames_emitWrite reg []).bind (fun _ => frames_emitRead.bind (fun m =>
    frames_setIfClear reg m mask))).group) ?_
  rintro a v g ⟨_, _, _, rfl, rfl, m, _, _, rfl, rfl, rfl⟩
  exact ⟨m, rfl⟩

/-- R79: a `Delay` always completes. -/
theorem busDelay_spec (us : Nat) (s : State) :
    ∃ t, busDelay us s = .ok () t ∧ BusEffect s t [[{ frame := .delay us, answer := .elapsed }]] := by
  refine ⟨s.interleave.newGroup.record { frame := .delay us, answer := .elapsed }, rfl, ?_⟩
  refine ⟨?_, applyForeign_addrs _ _, fun h => applyForeign_wf _ h, ⟨0, rfl⟩, fun hq => ?_⟩
  · simp only [State.record, State.newGroup, List.dropLast_concat, List.getLastD_concat, List.nil_append]
    rfl
  · obtain ⟨hr, ht⟩ := hq
    refine ⟨⟨hr, by simp [ht]⟩, ?_⟩
    simp [ht, applyForeign, ReferenceRun, transact, Frame.dest]

end Sys2Proof.Machine
end

