-- ==== Sys2Proof/Laws/Commands.lean ====
section
/-! SUPPORT. The shared operations of the commands over every bus: what they do when the bus answers, and what their
trace looks like in any case. -/

namespace Sys2Proof.Machine

/-! ## Writes of block fields commute with bus traffic -/

namespace BusEffect

variable {s t : State} {gs : List Group}

theorem setDuty (h : BusEffect s t gs) (c : Channel) (d : Duty) : BusEffect (s.setDuty c d) (t.setDuty c d) gs := by
  refine ⟨?_, h.addrs, h.wf, h.replies, h.reference⟩
  conv_lhs => rw [h.rest]
  simp only [State.setDuty]

theorem setBridgeDuty (h : BusEffect s t gs) (k : Conn) (d : Duty) :
    BusEffect (s.setBridgeDuty k d) (t.setBridgeDuty k d) gs := by
  refine ⟨?_, h.addrs, h.wf, h.replies, h.reference⟩
  conv_lhs => rw [h.rest]
  simp only [State.setBridgeDuty, State.setBridge, State.bridge]

end BusEffect

theorem State.answers_setDuty {s : State} (h : s.answers) (c : Channel) (d : Duty) : (s.setDuty c d).answers := h

theorem State.answers_setBridgeDuty {s : State} (h : s.answers) (k : Conn) (d : Duty) :
    (s.setBridgeDuty k d).answers := h

/-! ## Running when the bus answers -/

/-- A primitive on a bus that answers. -/
theorem GroupSpec.ok {α : Type} {c : Cmd α} {S : Addr → α → Group → Prop} (h : GroupSpec c S) {s : State}
    (hs : s.answers) : ∃ v t g, c s = .ok v t ∧ BusEffect s t [g] ∧ S s.addr v g := by
  obtain ⟨t, g, ht, -, hr⟩ := h s
  rcases hr with ⟨v, hv, hS, -⟩ | ⟨-, -, hn⟩
  · exact ⟨v, t, g, hv, ht, hS⟩
  · exact absurd hs hn

theorem inUnit_lineDuty (b : Bool) : inUnit (lineDuty b) = true := by cases b <;> decide

theorem pattern_lineDuty (b : Bool) : pattern (lineDuty b) = if b then fullOn else fullOff := by cases b <;> decide

/-! ## Duties -/

theorem inSigned_iff (d : Duty) : inSigned d = true ↔ -16384 ≤ d.toInt ∧ d.toInt ≤ 16384 := by
  unfold inSigned
  rw [decide_eq_true_iff]
  simp [Config.one]

theorem inUnit_iff (d : Duty) : inUnit d = true ↔ 0 ≤ d.toInt ∧ d.toInt ≤ 16384 := by
  unfold inUnit
  rw [decide_eq_true_iff]
  simp [Config.one]

/-- The magnitude of a duty in [−ONE, ONE] is its absolute value, a power-line duty. -/
theorem toInt_magnitude {d : Duty} (h : inSigned d = true) : (magnitude d).toInt = |d.toInt| := by
  rw [inSigned_iff] at h
  have hp : power d ≤ 16384 := by unfold power; omega
  have hn : (magnitude d).toNat = power d := by
    unfold magnitude
    rw [BitVec.toNat_ofNat]
    exact Nat.mod_eq_of_lt (by omega)
  rw [BitVec.toInt_eq_toNat_of_lt (by omega), hn, Int.abs_eq_natAbs]
  rfl

theorem inUnit_magnitude {d : Duty} (h : inSigned d = true) : inUnit (magnitude d) = true := by
  rw [inUnit_iff, toInt_magnitude h]
  rw [inSigned_iff] at h
  exact ⟨abs_nonneg _, abs_le.mpr h⟩

/-! ## Runs of SetDuty -/

@[simp] theorem State.applyDuties_nil (s : State) : s.applyDuties [] = s := rfl

@[simp] theorem State.applyDuties_cons (s : State) (w : Channel × Duty) (ws : List (Channel × Duty)) :
    s.applyDuties (w :: ws) = (s.setDuty w.1 w.2).applyDuties ws := rfl

theorem State.applyDuties_append (s : State) (ws vs : List (Channel × Duty)) :
    s.applyDuties (ws ++ vs) = (s.applyDuties ws).applyDuties vs := List.foldl_append

/-- Stored duties change no other field. -/
theorem State.applyDuties_rest (s : State) (ws : List (Channel × Duty)) :
    s.applyDuties ws = { s with chDuty := (s.applyDuties ws).chDuty } := by
  induction ws generalizing s with
  | nil => rfl
  | cons w ws ih => rw [State.applyDuties_cons, ih]; rfl

theorem State.applyDuties_answers {s : State} (h : s.answers) (ws : List (Channel × Duty)) :
    (s.applyDuties ws).answers := by
  rw [State.applyDuties_rest]; exact h

theorem State.applyDuties_addr (s : State) (ws : List (Channel × Duty)) : (s.applyDuties ws).addr = s.addr := by
  rw [State.applyDuties_rest]

theorem BusEffect.applyDuties {s t : State} {gs : List Group} (h : BusEffect s t gs) (ws : List (Channel × Duty)) :
    BusEffect (s.applyDuties ws) (t.applyDuties ws) gs := by
  induction ws generalizing s t with
  | nil => exact h
  | cons w ws ih => exact ih (h.setDuty w.1 w.2)

theorem BurstGroups.append {a : Addr} {bs cs : List Burst} {gs hs : List Group} (h : BurstGroups a bs gs)
    (k : BurstGroups a cs hs) : BurstGroups a (bs ++ cs) (gs ++ hs) := by
  induction bs generalizing gs with
  | nil => cases h; exact k
  | cons b bs ih =>
    obtain ⟨g, gs', rfl, hg, hgs⟩ := h
    exact ⟨g, gs' ++ hs, rfl, hg, ih hgs⟩

theorem BurstGroups.length {a : Addr} {bs : List Burst} {gs : List Group} (h : BurstGroups a bs gs) :
    gs.length = bs.length := by
  induction bs generalizing gs with
  | nil => cases h; rfl
  | cons b bs ih =>
    obtain ⟨g, gs', rfl, -, hgs⟩ := h
    simp [ih hgs]

theorem FailsAtEnd.append {xs ys : List BusEvent} (hx : ∀ e ∈ xs, e.answer ≠ .fail) (h : FailsAtEnd ys) :
    FailsAtEnd (xs ++ ys) := by
  obtain ⟨ds, f, rfl, hno⟩ := h
  refine ⟨xs ++ ds, f, by simp, fun e he => ?_⟩
  rcases List.mem_append.mp he with he | he
  · exact hx e he
  · exact hno e he

/-- What a body that commits the duties `ws` in order can do: it commits them all, each with its burst, or it ends with
TRANSPORT_ERROR at the failed frame of one of them, whose duty and those before it are stored (R209, R306). -/
def DutyRun (c : Cmd Unit) (ws : List (Channel × Duty)) : Prop :=
  ∀ s, ∃ t gs, BusEffect (s.applyDuties (ws.take gs.length)) t gs ∧
    ((c s = .ok () t ∧ BurstGroups s.addr (ws.map dutyBurst) gs ∧ ∀ e ∈ gs.flatten, e.answer ≠ .fail) ∨
      (c s = .error .transportError t ∧ FailsAtEnd gs.flatten ∧ gs.length ≤ ws.length ∧ ¬ s.answers))

namespace DutyRun

theorem nil : DutyRun (pure ()) [] := fun s =>
  ⟨s, [], BusEffect.refl s, Or.inl ⟨rfl, rfl, by simp⟩⟩

theorem append {c d : Cmd Unit} {ws vs : List (Channel × Duty)} (hc : DutyRun c ws) (hd : DutyRun d vs) :
    DutyRun (do c; d) (ws ++ vs) := by
  intro s
  obtain ⟨t, gs, e1, h1⟩ := hc s
  rcases h1 with ⟨r1, b1, n1⟩ | ⟨r1, f1, l1, a1⟩
  · have hl1 : gs.length = ws.length := by rw [b1.length, List.length_map]
    rw [hl1, List.take_length] at e1
    obtain ⟨u, hs, e2, h2⟩ := hd t
    have eff : BusEffect (s.applyDuties ((ws ++ vs).take (gs ++ hs).length)) u (gs ++ hs) := by
      rw [List.length_append, hl1, List.take_length_add_append, State.applyDuties_append]
      exact (e1.applyDuties _).trans e2
    have hrun : (do c; d : Cmd Unit) s = d t := by rw [Cmd.bind_run, r1]
    refine ⟨u, gs ++ hs, eff, ?_⟩
    rcases h2 with ⟨r2, b2, n2⟩ | ⟨r2, f2, l2, a2⟩
    · refine Or.inl ⟨by rw [hrun, r2], ?_, fun e he => ?_⟩
      · have ht : t.addr = s.addr := e1.addr.trans (State.applyDuties_addr _ _)
        rw [ht] at b2
        rw [List.map_append]
        exact b1.append b2
      · rw [List.flatten_append] at he
        rcases List.mem_append.mp he with he | he
        · exact n1 e he
        · exact n2 e he
    · refine Or.inr ⟨by rw [hrun, r2], by rw [List.flatten_append]; exact f2.append n1, ?_, fun ha => a2 ?_⟩
      · simp only [List.length_append]; omega
      · exact e1.answers (State.applyDuties_answers ha _)
  · refine ⟨t, gs, ?_, Or.inr ⟨by rw [Cmd.bind_run, r1], f1, by simp only [List.length_append]; omega, a1⟩⟩
    rw [List.take_append_of_le_length l1]
    exact e1

/-- R209, for a duty in [0, ONE]. -/
theorem setDuty {ch : Channel} {d : Duty} (hd : inUnit d = true) : DutyRun (setDuty ch d) [(ch, d)] := by
  intro s
  obtain ⟨t, g, ht, -, hr⟩ := busBurst_spec (regLed ch) (pattern d) (s.setDuty ch d)
  have hrun : Machine.setDuty ch d s = busBurst (regLed ch) (pattern d) (s.setDuty ch d) := by
    simp [Machine.setDuty, hd]
  refine ⟨t, [g], ht, ?_⟩
  rcases hr with ⟨v, hv, hS, hno⟩ | ⟨he, hf, ha⟩
  · exact Or.inl ⟨by rw [hrun, hv], ⟨g, [], rfl, hS, rfl⟩, by simpa using hno⟩
  · exact Or.inr ⟨by rw [hrun, he], by simpa using hf, by simp, ha⟩

/-- R210. -/
theorem setLine (ch : Channel) (b : Bool) : DutyRun (setLine ch b) [(ch, lineDuty b)] := setDuty (inUnit_lineDuty b)

theorem onlyIf (c : Bool) {x : Cmd Unit} {ws : List (Channel × Duty)} (hx : DutyRun x ws) :
    DutyRun (onlyIf c x) (if c then ws else []) := by
  cases c
  · exact nil
  · exact hx

theorem setDirection (k : Conn) (forward : Bool) : DutyRun (setDirection k forward)
    (if forward then [(k.in2, 0#16), (k.in1, dutyOne)] else [(k.in1, 0#16), (k.in2, dutyOne)]) := by
  cases forward
  · exact (setLine k.in1 false).append (setLine k.in2 true)
  · exact (setLine k.in2 false).append (setLine k.in1 true)

end DutyRun

/-- BridgeSet (R234, R310). -/
theorem bridgeSet_run (k : Conn) {d : Duty} (hd : inSigned d = true) (s : State) :
    ∃ t gs, BusEffect (s.bridgeAfter k d gs.length) t gs ∧
      ((bridgeSet k d s = .ok () t ∧
          BurstGroups s.addr ((bridgeWrites k (polarity (s.bridge k).duty) d).map dutyBurst) gs ∧
          ∀ e ∈ gs.flatten, e.answer ≠ .fail) ∨
        (bridgeSet k d s = .error .transportError t ∧ FailsAtEnd gs.flatten ∧
          gs.length ≤ (bridgeWrites k (polarity (s.bridge k).duty) d).length ∧ ¬ s.answers)) := by
  have h := ((DutyRun.onlyIf (polarity d != polarity (s.bridge k).duty) (DutyRun.setDuty (ch := k.pwm) (d := 0#16)
    (by decide))).append ((DutyRun.setDirection k (polarity d)).append
    (DutyRun.setDuty (ch := k.pwm) (inUnit_magnitude hd)))) (s.setBridgeDuty k d)
  rw [← List.append_assoc] at h
  exact h

/-! ## Bursts of groups (R320) -/

theorem find_led (ch : Channel) : (List.finRange 16).find? (fun c => regLed c == regLed ch) = some ch := by
  revert ch; decide

/-- A burst group carries its burst. -/
theorem groupBurst_of {a : Addr} {ch : Channel} {bs : List Byte} {g : Group} (h : BurstGroup a (regLed ch) bs g)
    (hb : bs.length = 4) : groupBurst g = some (ch, bs) := by
  obtain ⟨m, rfl⟩ := h
  simp only [groupBurst, List.getLast?_concat]
  rw [if_pos hb, find_led]; rfl

theorem bursts_of {a : Addr} {bs : List Burst} {gs : List Group} (h : BurstGroups a bs gs)
    (hb : ∀ b ∈ bs, b.2.length = 4) : bursts gs = bs := by
  induction bs generalizing gs with
  | nil => cases h; rfl
  | cons b bs ih =>
    obtain ⟨g, gs', rfl, hg, hgs⟩ := h
    have h1 := groupBurst_of hg (hb b (by simp))
    have h2 := ih hgs (fun c hc => hb c (by simp [hc]))
    simp only [bursts] at h2 ⊢
    rw [List.filterMap_cons, h1, h2]

theorem pattern_length (d : Duty) : (pattern d).length = 4 := by
  unfold pattern; split
  · rfl
  · split <;> rfl

theorem dutyBurst_length (ws : List (Channel × Duty)) : ∀ b ∈ ws.map dutyBurst, b.2.length = 4 := by
  intro b hb
  obtain ⟨w, -, rfl⟩ := List.mem_map.mp hb
  exact pattern_length w.2

/-! ## The trace of any body -/

/-- How a body's trace ends: it returns with no failed frame, it raises TRANSPORT_ERROR at a failed frame, or it raises
another status with no frame failed; every frame goes to the block's device or is a `Delay`. -/
def Traced {α : Type} (c : Cmd α) : Prop :=
  ∀ s, ∃ gs : List Group,
    match c s with
    | .ok _ t => t.trace = s.trace ++ gs ∧ t.addr = s.addr ∧
        (∀ e ∈ gs.flatten, e.frame.dest = some s.addr ∨ e.frame.dest = none) ∧ ∀ e ∈ gs.flatten, e.answer ≠ .fail
    | .error e t => t.trace = s.trace ++ gs ∧ t.addr = s.addr ∧
        (∀ e ∈ gs.flatten, e.frame.dest = some s.addr ∨ e.frame.dest = none) ∧
        ((e = .transportError ∧ FailsAtEnd gs.flatten) ∨ (e ≠ .transportError ∧ ∀ e ∈ gs.flatten, e.answer ≠ .fail))

namespace Traced

variable {α β : Type}

theorem bind {x : Cmd α} {f : α → Cmd β} (hx : Traced x) (hf : ∀ a, Traced (f a)) : Traced (x >>= f) := by
  intro s
  obtain ⟨gs, h⟩ := hx s
  rw [Cmd.bind_run]
  cases hr : x s with
  | error e t => rw [hr] at h; exact ⟨gs, h⟩
  | ok a t =>
    rw [hr] at h
    obtain ⟨h1, h2, h3, h4⟩ := h
    obtain ⟨hs, k⟩ := hf a t
    refine ⟨gs ++ hs, ?_⟩
    show match f a t with
      | .ok _ t => _
      | .error e t => _
    have hflat : (gs ++ hs).flatten = gs.flatten ++ hs.flatten := by simp
    cases hr2 : f a t with
    | ok b u =>
      rw [hr2] at k
      obtain ⟨k1, k2, k3, k4⟩ := k
      refine ⟨by rw [k1, h1]; simp, k2.trans h2, fun e he => ?_, fun e he => ?_⟩
      · rw [hflat] at he
        rcases List.mem_append.mp he with he | he
        · exact h3 e he
        · rw [← h2]; exact k3 e he
      · rw [hflat] at he
        rcases List.mem_append.mp he with he | he
        · exact h4 e he
        · exact k4 e he
    | error e u =>
      rw [hr2] at k
      obtain ⟨k1, k2, k3, k4⟩ := k
      refine ⟨by rw [k1, h1]; simp, k2.trans h2, fun e he => ?_, ?_⟩
      · rw [hflat] at he
        rcases List.mem_append.mp he with he | he
        · exact h3 e he
        · rw [← h2]; exact k3 e he
      · rcases k4 with ⟨he, ds, fr, hds, hno⟩ | ⟨he, hno⟩
        · refine Or.inl ⟨he, gs.flatten ++ ds, fr, by rw [hflat, hds]; simp, fun e he => ?_⟩
          rcases List.mem_append.mp he with he | he
          · exact h4 e he
          · exact hno e he
        · refine Or.inr ⟨he, fun e he => ?_⟩
          rw [hflat] at he
          rcases List.mem_append.mp he with he | he
          · exact h4 e he
          · exact hno e he

theorem pure (a : α) : Traced (Pure.pure a : Cmd α) := fun s => ⟨[], by simp⟩

theorem get : Traced (MonadState.get : Cmd State) := fun s => ⟨[], by simp⟩

theorem throw {e : Status} (h : e ≠ .transportError) : Traced (MonadExcept.throw e : Cmd α) :=
  fun s => ⟨[], by simp [h]⟩

theorem check (ok : Bool) {e : Status} (h : e ≠ .transportError) : Traced (check ok e) := by
  intro s; cases ok
  · exact ⟨[], by simp [h]⟩
  · exact ⟨[], by simp⟩

theorem update {f : State → State} (h1 : ∀ s, (f s).trace = s.trace) (h2 : ∀ s, (f s).addr = s.addr) :
    Traced (update f) := fun s => ⟨[], by simp [h1, h2]⟩

theorem onlyIf (c : Bool) {x : Cmd Unit} (h : Traced x) : Traced (onlyIf c x) := by
  cases c
  · exact fun s => ⟨[], by simp⟩
  · exact h

theorem group {c : Cmd α} {S : Addr → α → Group → Prop} (h : GroupSpec c S) : Traced c := by
  intro s
  obtain ⟨t, g, ht, hd, hr⟩ := h s
  refine ⟨[g], ?_⟩
  rcases hr with ⟨v, hv, -, hno⟩ | ⟨he, hf, -⟩
  · rw [hv]
    exact ⟨ht.trace, ht.addr, by simpa using fun e he => Or.inl (hd e he), by simpa using hno⟩
  · rw [he]
    exact ⟨ht.trace, ht.addr, by simpa using fun e he => Or.inl (hd e he), Or.inl ⟨rfl, by simpa using hf⟩⟩

theorem delay (us : Nat) : Traced (busDelay us) := by
  intro s
  obtain ⟨t, hr, ht⟩ := busDelay_spec us s
  refine ⟨[[{ frame := .delay us, answer := .elapsed }]], ?_⟩
  rw [hr]
  exact ⟨ht.trace, ht.addr, by simp [Frame.dest], by simp⟩

theorem setDuty (ch : Channel) (d : Duty) : Traced (setDuty ch d) :=
  (Traced.check _ (by decide)).bind fun _ =>
    (Traced.update (f := fun s => s.setDuty ch d) (fun _ => rfl) (fun _ => rfl)).bind fun _ =>
      Traced.group (busBurst_spec _ _)

theorem setLine (ch : Channel) (b : Bool) : Traced (setLine ch b) := Traced.setDuty _ _

theorem setDirection (k : Conn) (forward : Bool) : Traced (setDirection k forward) := by
  cases forward
  · exact (Traced.setLine _ _).bind fun _ => Traced.setLine _ _
  · exact (Traced.setLine _ _).bind fun _ => Traced.setLine _ _

theorem bridgeSet (k : Conn) (d : Duty) : Traced (bridgeSet k d) := by
  unfold Machine.bridgeSet
  exact Traced.get.bind fun _ =>
    (Traced.update (f := fun s => s.setBridgeDuty k d) (fun _ => rfl) (fun _ => rfl)).bind fun _ =>
      (Traced.onlyIf _ (Traced.setDuty _ _)).bind fun _ => (Traced.setDirection _ _).bind fun _ => Traced.setDuty _ _

theorem setBits (reg mask : Byte) : Traced (busSetBits reg mask (fun s => s.openChange s.addr)) := by
  intro s
  obtain ⟨t, g, ht, hd, -, hr⟩ := busSetBits_open reg mask s
  have htr : t.trace = s.trace ++ [g] := by rw [ht.trace]; split <;> rfl
  have hta : t.addr = s.addr := by rw [ht.addr]; split <;> rfl
  refine ⟨[g], ?_⟩
  rcases hr with ⟨hv, m, rfl⟩ | ⟨he, hf, -⟩
  · rw [hv]; exact ⟨htr, hta, by simp [Frame.dest], by simp⟩
  · rw [he]; exact ⟨htr, hta, by simpa using fun e he => Or.inl (hd e he), Or.inl ⟨rfl, by simpa using hf⟩⟩

theorem resetSeq : Traced resetSeq :=
  (Traced.group (busWrite1_spec _ _)).bind fun _ => (Traced.delay _).bind fun _ =>
    (Traced.group (busBurst_spec _ _)).bind fun _ =>
      (Traced.update (f := fun s => s.closeChange s.addr) (fun _ => rfl) (fun _ => rfl)).bind fun _ =>
        Traced.group (busSetBitsIfClear_spec _ _)

theorem freqSeq (p : Byte) : Traced (freqSeq p) :=
  (Traced.setBits _ _).bind fun _ => (Traced.group (busWrite1_spec _ _)).bind fun _ => Traced.resetSeq

end Traced

/-! ## ResetSeq and FreqSeq -/

/-- What ResetSeq can do (R170, R310): it ends with OK after its four groups, or with TRANSPORT_ERROR at the failed frame
of one of them. It changes nothing of the block, and it ends a frequency change exactly when its third group, the ALL_LED
burst, has succeeded, which is when its fourth has begun (R353). -/
theorem resetSeq_run (s : State) :
    ∃ t gs, BusEffect (if gs.length = 4 then s.closeChange s.addr else s) t gs ∧ gs.length ≤ 4 ∧
      ((resetSeq s = .ok () t ∧ ResetGroups s.addr gs ∧ ∀ e ∈ gs.flatten, e.answer ≠ .fail) ∨
        (resetSeq s = .error .transportError t ∧ FailsAtEnd gs.flatten ∧ ¬ s.answers)) := by
  obtain ⟨t1, g1, e1, -, ⟨_, r1, rfl, n1⟩ | ⟨r1, f1, a1⟩⟩ := busWrite1_spec regMode1 0x00#8 s
  swap
  · exact ⟨t1, [g1], by simpa using e1, by simp, Or.inr ⟨by simp [resetSeq, r1], by simpa using f1, a1⟩⟩
  obtain ⟨t2, r2, e2⟩ := busDelay_spec Config.tOscMinUs t1
  have e12 := e1.trans e2
  obtain ⟨t3, g3, e3, -, ⟨_, r3, s3, n3⟩ | ⟨r3, f3, a3⟩⟩ := busBurst_spec regAllLed fullOff t2
  swap
  · refine ⟨t3, [[wrote s.addr regMode1 [0x00#8]], [{ frame := .delay Config.tOscMinUs, answer := .elapsed }], g3],
      by simpa using e12.trans e3, by simp, Or.inr ⟨by simp [resetSeq, r1, r2, r3], ?_, fun ha => a3 (e12.answers ha)⟩⟩
    simpa using f3.append (xs := [wrote s.addr regMode1 [0x00#8], { frame := .delay Config.tOscMinUs, answer := .elapsed }])
      (by simp)
  have ha3 : t3.addr = s.addr := (e12.trans e3).addr
  rw [e12.addr] at s3
  have e123 : BusEffect (s.closeChange s.addr) (t3.closeChange t3.addr)
      [[wrote s.addr regMode1 [0x00#8]], [{ frame := .delay Config.tOscMinUs, answer := .elapsed }], g3] := by
    rw [ha3]; exact (e12.trans e3).closeChange s.addr
  obtain ⟨t4, g4, e4, -, ⟨_, r4, ⟨m, rfl⟩, n4⟩ | ⟨r4, f4, a4⟩⟩ :=
    busSetBitsIfClear_spec regMode1 bitRestart (t3.closeChange t3.addr)
  · refine ⟨t4, [[wrote s.addr regMode1 [0x00#8]], [{ frame := .delay Config.tOscMinUs, answer := .elapsed }], g3,
      [wrote s.addr regMode1 [], didRead s.addr m] ++ setEvents s.addr regMode1 m bitRestart (m &&& bitRestart == 0#8)],
      by simpa [ha3] using e123.trans e4, by simp, Or.inl ⟨by simp [resetSeq, r1, r2, r3, r4],
      ⟨g3, m, s3, rfl⟩, ?_⟩⟩
    intro e he
    simp only [List.cons_append, List.nil_append, List.flatten_cons, List.mem_cons, List.mem_append] at he
    rcases he with rfl | rfl | he | he
    · simp
    · simp
    · exact n3 e he
    · exact n4 e (by simpa [ha3] using he)
  · refine ⟨t4, [[wrote s.addr regMode1 [0x00#8]], [{ frame := .delay Config.tOscMinUs, answer := .elapsed }], g3, g4],
      by simpa using e123.trans e4, by simp, Or.inr ⟨by simp [resetSeq, r1, r2, r3, r4], ?_,
      fun ha => a4 (e123.answers ha)⟩⟩
    simpa using (f4.append n3).append (xs := [wrote s.addr regMode1 [0x00#8],
      { frame := .delay Config.tOscMinUs, answer := .elapsed }]) (by simp)

/-- What FreqSeq can do (R172, R310, R353): the frequency change begins with the third frame of the first group and ends
when the sixth and last group has begun. -/
theorem freqSeq_run (p : Byte) (s : State) :
    ∃ t gs, BusEffect (s.afterFreq gs) t gs ∧ gs.length ≤ 6 ∧
      ((freqSeq p s = .ok () t ∧ FreqGroups s.addr p gs ∧ ∀ e ∈ gs.flatten, e.answer ≠ .fail) ∨
        (freqSeq p s = .error .transportError t ∧ FailsAtEnd gs.flatten ∧ ¬ s.answers)) := by
  obtain ⟨t1, g1, e1, -, -, ⟨r1, m, rfl⟩ | ⟨r1, f1, a1⟩⟩ := busSetBits_open regMode1 bitSleep s
  swap
  · exact ⟨t1, [g1], e1, by simp, Or.inr ⟨by simp [freqSeq, r1], by simpa using f1, a1⟩⟩
  obtain ⟨t2, g2, e2, -, ⟨_, r2, rfl, n2⟩ | ⟨r2, f2, a2⟩⟩ := busWrite1_spec regPreScale p t1
  swap
  · refine ⟨t2, [[wrote s.addr regMode1 [], didRead s.addr m, wrote s.addr regMode1 [m ||| bitSleep]], g2],
      by simpa [State.afterFreq] using e1.trans e2, by simp, Or.inr ⟨by simp [freqSeq, r1, r2], ?_,
      fun ha => a2 (e1.answers ha)⟩⟩
    simpa using f2.append (xs := [wrote s.addr regMode1 [], didRead s.addr m, wrote s.addr regMode1 [m ||| bitSleep]])
      (by simp)
  have e12 : BusEffect (s.openChange s.addr) t2 _ := e1.trans e2
  have ha1 : t1.addr = s.addr := e1.addr
  have ha : t2.addr = s.addr := e12.addr
  obtain ⟨t3, gs, e3, l3, h3⟩ := resetSeq_run t2
  have hx : BusEffect (s.afterFreq ([wrote s.addr regMode1 [], didRead s.addr m, wrote s.addr regMode1 [m ||| bitSleep]] ::
      [wrote t1.addr regPreScale [p]] :: gs)) t3 ([[wrote s.addr regMode1 [], didRead s.addr m,
        wrote s.addr regMode1 [m ||| bitSleep]]] ++ [[wrote t1.addr regPreScale [p]]] ++ gs) := by
    by_cases h4 : gs.length = 4
    · rw [if_pos h4, ha] at e3
      have := (e12.closeChange s.addr).trans e3
      simpa [State.afterFreq, h4] using this
    · rw [if_neg h4] at e3
      simpa [State.afterFreq, h4] using e12.trans e3
  refine ⟨t3, _, hx, by simp; omega, ?_⟩
  rcases h3 with ⟨r3, s3, n3⟩ | ⟨r3, f3, a3⟩
  · refine Or.inl ⟨by simp [freqSeq, r1, r2, r3], ⟨m, gs, ha ▸ s3, by simp [ha1]⟩, ?_⟩
    intro e he
    simp only [List.cons_append, List.nil_append, List.flatten_cons, List.mem_cons] at he
    rcases he with rfl | rfl | rfl | rfl | he
    · simp
    · simp
    · simp
    · simp
    · exact n3 e he
  · refine Or.inr ⟨by simp [freqSeq, r1, r2, r3], ?_, fun h => a3 (e12.answers h)⟩
    simpa using f3.append (xs := [wrote s.addr regMode1 [], didRead s.addr m, wrote s.addr regMode1 [m ||| bitSleep]]
      ++ [wrote t1.addr regPreScale [p]]) (by simp)

/-! ## Partial effects of BridgeSet -/

theorem BusEffect.bridgeAfter {s t : State} {gs : List Group} (h : BusEffect s t gs) (k : Conn) (d : Duty) (n : Nat) :
    BusEffect (s.bridgeAfter k d n) (t.bridgeAfter k d n) gs := by
  unfold State.bridgeAfter
  rw [h.bridge]
  exact (h.setBridgeDuty k d).applyDuties _

theorem State.applyDuties_bridge (s : State) (ws : List (Channel × Duty)) (k : Conn) :
    (s.applyDuties ws).bridge k = s.bridge k := by
  rw [State.applyDuties_rest]; rfl

theorem State.bridgeAfter_bridge (s : State) (k j : Conn) (d : Duty) (n : Nat) :
    (s.bridgeAfter k d n).bridge j = if j = k then { s.bridge k with duty := d } else s.bridge j := by
  unfold State.bridgeAfter
  rw [State.applyDuties_bridge, State.bridge_setBridgeDuty]

theorem bridgeWrites_pos (k : Conn) (p : Bool) (d : Duty) : 0 < (bridgeWrites k p d).length := by
  unfold bridgeWrites; simp

end Sys2Proof.Machine
end

