-- ==== Sys2Proof/Laws/Encode.lean ====
section
/-! SUPPORT. Fields of a word, the rows of the opcode map, and the two directions of the encoding. -/

namespace Sys2Proof

/-! ## Rows -/

theorem ones_bit : ∀ i : Fin 8, (0xFF#8).getLsbD i = true := by decide

theorem low24_bit : ∀ i : Fin 32, (0x00FFFFFF#32).getLsbD i = decide (i.val < 24) := by decide

/-- A row whose mask covers the opcode byte accepts a word exactly when the opcode is the row's and the word's reserved
bits are 0. -/
theorem mask_match (w mask : Word) (opc : Byte) (hm : mask.extractLsb' 24 8 = 0xFF#8) :
    (w &&& mask = place 24 opc) ↔ (opcodeOf w = opc ∧ w &&& (mask &&& 0x00FFFFFF#32) = 0#32) := by
  have hbit : ∀ i (hi : i < 8), mask[24 + i] = true := by
    intro i hi
    have := congrArg (fun x : Byte => x[i]) hm
    simp only [BitVec.getElem_extractLsb'] at this
    rw [BitVec.getLsbD_eq_getElem (by omega)] at this
    rw [this]
    exact ones_bit ⟨i, hi⟩
  constructor
  · intro h
    constructor
    · apply BitVec.eq_of_getElem_eq
      intro i hi
      have h2 := congrArg (fun x : Word => x[24 + i]) h
      have hb := hbit i hi
      simp only [BitVec.getElem_and, hb, Bool.and_true] at h2
      simp only [opcodeOf, field, BitVec.getElem_extractLsb', BitVec.getLsbD_eq_getElem (show 24 + i < 32 by omega), h2]
      simp [place, BitVec.getElem_shiftLeft, hi]
    · apply BitVec.eq_of_getElem_eq
      intro i hi
      have h2 := congrArg (fun x : Word => x[i]) h
      simp only [BitVec.getElem_and] at h2
      simp only [BitVec.getElem_and, ← Bool.and_assoc, h2]
      by_cases h24 : i < 24
      · simp [place, h24]
      · have : (0x00FFFFFF#32)[i] = false := (low24_bit ⟨i, hi⟩).trans (by simpa using h24)
        simp [this]
  · rintro ⟨h1, h2⟩
    apply BitVec.eq_of_getElem_eq
    intro i hi
    by_cases h24 : i < 24
    · have h3 := congrArg (fun x : Word => x[i]) h2
      have h4 : (0x00FFFFFF#32)[i] = true := (low24_bit ⟨i, hi⟩).trans (by simpa using h24)
      simp only [BitVec.getElem_and, h4, Bool.and_true] at h3
      simp only [BitVec.getElem_and, h3]
      simp [place, h24]
    · obtain ⟨j, rfl⟩ : ∃ j, i = 24 + j := ⟨i - 24, by omega⟩
      have hb := hbit j (by omega)
      have h5 := congrArg (fun x : Byte => x.getLsbD j) h1
      simp only [opcodeOf, field, BitVec.getLsbD_extractLsb'] at h5
      simp only [BitVec.getElem_and, hb, Bool.and_true]
      rw [← BitVec.getLsbD_eq_getElem, ← BitVec.getLsbD_eq_getElem]
      have hj : j < 8 := by omega
      simp only [hj, decide_true, Bool.true_and] at h5
      rw [h5]
      simp [place, hj, show 24 + j < 32 by omega]

/-- Every row of R125 has its opcode in the top byte of its pattern and a mask that covers it. -/
theorem row_shape : ∀ r ∈ opcodeMap, r.pattern = place 24 r.opc ∧ r.mask.extractLsb' 24 8 = 0xFF#8 := by decide

/-- The opcodes of R125 are all different. -/
theorem row_unique : ∀ r ∈ opcodeMap, ∀ r' ∈ opcodeMap, r.opc = r'.opc → r = r' := by decide

theorem accepts_iff {r : OpcodeRow} (hr : r ∈ opcodeMap) (w : Word) :
    r.accepts w = true ↔ opcodeOf w = r.opc ∧ w &&& (r.mask &&& 0x00FFFFFF#32) = 0#32 := by
  obtain ⟨hp, hm⟩ := row_shape r hr
  rw [OpcodeRow.accepts, beq_iff_eq, hp, mask_match w r.mask r.opc hm]

/-- The row a word matches is the one the decoder takes. -/
theorem find_row {r : OpcodeRow} (hr : r ∈ opcodeMap) {w : Word} (h : r.accepts w = true) :
    opcodeMap.find? (fun r => r.accepts w) = some r := by
  cases hf : opcodeMap.find? (fun r => r.accepts w) with
  | none => exact absurd h (by simpa using (List.find?_eq_none.mp hf) r hr)
  | some x =>
    have hx := List.mem_of_find?_eq_some hf
    have hxa : x.accepts w = true := by simpa using List.find?_some hf
    have h1 := ((accepts_iff hx w).mp hxa).1
    have h2 := ((accepts_iff hr w).mp h).1
    rw [row_unique x hx r hr (h1.symm.trans h2)]

/-- What the decoder makes of a word that matches a row. -/
theorem decodeCommand_row {r : OpcodeRow} (hr : r ∈ opcodeMap) {w0 : Word} (h : r.accepts w0 = true) (w1 : Word) :
    decodeCommand w0 w1 = r.op.build w0 w1 := by
  unfold decodeCommand
  rw [find_row hr h]

/-- What the decoder makes of a word that matches no row. -/
theorem decodeCommand_none {w0 : Word} (h : ∀ r ∈ opcodeMap, r.accepts w0 = false) (w1 : Word) :
    ∃ why, decodeCommand w0 w1 = .error why := by
  unfold decodeCommand
  rw [List.find?_eq_none.mpr (by simpa using h)]
  exact ⟨_, rfl⟩

/-- The decoder on a one-word command. -/
theorem decode_one {r : OpcodeRow} (hr : r ∈ opcodeMap) {w0 : Word} (h : r.accepts w0 = true)
    (hn : wordCount r.opc ≠ 2) (ws : List Word) : decode (w0 :: ws) = .of (r.op.build w0 0#32) ws := by
  have ho := ((accepts_iff hr w0).mp h).1
  simp only [decode]
  rw [ho, if_neg hn, decodeCommand_row hr h]

/-- The decoder on a two-word command. -/
theorem decode_two {r : OpcodeRow} (hr : r ∈ opcodeMap) {w0 : Word} (h : r.accepts w0 = true)
    (hn : wordCount r.opc = 2) (w1 : Word) (ws : List Word) :
    decode (w0 :: w1 :: ws) = .of (r.op.build w0 w1) ws := by
  have ho := ((accepts_iff hr w0).mp h).1
  simp only [decode]
  rw [ho, if_pos hn, decodeCommand_row hr h]

end Sys2Proof
end

