-- ==== Sys2Proof/Laws/Tables.lean ====
section
/-! SUPPORT. The step tables: every entry is a duty in [−ONE, ONE] (`44_sequencer.md` R265). -/

namespace Sys2Proof.Machine

/-! ## Generated entries -/

theorem nearestDuty_le (num den : Nat) : nearestDuty num den ≤ 16384 := Nat.min_le_left _ _

theorem quadrantCosSin_le (r D : Nat) : (quadrantCosSin r D).1 ≤ 16384 ∧ (quadrantCosSin r D).2 ≤ 16384 := by
  unfold quadrantCosSin octantCosSin
  split <;> exact ⟨nearestDuty_le _ _, nearestDuty_le _ _⟩

theorem circleCosSin_range (i D : Nat) :
    (-16384 ≤ (circleCosSin i D).1 ∧ (circleCosSin i D).1 ≤ 16384) ∧
      (-16384 ≤ (circleCosSin i D).2 ∧ (circleCosSin i D).2 ≤ 16384) := by
  have h := quadrantCosSin_le (4 * i % D) D
  unfold circleCosSin
  dsimp only
  split <;> (dsimp only; omega)

theorem inSigned_dutyOfInt {x : Int} (h : -16384 ≤ x ∧ x ≤ 16384) : inSigned (dutyOfInt x) = true := by
  have : (dutyOfInt x).toInt = x := by
    unfold dutyOfInt
    rw [BitVec.toInt_ofInt, Int.bmod_eq_of_le] <;> omega
  rw [inSigned_iff, this]
  exact h

theorem toInt_dutyOfInt {x : Int} (h : -16384 ≤ x ∧ x ≤ 16384) : (dutyOfInt x).toInt = x := by
  unfold dutyOfInt
  rw [BitVec.toInt_ofInt, Int.bmod_eq_of_le] <;> omega

theorem trigPair_range {p : Params} (hp : paramsOk p = true) (n i : Nat) :
    inSigned (trigPair p n i).1 = true ∧ inSigned (trigPair p n i).2 = true := by
  have hc := circleCosSin_range i (trigDivisorOf p.trigDivisor n)
  have hcomp := And.intro (inSigned_dutyOfInt hc.1) (inSigned_dutyOfInt hc.2)
  unfold trigPair
  cases hq : p.trigQ with
  | rne => simpa [hq] using hcomp
  | table es =>
    simp only [paramsOk, hq, List.all_eq_true, Bool.and_eq_true] at hp
    simp only
    split
    · rename_i e he
      exact hp e (List.mem_of_find?_eq_some he)
    · exact hcomp

/-! ## Any entry -/

theorem inSigned_unitDuty (xs : List Int) (hx : ∀ x ∈ xs, -1 ≤ x ∧ x ≤ 1) (i : Nat) :
    inSigned (unitDuty (xs.getD i 0)) = true := by
  have h : -1 ≤ xs.getD i 0 ∧ xs.getD i 0 ≤ 1 := by
    rw [List.getD_eq_getElem?_getD]
    cases hi : xs[i]? with
    | none => decide
    | some x => exact hx x (List.mem_of_getElem? hi)
  refine inSigned_dutyOfInt ?_
  show -16384 ≤ xs.getD i 0 * 16384 ∧ xs.getD i 0 * 16384 ≤ 16384
  omega

/-- R265 item 1, for the in-phase table. -/
theorem inSigned_stepT1 {p : Params} (hp : paramsOk p = true) (n i : Nat) : inSigned (stepT1 p n i) = true := by
  unfold stepT1
  split
  · exact inSigned_unitDuty _ (by decide) i
  · split
    · exact inSigned_unitDuty _ (by decide) i
    · exact (trigPair_range hp n i).1

/-- R265 item 1, for the out-of-phase table. -/
theorem inSigned_stepT2 {p : Params} (hp : paramsOk p = true) (n i : Nat) : inSigned (stepT2 p n i) = true := by
  unfold stepT2
  split
  · exact inSigned_unitDuty _ (by decide) i
  · split
    · exact inSigned_unitDuty _ (by decide) i
    · exact (trigPair_range hp n i).2

/-! ## The index (R269) -/

theorem advanceIdx_lt {idx n : Nat} (h : idx < n) (d : Dir) : advanceIdx idx n d < n := by
  cases d with
  | hold => exact h
  | forward => exact Nat.mod_lt _ (by omega)
  | backward => exact Nat.mod_lt _ (by omega)

end Sys2Proof.Machine
end

