-- ==== Sys2Proof/Laws/Reference.lean ====
section
/-! SUPPORT. Groups on the reference device (`20_memory.md` R80 to R91): what a group read and what it left, register by
register. -/

namespace Sys2Proof.Machine

/-! ## Frames with auto-increment -/

/-- A frame sets the pointer, so it does not matter where the pointer was. -/
theorem Device.writeFrame_ptr (d : Device) (q p : Byte) (bs : List Byte) :
    Device.writeFrame { d with ptr := q } p bs = d.writeFrame p bs := rfl

/-- The plain registers above MODE1: MODE2 to the last channel register. -/
abbrev plain (r : Byte) : Prop := 0x01 ≤ r.toNat ∧ r.toNat ≤ 0x45

theorem Device.devWrite_plain {d : Device} {r : Byte} (hr : plain r) (v : Byte) : d.devWrite r v = d.setReg r v := by
  obtain ⟨h1, h2⟩ := hr
  unfold Device.devWrite
  rw [if_neg (by omega), if_neg, if_neg (by omega)]
  intro h; rw [h] at h2; revert h2; decide

theorem Device.devWrite_mode1 (d : Device) (v : Byte) : d.devWrite regMode1 v = d.setReg regMode1 v := by
  unfold Device.devWrite
  rw [if_neg (by decide), if_neg (by decide), if_neg (by decide)]

theorem Device.advance_of_autoInc {d : Device} (h : d.autoInc = true) : d.advance = { d with ptr := d.ptr + 1#8 } := by
  unfold Device.advance; rw [if_pos h]

theorem Device.autoInc_congr {d d' : Device} (h : d.reg regMode1 = d'.reg regMode1) : d.autoInc = d'.autoInc := by
  unfold Device.autoInc; rw [h]

theorem Device.autoInc_ptr (d : Device) (p : Byte) : Device.autoInc { d with ptr := p } = d.autoInc := rfl

/-- A run of bytes into plain registers, AI set. -/
theorem Device.foldl_writeByte_plain (bs : List Byte) (d : Device) (hw : d.mem.wf) (hai : d.autoInc = true)
    (hp : 1 ≤ d.ptr.toNat) (hl : d.ptr.toNat + bs.length ≤ 0x46) :
    let e := bs.foldl Device.writeByte d
    e.mem.wf ∧ e.autoInc = true ∧ e.ptr.toNat = d.ptr.toNat + bs.length ∧
      ∀ r : Byte, e.reg r =
        if d.ptr.toNat ≤ r.toNat ∧ r.toNat < d.ptr.toNat + bs.length then bs.getD (r.toNat - d.ptr.toNat) 0#8
        else d.reg r := by
  induction bs generalizing d with
  | nil => exact ⟨hw, hai, rfl, fun r => by rw [if_neg]; · rfl
                                            · simp⟩
  | cons b bs ih =>
    simp only [List.length_cons] at hl
    have hpl : plain d.ptr := ⟨hp, by omega⟩
    have hset := Device.setReg_wf hw d.ptr b
    have hm : (d.setReg d.ptr b).reg regMode1 = d.reg regMode1 := by
      rw [Device.reg_setReg hw, if_neg]
      intro h; rw [← h] at hp; revert hp; decide
    have hai' : (d.setReg d.ptr b).autoInc = true := by rw [Device.autoInc_congr hm, hai]
    have hstep : d.writeByte b = { d.setReg d.ptr b with ptr := d.ptr + 1#8 } := by
      unfold Device.writeByte
      rw [Device.devWrite_plain hpl, Device.advance_of_autoInc hai']; rfl
    have hptr : (d.ptr + 1#8).toNat = d.ptr.toNat + 1 := by
      rw [BitVec.toNat_add]
      exact Nat.mod_eq_of_lt (by simp; omega)
    obtain ⟨h1, h2, h3, h4⟩ := ih { d.setReg d.ptr b with ptr := d.ptr + 1#8 } hset hai'
      (by simp only [hptr]; omega) (by simp only [hptr]; omega)
    simp only [List.foldl_cons, hstep]
    refine ⟨h1, h2, by rw [h3, hptr, List.length_cons]; omega, fun r => ?_⟩
    rw [h4 r, hptr, Device.reg_ptr, Device.reg_setReg hw]
    by_cases hr : r = d.ptr
    · subst hr
      rw [if_neg (by omega), if_pos rfl, if_pos (by simp), Nat.sub_self]; rfl
    · have hne : r.toNat ≠ d.ptr.toNat := fun h => hr (BitVec.eq_of_toNat_eq h)
      rw [if_neg hr]
      by_cases hin : d.ptr.toNat ≤ r.toNat ∧ r.toNat < d.ptr.toNat + (b :: bs).length
      · simp only [List.length_cons] at hin
        rw [if_pos (by omega), if_pos (by simp only [List.length_cons]; omega)]
        rw [show r.toNat - d.ptr.toNat = (r.toNat - (d.ptr.toNat + 1)) + 1 by omega]
        rfl
      · simp only [List.length_cons] at hin ⊢
        rw [if_neg (by omega), if_neg (by omega)]

/-! ## The AI check -/

theorem Device.enableAI_wf {d : Device} (h : d.mem.wf) : d.enableAI.mem.wf := by
  unfold Device.enableAI; split
  · exact h
  · exact Device.setReg_wf h _ _

@[simp] theorem Device.enableAI_addr (d : Device) : d.enableAI.addr = d.addr := by
  unfold Device.enableAI; split <;> rfl

theorem autoInc_or (m : Byte) : ((m ||| bitAI) &&& bitAI != 0#8) = true := by
  revert m; unfold bitAI; decide

theorem or_bitAI_of_set {m : Byte} (h : (m &&& bitAI != 0#8) = true) : m ||| bitAI = m := by
  revert m; unfold bitAI; decide

theorem Device.reg_enableAI {d : Device} (h : d.mem.wf) (r : Byte) :
    d.enableAI.reg r = if r = regMode1 then d.reg r ||| bitAI else d.reg r := by
  unfold Device.enableAI
  by_cases hai : d.autoInc = true
  · rw [if_pos hai]
    split
    · rename_i hr; subst hr; exact (or_bitAI_of_set hai).symm
    · rfl
  · rw [if_neg hai, Device.reg_setReg h]
    split
    · rename_i hr; subst hr; rfl
    · rfl

theorem Device.enableAI_autoInc {d : Device} (h : d.mem.wf) : d.enableAI.autoInc = true := by
  unfold Device.autoInc
  rw [Device.reg_enableAI h, if_pos rfl]
  exact autoInc_or _

/-- A burst into plain registers. -/
theorem Device.reg_burst {d : Device} (h : d.mem.wf) {start : Byte} {bs : List Byte} (hs : 1 ≤ start.toNat)
    (hl : start.toNat + bs.length ≤ 0x46) (r : Byte) :
    (d.burst start bs).reg r =
      if start.toNat ≤ r.toNat ∧ r.toNat < start.toNat + bs.length then bs.getD (r.toNat - start.toNat) 0#8
      else if r = regMode1 then d.reg r ||| bitAI else d.reg r := by
  have := (Device.foldl_writeByte_plain bs { d.enableAI with ptr := start } (Device.enableAI_wf h)
    (Device.enableAI_autoInc h) hs hl).2.2.2 r
  rw [Device.burst, Device.writeFrame, this]
  simp only [Device.reg_ptr, Device.reg_enableAI h]

theorem Device.burst_wf {d : Device} (h : d.mem.wf) (start : Byte) (bs : List Byte) : (d.burst start bs).mem.wf :=
  Device.writeFrame_wf (Device.enableAI_wf h) start bs

@[simp] theorem Device.burst_addr (d : Device) (start : Byte) (bs : List Byte) : (d.burst start bs).addr = d.addr := by
  simp [Device.burst]

theorem regLed_toNat (ch : Channel) : (regLed ch).toNat = 6 + 4 * ch.val := by
  unfold regLed
  rw [BitVec.toNat_ofNat]
  exact Nat.mod_eq_of_lt (by omega)

/-- A channel burst, as `registersAfter` says it. -/
theorem Device.reg_channelBurst {d : Device} (h : d.mem.wf) (ch : Channel) {bs : List Byte} (hb : bs.length = 4)
    (r : Byte) : (d.burst (regLed ch) bs).reg r = registersAfter [(ch, bs)] d.reg r := by
  have hl := regLed_toNat ch
  rw [Device.reg_burst h (by omega) (by omega), hb]
  simp only [registersAfter, List.foldl_cons, List.foldl_nil, storeBurst]
  have hr := r.isLt
  have hsub : (r - regLed ch).toNat = (256 - (6 + 4 * ch.val) + r.toNat) % 256 := by
    rw [BitVec.toNat_sub, hl]
  by_cases h1 : 6 + 4 * ch.val ≤ r.toNat ∧ r.toNat < 6 + 4 * ch.val + 4
  · have h0 : r ≠ regMode1 := by
      rintro rfl; revert h1; simp [regMode1]
    have h2 : (r - regLed ch).toNat = r.toNat - (6 + 4 * ch.val) := by rw [hsub]; omega
    rw [hl, if_pos h1, if_neg h0, if_pos (by omega), h2]
  · rw [hl, if_neg h1]
    have h2 : ¬ (r - regLed ch).toNat < 4 := by rw [hsub]; omega
    rw [if_neg h2]

theorem registersAfter_append (bs cs : List Burst) (f : Byte → Byte) :
    registersAfter (bs ++ cs) f = registersAfter cs (registersAfter bs f) := by
  simp only [registersAfter, List.foldl_append]

/-! ## Groups on the reference bus -/

/-- A frame to a device that is there. -/
theorem ReferenceRun.cons {ds ds' : List Device} {e : BusEvent} {es : List BusEvent} {a : Addr} {d : Device}
    (h : ReferenceRun ds (e :: es) ds') (he : e.frame.dest = some a) (hd : findDevice ds a = some d) :
    ∃ ds1, e.answer = e.frame.success d.readValue ∧ findDevice ds1 a = some (d.accept e.frame) ∧
      (∀ b, b ≠ a → findDevice ds1 b = findDevice ds b) ∧ ReferenceRun ds1 es ds' := by
  obtain ⟨h1, h2⟩ := h
  rw [transact_reference he hd] at h1 h2
  exact ⟨_, h1, by rw [findDevice_update _ _ _ (fun d => by simp), hd]; rfl,
    fun b hb => findDevice_update_other _ hb _ (fun d => by simp), h2⟩

theorem Device.advance_ptr (d : Device) : ∃ p, d.advance = { d with ptr := p } := by
  unfold Device.advance; split
  · exact ⟨_, rfl⟩
  · exact ⟨d.ptr, rfl⟩

/-- Setting bits of MODE1 by one written byte. -/
theorem Device.writeFrame_mode1 (d : Device) (v : Byte) : ∃ p, d.writeFrame regMode1 [v] =
    { d.setReg regMode1 v with ptr := p } ∧ ((d.setReg regMode1 v).autoInc = true → p = 0x01#8) := by
  show ∃ p, Device.writeByte { d with ptr := regMode1 } v = _ ∧ _
  unfold Device.writeByte
  rw [show (Device.devWrite { d with ptr := regMode1 } regMode1 v) = Device.setReg { d with ptr := regMode1 } regMode1 v
    from Device.devWrite_mode1 _ _]
  obtain ⟨p, hp⟩ := Device.advance_ptr (Device.setReg { d with ptr := regMode1 } regMode1 v)
  refine ⟨p, by rw [hp]; rfl, fun hai => ?_⟩
  have hai' : (Device.setReg { d with ptr := regMode1 } regMode1 v).autoInc = true := hai
  rw [Device.advance_of_autoInc hai'] at hp
  exact (congrArg Device.ptr hp).symm

theorem ReferenceRun.split {ds ds' : List Device} {xs ys : List BusEvent} (h : ReferenceRun ds (xs ++ ys) ds') :
    ∃ es, ReferenceRun ds xs es ∧ ReferenceRun es ys ds' := by
  induction xs generalizing ds with
  | nil => exact ⟨ds, rfl, h⟩
  | cons e xs ih =>
    obtain ⟨es, h1, h2⟩ := ih h.2
    exact ⟨es, ⟨h.1, h1⟩, h2⟩

/-- What the reference bus makes of a burst group: the byte read is MODE1, and the device is left as `Device.burst`
says; other devices do not see it. -/
theorem BurstGroup.reference {a : Addr} {start : Byte} {bs : List Byte} {g : Group} {ds ds' : List Device} {d : Device}
    (hg : BurstGroup a start bs g) (hr : ReferenceRun ds g ds') (hd : findDevice ds a = some d) :
    findDevice ds' a = some (d.burst start bs) ∧ (∀ b, b ≠ a → findDevice ds' b = findDevice ds b) ∧
      g = [wrote a regMode1 [], didRead a (d.reg regMode1)]
        ++ setEvents a regMode1 (d.reg regMode1) bitAI (!d.autoInc) ++ [wrote a start bs] := by
  obtain ⟨m, rfl⟩ := hg
  simp only [List.cons_append, List.nil_append] at hr
  obtain ⟨ds1, -, hd1, ho1, hr1⟩ := hr.cons rfl hd
  obtain ⟨ds2, ha2, hd2, ho2, hr2⟩ := hr1.cons rfl hd1
  have hm : m = d.reg regMode1 := by
    have : Answer.data m = Answer.data _ := ha2
    injection this with this
  subst hm
  have hai : (d.reg regMode1 &&& bitAI == 0#8) = !d.autoInc := by
    simp [Device.autoInc, bne]
  rw [hai] at hr2 ⊢
  obtain ⟨p, hp⟩ := Device.advance_ptr { d with ptr := regMode1 }
  have hacc : (d.accept (.write a regMode1 [])).accept (.read a) = { d with ptr := p } := hp
  rw [hacc] at hd2
  cases hauto : d.autoInc with
  | true =>
    rw [hauto] at hr2
    simp only [Bool.not_true, setEvents, Bool.false_eq_true, if_false, List.nil_append] at hr2
    obtain ⟨ds3, -, hd3, ho3, hr3⟩ := hr2.cons rfl hd2
    cases hr3
    refine ⟨?_, fun b hb => (ho3 b hb).trans ((ho2 b hb).trans (ho1 b hb)), by simp⟩
    rw [hd3, Device.burst, Device.enableAI, if_pos hauto]; rfl
  | false =>
    rw [hauto] at hr2
    simp only [Bool.not_false, setEvents, if_true, List.cons_append, List.nil_append] at hr2
    obtain ⟨ds3, -, hd3, ho3, hr3⟩ := hr2.cons rfl hd2
    obtain ⟨q, hq, -⟩ := Device.writeFrame_mode1 d (d.reg regMode1 ||| bitAI)
    have hacc2 : Device.accept { d with ptr := p } (.write a regMode1 [d.reg regMode1 ||| bitAI]) =
        { d.setReg regMode1 (d.reg regMode1 ||| bitAI) with ptr := q } := hq
    rw [hacc2] at hd3
    obtain ⟨ds4, -, hd4, ho4, hr4⟩ := hr3.cons rfl hd3
    cases hr4
    refine ⟨?_, fun b hb => (ho4 b hb).trans ((ho3 b hb).trans ((ho2 b hb).trans (ho1 b hb))), by simp⟩
    rw [hd4, Device.burst, Device.enableAI, if_neg (by simp [hauto])]; rfl

/-- Several channel bursts, register by register. -/
theorem BurstGroups.reference {a : Addr} {bs : List Burst} {gs : List Group} {ds ds' : List Device} {d : Device}
    (hg : BurstGroups a bs gs) (hb : ∀ b ∈ bs, b.2.length = 4) (hr : ReferenceRun ds gs.flatten ds')
    (hd : findDevice ds a = some d) (hw : d.mem.wf) :
    ∃ d', findDevice ds' a = some d' ∧ d'.mem.wf ∧ (∀ r, d'.reg r = registersAfter bs d.reg r) ∧
      ∀ b, b ≠ a → findDevice ds' b = findDevice ds b := by
  induction bs generalizing gs ds d with
  | nil =>
    cases hg; cases hr
    exact ⟨d, hd, hw, fun r => rfl, fun b _ => rfl⟩
  | cons b bs ih =>
    obtain ⟨g, gs', rfl, hg1, hg2⟩ := hg
    rw [List.flatten_cons] at hr
    obtain ⟨ds1, hr1, hr2⟩ := hr.split
    obtain ⟨h1, h2, -⟩ := hg1.reference hr1 hd
    obtain ⟨d', k1, k2, k3, k4⟩ := ih hg2 (fun c hc => hb c (by simp [hc])) hr2 h1 (Device.burst_wf hw _ _)
    refine ⟨d', k1, k2, fun r => ?_, fun c hc => (k4 c hc).trans (h2 c hc)⟩
    rw [k3 r]
    have : (d.burst (regLed b.1) b.2).reg = storeBurst d.reg b := by
      funext r; exact Device.reg_channelBurst hw b.1 (hb b (by simp)) r
    rw [this]; rfl

/-! ## ResetSeq and FreqSeq on the reference device -/

/-- A byte sent to ALL_LED register `0xFA + j`, AI set. -/
theorem Device.writeByte_broadcast {d : Device} (hw : d.mem.wf) (hai : d.autoInc = true) {j : Nat} (hj : j < 4)
    (hp : d.ptr.toNat = 0xFA + j) (v : Byte) :
    (d.writeByte v).mem.wf ∧ (d.writeByte v).autoInc = true ∧ (d.writeByte v).ptr.toNat = 0xFA + (j + 1) ∧
      ∀ r, (d.writeByte v).reg r = if isLedByte j r then v else d.reg r := by
  have hdw : d.devWrite d.ptr v = d.broadcast j v := by
    unfold Device.devWrite
    rw [if_pos (by omega), show d.ptr.toNat - 0xFA = j by omega]
  have hm : (d.broadcast j v).reg regMode1 = d.reg regMode1 := by
    rw [Device.reg_broadcast hw hj, if_neg]
    rintro ⟨h, -⟩; simp [regMode1] at h
  have hai' : (d.broadcast j v).autoInc = true := by rw [Device.autoInc_congr hm, hai]
  have h : d.writeByte v = { d.broadcast j v with ptr := (d.broadcast j v).ptr + 1#8 } := by
    unfold Device.writeByte
    rw [hdw, Device.advance_of_autoInc hai']
  refine ⟨Device.writeByte_wf hw v, by rw [h, Device.autoInc_ptr]; exact hai', ?_, fun r => ?_⟩
  · rw [h]
    show ((d.broadcast j v).ptr + 1#8).toNat = _
    have h1 : (1#8 : Byte).toNat = 1 := rfl
    rw [Device.broadcast_ptr, BitVec.toNat_add, hp, h1]
    omega
  · rw [h, Device.reg_ptr, Device.reg_broadcast hw hj]

/-- A four-byte burst to ALL_LED (R87). -/
theorem Device.reg_allLedBurst {d : Device} (hw : d.mem.wf) (v0 v1 v2 v3 r : Byte) :
    (d.burst regAllLed [v0, v1, v2, v3]).reg r =
      if 0x06 ≤ r.toNat ∧ r.toNat ≤ 0x45 then [v0, v1, v2, v3].getD ((r.toNat - 0x06) % 4) 0#8
      else if r = regMode1 then d.reg r ||| bitAI else d.reg r := by
  obtain ⟨w0, hw0⟩ : ∃ e : Device, e = { d.enableAI with ptr := regAllLed } := ⟨_, rfl⟩
  have f0 : w0.mem.wf ∧ w0.autoInc = true ∧ w0.ptr.toNat = 0xFA + 0 ∧ ∀ r, w0.reg r = d.enableAI.reg r := by
    subst hw0; exact ⟨Device.enableAI_wf hw, Device.enableAI_autoInc hw, by simp [regAllLed], fun r => rfl⟩
  obtain ⟨f1, f2, f3, f4⟩ := Device.writeByte_broadcast f0.1 f0.2.1 (by omega) f0.2.2.1 v0
  obtain ⟨g1, g2, g3, g4⟩ := Device.writeByte_broadcast f1 f2 (by omega) f3 v1
  obtain ⟨h1, h2, h3, h4⟩ := Device.writeByte_broadcast g1 g2 (by omega) g3 v2
  obtain ⟨-, -, -, k4⟩ := Device.writeByte_broadcast h1 h2 (by omega) h3 v3
  have hrun : d.burst regAllLed [v0, v1, v2, v3] = (((w0.writeByte v0).writeByte v1).writeByte v2).writeByte v3 := by
    subst hw0; rfl
  rw [hrun, k4, h4, g4, f4, f0.2.2.2, Device.reg_enableAI hw]
  by_cases h : 0x06 ≤ r.toNat ∧ r.toNat ≤ 0x45
  · rw [if_pos h]
    have hm : (r.toNat - 0x06) % 4 < 4 := Nat.mod_lt _ (by omega)
    simp only [isLedByte, h.1, h.2, true_and]
    generalize (r.toNat - 0x06) % 4 = j at hm
    interval_cases j <;> rfl
  · have hno : ∀ j, ¬ isLedByte j r := fun j hj => h ⟨hj.1, hj.2.1⟩
    rw [if_neg h, if_neg (hno _), if_neg (hno _), if_neg (hno _), if_neg (hno _)]

/-- Setting bits of MODE1 in one group, when the byte read is what MODE1 holds. -/
theorem ReferenceRun.setMode1 {a : Addr} {m mask : Byte} {write : Bool} {ds ds' : List Device} {d : Device}
    (hr : ReferenceRun ds ([wrote a regMode1 [], didRead a m] ++ setEvents a regMode1 m mask write) ds')
    (hd : findDevice ds a = some d) :
    m = d.reg regMode1 ∧ (∀ b, b ≠ a → findDevice ds' b = findDevice ds b) ∧
      ∃ p, findDevice ds' a =
        some { (if write then d.setReg regMode1 (m ||| mask) else d) with ptr := p } ∧
        (write = true → (d.setReg regMode1 (m ||| mask)).autoInc = true → p = 0x01#8) := by
  simp only [List.cons_append, List.nil_append] at hr
  obtain ⟨ds1, -, hd1, ho1, hr1⟩ := hr.cons rfl hd
  obtain ⟨ds2, ha2, hd2, ho2, hr2⟩ := hr1.cons rfl hd1
  have hm : m = d.reg regMode1 := by
    have : Answer.data m = Answer.data _ := ha2
    injection this with this
  obtain ⟨p, hp⟩ := Device.advance_ptr { d with ptr := regMode1 }
  have hacc : (d.accept (.write a regMode1 [])).accept (.read a) = { d with ptr := p } := hp
  rw [hacc] at hd2
  refine ⟨hm, ?_⟩
  cases write with
  | false =>
    simp only [setEvents, Bool.false_eq_true, if_false] at hr2
    cases hr2
    exact ⟨fun b hb => (ho2 b hb).trans (ho1 b hb), p, by simpa using hd2, by simp⟩
  | true =>
    simp only [setEvents, if_true] at hr2
    obtain ⟨ds3, -, hd3, ho3, hr3⟩ := hr2.cons rfl hd2
    cases hr3
    obtain ⟨q, hq, hq1⟩ := Device.writeFrame_mode1 d (m ||| mask)
    exact ⟨fun b hb => (ho3 b hb).trans ((ho2 b hb).trans (ho1 b hb)), q, by rw [hd3]; exact congrArg some hq,
      fun _ => hq1⟩

/-- A one-byte write to MODE1. -/
theorem ReferenceRun.writeMode1 {a : Addr} {v : Byte} {ds ds' : List Device} {d : Device}
    (hr : ReferenceRun ds [wrote a regMode1 [v]] ds') (hd : findDevice ds a = some d) :
    (∀ b, b ≠ a → findDevice ds' b = findDevice ds b) ∧
      ∃ p, findDevice ds' a = some { d.setReg regMode1 v with ptr := p } := by
  obtain ⟨ds1, -, hd1, ho1, hr1⟩ := hr.cons rfl hd
  cases hr1
  obtain ⟨q, hq, -⟩ := Device.writeFrame_mode1 d v
  exact ⟨ho1, q, by rw [hd1]; exact congrArg some hq⟩

/-- ResetSeq on the reference device. -/
theorem ResetGroups.reference {a : Addr} {gs : List Group} {ds ds' : List Device} {d : Device}
    (hg : ResetGroups a gs) (hr : ReferenceRun ds gs.flatten ds') (hd : findDevice ds a = some d) (hw : d.mem.wf) :
    ∃ d', findDevice ds' a = some d' ∧ d'.mem.wf ∧ (∀ r, d'.reg r = resetRegs d.reg r) ∧ d'.ptr = 0x01#8 ∧
      ∀ b, b ≠ a → findDevice ds' b = findDevice ds b := by
  obtain ⟨g, m, hb, rfl⟩ := hg
  simp only [List.flatten_cons, List.flatten_nil, List.append_nil] at hr
  obtain ⟨ds1, r1, hr⟩ := hr.split
  obtain ⟨ds2, r2, hr⟩ := hr.split
  obtain ⟨ds3, r3, r4⟩ := hr.split
  obtain ⟨o1, p, d1⟩ := r1.writeMode1 hd
  cases (show ds2 = ds1 from r2.2)
  have w1 := Device.setReg_wf hw regMode1 0x00#8
  obtain ⟨d3, o3, -⟩ := hb.reference r3 d1
  have hreg : ∀ r, (Device.burst { d.setReg regMode1 0x00#8 with ptr := p } regAllLed fullOff).reg r =
      if 0x06 ≤ r.toNat ∧ r.toNat ≤ 0x45 then fullOff.getD ((r.toNat - 0x06) % 4) 0#8
      else if r = regMode1 then 0x20#8 else d.reg r := by
    intro r
    rw [show fullOff = [0x00#8, 0x00#8, 0x00#8, 0x10#8] from rfl,
      Device.reg_allLedBurst (d := { d.setReg regMode1 0x00#8 with ptr := p }) w1, Device.reg_ptr, Device.reg_setReg hw]
    split
    · rfl
    · by_cases h : r = regMode1
      · rw [if_pos h, if_pos h, if_pos h]; rfl
      · rw [if_neg h, if_neg h, if_neg h]
  have w3 := Device.burst_wf (d := { d.setReg regMode1 0x00#8 with ptr := p }) w1 regAllLed fullOff
  generalize Device.burst { d.setReg regMode1 0x00#8 with ptr := p } regAllLed fullOff = e at d3 hreg w3
  obtain ⟨hm, o4, q, d4, hq⟩ := r4.setMode1 d3
  have hm' : m = 0x20#8 := by rw [hm, hreg, if_neg (by decide), if_pos rfl]
  subst hm'
  have hreg4 : ∀ r, (e.setReg regMode1 0xA0#8).reg r = resetRegs d.reg r := by
    intro r
    rw [Device.reg_setReg w3, hreg, resetRegs]
    by_cases h : r = regMode1
    · rw [if_pos h, if_pos h]
    · rw [if_neg h, if_neg h, if_neg h]
  have d4' : findDevice ds' a = some { e.setReg regMode1 0xA0#8 with ptr := q } := d4
  have hai : (e.setReg regMode1 0xA0#8).autoInc = true := by
    unfold Device.autoInc; rw [hreg4, resetRegs, if_pos rfl]; decide
  exact ⟨_, d4', Device.setReg_wf w3 regMode1 0xA0#8, hreg4, hq rfl hai,
    fun b hb' => ((o4 b hb').trans (o3 b hb')).trans (o1 b hb')⟩

/-- A one-byte write to PRE_SCALE while the device sleeps. -/
theorem ReferenceRun.writePreScale {a : Addr} {v : Byte} {ds ds' : List Device} {d : Device}
    (hr : ReferenceRun ds [wrote a regPreScale [v]] ds') (hd : findDevice ds a = some d) (hs : d.asleep = true) :
    (∀ b, b ≠ a → findDevice ds' b = findDevice ds b) ∧
      ∃ p, findDevice ds' a = some { d.setReg regPreScale v with ptr := p } := by
  obtain ⟨ds1, -, hd1, ho1, hr1⟩ := hr.cons rfl hd
  cases hr1
  have hdw : Device.devWrite { d with ptr := regPreScale } regPreScale v =
      Device.setReg { d with ptr := regPreScale } regPreScale v := by
    unfold Device.devWrite
    rw [if_neg (by decide), if_pos rfl]
    exact if_pos hs
  obtain ⟨p, hp⟩ := Device.advance_ptr (Device.setReg { d with ptr := regPreScale } regPreScale v)
  refine ⟨ho1, p, ?_⟩
  rw [hd1]
  refine congrArg some ?_
  show Device.writeByte { d with ptr := regPreScale } v = _
  unfold Device.writeByte
  rw [hdw, hp]
  rfl

/-- FreqSeq on the reference device. -/
theorem FreqGroups.reference {a : Addr} {p : Byte} {gs : List Group} {ds ds' : List Device} {d : Device}
    (hg : FreqGroups a p gs) (hr : ReferenceRun ds gs.flatten ds') (hd : findDevice ds a = some d) (hw : d.mem.wf) :
    ∃ d', findDevice ds' a = some d' ∧ d'.mem.wf ∧ (∀ r, d'.reg r = freqRegs p d.reg r) ∧ d'.ptr = 0x01#8 ∧
      ∀ b, b ≠ a → findDevice ds' b = findDevice ds b := by
  obtain ⟨m, rs, hrs, rfl⟩ := hg
  simp only [List.cons_append, List.nil_append, List.flatten_cons] at hr
  have hr' : ReferenceRun ds (([wrote a regMode1 [], didRead a m] ++ setEvents a regMode1 m bitSleep true) ++
    ([wrote a regPreScale [p]] ++ rs.flatten)) ds' := hr
  obtain ⟨ds1, r1, hr'⟩ := hr'.split
  obtain ⟨ds2, r2, r3⟩ := hr'.split
  obtain ⟨-, o1, q, d1, -⟩ := r1.setMode1 hd
  have d1' : findDevice ds1 a = some { d.setReg regMode1 (m ||| bitSleep) with ptr := q } := d1
  have w1 := Device.setReg_wf hw regMode1 (m ||| bitSleep)
  have hs : Device.asleep { d.setReg regMode1 (m ||| bitSleep) with ptr := q } = true := by
    unfold Device.asleep
    rw [Device.reg_ptr, Device.reg_setReg hw, if_pos rfl]
    generalize m = m'
    revert m'; unfold bitSleep; decide
  obtain ⟨o2, q2, d2⟩ := r2.writePreScale d1' hs
  have w2 : (Device.setReg { d.setReg regMode1 (m ||| bitSleep) with ptr := q } regPreScale p).mem.wf :=
    Device.setReg_wf (d := { d.setReg regMode1 (m ||| bitSleep) with ptr := q }) w1 regPreScale p
  obtain ⟨d', d3, w3, hreg, hptr, o3⟩ := hrs.reference r3 d2 w2
  refine ⟨d', d3, w3, fun r => ?_, hptr, fun b hb => ((o3 b hb).trans (o2 b hb)).trans (o1 b hb)⟩
  rw [hreg, freqRegs, resetRegs, resetRegs, Device.reg_ptr,
    Device.reg_setReg (d := { d.setReg regMode1 (m ||| bitSleep) with ptr := q }) w1, Device.reg_ptr,
    Device.reg_setReg hw]
  by_cases h1 : r = regPreScale
  · subst h1
    rw [if_pos rfl, if_neg (by decide), if_neg (by decide), if_pos rfl]
  · by_cases h2 : r = regMode1
    · simp only [if_neg h1, if_pos h2]
    · simp only [if_neg h1, if_neg h2]

end Sys2Proof.Machine
end

