-- ==== Sys2Proof/Laws/Execute.lean ====
section
/-! SUPPORT. What a command does, said once: its first failed check ends it, and if none fails its effect runs. Every
later law about commands goes through `exec_eq`. -/

namespace Sys2Proof.Machine

/-! ## Operands -/

/-- The channel an ID byte below 16 names. -/
def chan (id : Byte) : Channel := Fin.ofNat 16 id.toNat

/-- The connector an ID byte from 1 to 4 names. -/
def conn (id : Byte) : Conn := (Conn.ofByte id).getD .c1

theorem chan_eq {id : Byte} (h : id.toNat < 16) : chan id = ⟨id.toNat, h⟩ := by
  apply Fin.ext
  exact Nat.mod_eq_of_lt h

theorem conn_eq {id : Byte} {k : Conn} (h : Conn.ofByte id = some k) : conn id = k := by
  rw [conn, h]; rfl

theorem ofByte_number (k : Conn) : Conn.ofByte k.number = some k := by cases k <;> rfl

theorem ofByte_iff (id : Byte) (k : Conn) : Conn.ofByte id = some k ↔ id = k.number := by
  constructor
  · intro h
    unfold Conn.ofByte at h
    split at h
    · injection h with h; subst h; assumption
    · split at h
      · injection h with h; subst h; assumption
      · split at h
        · injection h with h; subst h; assumption
        · split at h
          · injection h with h; subst h; assumption
          · exact absurd h (by simp)
  · rintro rfl; exact ofByte_number k

theorem ofByte_inj {a b : Byte} {k : Conn} (ha : Conn.ofByte a = some k) (hb : Conn.ofByte b = some k) : a = b :=
  ((ofByte_iff a k).mp ha).trans ((ofByte_iff b k).mp hb).symm

theorem ofBits_isSome (b : BitVec 2) : (Dir.ofBits b).isSome = (b != 2#2) := by revert b; decide

/-! ## Effects -/

/-- The effect of a command, after its checks. -/
def act : Instr → Cmd (BitVec 16)
  | .regWr reg v => do busWrite1 reg v; return 0#16
  | .regRd reg => do let v ← busRead1 reg; return v.setWidth 16
  | .regBurst reg data => do busBurst reg data; return 0#16
  | .ctrlInit addr hz => do
    update (fun s => { s with addr := addr })
    resetSeq
    freqSeq ((prescale hz).getD 0#8)
    update (fun s => { s with phase := .ready })
    return 0#16
  | .ctrlReset => do resetSeq; return 0#16
  | .ctrlFreq hz => do freqSeq ((prescale hz).getD 0#8); return 0#16
  | .ctrlDuty id d => do busBurst (regLed (chan id)) (pattern d); return 0#16
  | .chBind id => do update (fun s => (s.setOwner (chan id) .port).setDuty (chan id) 0#16); return 0#16
  | .chRelease id => do update (fun s => s.setOwner (chan id) .free); return 0#16
  | .chDuty id d => do setDuty (chan id) d; return 0#16
  | .lineSet id b => do setLine (chan id) b; return 0#16
  | .lineGet id => do let s ← get; return (if lineState (s.duty (chan id)) then 1#16 else 0#16)
  | .hbConfig id => do update (fun s => s.bindBridge (conn id)); return 0#16
  | .hbSet id d => do bridgeSet (conn id) d; return 0#16
  | .hbBrake id => do setLine (conn id).in1 true; setLine (conn id).in2 true; return 0#16
  | .hbRelease id => do
    setDuty (conn id).pwm 0#16
    setLine (conn id).in1 false
    setLine (conn id).in2 false
    return 0#16
  | .hbGet id => do let s ← get; return (s.bridge (conn id)).duty
  | .seqConfig id bra brb n => do
    update (fun s => s.setSeq id.toNat { cfg := true, ph1 := conn bra, ph2 := conn brb, n := n, idx := 0#16 })
    return 0#16
  | .seqStep id dir => do
    update (fun s => s.setSeq id.toNat ((s.seq id.toNat).advance ((Dir.ofBits dir).getD .hold)))
    let s ← get
    bridgeSet (s.seq id.toNat).ph1 (stepT1 s.params (s.seq id.toNat).n.toNat (s.seq id.toNat).idx.toNat)
    bridgeSet (s.seq id.toNat).ph2 (stepT2 s.params (s.seq id.toNat).n.toNat (s.seq id.toNat).idx.toNat)
    return 0#16
  | .seqRelease id => do
    let s ← get
    bridgeSet (s.seq id.toNat).ph1 0#16
    bridgeSet (s.seq id.toNat).ph2 0#16
    return 0#16
  | .seqGet id => do let s ← get; return (s.seq id.toNat).idx

/-! ## Running to the end -/

theorem runReady_ready {s : State} (h : s.phase = .ready) (body : Cmd (BitVec 16)) :
    runReady body s = endCommand (body s) := by
  simp [runReady, runCommand, requireReady, h]

theorem runReady_uninit {s : State} (h : s.phase ≠ .ready) (body : Cmd (BitVec 16)) :
    runReady body s = .next (s.respond .notReady 0#16) := by
  have hb : (s.phase == Phase.ready) = false := by simpa using h
  simp [runReady, runCommand, requireReady, hb, endCommand]

theorem endCommand_error (e : Status) (s : State) : endCommand (.error e s) = .next (s.respond e 0#16) := rfl

theorem endCommand_ok (v : BitVec 16) (s : State) : endCommand (.ok v s) = .next (s.respond .ok v) := rfl

/-- The status of the first check that fails. -/
def firstOf : List (Bool × Status) → Option Status
  | [] => none
  | (ok, e) :: cs => if ok then firstOf cs else some e

theorem firstOf_eq (cs : List (Bool × Status)) : (cs.find? (fun c => !c.1)).map (·.2) = firstOf cs := by
  induction cs with
  | nil => rfl
  | cons c cs ih =>
    obtain ⟨ok, e⟩ := c
    cases ok
    · rfl
    · simpa [firstOf] using ih

theorem failedCheck_ready {s : State} {i : Instr} (h : i.op = .ctrlInit ∨ s.phase = .ready) :
    s.failedCheck i = firstOf (s.checks i) := by
  rw [State.failedCheck, if_pos h, firstOf_eq]

/-- The result of a command from its first failed check. -/
def resultOf (s : State) (i : Instr) : Option Status → Result
  | some e => .next (s.respond e 0#16)
  | none => endCommand (act i s)

theorem entryAt_eq (s : State) {id : Byte} (h : id.toNat < 16) : s.entryAt id = some (s.entry (chan id)) := by
  rw [State.entryAt, dif_pos h, chan_eq h]

theorem channelOf_run (id : Byte) (s : State) :
    channelOf id s = if id.toNat < 16 then .ok (chan id) s else .error .configurationError s := by
  unfold channelOf
  by_cases h : id.toNat < 16
  · simp [h, chan_eq h]
  · simp [h]

theorem connOf_run (id : Byte) (s : State) :
    connOf id s = if (Conn.ofByte id).isSome then .ok (conn id) s else .error .configurationError s := by
  unfold connOf conn
  cases Conn.ofByte id <;> simp

theorem slotOf_run (id : Byte) (s : State) :
    slotOf id s = if id.toNat < s.nseq then .ok id.toNat s else .error .configurationError s := by
  unfold slotOf
  by_cases h : id.toNat < s.nseq <;> simp [h]

theorem dirOf_run (b : BitVec 2) (s : State) :
    dirOf b s = if b != 2#2 then .ok ((Dir.ofBits b).getD .hold) s else .error .configurationError s := by
  unfold dirOf
  rw [← ofBits_isSome]
  cases Dir.ofBits b <;> simp

theorem requireSeq_run (i : Nat) (s : State) :
    requireSeq i s = if (s.seq i).cfg then .ok () s else .error .notConfigured s := by
  unfold requireSeq
  cases h : (s.seq i).cfg <;> simp [h]

theorem requireFree_run (ch : Channel) (s : State) :
    requireFree ch s = if s.entry ch = .free then .ok () s else .error .resourceConflict s := by
  unfold requireFree
  simp [check_run]

theorem requirePort_run (ch : Channel) (s : State) :
    requirePort ch s = if s.entry ch = .free then .error .notConfigured s
      else if s.entry ch = .port then .ok () s else .error .resourceConflict s := by
  unfold requirePort
  by_cases h : s.entry ch = .free
  · simp [h]
  · have hb : (s.entry ch != .free) = true := by simpa using h
    simp [hb, h, check_run]

theorem configuredBridge_run (id : Byte) (s : State) :
    configuredBridge id s = if (Conn.ofByte id).isSome then
      (if (s.bridge (conn id)).cfg then .ok (conn id) s else .error .notConfigured s)
      else .error .configurationError s := by
  unfold configuredBridge
  by_cases h : (Conn.ofByte id).isSome = true
  · cases hc : (s.bridge (conn id)).cfg <;> simp [connOf_run, h, hc]
  · simp [connOf_run, h]

theorem bridgeCfgAt_eq (s : State) {id : Byte} (h : (Conn.ofByte id).isSome = true) :
    s.bridgeCfgAt id = (s.bridge (conn id)).cfg := by
  unfold State.bridgeCfgAt conn
  cases hk : Conn.ofByte id with
  | none => rw [hk] at h; simp at h
  | some k => rfl

theorem connectorFree_eq (s : State) {id : Byte} (h : (Conn.ofByte id).isSome = true) :
    s.connectorFree id = (decide (s.entry (conn id).in1 = .free) && (decide (s.entry (conn id).in2 = .free) &&
      decide (s.entry (conn id).pwm = .free))) := by
  unfold State.connectorFree conn
  cases hk : Conn.ofByte id with
  | none => rw [hk] at h; simp at h
  | some k => simp [Conn.channels, beq_eq_decide]

theorem conn_ne {a b : Byte} (ha : (Conn.ofByte a).isSome = true) (hb : (Conn.ofByte b).isSome = true) :
    (conn a != conn b) = (a != b) := by
  obtain ⟨j, hj⟩ := Option.isSome_iff_exists.mp ha
  obtain ⟨k, hk⟩ := Option.isSome_iff_exists.mp hb
  rw [conn_eq hj, conn_eq hk]
  by_cases h : a = b
  · subst h
    rw [hj] at hk
    injection hk with hk
    subst hk; simp
  · have hne : j ≠ k := fun e => h (ofByte_inj hj (e ▸ hk))
    have h1 : (a != b) = true := by simpa using h
    have h2 : (j != k) = true := by simpa using hne
    rw [h1, h2]

theorem eq_ctrlInit {i : Instr} (h : i.op = .ctrlInit) : ∃ addr hz, i = .ctrlInit addr hz := by
  cases i <;> first | exact ⟨_, _, rfl⟩ | exact absurd h (by simp [Instr.op])

/-! ## One equation for every command -/

theorem exec_uninit {i : Instr} (hi : i.op ≠ .ctrlInit) {s : State} (h : s.phase ≠ .ready) :
    exec i s = .next (s.respond .notReady 0#16) := by
  cases i <;> first | exact absurd rfl hi | exact runReady_uninit h _

theorem exec_regWr (reg v : Byte) {s : State} (h : s.phase = .ready) :
    exec (.regWr reg v) s = endCommand (act (.regWr reg v) s) := runReady_ready h _

theorem exec_eq (i : Instr) (s : State) : exec i s = resultOf s i (s.failedCheck i) := by
  by_cases hi : i.op = .ctrlInit
  · rw [failedCheck_ready (Or.inl hi)]
    obtain ⟨addr, hz, rfl⟩ := eq_ctrlInit hi
    simp only [exec, execCtrlInit, runCommand, State.checks, firstOf]
    cases h1 : (s.phase != Phase.ready)
    · simp [h1, endCommand_error, resultOf]
    · by_cases h2 : addr ∈ s.peers
      · simp [h1, h2, endCommand_error, resultOf]
      · cases h3 : prescale hz <;>
          simp [h1, h2, h3, endCommand_error, resultOf, act, prescaleOf]
  · by_cases hr : s.phase = .ready
    · rw [failedCheck_ready (Or.inr hr)]
      cases i with
      | ctrlInit addr hz => exact absurd rfl hi
      | regWr reg v => exact runReady_ready hr _
      | regRd reg => exact runReady_ready hr _
      | regBurst reg data => exact runReady_ready hr _
      | ctrlReset => exact runReady_ready hr _
      | ctrlFreq hz =>
        simp only [exec, execCtrlFreq, runReady_ready hr, State.checks, firstOf]
        cases h : prescale hz <;> simp [h, endCommand_error, resultOf, act, prescaleOf]
      | ctrlDuty id d =>
        simp only [exec, execCtrlDuty, runReady_ready hr, State.checks, firstOf]
        by_cases h : id.toNat < 16 <;> simp [h, channelOf_run, endCommand_error, resultOf, act]
      | chBind id =>
        simp only [exec, execChBind, runReady_ready hr, State.checks, firstOf]
        by_cases h : id.toNat < 16
        · rw [entryAt_eq s h]
          by_cases h2 : s.entry (chan id) = .free <;>
            simp [h, h2, channelOf_run, requireFree_run, endCommand_error, resultOf, act]
        · simp [h, channelOf_run, endCommand_error, resultOf]
      | chRelease id =>
        simp only [exec, execChRelease, runReady_ready hr, State.checks, firstOf]
        by_cases h : id.toNat < 16
        · rw [entryAt_eq s h]
          by_cases h2 : s.entry (chan id) = .free
          · simp [h, h2, channelOf_run, requirePort_run, endCommand_error, resultOf]
          · by_cases h3 : s.entry (chan id) = .port <;>
              simp [h, h2, h3, channelOf_run, requirePort_run, endCommand_error, resultOf, act]
        · simp [h, channelOf_run, endCommand_error, resultOf]
      | chDuty id d =>
        simp only [exec, execChDuty, runReady_ready hr, State.checks, firstOf]
        by_cases h : id.toNat < 16
        · rw [entryAt_eq s h]
          cases hd : inUnit d
          · simp [h, channelOf_run, endCommand_error, resultOf]
          · by_cases h2 : s.entry (chan id) = .free
            · simp [h, h2, channelOf_run, requirePort_run, endCommand_error, resultOf]
            · by_cases h3 : s.entry (chan id) = .port <;>
                simp [h, h2, h3, channelOf_run, requirePort_run, endCommand_error, resultOf, act]
        · simp [h, channelOf_run, endCommand_error, resultOf]
      | lineSet id b =>
        simp only [exec, execLineSet, runReady_ready hr, State.checks, firstOf]
        by_cases h : id.toNat < 16
        · rw [entryAt_eq s h]
          by_cases h2 : s.entry (chan id) = .free
          · simp [h, h2, channelOf_run, requirePort_run, endCommand_error, resultOf]
          · by_cases h3 : s.entry (chan id) = .port <;>
              simp [h, h2, h3, channelOf_run, requirePort_run, endCommand_error, resultOf, act]
        · simp [h, channelOf_run, endCommand_error, resultOf]
      | lineGet id =>
        simp only [exec, execLineGet, runReady_ready hr, State.checks, firstOf]
        by_cases h : id.toNat < 16
        · rw [entryAt_eq s h]
          by_cases h2 : s.entry (chan id) = .free
          · simp [h, h2, channelOf_run, requirePort_run, endCommand_error, resultOf]
          · by_cases h3 : s.entry (chan id) = .port <;>
              simp [h, h2, h3, channelOf_run, requirePort_run, endCommand_error, resultOf, act]
        · simp [h, channelOf_run, endCommand_error, resultOf]
      | hbConfig id =>
        simp only [exec, execHbConfig, runReady_ready hr, State.checks, firstOf]
        by_cases h : (Conn.ofByte id).isSome = true
        · rw [bridgeCfgAt_eq s h, connectorFree_eq s h]
          cases hc : (s.bridge (conn id)).cfg
          · by_cases h1 : s.entry (conn id).in1 = .free
            · by_cases h2 : s.entry (conn id).in2 = .free
              · by_cases h3 : s.entry (conn id).pwm = .free <;>
                  simp [h, hc, h1, h2, h3, connOf_run, requireFree_run, endCommand_error, resultOf, act]
              · simp [h, hc, h1, h2, connOf_run, requireFree_run, endCommand_error, resultOf]
            · simp [h, hc, h1, connOf_run, requireFree_run, endCommand_error, resultOf]
          · simp [h, hc, connOf_run, endCommand_error, resultOf]
        · simp [h, connOf_run, endCommand_error, resultOf]
      | hbSet id d =>
        simp only [exec, execHbSet, runReady_ready hr, State.checks, firstOf]
        by_cases h : (Conn.ofByte id).isSome = true
        · rw [bridgeCfgAt_eq s h]
          cases hd : inSigned d
          · simp [h, connOf_run, endCommand_error, resultOf]
          · cases hc : (s.bridge (conn id)).cfg <;>
              simp [h, hc, connOf_run, endCommand_error, resultOf, act]
        · simp [h, connOf_run, endCommand_error, resultOf]
      | hbBrake id =>
        simp only [exec, execHbBrake, runReady_ready hr, State.checks, firstOf]
        by_cases h : (Conn.ofByte id).isSome = true
        · rw [bridgeCfgAt_eq s h]
          cases hc : (s.bridge (conn id)).cfg <;>
            simp [h, hc, configuredBridge_run, endCommand_error, resultOf, act]
        · simp [h, configuredBridge_run, endCommand_error, resultOf]
      | hbRelease id =>
        simp only [exec, execHbRelease, runReady_ready hr, State.checks, firstOf]
        by_cases h : (Conn.ofByte id).isSome = true
        · rw [bridgeCfgAt_eq s h]
          cases hc : (s.bridge (conn id)).cfg <;>
            simp [h, hc, configuredBridge_run, endCommand_error, resultOf, act]
        · simp [h, configuredBridge_run, endCommand_error, resultOf]
      | hbGet id =>
        simp only [exec, execHbGet, runReady_ready hr, State.checks, firstOf]
        by_cases h : (Conn.ofByte id).isSome = true
        · rw [bridgeCfgAt_eq s h]
          cases hc : (s.bridge (conn id)).cfg <;>
            simp [h, hc, configuredBridge_run, endCommand_error, resultOf, act]
        · simp [h, configuredBridge_run, endCommand_error, resultOf]
      | seqConfig id bra brb n =>
        simp only [exec, execSeqConfig, runReady_ready hr, State.checks, firstOf]
        by_cases h : id.toNat < s.nseq
        · by_cases ha : (Conn.ofByte bra).isSome = true
          · by_cases hb : (Conn.ofByte brb).isSome = true
            · rw [bridgeCfgAt_eq s ha, bridgeCfgAt_eq s hb, ← conn_ne ha hb]
              cases hk : (conn bra != conn brb)
              · simp [h, ha, hb, hk, slotOf_run, connOf_run, endCommand_error, resultOf]
              · cases hn : validN n.toNat
                · simp [h, ha, hb, hk, slotOf_run, connOf_run, endCommand_error, resultOf]
                · cases hc : (s.seq id.toNat).cfg
                  · cases hca : (s.bridge (conn bra)).cfg <;> cases hcb : (s.bridge (conn brb)).cfg <;>
                      simp [h, ha, hb, hk, hc, hca, hcb, slotOf_run, connOf_run, endCommand_error, resultOf, act]
                  · simp [h, ha, hb, hk, hc, slotOf_run, connOf_run, endCommand_error, resultOf]
            · simp [h, ha, hb, slotOf_run, connOf_run, endCommand_error, resultOf]
          · simp [h, ha, slotOf_run, connOf_run, endCommand_error, resultOf]
        · simp [h, slotOf_run, endCommand_error, resultOf]
      | seqStep id dir =>
        simp only [exec, execSeqStep, runReady_ready hr, State.checks, firstOf]
        by_cases h : id.toNat < s.nseq
        · cases hd : (dir != 2#2)
          · simp [h, hd, slotOf_run, dirOf_run, endCommand_error, resultOf]
          · cases hc : (s.seq id.toNat).cfg <;>
              simp [h, hd, hc, slotOf_run, dirOf_run, requireSeq_run, endCommand_error, resultOf, act]
        · simp [h, slotOf_run, endCommand_error, resultOf]
      | seqRelease id =>
        simp only [exec, execSeqRelease, runReady_ready hr, State.checks, firstOf]
        by_cases h : id.toNat < s.nseq
        · cases hc : (s.seq id.toNat).cfg <;>
            simp [h, hc, slotOf_run, requireSeq_run, endCommand_error, resultOf, act]
        · simp [h, slotOf_run, endCommand_error, resultOf]
      | seqGet id =>
        simp only [exec, execSeqGet, runReady_ready hr, State.checks, firstOf]
        by_cases h : id.toNat < s.nseq
        · cases hc : (s.seq id.toNat).cfg <;>
            simp [h, hc, slotOf_run, requireSeq_run, endCommand_error, resultOf, act]
        · simp [h, slotOf_run, endCommand_error, resultOf]
    · rw [exec_uninit hi hr, State.failedCheck, if_neg (by simp [hi, hr])]; rfl

/-! ## What every command does -/

theorem conn_some {id : Byte} (h : (Conn.ofByte id).isSome = true) : Conn.ofByte id = some (conn id) := by
  obtain ⟨k, hk⟩ := Option.isSome_iff_exists.mp h
  rw [conn_eq hk, hk]

theorem ofBits_some {b : BitVec 2} (h : b ≠ 2#2) : Dir.ofBits b = some ((Dir.ofBits b).getD .hold) := by
  revert b; decide

theorem firstOf_none {cs : List (Bool × Status)} (h : firstOf cs = none) : ∀ c ∈ cs, c.1 = true := by
  induction cs with
  | nil => simp
  | cons c cs ih =>
    obtain ⟨ok, e⟩ := c
    cases ok
    · simp [firstOf] at h
    · intro c hc
      rcases List.mem_cons.mp hc with rfl | hc
      · rfl
      · exact ih (by simpa [firstOf] using h) c hc

/-- When no check fails, each one holds. -/
theorem checks_pass {i : Instr} {s : State} (h : s.failedCheck i = none) : ∀ c ∈ s.checks i, c.1 = true := by
  have hr : i.op = .ctrlInit ∨ s.phase = .ready := by
    by_contra hn
    rw [State.failedCheck, if_neg hn] at h
    simp at h
  rw [failedCheck_ready hr] at h
  exact firstOf_none h

/-- Every command ends with one response; it failed a check, or its effect ran and returned or raised. -/
theorem exec_next (i : Instr) (s : State) : ∃ t e v, exec i s = .next (State.respond t e v) ∧ (e ≠ .ok → v = 0#16) ∧
    ((s.failedCheck i = some e ∧ t = s) ∨
      (s.failedCheck i = none ∧ ((act i s = .ok v t ∧ e = .ok) ∨ act i s = .error e t))) := by
  rw [exec_eq]
  cases h : s.failedCheck i with
  | some e => exact ⟨s, e, 0#16, rfl, fun _ => rfl, Or.inl ⟨rfl, rfl⟩⟩
  | none =>
    simp only [resultOf]
    cases ha : act i s with
    | ok v t => exact ⟨t, .ok, v, rfl, fun h => absurd rfl h, by simp⟩
    | error e t => exact ⟨t, e, 0#16, rfl, fun _ => rfl, by simp⟩

/-- The trace of a command's effect. CTRL_INIT takes another address first. -/
theorem act_traced {i : Instr} (hi : i.op ≠ .ctrlInit) : Traced (act i) := by
  cases i with
  | ctrlInit addr hz => exact absurd rfl hi
  | regWr reg v => exact (Traced.group (busWrite1_spec _ _)).bind fun _ => Traced.pure _
  | regRd reg => exact (Traced.group (busRead1_spec _)).bind fun _ => Traced.pure _
  | regBurst reg data => exact (Traced.group (busBurst_spec _ _)).bind fun _ => Traced.pure _
  | ctrlReset => exact Traced.resetSeq.bind fun _ => Traced.pure _
  | ctrlFreq hz => exact (Traced.freqSeq _).bind fun _ => Traced.pure _
  | ctrlDuty id d => exact (Traced.group (busBurst_spec _ _)).bind fun _ => Traced.pure _
  | chBind id => exact (Traced.update (by intro; rfl) (by intro; rfl)).bind fun _ => Traced.pure _
  | chRelease id => exact (Traced.update (by intro; rfl) (by intro; rfl)).bind fun _ => Traced.pure _
  | chDuty id d => exact (Traced.setDuty _ _).bind fun _ => Traced.pure _
  | lineSet id d => exact (Traced.setLine _ _).bind fun _ => Traced.pure _
  | lineGet id => exact Traced.get.bind fun _ => Traced.pure _
  | hbConfig id => exact (Traced.update (by intro; rfl) (by intro; rfl)).bind fun _ => Traced.pure _
  | hbSet id d => exact (Traced.bridgeSet _ _).bind fun _ => Traced.pure _
  | hbBrake id => exact (Traced.setLine _ _).bind fun _ => (Traced.setLine _ _).bind fun _ => Traced.pure _
  | hbRelease id =>
    exact (Traced.setDuty _ _).bind fun _ => (Traced.setLine _ _).bind fun _ =>
      (Traced.setLine _ _).bind fun _ => Traced.pure _
  | hbGet id => exact Traced.get.bind fun _ => Traced.pure _
  | seqConfig id bra brb n => exact (Traced.update (by intro; rfl) (by intro; rfl)).bind fun _ => Traced.pure _
  | seqStep id dir =>
    exact (Traced.update (by intro; rfl) (by intro; rfl)).bind fun _ => Traced.get.bind fun _ =>
      (Traced.bridgeSet _ _).bind fun _ => (Traced.bridgeSet _ _).bind fun _ => Traced.pure _
  | seqRelease id =>
    exact Traced.get.bind fun _ => (Traced.bridgeSet _ _).bind fun _ => (Traced.bridgeSet _ _).bind fun _ => Traced.pure _
  | seqGet id => exact Traced.get.bind fun _ => Traced.pure _

/-! ## The response word (`30_encoding.md` R113) -/

theorem responseWord_status (e : Status) (v : BitVec 16) : (responseWord e v).extractLsb' 24 8 = e.code := by
  unfold responseWord place
  apply BitVec.eq_of_getElem_eq
  intro i hi
  interval_cases i <;> simp

theorem responseWord_zero (e : Status) (v : BitVec 16) : (responseWord e v).extractLsb' 16 8 = 0#8 := by
  unfold responseWord place
  apply BitVec.eq_of_getElem_eq
  intro i hi
  interval_cases i <;> simp

theorem responseWord_data (e : Status) (v : BitVec 16) : (responseWord e v).extractLsb' 0 16 = v := by
  unfold responseWord place
  apply BitVec.eq_of_getElem_eq
  intro i hi
  interval_cases i <;> simp

end Sys2Proof.Machine
end

