-- ==== Sys2Proof/Laws/PerInstr.lean ====
section
/-! SUPPORT. One statement about every command as syntax: its encoding has as many words as its opcode takes, and its
first word matches its row of the opcode map (`30_encoding.md` R111, R112, R125). -/

namespace Sys2Proof.Laws.EncodeHead

open Sys2Proof

/-- The encoding of `i` begins with a word that matches the row of `i` and takes as many words as that row's opcode. -/
def Statement (i : Instr) : Prop :=
  ∃ r ∈ opcodeMap, r.op = i.op ∧ ∃ w ws, encode i = w :: ws ∧ r.accepts w = true ∧ (w :: ws).length = wordCount r.opc

/-- A first word matches a row when its operand bits keep clear of the row's mask. -/
theorem head_accepts {r : OpcodeRow} (hr : r ∈ opcodeMap) {x : Word} (hx : x &&& r.mask = 0#32) :
    r.accepts (place 24 r.opc ||| x) = true := by
  have hp : ∀ r ∈ opcodeMap, place 24 r.opc &&& r.mask = r.pattern := by decide
  rw [OpcodeRow.accepts, beq_iff_eq, BitVec.and_comm, ← hp r hr]
  have : r.mask &&& (place 24 r.opc ||| x) = (place 24 r.opc &&& r.mask) ||| (x &&& r.mask) := by
    ext i
    simp only [BitVec.getElem_and, BitVec.getElem_or]
    cases r.mask[i] <;> simp
  rw [this, hx, BitVec.or_zero]

theorem id_clear (id : Byte) : place 16 id &&& 0xFF00FFFF#32 = 0#32 := by
  apply BitVec.eq_of_getElem_eq
  intro i hi
  interval_cases i <;> simp [place]

theorem two_clear (id : Byte) (d : BitVec 16) : (place 16 id ||| place 0 d) &&& 0xFF000000#32 = 0#32 := by
  apply BitVec.eq_of_getElem_eq
  intro i hi
  interval_cases i <;> simp [place]

/-- A command of format K. -/
theorem formatK {i : Instr} {r : OpcodeRow} {id : Byte} (hr : r ∈ opcodeMap) (ho : r.op = i.op)
    (hm : r.mask = 0xFF00FFFF#32) (hn : wordCount r.opc = 1) (he : encode i = [Sys2Proof.formatK r.opc id]) :
    Statement i :=
  ⟨r, hr, ho, _, [], he, head_accepts hr (by rw [hm]; exact id_clear id), hn.symm⟩

/-- A command of format C. -/
theorem formatC {i : Instr} {r : OpcodeRow} {id : Byte} {d : Duty} (hr : r ∈ opcodeMap) (ho : r.op = i.op)
    (hm : r.mask = 0xFF000000#32) (hn : wordCount r.opc = 1) (he : encode i = [Sys2Proof.formatC r.opc id d]) :
    Statement i := by
  refine ⟨r, hr, ho, _, [], he, ?_, hn.symm⟩
  rw [Sys2Proof.formatC, BitVec.or_assoc]
  exact head_accepts hr (by rw [hm]; exact two_clear id d)

theorem regWr (reg data : Byte) : Statement (.regWr reg data) := by
  refine ⟨⟨.regWr, 0x01#8, 0x01000000#32, 0xFFFF0000#32⟩, by decide, rfl, _, _, rfl, ?_, rfl⟩
  rw [OpcodeRow.accepts, beq_iff_eq]
  apply BitVec.eq_of_getElem_eq
  intro i hi
  interval_cases i <;> simp [place]

theorem regRd (reg : Byte) : Statement (.regRd reg) := by
  refine ⟨⟨.regRd, 0x02#8, 0x02000000#32, 0xFFFF00FF#32⟩, by decide, rfl, _, _, rfl, ?_, rfl⟩
  rw [OpcodeRow.accepts, beq_iff_eq]
  apply BitVec.eq_of_getElem_eq
  intro i hi
  interval_cases i <;> simp [place]

theorem regBurst (reg : Byte) (data : List Byte) : Statement (.regBurst reg data) := by
  refine ⟨⟨.regBurst, 0x03#8, 0x03000000#32, 0xFFF800FF#32⟩, by decide, rfl, _, _, rfl, ?_, rfl⟩
  rw [OpcodeRow.accepts, beq_iff_eq]
  apply BitVec.eq_of_getElem_eq
  intro i hi
  interval_cases i <;> simp [place]

theorem ctrlInit (addr : Addr) (hz : Word) : Statement (.ctrlInit addr hz) := by
  refine ⟨⟨.ctrlInit, 0x10#8, 0x10000000#32, 0xFFFFFF80#32⟩, by decide, rfl, _, _, rfl, ?_, rfl⟩
  rw [OpcodeRow.accepts, beq_iff_eq]
  apply BitVec.eq_of_getElem_eq
  intro i hi
  interval_cases i <;> simp [place]

theorem ctrlReset : Statement .ctrlReset := by
  refine ⟨⟨.ctrlReset, 0x11#8, 0x11000000#32, 0xFFFFFFFF#32⟩, by decide, rfl, _, _, rfl, ?_, rfl⟩
  decide

theorem ctrlFreq (hz : Word) : Statement (.ctrlFreq hz) := by
  refine ⟨⟨.ctrlFreq, 0x12#8, 0x12000000#32, 0xFFFFFFFF#32⟩, by decide, rfl, _, _, rfl, ?_, rfl⟩
  decide

theorem ctrlDuty (id : Byte) (duty : Duty) : Statement (.ctrlDuty id duty) :=
  formatC (r := ⟨.ctrlDuty, 0x13#8, 0x13000000#32, 0xFF000000#32⟩) (by decide) rfl rfl rfl rfl

theorem chBind (id : Byte) : Statement (.chBind id) :=
  formatK (r := ⟨.chBind, 0x20#8, 0x20000000#32, 0xFF00FFFF#32⟩) (by decide) rfl rfl rfl rfl

theorem chRelease (id : Byte) : Statement (.chRelease id) :=
  formatK (r := ⟨.chRelease, 0x21#8, 0x21000000#32, 0xFF00FFFF#32⟩) (by decide) rfl rfl rfl rfl

theorem chDuty (id : Byte) (duty : Duty) : Statement (.chDuty id duty) :=
  formatC (r := ⟨.chDuty, 0x22#8, 0x22000000#32, 0xFF000000#32⟩) (by decide) rfl rfl rfl rfl

theorem lineSet (id : Byte) (b : Bool) : Statement (.lineSet id b) := by
  refine ⟨⟨.lineSet, 0x23#8, 0x23000000#32, 0xFF00FFFE#32⟩, by decide, rfl, _, _, rfl, ?_, rfl⟩
  rw [OpcodeRow.accepts, beq_iff_eq]
  apply BitVec.eq_of_getElem_eq
  intro i hi
  interval_cases i <;> simp [place]

theorem lineGet (id : Byte) : Statement (.lineGet id) :=
  formatK (r := ⟨.lineGet, 0x24#8, 0x24000000#32, 0xFF00FFFF#32⟩) (by decide) rfl rfl rfl rfl

theorem hbConfig (id : Byte) : Statement (.hbConfig id) :=
  formatK (r := ⟨.hbConfig, 0x30#8, 0x30000000#32, 0xFF00FFFF#32⟩) (by decide) rfl rfl rfl rfl

theorem hbSet (id : Byte) (duty : Duty) : Statement (.hbSet id duty) :=
  formatC (r := ⟨.hbSet, 0x31#8, 0x31000000#32, 0xFF000000#32⟩) (by decide) rfl rfl rfl rfl

theorem hbBrake (id : Byte) : Statement (.hbBrake id) :=
  formatK (r := ⟨.hbBrake, 0x32#8, 0x32000000#32, 0xFF00FFFF#32⟩) (by decide) rfl rfl rfl rfl

theorem hbRelease (id : Byte) : Statement (.hbRelease id) :=
  formatK (r := ⟨.hbRelease, 0x33#8, 0x33000000#32, 0xFF00FFFF#32⟩) (by decide) rfl rfl rfl rfl

theorem hbGet (id : Byte) : Statement (.hbGet id) :=
  formatK (r := ⟨.hbGet, 0x34#8, 0x34000000#32, 0xFF00FFFF#32⟩) (by decide) rfl rfl rfl rfl

theorem seqConfig (id bra brb : Byte) (nsteps : BitVec 16) : Statement (.seqConfig id bra brb nsteps) := by
  refine ⟨⟨.seqConfig, 0x40#8, 0x40000000#32, 0xFF000000#32⟩, by decide, rfl, _, _, rfl, ?_, rfl⟩
  rw [OpcodeRow.accepts, beq_iff_eq]
  apply BitVec.eq_of_getElem_eq
  intro i hi
  interval_cases i <;> simp [place]

theorem seqStep (id : Byte) (dir : BitVec 2) : Statement (.seqStep id dir) := by
  refine ⟨⟨.seqStep, 0x41#8, 0x41000000#32, 0xFF00FFFC#32⟩, by decide, rfl, _, _, rfl, ?_, rfl⟩
  rw [OpcodeRow.accepts, beq_iff_eq]
  apply BitVec.eq_of_getElem_eq
  intro i hi
  interval_cases i <;> simp [place]

theorem seqRelease (id : Byte) : Statement (.seqRelease id) :=
  formatK (r := ⟨.seqRelease, 0x42#8, 0x42000000#32, 0xFF00FFFF#32⟩) (by decide) rfl rfl rfl rfl

theorem seqGet (id : Byte) : Statement (.seqGet id) :=
  formatK (r := ⟨.seqGet, 0x43#8, 0x43000000#32, 0xFF00FFFF#32⟩) (by decide) rfl rfl rfl rfl

end Sys2Proof.Laws.EncodeHead
end

