-- ==== Sys2Proof/Tests/Slice0.lean ====
section
/-! SUPPORT. Tests: the well-formedness check, words of the encoding written out from the spec, single steps with the
results of `95_test_vectors.md`, and a witness for the hypotheses of every statement. -/

namespace Sys2Proof.Tests

open Sys2Proof Sys2Proof.Machine

/-! ## Small states -/

/-- READY on the device as vector V1 leaves it: MODE1 = 0xA0, PRE_SCALE = 3, every channel off, `ptr` = 1. -/
def afterInit : State :=
  { State.reset with
    phase := .ready
    devices := [{ addr := 0x60#7, mem := [(0x00, 0xA0#8), (0xFE, 0x03#8)], ptr := 0x01#8 }] }

/-- Channel 5 bound by CH_BIND. -/
def bound5 : State := afterInit.setOwner 5 .port

/-- Bridges 1 and 2 configured. -/
def motor : State := (afterInit.bindBridge .c1).bindBridge .c2

/-- Slot 0 steps bridges 1 and 2 through the whole-step table. -/
def stepper : State := motor.setSeq 0 { cfg := true, ph1 := .c1, ph2 := .c2, n := 4#16, idx := 0#16 }

/-- The bus fails frame `n` of what comes next (counted from 0) and answers the others as the reference bus does. -/
def State.failAt (s : State) (n : Nat) : State := { s with replies := List.replicate n .reference ++ [.fail [] 0x00#8] }

/-- The state after a command. -/
def after (i : Instr) (s : State) : State :=
  match exec i s with
  | .next t => t
  | .fault _ => s
  | .refused _ => s

/-- The command's response. -/
def response (i : Instr) (s : State) : Word := (after i s).lastResponse

/-- The bursts a command sends. -/
def sent (i : Instr) (s : State) : List Burst := bursts (after i s).trace

/-! ## Well-formedness refuses what the encoding cannot hold -/

theorem test_wf_refuses_empty_burst : (Instr.regBurst 0x06#8 []).wellFormed = false := by decide

theorem test_wf_refuses_five_bytes : (Instr.regBurst 0x06#8 [1#8, 2#8, 3#8, 4#8, 5#8]).wellFormed = false := by decide

theorem test_wf_accepts_one_byte : (Instr.regBurst 0x06#8 [0xFF#8]).wellFormed = true := by decide

/-! ## Decoding: one word per constructor, bit by bit from R114 to R125 -/

theorem test_decode_register_bus :
    decode [0b00000001_00000000_11111110_00011110#32] = .command (.regWr 0xFE#8 0x1E#8) [] ∧
    decode [0b00000010_00000000_01000100_00000000#32] = .command (.regRd 0x44#8) [] ∧
    decode [0b00000011_00000010_00001010_00000000#32, 0b00000000_00000000_00010000_11001100#32] =
      .command (.regBurst 0x0A#8 [0xCC#8, 0x10#8]) [] := by decide

theorem test_decode_controller :
    decode [0b00010000_00000000_00000000_01000001#32, 0x00180000#32] = .command (.ctrlInit 0x41#7 0x00180000#32) [] ∧
    decode [0b00010001_00000000_00000000_00000000#32] = .command .ctrlReset [] ∧
    decode [0b00010010_00000000_00000000_00000000#32, 0x00320000#32] = .command (.ctrlFreq 0x00320000#32) [] ∧
    decode [0b00010011_00001111_00000000_00000010#32] = .command (.ctrlDuty 15#8 2#16) [] := by decide

theorem test_decode_channel :
    decode [0b00100000_00000101_00000000_00000000#32] = .command (.chBind 5#8) [] ∧
    decode [0b00100001_00000101_00000000_00000000#32] = .command (.chRelease 5#8) [] ∧
    decode [0b00100010_00010000_00100000_00000001#32] = .command (.chDuty 16#8 0x2001#16) [] ∧
    decode [0b00100011_00001001_00000000_00000001#32] = .command (.lineSet 9#8 true) [] ∧
    decode [0b00100011_00001001_00000000_00000000#32] = .command (.lineSet 9#8 false) [] ∧
    decode [0b00100100_00001001_00000000_00000000#32] = .command (.lineGet 9#8) [] := by decide

theorem test_decode_hbridge :
    decode [0b00110000_00000001_00000000_00000000#32] = .command (.hbConfig 1#8) [] ∧
    decode [0b00110001_00000001_11100000_00000000#32] = .command (.hbSet 1#8 0xE000#16) [] ∧
    decode [0b00110010_00000010_00000000_00000000#32] = .command (.hbBrake 2#8) [] ∧
    decode [0b00110011_00000011_00000000_00000000#32] = .command (.hbRelease 3#8) [] ∧
    decode [0b00110100_00000100_00000000_00000000#32] = .command (.hbGet 4#8) [] := by decide

theorem test_decode_sequencer :
    decode [0b01000000_00000001_00000011_00000100#32, 0b00000000_00000000_11111111_11111110#32] =
      .command (.seqConfig 1#8 3#8 4#8 0xFFFE#16) [] ∧
    decode [0b01000001_00000001_00000000_00000011#32] = .command (.seqStep 1#8 3#2) [] ∧
    decode [0b01000010_00000001_00000000_00000000#32] = .command (.seqRelease 1#8) [] ∧
    decode [0b01000011_00000001_00000000_00000000#32] = .command (.seqGet 1#8) [] := by decide

/-- V-DEC: the illegal words, with the words each consumes. -/
theorem test_decode_illegal_words :
    decode [0x00000000#32, 7#32] = .illegal .unknownOpcode [7#32] ∧
    decode [0xFF000000#32, 7#32] = .illegal .unknownOpcode [7#32] ∧
    decode [0x02000001#32] = .illegal .reservedBit [] ∧
    decode [0x02FE0000#32] = .illegal .reservedBit [] ∧
    decode [0x03000600#32, 0#32, 7#32] = .illegal .burstLength [7#32] ∧
    decode [0x03050600#32, 0#32] = .illegal .burstLength [] ∧
    decode [0x03010600#32, 0x00000100#32] = .illegal .burstPadding [] ∧
    decode [0x03040601#32, 0#32] = .illegal .reservedBit [] ∧
    decode [0x10000080#32, 0x06400000#32] = .illegal .reservedBit [] ∧
    decode [0x11000001#32] = .illegal .reservedBit [] ∧
    decode [0x20050001#32] = .illegal .reservedBit [] ∧
    decode [0x23090003#32] = .illegal .reservedBit [] ∧
    decode [0x40000102#32, 0x00010004#32, 7#32] = .illegal .seqPadding [7#32] := by decide

theorem test_decode_waits_for_the_second_word :
    decode [] = .incomplete ∧ decode [0x12000000#32] = .incomplete ∧ decode [0x03FFFFFF#32] = .incomplete := by decide

theorem test_decode_bytes_are_little_endian :
    decodeBytes [0x04#8, 0x01#8, 0x00#8, 0x01#8] = .command (.regWr 0x01#8 0x04#8) [] := by decide

theorem test_table_word_two_words :
    decodeTableWord 64 0x0000000440000102 = some (.seqConfig 0#8 1#8 2#8 4#16) := by decide

theorem test_table_word_short :
    decodeTableWord 32 0x12000000 = some (.ctrlFreq 0#32) ∧ decodeTableWord 32 0x31012000 = some (.hbSet 1#8 0x2000#16) := by
  decide

theorem test_fetch_word_runs_next :
    step (State.reset.withFetchWord 32 0x30010000) =
      .next { State.reset with responses := [0x05000000#32] } := rfl

/-! ## The assembler (R128, R129) -/

theorem test_assemble_lines :
    assembleLine "hb.set 1, -0.5".toList = some (.hbSet 1#8 0xE000#16) ∧
    assembleLine "ctrl.init 0x60, 1600".toList = some (.ctrlInit 0x60#7 0x06400000#32) ∧
    assembleLine "seq.step 0, -1".toList = some (.seqStep 0#8 3#2) ∧
    assembleLine "ctrl.duty 15, #2".toList = some (.ctrlDuty 15#8 2#16) := by decide

theorem test_assemble_refuses_rounding :
    assembleLine "hb.set 1, 0.3".toList = none ∧ assembleLine "ctrl.init.default 1600".toList =
      some (.ctrlInit 0x60#7 0x06400000#32) := by decide

/-! ## Device registers (R82 to R89) -/

theorem test_memory_write_is_canonical :
    Memory.write (Memory.write [] 0x10 0x55#8) 0x10 (powerOn 0x10) = [] ∧
      Memory.write [(0x10, 0x55#8)] 0x08 0x66#8 = [(0x08, 0x66#8), (0x10, 0x55#8)] := by decide

/-- A prescale write while awake is ignored. -/
theorem test_prescale_needs_sleep :
    (after (.regWr 0xFE#8 0x1E#8) afterInit).devices.map (fun d => d.reg 0xFE#8) = [0x03#8] := by decide

/-- R82: AI is tested after the byte is stored. A frame at MODE1 that clears AI stays there; one that sets it moves on. -/
theorem test_write_frame_tests_AI_after_the_store :
    afterInit.devices.map (fun d => ((d.writeFrame 0x00#8 [0x80#8, 0x81#8]).reg 0x00#8, (d.writeFrame 0x00#8 [0x80#8, 0x81#8]).ptr)) =
      [(0x81#8, 0x00#8)] ∧
    State.reset.devices.map (fun d => ((d.writeFrame 0x00#8 [0x31#8, 0x07#8]).reg 0x01#8, (d.writeFrame 0x00#8 [0x31#8, 0x07#8]).ptr)) =
      [(0x07#8, 0x02#8)] := by decide

/-- R82, R95: the pointer runs past 0x45 into reserved registers, and past 0xFF to MODE1. -/
theorem test_write_frame_wraps :
    afterInit.devices.map (fun d => ((d.writeFrame 0x45#8 [0x55#8, 0x66#8]).reg 0x45#8, (d.writeFrame 0x45#8 [0x55#8, 0x66#8]).reg 0x46#8,
      (d.writeFrame 0x45#8 [0x55#8, 0x66#8]).ptr)) = [(0x55#8, 0x00#8, 0x47#8)] ∧
    afterInit.devices.map (fun d => ((d.writeFrame 0xFF#8 [0x55#8, 0xA1#8]).reg 0x00#8, (d.writeFrame 0xFF#8 [0x55#8, 0xA1#8]).ptr)) =
      [(0xA1#8, 0x01#8)] := by decide

/-! ## Register-bus commands -/

/-- V-REG 1. -/
theorem test_regWr_trace :
    (after (.regWr 0x01#8 0x04#8) afterInit).trace = [[wrote 0x60#7 0x01#8 [0x04#8]]] := by decide

/-- V-REG 2 and 4. -/
theorem test_regRd_data :
    response (.regRd 0xFE#8) afterInit = 0x00000003#32 ∧ response (.regRd 0xFA#8) afterInit = 0x00000000#32 := by decide

/-- V-REG 6: the burst repairs AI. -/
theorem test_regBurst_repairs_autoincrement :
    (after (.regBurst 0x0A#8 [0x00#8, 0x00#8, 0x00#8, 0x04#8]) (after (.regWr 0x00#8 0x80#8) afterInit)).trace.drop 1 =
      [[wrote 0x60#7 0x00#8 [], didRead 0x60#7 0x80#8, wrote 0x60#7 0x00#8 [0xA0#8],
        wrote 0x60#7 0x0A#8 [0x00#8, 0x00#8, 0x00#8, 0x04#8]]] := by decide

/-! ## Controller commands -/

/-- V1: the end state of the device, the totals, and one group. -/
theorem test_ctrlInit_reaches_V1 :
    (after (.ctrlInit 0x60#7 0x06400000#32) State.reset).devices = afterInit.devices ∧
    (after (.ctrlInit 0x60#7 0x06400000#32) State.reset).phase = .ready ∧
    (after (.ctrlInit 0x60#7 0x06400000#32) State.reset).trace.length = 10 ∧
    frameCount (after (.ctrlInit 0x60#7 0x06400000#32) State.reset).trace = 20 ∧
    (after (.ctrlInit 0x60#7 0x06400000#32) State.reset).trace[5]? = some [wrote 0x60#7 0xFE#8 [0x03#8]] := by decide

/-- V-CTRL-6: no device at 0x41. -/
theorem test_ctrlInit_without_device :
    response (.ctrlInit 0x41#7 0x06400000#32) State.reset = 0x03000000#32 ∧
    (after (.ctrlInit 0x41#7 0x06400000#32) State.reset).phase = .uninit ∧
    (after (.ctrlInit 0x41#7 0x06400000#32) State.reset).addr = 0x41#7 ∧
    (after (.ctrlInit 0x41#7 0x06400000#32) State.reset).trace =
      [[{ frame := .write 0x41#7 0x00#8 [0x00#8], answer := .fail }]] := by decide

/-- V-CTRL-3. -/
theorem test_ctrlReset_trace :
    (after .ctrlReset afterInit).trace =
      [[wrote 0x60#7 0x00#8 [0x00#8]], [{ frame := .delay 1000, answer := .elapsed }],
       [wrote 0x60#7 0x00#8 [], didRead 0x60#7 0x00#8, wrote 0x60#7 0x00#8 [0x20#8],
        wrote 0x60#7 0xFA#8 [0x00#8, 0x00#8, 0x00#8, 0x10#8]],
       [wrote 0x60#7 0x00#8 [], didRead 0x60#7 0x20#8, wrote 0x60#7 0x00#8 [0xA0#8]]] := by decide

/-- V-CTRL-1, the edges and the tie. -/
theorem test_prescale_edges :
    prescale 0x00000000#32 = none ∧ prescale 0x0017CB9E#32 = none ∧ prescale 0x0017CB9F#32 = some 255#8 ∧
    prescale 0x01E84800#32 = some 12#8 ∧ prescale 0x06CFDC92#32 = some 3#8 ∧ prescale 0x06CFDC93#32 = none := by decide

/-- V-CTRL-4. -/
theorem test_ctrlFreq_sets_prescale :
    (after (.ctrlFreq 0x00320000#32) afterInit).trace.take 2 =
      [[wrote 0x60#7 0x00#8 [], didRead 0x60#7 0xA0#8, wrote 0x60#7 0x00#8 [0xB0#8]], [wrote 0x60#7 0xFE#8 [0x79#8]]] ∧
    (after (.ctrlFreq 0x00320000#32) afterInit).devices.map (fun d => (d.reg 0xFE#8, d.reg 0x00#8)) =
      [(0x79#8, 0xA0#8)] := by decide

/-- V-CTRL-2. -/
theorem test_patterns :
    pattern 0x8000#16 = [0x00#8, 0x00#8, 0x00#8, 0x10#8] ∧ pattern 0x0001#16 = [0x00#8, 0x00#8, 0x01#8, 0x00#8] ∧
    pattern 0x0008#16 = [0x00#8, 0x00#8, 0x02#8, 0x00#8] ∧ pattern 0x2D41#16 = [0x00#8, 0x00#8, 0x50#8, 0x0B#8] ∧
    pattern 0x3FFF#16 = [0x00#8, 0x00#8, 0xFF#8, 0x0F#8] ∧ pattern 0x4000#16 = [0x00#8, 0x10#8, 0x00#8, 0x00#8] := by
  decide

/-- V-CTRL-5. -/
theorem test_ctrlDuty_channel_15 :
    (after (.ctrlDuty 15#8 2#16) afterInit).trace =
      [[wrote 0x60#7 0x00#8 [], didRead 0x60#7 0xA0#8, wrote 0x60#7 0x42#8 [0x00#8, 0x00#8, 0x01#8, 0x00#8]]] ∧
    response (.ctrlDuty 16#8 0x2000#16) afterInit = 0x01000000#32 := by decide

/-! ## What the device shows (R321, R353) -/

/-- A raw write of SLEEP stops every output and begins no frequency change; a raw wake shows the registers again. -/
theorem test_raw_sleep_stops_outputs :
    (after (.regWr 0x00#8 0xB0#8) afterInit).output 0x60#7 3 = some .stopped ∧
    (after (.regWr 0x00#8 0xA0#8) (after (.regWr 0x00#8 0xB0#8) afterInit)).output 0x60#7 3 = some .low := by decide

/-- A burst whose byte for MODE2 has bit 4 set is no change and no sleep. -/
theorem test_burst_into_mode2_is_no_sleep :
    (after (.regBurst 0x00#8 [0x20#8, 0x14#8]) afterInit).output 0x60#7 3 = some .low := by decide

/-- A CTRL_FREQ whose prescale frame fails leaves the change under way; the next CTRL_RESET ends it. -/
theorem test_failed_ctrlFreq_leaves_the_change :
    (after (.ctrlFreq 0x00320000#32) (State.failAt afterInit 2)).changing = [0x60#7] ∧
    (after (.ctrlFreq 0x00320000#32) (State.failAt afterInit 1)).changing = [] ∧
    (after .ctrlReset { after (.ctrlFreq 0x00320000#32) (State.failAt afterInit 3) with replies := [] }).changing = [] ∧
    (after (.ctrlFreq 0x00320000#32) afterInit).output 0x60#7 3 = some .low := by decide

/-- R102: another agent's group between two commands reaches the device (here it puts it to sleep). -/
theorem test_foreign_group_between_commands :
    (State.idle { afterInit with events := [.foreign [{ frame := .write 0x60#7 0x00#8 [0xB0#8], reply := .reference }]] }).output
      0x60#7 3 = some .stopped := by decide

/-- R173: no other block changes the frequency of this READY block's device. -/
theorem test_peerChange_spares_the_own_device :
    (State.idle { afterInit with events := [.peerChange 0x60#7 true] }).changing = [] ∧
    (State.idle { afterInit with events := [.peerChange 0x61#7 true] }).changing = [0x61#7] := by decide

/-! ## Channel and line commands -/

/-- S6. -/
theorem test_chBind_twice :
    response (.chBind 5#8) afterInit = 0x00000000#32 ∧
    response (.chBind 5#8) (after (.chBind 5#8) afterInit) = 0x02000000#32 := by decide

/-- S7, V-CH 8 and 9. -/
theorem test_chRelease :
    response (.chBind 5#8) (after (.chRelease 5#8) bound5) = 0x00000000#32 ∧
    response (.chRelease 8#8) motor = 0x02000000#32 ∧ response (.chRelease 4#8) afterInit = 0x06000000#32 := by decide

/-- V-CH 1. -/
theorem test_chDuty_sends_pattern :
    sent (.chDuty 5#8 0x1000#16) bound5 = [(5, [0x00#8, 0x00#8, 0x00#8, 0x04#8])] ∧
    (after (.chDuty 5#8 0x1000#16) bound5).duty 5 = 0x1000#16 := by decide

/-- V-CH 3, 4, 6 and 7: the order of the checks. -/
theorem test_chDuty_errors :
    response (.chDuty 5#8 0xFFFF#16) bound5 = 0x01000000#32 ∧ response (.chDuty 0#8 0x2000#16) afterInit = 0x06000000#32 ∧
    response (.chDuty 16#8 0x4001#16) afterInit = 0x01000000#32 ∧ response (.chDuty 8#8 0x2000#16) motor = 0x02000000#32 := by
  decide

/-- V-CH 10 and 11. -/
theorem test_lineSet_override :
    sent (.lineSet 5#8 true) bound5 = [(5, [0x00#8, 0x10#8, 0x00#8, 0x00#8])] ∧
    sent (.lineSet 5#8 false) bound5 = [(5, [0x00#8, 0x00#8, 0x00#8, 0x10#8])] := by decide

/-- V-CH 12 and 13. -/
theorem test_lineGet_threshold :
    response (.lineGet 5#8) (after (.chDuty 5#8 0x2000#16) bound5) = 0x00000000#32 ∧
    response (.lineGet 5#8) (after (.chDuty 5#8 0x4000#16) bound5) = 0x00000001#32 := by decide

/-! ## H-bridge commands -/

/-- HB_CONFIG allocation vectors: one channel taken, none bound. -/
theorem test_hbConfig_all_or_nothing :
    response (.hbConfig 1#8) (after (.chBind 9#8) afterInit) = 0x02000000#32 ∧
    (after (.hbConfig 1#8) (after (.chBind 9#8) afterInit)).owner 10 = .free ∧
    (after (.hbConfig 1#8) afterInit).owner 10 = .bridge .c1 := by decide

/-- V-HB 3: the reversal. -/
theorem test_hbSet_reversal :
    sent (.hbSet 1#8 0xE000#16) motor = [(8, fullOff), (10, fullOff), (9, fullOn), (8, [0x00#8, 0x00#8, 0x00#8, 0x08#8])] ∧
    sent (.hbSet 1#8 0x2000#16) motor = [(9, fullOff), (10, fullOn), (8, [0x00#8, 0x00#8, 0x00#8, 0x08#8])] := by decide

/-- V-HB 12, 14 and 15. -/
theorem test_hbSet_errors :
    response (.hbSet 1#8 0xBFFF#16) motor = 0x01000000#32 ∧ response (.hbSet 3#8 0x2000#16) motor = 0x06000000#32 ∧
    response (.hbSet 0#8 0x2000#16) motor = 0x01000000#32 := by decide

/-- V-HB 6. -/
theorem test_hbBrake_bursts : sent (.hbBrake 1#8) motor = [(10, fullOn), (9, fullOn)] := by decide

/-- V-HB 8. -/
theorem test_hbRelease_bursts : sent (.hbRelease 1#8) motor = [(8, fullOff), (10, fullOff), (9, fullOff)] := by decide

/-- V-HB 9 and 18. -/
theorem test_hbGet :
    response (.hbGet 1#8) (after (.hbSet 1#8 0xFFFF#16) motor) = 0x0000FFFF#32 ∧
    response (.hbGet 5#8) motor = 0x01000000#32 := by decide

/-- V-FAULT 1: the read of the second group fails. -/
theorem test_hbSet_transport_error :
    response (.hbSet 1#8 0xE000#16) (State.failAt motor 4) = 0x03000000#32 ∧
    ((after (.hbSet 1#8 0xE000#16) (State.failAt motor 4)).bridge .c1).duty = 0xE000#16 ∧
    (after (.hbSet 1#8 0xE000#16) (State.failAt motor 4)).trace.map List.length = [3, 2] := by decide

/-! ## Sequencer commands -/

/-- The validity table of V-SEQ. -/
theorem test_seqConfig_checks :
    response (.seqConfig 0#8 1#8 2#8 4#16) motor = 0x00000000#32 ∧
    response (.seqConfig 0#8 1#8 2#8 4#16) stepper = 0x01000000#32 ∧
    response (.seqConfig 1#8 1#8 2#8 7#16) motor = 0x01000000#32 ∧
    response (.seqConfig 2#8 1#8 2#8 8#16) motor = 0x01000000#32 ∧
    response (.seqConfig 1#8 1#8 1#8 8#16) motor = 0x01000000#32 ∧
    response (.seqConfig 1#8 3#8 4#8 8#16) motor = 0x06000000#32 := by decide

/-- P1, command 6. -/
theorem test_seqStep_forward :
    sent (.seqStep 0#8 1#2) stepper = [(8, fullOff), (10, fullOff), (9, fullOn), (8, fullOn), (12, fullOff), (11, fullOn),
      (13, fullOn)] ∧ ((after (.seqStep 0#8 1#2) stepper).seq 0).idx = 1#16 := by decide

/-- The direction `10`, and a slot past NSEQ checked first. -/
theorem test_seqStep_errors :
    response (.seqStep 0#8 2#2) stepper = 0x01000000#32 ∧ response (.seqStep 5#8 2#2) stepper = 0x01000000#32 ∧
    response (.seqStep 1#8 1#2) stepper = 0x06000000#32 := by decide

/-- P1, command 10. -/
theorem test_seqRelease_bursts :
    sent (.seqRelease 0#8) stepper =
      [(9, fullOff), (10, fullOn), (8, fullOff), (12, fullOff), (11, fullOn), (13, fullOff)] := by decide

/-- A backward step from index 0 wraps. -/
theorem test_seqGet_after_wrap : response (.seqGet 0#8) (after (.seqStep 0#8 3#2) stepper) = 0x00000003#32 := by decide

/-- V-SEQ: the generated table of 9 entries. -/
theorem test_generated_table :
    stepT1 Params.default 9 1 = 11585#16 ∧ stepT2 Params.default 9 1 = 11585#16 ∧
    (stepT1 { Params.default with trigDivisor := .n } 16 4 = 0#16) ∧
    stepT2 { Params.default with trigDivisor := .n } 16 4 = 0x4000#16 := by decide

/-! ## Witnesses: states and operands that meet the hypotheses of a statement -/

theorem afterInit_answers : afterInit.answers := ⟨by decide, by decide⟩

theorem afterInit_quiet : afterInit.quiet := ⟨rfl, rfl⟩

theorem bound5_answers : bound5.answers := ⟨by decide, by decide⟩

theorem motor_answers : motor.answers := ⟨by decide, by decide⟩

theorem stepper_answers : stepper.answers := ⟨by decide, by decide⟩

/-- The invariant holds with bridges and a slot configured. -/
theorem witness_Inv : Inv stepper where
  seqs := by
    intro q hq hc
    have h : q = { cfg := true, ph1 := .c1, ph2 := .c2, n := 4#16, idx := 0#16 } ∨ q = Seq.reset := by
      have hl : stepper.seqs = [{ cfg := true, ph1 := .c1, ph2 := .c2, n := 4#16, idx := 0#16 }, Seq.reset] := by decide
      rw [hl] at hq
      simpa using hq
    rcases h with rfl | rfl
    · exact ⟨by decide, by decide, by decide, by decide, by decide⟩
    · exact absurd hc (by decide)
  bridgeDuty := by intro k; cases k <;> decide
  bridgeOwns := by intro k; cases k <;> decide
  chDuty := by decide
  exclusive := by decide
  uninit := by intro h; exact absurd h (by decide)
  params := by decide
  devices := by decide
  changing := by decide

theorem witness_SampleWordsDecode : afterInit.phase = .ready := rfl

theorem witness_DecodeOfEncode :
    (Instr.regBurst 0x06#8 [1#8]).wellFormed = true ∧ (Instr.regBurst 0x06#8 [1#8, 2#8, 3#8, 4#8]).wellFormed = true := by
  decide

theorem witness_EncodeOfDecode : ∃ i, decode [0x31012000#32, 7#32] = .command i [7#32] := ⟨_, rfl⟩

theorem witness_IllegalCommandsAreExactlyThese_illegal :
    illegalWords 0x05000000#32 0#32 ∧ illegalWords 0x20050001#32 0#32 ∧ illegalWords 0x03000600#32 0#32 ∧
      illegalWords 0x03050600#32 0#32 ∧ illegalWords 0x03030600#32 0x01000000#32 ∧
      illegalWords 0x40000102#32 0x00010004#32 :=
  ⟨trivial, Or.inl (by decide), Or.inr (Or.inl ⟨rfl, Or.inl (by decide)⟩),
    Or.inr (Or.inl ⟨rfl, Or.inr (Or.inl (by decide))⟩),
    Or.inr (Or.inl ⟨rfl, Or.inr (Or.inr ⟨3, by decide, by decide, by decide⟩)⟩), Or.inr (Or.inr ⟨rfl, by decide⟩)⟩

theorem witness_IllegalCommandsAreExactlyThese_legal : ¬ illegalWords 0x30010000#32 0#32 := by
  show ¬ (0x30010000#32 &&& reservedZero .hbConfig ≠ 0#32 ∨ _)
  rintro (h | ⟨h, -⟩ | ⟨h, -⟩)
  · exact absurd h (by decide)
  · exact absurd h (by decide)
  · exact absurd h (by decide)

theorem witness_OpcodeRowsNeverOverlap :
    ∃ r ∈ opcodeMap, r.accepts 0x31012000#32 = true := ⟨⟨.hbSet, 0x31#8, 0x31000000#32, 0xFF000000#32⟩, by decide, by decide⟩

theorem witness_StepRunsTheDecodedCommand :
    decode (State.reset.consume [0x11000000#32]).inbox = .command .ctrlReset [] ∧
    decodeTableWord 32 0x11000000 = some .ctrlReset := by decide

theorem witness_IllegalCommandIsRefusedWithoutEffect :
    ∃ why, decode (State.reset.consume [0x00000000#32]).inbox = .illegal why [] := ⟨_, rfl⟩

theorem witness_IncompleteCommandWaits :
    decode State.reset.inbox = .incomplete ∧ State.reset.events = [] ∧
    decode (State.reset.consume [0x12000000#32]).inbox = .incomplete ∧
    ∃ s : State, decode s.inbox = .incomplete ∧ s.events = .word 0x00320000#32 :: [] ∧
      ∀ es : List HostEvent, s.events ≠ .blockReset :: es :=
  ⟨by decide, rfl, by decide, { State.reset with inbox := [0x12000000#32], events := [.word 0x00320000#32] },
    by decide, rfl, by intro es; simp⟩

/-- A group of another agent, and another block's frequency change, at this block's own address and elsewhere. -/
theorem witness_IncompleteCommandWaits_others :
    (∃ s : State, decode s.inbox = .incomplete ∧ s.events = [.foreign [{ frame := .read 0x60#7, reply := .reference }]]) ∧
    (∃ s : State, decode s.inbox = .incomplete ∧ s.events = [.peerChange 0x60#7 true] ∧ s.phase = .ready ∧ s.addr = 0x60#7) ∧
    ∃ s : State, decode s.inbox = .incomplete ∧ s.events = [.peerChange 0x61#7 true] ∧ s.addr ≠ 0x61#7 :=
  ⟨⟨{ afterInit with events := [.foreign [{ frame := .read 0x60#7, reply := .reference }]] }, by decide, rfl⟩,
    ⟨{ afterInit with events := [.peerChange 0x60#7 true] }, by decide, rfl, rfl, rfl⟩,
    { afterInit with events := [.peerChange 0x61#7 true] }, by decide, rfl, by decide⟩

/-- Also with a frequency change under way at another address. -/
theorem witness_BlockResetRestoresTheBlock :
    ∃ s : State, decode s.inbox = .incomplete ∧ s.events = .blockReset :: [] ∧ s.phase = .ready ∧ s.trace ≠ [] ∧
      s.changing = [0x61#7] ∧ s.addr ∉ s.changing :=
  ⟨{ after .ctrlReset stepper with inbox := [0x12000000#32], events := [.blockReset], changing := [0x61#7] },
    by decide, rfl, by decide, by decide, rfl, by decide⟩

theorem witness_ResetStateIsAsListed :
    powerOnRow 0x00 = some 0x11#8 ∧ powerOnRow 0x06 = some 0x00#8 ∧ powerOnRow 0x45 = some 0x10#8 ∧
      powerOnRow 0xFE = some 0x1E#8 := by decide

theorem witness_NotReadyBeforeInit :
    State.reset.phase = .uninit ∧ Instr.op .ctrlReset ≠ .ctrlInit ∧
    afterInit.phase = .ready ∧ Instr.op (.ctrlInit 0x60#7 0#32) = .ctrlInit := by decide

theorem witness_FirstFailedCheckIsReported :
    State.failedCheck motor (.seqConfig 2#8 0#8 1#8 3#16) = some .configurationError ∧
    State.failedCheck motor (.chDuty 8#8 0x2000#16) = some .resourceConflict := by decide

theorem witness_CommandsWithoutFailedCheckComplete :
    paramsOk stepper.params = true ∧ State.failedCheck stepper (.seqStep 0#8 3#2) = none ∧ stepper.answers ∧
    State.failedCheck State.reset (.ctrlInit 0x60#7 0x06400000#32) = none ∧ State.reset.answersAt 0x60#7 :=
  ⟨by decide, by decide, stepper_answers, by decide, by decide, by decide⟩

theorem witness_FailedChecksHaveNoEffect :
    ∃ t, exec (.hbSet 3#8 0x2000#16) motor = .next t ∧ t.responses = motor.responses ++ [0x06000000#32] ∧
      statusOf 0x06000000#32 ≠ 0#8 ∧ statusOf 0x06000000#32 ≠ 3#8 := ⟨_, rfl, by decide, by decide, by decide⟩

theorem witness_FailedChecksHaveNoEffect_illegal :
    ∃ why, decode (stepper.consume [0x41000004#32]).inbox = .illegal why [] := ⟨_, rfl⟩

theorem witness_FailedFrameEndsTheCommand :
    (∃ t, exec (.hbBrake 1#8) (State.failAt motor 3) = .next t ∧ t.responses = [0x03000000#32] ∧
      statusOf 0x03000000#32 = 3#8) ∧
    ∃ t, exec (.hbBrake 1#8) motor = .next t ∧ t.responses = [0x00000000#32] :=
  ⟨⟨_, rfl, by decide, by decide⟩, ⟨_, rfl, by decide⟩⟩

theorem witness_BusActivityIsAsListed :
    ∃ t, exec (.seqStep 0#8 1#2) stepper = .next t ∧ statusOf t.lastResponse = 0#8 ∧
      t.trace = stepper.trace ++ t.trace := ⟨_, rfl, by decide, by decide⟩

theorem witness_WriteFramesAreOfTheListedForms :
    ∃ t, exec (.ctrlFreq 0x00320000#32) afterInit = .next t ∧ t.trace = afterInit.trace ++ t.trace ∧
      wrote 0x60#7 0xFE#8 [0x79#8] ∈ t.trace.flatten := ⟨_, rfl, by decide, by decide⟩

theorem witness_TransportErrorLeavesThePartialEffects :
    ∃ t, exec (.seqStep 0#8 1#2) (State.failAt stepper 8) = .next t ∧ t.responses = [0x03000000#32] ∧
      t.trace = stepper.trace ++ t.trace ∧ t.trace.length = 3 := ⟨_, rfl, by decide, by decide, by decide⟩

/-- The same step failing in its fifth group, the first of phase 2. -/
theorem witness_TransportErrorLeavesThePartialEffects_phase2 :
    ∃ t, exec (.seqStep 0#8 1#2) (State.failAt stepper 13) = .next t ∧ t.responses = [0x03000000#32] ∧
      t.trace = stepper.trace ++ t.trace ∧ t.trace.length = 5 ∧ (t.bridge .c1).duty = 0xC000#16 ∧
      (t.bridge .c2).duty = 0x4000#16 ∧ t.duty 12 = 0x0000#16 ∧ t.duty 11 = 0x0000#16 :=
  ⟨_, rfl, by decide, by decide, by decide, by decide, by decide, by decide, by decide⟩

theorem witness_ReferenceBusAnswersItsDevices :
    Frame.dest (.read 0x60#7) = some 0x60#7 ∧ (findDevice afterInit.devices 0x60#7).isSome = true ∧
    findDevice afterInit.devices 0x61#7 = none := by decide

theorem witness_EveryAnswerAndEveryDrawIsPossible :
    Frame.dest (.write 0x60#7 0x00#8 []) = some 0x60#7 ∧ (findDevice afterInit.devices 0x60#7).isSome = true := by decide

theorem witness_WriteFrameFollowsThePointer :
    (∃ d : Device, d.mem.wf ∧ d.autoInc = false ∧ 1 ≤ (0x45#8).toNat ∧ (0x45#8).toNat ≤ 0x45 ∧ [1#8, 2#8] ≠ []) ∧
    (∃ d : Device, d.mem.wf ∧ d.autoInc = true ∧ 1 ≤ (0x42#8).toNat ∧ (0x42#8).toNat + fullOff.length ≤ 0xFA) ∧
    0xA0#8 &&& 0x20#8 ≠ 0#8 ∧ 0x80#8 &&& 0x20#8 = 0#8 :=
  ⟨⟨{ addr := 0x60#7, mem := [], ptr := 0#8 }, by decide, by decide, by decide, by decide, by decide⟩,
    ⟨{ addr := 0x60#7, mem := [(0x00, 0xA0#8)], ptr := 0#8 }, by decide, by decide, by decide, by decide⟩, by decide, by decide⟩

/-- The clauses of `WriteFrameFollowsThePointer` at the edges of their ranges, AI set: a run that ends at 0x45, one past it,
one that ends at 0xF9, and the wrap, by `frameAfter` and by the device. -/
theorem witness_WriteFrameFollowsThePointer_edges :
    ∀ d ∈ afterInit.devices,
      ((frameAfter d.reg 0x45#8 [1#8]).1 0x45#8, (frameAfter d.reg 0x45#8 [1#8]).2) = (1#8, 0x46#8) ∧
      ((frameAfter d.reg 0x45#8 [1#8, 2#8]).1 0x46#8, (frameAfter d.reg 0x45#8 [1#8, 2#8]).2) = (0#8, 0x47#8) ∧
      ((d.writeFrame 0xF9#8 [1#8]).reg 0xF9#8, (d.writeFrame 0xF9#8 [1#8]).ptr) = (0#8, 0xFA#8) ∧
      ((frameAfter d.reg 0xFF#8 [1#8, 2#8]).1 0x00#8, (frameAfter d.reg 0xFF#8 [1#8, 2#8]).2) = (2#8, 0x00#8) ∧
      ((d.writeFrame 0xFF#8 [1#8, 2#8]).reg 0x00#8, (d.writeFrame 0xFF#8 [1#8, 2#8]).ptr) = (2#8, 0x00#8) := by decide

theorem witness_ReadsAndRepeatedWritesChangeNothing : ∀ d ∈ afterInit.devices, d.mem.wf := by decide

/-- READY, a bus that answers, a quiet reference bus with a device in canonical form at the block's address: the
hypotheses of the statements about one command's result. -/
theorem witness_one_command (s : State) (h : s = afterInit ∨ s = bound5 ∨ s = motor ∨ s = stepper) :
    s.phase = .ready ∧ s.answers ∧ s.quiet ∧ ∃ d, findDevice s.devices s.addr = some d ∧ d.mem.wf := by
  rcases h with rfl | rfl | rfl | rfl
  · exact ⟨rfl, afterInit_answers, ⟨rfl, rfl⟩, _, rfl, by decide⟩
  · exact ⟨rfl, bound5_answers, ⟨rfl, rfl⟩, _, rfl, by decide⟩
  · exact ⟨rfl, motor_answers, ⟨rfl, rfl⟩, _, rfl, by decide⟩
  · exact ⟨rfl, stepper_answers, ⟨rfl, rfl⟩, _, rfl, by decide⟩

theorem witness_RegWrWritesOneRegister :
    afterInit.phase = .ready ∧ afterInit.answers ∧ afterInit.quiet ∧
      ∃ d, findDevice afterInit.devices afterInit.addr = some d ∧ d.mem.wf := witness_one_command _ (Or.inl rfl)

/-- The register classes of `RegWrWritesOneRegister` at their boundaries: what the device holds after the write. -/
theorem witness_RegWrWritesOneRegister_classes :
    (after (.regWr 0x45#8 0x77#8) afterInit).devices.map (fun d => d.reg 0x45#8) = [0x77#8] ∧
    (after (.regWr 0x46#8 0x77#8) afterInit).devices.map (fun d => d.reg 0x46#8) = [0x00#8] ∧
    (after (.regWr 0xF9#8 0x77#8) afterInit).devices.map (fun d => d.reg 0xF9#8) = [0x00#8] ∧
    (after (.regWr 0xFA#8 0x77#8) afterInit).devices.map (fun d => (d.reg 0x06#8, d.reg 0x42#8, d.reg 0x45#8)) =
      [(0x77#8, 0x77#8, 0x10#8)] ∧
    (after (.regWr 0xFD#8 0x77#8) afterInit).devices.map (fun d => (d.reg 0x09#8, d.reg 0x45#8, d.reg 0x06#8)) =
      [(0x77#8, 0x77#8, 0x00#8)] ∧
    (after (.regWr 0xFE#8 0x77#8) (after (.regWr 0x00#8 0x10#8) afterInit)).devices.map (fun d => d.reg 0xFE#8) = [0x77#8] ∧
    (after (.regWr 0xFF#8 0x77#8) afterInit).devices.map (fun d => d.reg 0xFF#8) = [0x00#8] := by decide

theorem witness_RegRdReturnsTheDeviceByte :
    afterInit.phase = .ready ∧ afterInit.answers ∧ afterInit.quiet ∧
      ∃ d, findDevice afterInit.devices afterInit.addr = some d ∧ d.mem.wf := witness_one_command _ (Or.inl rfl)

/-- The two read classes at their boundaries. -/
theorem witness_RegRdReturnsTheDeviceByte_classes :
    response (.regRd 0x45#8) afterInit = 0x00000010#32 ∧ response (.regRd 0x46#8) afterInit = 0x00000000#32 ∧
    response (.regRd 0xFD#8) afterInit = 0x00000000#32 ∧ response (.regRd 0xFE#8) afterInit = 0x00000003#32 ∧
    response (.regRd 0xFF#8) afterInit = 0x00000000#32 := by decide

theorem witness_RegBurstSetsAutoIncrement :
    (afterInit.phase = .ready ∧ afterInit.answers ∧ afterInit.quiet ∧
      ∃ d, findDevice afterInit.devices afterInit.addr = some d ∧ d.mem.wf) ∧
    1 ≤ fullOff.length ∧ fullOff.length ≤ 4 ∧ 1 ≤ (0x42#8).toNat ∧ (0x42#8).toNat + fullOff.length ≤ 0xFA ∧
    ∀ v ∈ [0x80#8, 0x01#8], v &&& 0x20#8 = 0#8 :=
  ⟨witness_one_command _ (Or.inl rfl), by decide⟩

/-- The corner cases of R154: what the device holds after a burst at MODE1 that clears AI, from 0x45 into 0x46, from
PRE_SCALE past 0xFF (asleep), and to ALL_LED. -/
theorem witness_RegBurstSetsAutoIncrement_corners :
    (after (.regBurst 0x00#8 [0x80#8, 0x01#8]) afterInit).devices.map (fun d => (d.reg 0x00#8, d.reg 0x01#8)) =
      [(0x01#8, 0x04#8)] ∧
    (after (.regBurst 0x45#8 [0x77#8, 0x66#8]) afterInit).devices.map (fun d => (d.reg 0x45#8, d.reg 0x46#8, d.ptr)) =
      [(0x77#8, 0x00#8, 0x47#8)] ∧
    (after (.regBurst 0xFE#8 [0x55#8, 0x66#8, 0x91#8]) (after (.regWr 0x00#8 0x10#8) afterInit)).devices.map
      (fun d => (d.reg 0xFE#8, d.reg 0x00#8, d.ptr)) = [(0x55#8, 0x91#8, 0x00#8)] ∧
    (after (.regBurst 0xFA#8 [1#8, 2#8, 3#8, 4#8]) afterInit).devices.map
      (fun d => (d.reg 0x06#8, d.reg 0x45#8, d.reg 0xFA#8, d.ptr)) = [(1#8, 4#8, 0x00#8, 0xFE#8)] := by decide

theorem witness_PrescaleIsRoundedHalfUp :
    prescale 1559455#32 = some 255#8 ∧ prescale 114285714#32 = some 3#8 := by decide

theorem witness_PatternGivesItsOutput :
    (0 < (0x0001#16).toInt ∧ (0x0001#16).toInt < 16384) ∧ (0 < (0x3FFF#16).toInt ∧ (0x3FFF#16).toInt < 16384) ∧
    16384 ≤ (0x4000#16).toInt ∧ (0x0000#16).toInt ≤ 0 ∧ (0xFFFF#16).toInt ≤ 0 := by decide

theorem witness_CtrlInitConstructsTheController :
    State.reset.phase = .uninit ∧ 0x60#7 ∉ State.reset.peers ∧ prescale 0x06400000#32 = some 3#8 ∧
    State.reset.answersAt 0x60#7 ∧ State.reset.quiet ∧ ∃ d, findDevice State.reset.devices 0x60#7 = some d ∧ d.mem.wf :=
  ⟨rfl, by decide, by decide, ⟨by decide, by decide⟩, ⟨rfl, rfl⟩, _, rfl, by decide⟩

theorem witness_CtrlResetForcesEveryChannelOff :
    stepper.phase = .ready ∧ stepper.answers ∧ stepper.quiet ∧
      ∃ d, findDevice stepper.devices stepper.addr = some d ∧ d.mem.wf :=
  witness_one_command _ (Or.inr (Or.inr (Or.inr rfl)))

theorem witness_CtrlFreqWritesThePrescale :
    (stepper.phase = .ready ∧ stepper.answers ∧ stepper.quiet ∧
      ∃ d, findDevice stepper.devices stepper.addr = some d ∧ d.mem.wf) ∧ prescale 0x00320000#32 = some 0x79#8 :=
  ⟨witness_one_command _ (Or.inr (Or.inr (Or.inr rfl))), by decide⟩

theorem witness_CtrlDutyWritesOneChannel :
    (motor.phase = .ready ∧ motor.answers ∧ motor.quiet ∧
      ∃ d, findDevice motor.devices motor.addr = some d ∧ d.mem.wf) ∧ (15#8).toNat < 16 :=
  ⟨witness_one_command _ (Or.inr (Or.inr (Or.inl rfl))), by decide⟩

/-- A device outside a frequency change, one inside, and no device; on a quiet reference bus, awake and outside. -/
theorem witness_OutputsFollowTheRegisters :
    findDevice afterInit.devices 0x61#7 = none ∧ (findDevice afterInit.devices 0x60#7).isSome = true ∧
    afterInit.addr ∉ afterInit.changing ∧ 0x60#7 ∈ (afterInit.openChange 0x60#7).changing ∧ afterInit.quiet ∧
    (∀ d ∈ afterInit.devices, d.mem.wf) ∧ afterInit.phase = .ready ∧
    (∃ t, exec (.ctrlFreq 0x00320000#32) (afterInit.openChange 0x60#7) = .next t ∧ statusOf t.lastResponse = 0#8) ∧
    (∃ t, exec (.ctrlInit 0x60#7 0x00320000#32) State.reset = .next t ∧ statusOf t.lastResponse = 0#8) ∧
    State.reset.quiet ∧ (∀ d ∈ State.reset.devices, d.mem.wf) ∧ (0#8).toNat < 16 :=
  ⟨by decide, by decide, by decide, by decide, afterInit_quiet, by decide, rfl, ⟨_, rfl, by decide⟩, ⟨_, rfl, by decide⟩,
    ⟨rfl, rfl⟩, by decide, by decide⟩

/-- A CTRL_FREQ that fails before, at and after the frame that sets SLEEP, and at and after the ALL_LED burst. -/
theorem witness_FrequencyChangesBeginAndEnd :
    ([1, 2, 3, 8, 9].map (fun n =>
      ((after (.ctrlFreq 0x00320000#32) (State.failAt afterInit n)).trace.map List.length,
        (after (.ctrlFreq 0x00320000#32) (State.failAt afterInit n)).changing))) =
      [([2], []), ([3], [0x60#7]), ([3, 1], [0x60#7]), ([3, 1, 1, 1, 4], [0x60#7]), ([3, 1, 1, 1, 4, 1], [])] ∧
    ∃ t, exec (.ctrlFreq 0x00320000#32) (State.failAt afterInit 3) = .next t ∧ t.trace = afterInit.trace ++ t.trace ∧
      t.trace.length = 2 :=
  ⟨by decide, _, rfl, by decide, by decide⟩

theorem witness_ChBindAndChReleaseTakeAndFreeAChannel :
    (afterInit.phase = .ready ∧ ∃ h : (15#8).toNat < 16, afterInit.entry ⟨(15#8).toNat, h⟩ = .free) ∧
    bound5.phase = .ready ∧ ∃ h : (5#8).toNat < 16, bound5.entry ⟨(5#8).toNat, h⟩ = .port :=
  ⟨⟨rfl, by decide, by decide⟩, rfl, by decide, by decide⟩

/-- A channel the port holds, on a quiet reference bus: for LINE_SET and LINE_GET. -/
theorem witness_port_channel :
    (bound5.phase = .ready ∧ bound5.answers ∧ bound5.quiet ∧
      ∃ d, findDevice bound5.devices bound5.addr = some d ∧ d.mem.wf) ∧
    ∃ h : (5#8).toNat < 16, bound5.entry ⟨(5#8).toNat, h⟩ = .port :=
  ⟨witness_one_command _ (Or.inr (Or.inl rfl)), by decide, by decide⟩

/-- With both ends of the duty range. -/
theorem witness_ChDutyStoresAndSendsTheDuty :
    ((bound5.phase = .ready ∧ bound5.answers ∧ bound5.quiet ∧
      ∃ d, findDevice bound5.devices bound5.addr = some d ∧ d.mem.wf) ∧
    ∃ h : (5#8).toNat < 16, bound5.entry ⟨(5#8).toNat, h⟩ = .port) ∧
    (0 ≤ (0x0000#16).toInt ∧ (0x0000#16).toInt ≤ 16384) ∧ 0 ≤ (0x4000#16).toInt ∧ (0x4000#16).toInt ≤ 16384 :=
  ⟨witness_port_channel, by decide⟩

theorem witness_HbConfigBindsThreeChannels :
    afterInit.phase = .ready ∧ Conn.ofByte 1#8 = some .c1 ∧ (afterInit.bridge .c1).cfg = false ∧ afterInit.entry (Conn.c1).in1 = .free ∧
    afterInit.entry (Conn.c1).in2 = .free ∧ afterInit.entry (Conn.c1).pwm = .free := by decide

/-- A configured bridge on a quiet reference bus: for HB_BRAKE, HB_RELEASE and HB_GET. -/
theorem witness_configured_bridge :
    (motor.phase = .ready ∧ motor.answers ∧ motor.quiet ∧
      ∃ d, findDevice motor.devices motor.addr = some d ∧ d.mem.wf) ∧
    Conn.ofByte 1#8 = some .c1 ∧ (motor.bridge .c1).cfg = true :=
  ⟨witness_one_command _ (Or.inr (Or.inr (Or.inl rfl))), by decide⟩

/-- With both ends of the duty range, of either polarity. -/
theorem witness_HbSetWritesLinesThenPower :
    ((motor.phase = .ready ∧ motor.answers ∧ motor.quiet ∧
      ∃ d, findDevice motor.devices motor.addr = some d ∧ d.mem.wf) ∧
    Conn.ofByte 1#8 = some .c1 ∧ (motor.bridge .c1).cfg = true) ∧
    (-16384 ≤ (0xC000#16).toInt ∧ (0xC000#16).toInt ≤ 16384) ∧ -16384 ≤ (0x4000#16).toInt ∧ (0x4000#16).toInt ≤ 16384 :=
  ⟨witness_configured_bridge, by decide⟩

theorem witness_BridgeDeviceStatesFollowTheTable :
    motor.phase = .ready ∧ motor.quiet ∧ Conn.ofByte 1#8 = some .c1 ∧ (motor.bridge .c1).cfg = true ∧
      ∃ d, findDevice motor.devices motor.addr = some d ∧ d.mem.wf ∧ d.bridgeTriple .c1 = (.low, .low, .low) :=
  ⟨rfl, ⟨rfl, rfl⟩, by decide, by decide, _, rfl, by decide, by decide⟩

theorem witness_OnlyBrakeRaisesBothLines :
    Inv stepper ∧ (∃ t, exec (.hbBrake 1#8) stepper = .next t ∧ t.bothHigh .c1 = true) ∧
    (stepper.bridge .c1).cfg = true ∧ stepper.bothHigh .c1 = false :=
  ⟨witness_Inv, ⟨_, rfl, by decide⟩, by decide, by decide⟩

theorem witness_TableEntriesAreDuties :
    paramsOk Params.default = true ∧ Params.default.trigQ = .rne ∧ 8 < 9 ∧ 65535 < 65536 ∧
      Params.default.trigDivisor = .nMinusOne := by decide

theorem witness_GeneratedTablesAreCosAndSin :
    Params.default.trigQ = .rne ∧ 8 < 9 ∧ 9 < 65536 ∧ 8 < 9 ∧ 8 = (match Params.default.trigDivisor with
      | .nMinusOne => 9 - 1
      | .n => 9) := by decide

theorem witness_SeqConfigConfiguresASlot :
    motor.phase = .ready ∧ (1#8).toNat < motor.nseq ∧ Conn.ofByte 1#8 = some .c1 ∧ Conn.ofByte 2#8 = some .c2 ∧ Conn.c1 ≠ Conn.c2 ∧
    (4#16).toNat = 4 ∧ (8#16).toNat = 8 ∧ 8 < (9#16).toNat ∧ (motor.seq 1).cfg = false ∧ (motor.bridge .c1).cfg = true ∧
    (motor.bridge .c2).cfg = true := by decide

/-- A configured slot on a quiet reference bus: for SEQ_STEP, SEQ_RELEASE, SEQ_GET, StepsArePeriodic and
WholeStepScenario. -/
theorem witness_configured_slot :
    (stepper.phase = .ready ∧ stepper.answers ∧ stepper.quiet ∧
      ∃ d, findDevice stepper.devices stepper.addr = some d ∧ d.mem.wf) ∧
    paramsOk stepper.params = true ∧ (0#8).toNat < stepper.nseq ∧ (stepper.seq 0).cfg = true ∧
    (stepper.seq 0).ph1 ≠ (stepper.seq 0).ph2 ∧ (stepper.seq 0).idx.toNat < (stepper.seq 0).n.toNat ∧
    (stepper.seq 0).n = 4#16 ∧ (stepper.seq 0).idx = 0#16 :=
  ⟨witness_one_command _ (Or.inr (Or.inr (Or.inr rfl))), by decide⟩

/-- The three directions from index 0 of that slot: the index after each, by R269. -/
theorem witness_SeqStepAdvancesThenWritesThePair :
    ∃ q, stepper.seq 0 = q ∧ 0 = q.idx.toNat ∧ 1 = (q.idx.toNat + 1) % q.n.toNat ∧
      3 = (q.idx.toNat + q.n.toNat - 1) % q.n.toNat := ⟨_, rfl, by decide⟩

theorem witness_StepKeepsInv :
    ∃ t, step (stepper.withFetchWord 32 0x41000001) = .next t ∧ t.trace ≠ [] := ⟨_, rfl, by decide⟩

theorem witness_FieldsChangeOnlyByTheirCommands :
    ∃ t, exec (.hbConfig 3#8) motor = .next t ∧ t.alloc ≠ motor.alloc ∧ t.chDuty = motor.chDuty ∧
      t.bridges ≠ motor.bridges := ⟨_, rfl, by decide, by decide, by decide⟩

theorem witness_OtherBlocksChannelsDoNotMatter :
    motor.params.allocScope = .perController ∧ ∃ t, exec (.chBind 0#8) motor = .next t := ⟨by decide, _, rfl⟩

theorem witness_OnlyTheAnswersMatter :
    ∃ s t : State, (∀ r ∈ s.replies, r ≠ .reference) ∧ 32 ≤ s.replies.length ∧ exec (.hbBrake 1#8) s = .next t :=
  ⟨{ motor with replies := List.replicate 32 (.answer 0xA0#8) }, _, by decide, by decide, rfl⟩

end Sys2Proof.Tests
end

section
/-! PROOF. HB_CONFIG: what its binding changes, and the statement about the connector map (`00_scope.md` R12,
`43_hbridge.md` R230 to R232). -/

namespace Sys2Proof.Machine

/-! ## Commands whose checks hold -/

/-- A command none of whose checks fails answers OK with what its effect returns. -/
theorem exec_of_checks_pass {i : Instr} {s t : State} {v : BitVec 16} (hc : s.failedCheck i = none)
    (ha : act i s = .ok v t) : exec i s = .next (t.respond .ok v) := by
  rw [exec_eq, hc, resultOf, ha, endCommand_ok]

/-- HB_CONFIG passes its checks on an unconfigured bridge whose three channels are free. -/
theorem failedCheck_hbConfig {s : State} {id : Byte} {k : Conn} (hr : s.phase = .ready)
    (hk : Conn.ofByte id = some k) (hcfg : (s.bridge k).cfg = false) (h1 : s.entry k.in1 = .free)
    (h2 : s.entry k.in2 = .free) (hp : s.entry k.pwm = .free) : s.failedCheck (.hbConfig id) = none := by
  have hid : (Conn.ofByte id).isSome = true := by rw [hk]; rfl
  have hunset : s.bridgeCfgAt id = false := by rw [bridgeCfgAt_eq s hid, conn_eq hk, hcfg]
  have hfree : s.connectorFree id = true := by simp [connectorFree_eq s hid, conn_eq hk, h1, h2, hp]
  rw [failedCheck_ready (Or.inr hr)]
  simp [State.checks, firstOf, hid, hunset, hfree]

/-! ## What binding a bridge changes -/

namespace State

variable (s : State) (k : Conn)

theorem bindBridge_rest :
    s.bindBridge k = { s with alloc := (s.bindBridge k).alloc, chDuty := (s.bindBridge k).chDuty,
                              bridges := (s.bindBridge k).bridges } := rfl

/-- Exactly the connector's three channels belong to the bridge. -/
theorem owner_bindBridge (c : Channel) :
    (s.bindBridge k).owner c = if c = k.in1 ∨ c = k.in2 ∨ c = k.pwm then .bridge k else s.owner c := by
  simp only [bindBridge, Conn.channels, List.foldl_cons, List.foldl_nil, owner_setBridge, owner_setDuty, owner_setOwner]
  split_ifs <;> tauto

/-- Exactly the connector's three channels go to duty 0. -/
theorem duty_bindBridge (c : Channel) :
    (s.bindBridge k).duty c = if c = k.in1 ∨ c = k.in2 ∨ c = k.pwm then 0#16 else s.duty c := by
  simp only [bindBridge, Conn.channels, List.foldl_cons, List.foldl_nil, duty_setBridge, duty_setOwner, duty_setDuty]
  split_ifs <;> tauto

theorem bridge_bindBridge (k' : Conn) :
    (s.bindBridge k).bridge k' = if k' = k then { cfg := true, duty := 0#16 } else s.bridge k' := by
  simp only [bindBridge, Conn.channels, List.foldl_cons, List.foldl_nil, bridge_setBridge, bridge_setDuty,
    bridge_setOwner]

end State

/-! ## The statement -/

/-- Settles O41: the checks pass, so the effect runs, and that effect is `State.bindBridge`. -/
theorem hbConfigBindsThreeChannels : Obligations.HbConfigBindsThreeChannels := by
  unfold Obligations.HbConfigBindsThreeChannels
  intro s id k hr hk hcfg h1 h2 hp
  have hact : act (.hbConfig id) s = .ok 0#16 (s.bindBridge k) := by simp [act, conn_eq hk]
  refine ⟨s.bindBridge k, exec_of_checks_pass (failedCheck_hbConfig hr hk hcfg h1 h2 hp) hact, s.bindBridge_rest k,
    s.owner_bindBridge k, s.duty_bindBridge k, s.bridge_bindBridge k, ?_⟩
  cases k <;> rfl

end Sys2Proof.Machine
end

section
/-! PROOF. The state a command leaves behind: one rule for each shared operation, for every relation between the states
before and after that bus traffic keeps. The statements about what commands leave unchanged (`10_state.md` R34 to R38, R48)
go through it. -/

namespace Sys2Proof.Machine

variable {α β : Type}

/-! ## The last state of a body -/

/-- The state a body ends in, whether it returns or raises (`60_exceptions.md` R306). -/
def Cmd.final (c : Cmd α) (s : State) : State :=
  match c s with
  | .ok _ t => t
  | .error _ t => t

theorem Cmd.final_ok {c : Cmd α} {s t : State} {v : α} (h : c s = .ok v t) : c.final s = t := by rw [Cmd.final, h]

theorem Cmd.final_error {c : Cmd α} {s t : State} {e : Status} (h : c s = .error e t) : c.final s = t := by
  rw [Cmd.final, h]

theorem Cmd.Keeps.final {R : State → State → Prop} {c : Cmd α} (h : Cmd.Keeps R c) (s : State) : R s (c.final s) := by
  have hs := h s
  unfold Cmd.final
  cases hc : c s <;> simpa [hc] using hs

theorem Cmd.keeps_of_final {R : State → State → Prop} {c : Cmd α} (h : ∀ s, R s (c.final s)) : Cmd.Keeps R c := by
  intro s
  have hs := h s
  unfold Cmd.final at hs
  cases hc : c s <;> simpa [hc] using hs

/-- A write of block fields at the head of a body. -/
theorem Cmd.final_update (f : State → State) (c : Cmd α) (s : State) : (update f >>= fun _ => c).final s = c.final (f s) :=
  rfl

theorem Cmd.final_get (f : State → Cmd α) (s : State) : (get >>= f : Cmd α).final s = (f s).final s := rfl

/-- A command ends where it began, by a failed check, or where its effect ended; then it responds. -/
theorem exec_final {i : Instr} {s t : State} (h : exec i s = .next t) :
    ∃ e v, t = s.respond e v ∨ (s.failedCheck i = none ∧ t = ((act i).final s).respond e v) := by
  obtain ⟨u, e, v, hu, -, hcase⟩ := exec_next i s
  obtain rfl : u.respond e v = t := by simpa [hu] using h
  refine ⟨e, v, ?_⟩
  rcases hcase with ⟨-, rfl⟩ | ⟨hc, ⟨ha, -⟩ | ha⟩
  · exact .inl rfl
  · exact .inr ⟨hc, by rw [Cmd.final_ok ha]⟩
  · exact .inr ⟨hc, by rw [Cmd.final_error ha]⟩

/-- What holds of a command's effect holds of the command, when responses do not matter to it. -/
theorem exec_related {R : State → State → Prop} {i : Instr} {s t : State} (h : exec i s = .next t) (hrefl : R s s)
    (hresp : ∀ u e v, R s u → R s (u.respond e v)) (hact : s.failedCheck i = none → R s ((act i).final s)) : R s t := by
  obtain ⟨e, v, rfl | ⟨hc, rfl⟩⟩ := exec_final h
  · exact hresp _ _ _ hrefl
  · exact hresp _ _ _ (hact hc)

/-! ## Relations that bus traffic keeps -/

/-- A preorder on states that contains every effect of bus traffic. -/
structure BusRel (R : State → State → Prop) : Prop where
  refl : ∀ s, R s s
  trans : ∀ a b c, R a b → R b c → R a c
  bus : ∀ {s t gs}, BusEffect s t gs → R s t

namespace BusRel

variable {R : State → State → Prop} (hR : BusRel R)
include hR

theorem bind {x : Cmd α} {f : α → Cmd β} (hx : Cmd.Keeps R x) (hf : ∀ a, Cmd.Keeps R (f a)) : Cmd.Keeps R (x >>= f) :=
  Cmd.Keeps.bind hR.trans hx hf

theorem pure (a : α) : Cmd.Keeps R (Pure.pure a : Cmd α) := Cmd.Keeps.pure hR.refl a

/-- A body with a data result after it. -/
theorem andReturn {x : Cmd β} (hx : Cmd.Keeps R x) (f : β → α) : Cmd.Keeps R (x >>= fun b => Pure.pure (f b)) :=
  hR.bind hx fun b => hR.pure (f b)

theorem group {c : Cmd α} {S : Addr → α → Group → Prop} (h : GroupSpec c S) : Cmd.Keeps R c := by
  intro s
  obtain ⟨t, g, ht, -, ⟨v, hv, -⟩ | ⟨he, -⟩⟩ := h s
  · rw [hv]; exact hR.bus ht
  · rw [he]; exact hR.bus ht

/-- R209: the stored duty is in [0, ONE], or nothing is written. -/
theorem setDuty {ch : Channel} {d : Duty} (h : inUnit d = true → ∀ s, R s (s.setDuty ch d)) :
    Cmd.Keeps R (setDuty ch d) := by
  cases hd : inUnit d with
  | false => exact fun s => by simpa [Machine.setDuty, hd] using hR.refl s
  | true =>
    exact hR.bind (Cmd.Keeps.check hR.refl _ _) fun _ => hR.bind (Cmd.Keeps.update (h hd)) fun _ =>
      hR.group (busBurst_spec _ _)

/-- R210. -/
theorem setLine {ch : Channel} {b : Bool} (h : ∀ s, R s (s.setDuty ch (lineDuty b))) : Cmd.Keeps R (setLine ch b) :=
  hR.setDuty fun _ => h

/-- BridgeSet, from what it may do to its direction lines, its power line and its stored duty (R234). -/
theorem bridgeSet {k : Conn} {d : Duty} (hb : ∀ s, R s (s.setBridgeDuty k d))
    (hp : ∀ d', inUnit d' = true → ∀ s, R s (s.setDuty k.pwm d')) (hl : ∀ f, Cmd.Keeps R (setDirection k f)) :
    Cmd.Keeps R (bridgeSet k d) :=
  hR.bind (Cmd.Keeps.get hR.refl) fun _ => hR.bind (Cmd.Keeps.update hb) fun _ =>
    hR.bind (Cmd.Keeps.onlyIf hR.refl _ (hR.setDuty (hp _))) fun _ => hR.bind (hl _) fun _ => hR.setDuty (hp _)

theorem setDirection {k : Conn} {forward : Bool} (h1 : ∀ b s, R s (s.setDuty k.in1 (lineDuty b)))
    (h2 : ∀ b s, R s (s.setDuty k.in2 (lineDuty b))) : Cmd.Keeps R (setDirection k forward) := by
  cases forward
  · exact hR.bind (hR.setLine (h1 _)) fun _ => hR.setLine (h2 _)
  · exact hR.bind (hR.setLine (h2 _)) fun _ => hR.setLine (h1 _)

/-- ResetSeq touches the bus and the record of frequency changes (R170, R353). -/
theorem resetSeq (hclose : ∀ s a, R s (s.closeChange a)) : Cmd.Keeps R resetSeq := by
  refine Cmd.keeps_of_final fun s => ?_
  obtain ⟨t, gs, ht, -, hrun⟩ := resetSeq_run s
  rw [hrun.elim (fun h => Cmd.final_ok h.1) (fun h => Cmd.final_error h.1)]
  split at ht
  · exact hR.trans _ _ _ (hclose s _) (hR.bus ht)
  · exact hR.bus ht

/-- The frame that sets SLEEP (R77, R353). -/
theorem setSleep (hopen : ∀ s a, R s (s.openChange a)) (reg mask : Byte) :
    Cmd.Keeps R (busSetBits reg mask (fun s => s.openChange s.addr)) := by
  refine Cmd.keeps_of_final fun s => ?_
  obtain ⟨t, g, ht, -, -, hrun⟩ := busSetBits_open reg mask s
  rw [hrun.elim (fun h => Cmd.final_ok h.1) (fun h => Cmd.final_error h.1)]
  split at ht
  · exact hR.trans _ _ _ (hopen s _) (hR.bus ht)
  · exact hR.bus ht

theorem freqSeq (hopen : ∀ s a, R s (s.openChange a)) (hclose : ∀ s a, R s (s.closeChange a)) (p : Byte) :
    Cmd.Keeps R (freqSeq p) :=
  hR.bind (hR.setSleep hopen _ _) fun _ => hR.bind (hR.group (busWrite1_spec _ _)) fun _ => hR.resetSeq hclose

/-! ## Each command's effect, from the writes it may make -/

theorem act_regWr (reg v : Byte) : Cmd.Keeps R (act (.regWr reg v)) := hR.andReturn (hR.group (busWrite1_spec reg v)) _

theorem act_regRd (reg : Byte) : Cmd.Keeps R (act (.regRd reg)) := hR.andReturn (hR.group (busRead1_spec reg)) _

theorem act_regBurst (reg : Byte) (data : List Byte) : Cmd.Keeps R (act (.regBurst reg data)) :=
  hR.andReturn (hR.group (busBurst_spec reg data)) _

theorem act_ctrlInit {addr : Addr} (haddr : ∀ s, R s { s with addr := addr })
    (hphase : ∀ s, R s { s with phase := .ready }) (hopen : ∀ s a, R s (s.openChange a))
    (hclose : ∀ s a, R s (s.closeChange a)) (hz : Word) : Cmd.Keeps R (act (.ctrlInit addr hz)) :=
  hR.bind (Cmd.Keeps.update haddr) fun _ => hR.bind (hR.resetSeq hclose) fun _ =>
    hR.bind (hR.freqSeq hopen hclose _) fun _ => hR.andReturn (Cmd.Keeps.update hphase) _

theorem act_ctrlReset (hclose : ∀ s a, R s (s.closeChange a)) : Cmd.Keeps R (act .ctrlReset) :=
  hR.andReturn (hR.resetSeq hclose) _

theorem act_ctrlFreq (hopen : ∀ s a, R s (s.openChange a)) (hclose : ∀ s a, R s (s.closeChange a)) (hz : Word) :
    Cmd.Keeps R (act (.ctrlFreq hz)) := hR.andReturn (hR.freqSeq hopen hclose _) _

theorem act_ctrlDuty (id : Byte) (d : Duty) : Cmd.Keeps R (act (.ctrlDuty id d)) :=
  hR.andReturn (hR.group (busBurst_spec _ _)) _

theorem act_chDuty {id : Byte} {d : Duty} (h : inUnit d = true → ∀ s, R s (s.setDuty (chan id) d)) :
    Cmd.Keeps R (act (.chDuty id d)) := hR.andReturn (hR.setDuty h) _

theorem act_lineSet {id : Byte} {b : Bool} (h : ∀ s, R s (s.setDuty (chan id) (lineDuty b))) :
    Cmd.Keeps R (act (.lineSet id b)) := hR.andReturn (hR.setLine h) _

theorem act_hbSet {id : Byte} {d : Duty} (h : Cmd.Keeps R (Machine.bridgeSet (conn id) d)) :
    Cmd.Keeps R (act (.hbSet id d)) := hR.andReturn h _

theorem act_hbBrake {id : Byte} (h1 : ∀ s, R s (s.setDuty (conn id).in1 (lineDuty true)))
    (h2 : ∀ s, R s (s.setDuty (conn id).in2 (lineDuty true))) : Cmd.Keeps R (act (.hbBrake id)) :=
  hR.bind (hR.setLine h1) fun _ => hR.andReturn (hR.setLine h2) _

theorem act_hbRelease {id : Byte} (h : ∀ s, ∀ c ∈ (conn id).channels, R s (s.setDuty c 0#16)) :
    Cmd.Keeps R (act (.hbRelease id)) :=
  hR.bind (hR.setDuty fun _ s => h s _ (by simp [Conn.channels])) fun _ =>
    hR.bind (hR.setLine fun s => h s _ (by simp [Conn.channels])) fun _ =>
      hR.andReturn (hR.setLine fun s => h s _ (by simp [Conn.channels])) _

/-- SEQ_STEP from any state; the table entries are those of the state after the index has advanced (R270). -/
theorem act_seqStep {id : Byte} {dir : BitVec 2} {s : State}
    (hseq : R s (s.setSeq id.toNat ((s.seq id.toNat).advance ((Dir.ofBits dir).getD .hold))))
    (h : ∀ k n j, Cmd.Keeps R (Machine.bridgeSet k (stepT1 s.params n j)) ∧
      Cmd.Keeps R (Machine.bridgeSet k (stepT2 s.params n j))) : R s ((act (.seqStep id dir)).final s) := by
  rw [act, Cmd.final_update, Cmd.final_get, State.setSeq_params]
  exact hR.trans _ _ _ hseq (Cmd.Keeps.final (hR.bind (h _ _ _).1 fun _ => hR.andReturn (h _ _ _).2 _) _)

theorem act_seqRelease (h : ∀ k, Cmd.Keeps R (Machine.bridgeSet k 0#16)) (id : Byte) :
    Cmd.Keeps R (act (.seqRelease id)) :=
  hR.bind (Cmd.Keeps.get hR.refl) fun _ => hR.bind (h _) fun _ => hR.andReturn (h _) _

end BusRel

end Sys2Proof.Machine
end

section
/-! PROOF. Only HB_BRAKE makes both stored direction lines of a bridge high (`10_state.md` R48 item 5, `43_hbridge.md`
R236, R239). -/

namespace Sys2Proof.Machine

/-! ## Channels and lines -/

theorem Conn.mem_channels {k : Conn} {c : Channel} : c ∈ k.channels ↔ c = k.in1 ∨ c = k.in2 ∨ c = k.pwm := by
  simp [Conn.channels]

theorem Conn.in1_mem (k : Conn) : k.in1 ∈ k.channels := by simp [Conn.channels]

theorem Conn.in2_mem (k : Conn) : k.in2 ∈ k.channels := by simp [Conn.channels]

theorem Conn.pwm_mem (k : Conn) : k.pwm ∈ k.channels := by simp [Conn.channels]

/-- R12: no channel is on two connectors. -/
theorem Conn.eq_of_mem_channels {j k : Conn} {c : Channel} (hj : c ∈ j.channels) (hk : c ∈ k.channels) : j = k := by
  revert hj hk; revert c; cases j <;> cases k <;> decide

theorem Conn.in1_ne_in2 (k : Conn) : k.in1 ≠ k.in2 := by cases k <;> decide

theorem Conn.pwm_ne_lines (k : Conn) : k.pwm ≠ k.in1 ∧ k.pwm ≠ k.in2 := by cases k <;> decide

theorem bothHigh_iff (s : State) (k : Conn) :
    s.bothHigh k = true ↔ lineState (s.duty k.in1) = true ∧ lineState (s.duty k.in2) = true := by
  simp [State.bothHigh]

/-- A stored duty of another channel than the two lines does not touch them. -/
theorem bothHigh_setDuty_other {s : State} {k : Conn} {c : Channel} (d : Duty) (h1 : c ≠ k.in1) (h2 : c ≠ k.in2) :
    (s.setDuty c d).bothHigh k = s.bothHigh k := by
  simp [State.bothHigh, State.duty_setDuty, h1.symm, h2.symm]

/-! ## What leaves the lines no higher -/

/-- Both lines of bridge `k` are high after only if they were before. -/
def NotRaised (k : Conn) (s t : State) : Prop := t.bothHigh k = true → s.bothHigh k = true

/-- A line that is high after was high before. -/
theorem notRaised_of_lines {k : Conn} {s t : State}
    (h : ∀ c, lineState (t.duty c) = true → lineState (s.duty c) = true) : NotRaised k s t := fun hb =>
  have ⟨h1, h2⟩ := (bothHigh_iff t k).mp hb
  (bothHigh_iff s k).mpr ⟨h _ h1, h _ h2⟩

theorem notRaised_of_duty {k : Conn} {s t : State} (h : ∀ c, t.duty c = s.duty c) : NotRaised k s t :=
  notRaised_of_lines fun c hc => h c ▸ hc

theorem notRaised_busRel (k : Conn) : BusRel (NotRaised k) where
  refl _ := id
  trans _ _ _ h1 h2 := fun h => h1 (h2 h)
  bus h := notRaised_of_duty h.duty

theorem notRaised_setDuty_other {k : Conn} {c : Channel} (h1 : c ≠ k.in1) (h2 : c ≠ k.in2) (d : Duty) (s : State) :
    NotRaised k s (s.setDuty c d) := by
  rw [NotRaised, bothHigh_setDuty_other d h1 h2]
  exact id

theorem notRaised_setDuty_low {k : Conn} {c : Channel} {d : Duty} (hd : lineState d = false) (s : State) :
    NotRaised k s (s.setDuty c d) :=
  notRaised_of_lines fun c' h => by
    rw [State.duty_setDuty] at h
    split at h
    · simp [hd] at h
    · exact h

/-- No channel of a connector is a line of another. -/
theorem notRaised_setDuty_connector {j k : Conn} (hjk : j ≠ k) {c : Channel} (hc : c ∈ j.channels) (d : Duty)
    (s : State) : NotRaised k s (s.setDuty c d) :=
  notRaised_setDuty_other (fun e => hjk (Conn.eq_of_mem_channels (e ▸ hc) k.in1_mem))
    (fun e => hjk (Conn.eq_of_mem_channels (e ▸ hc) k.in2_mem)) d s

/-- One line goes low before another goes high: while the first is low, the two are not high together. -/
theorem notRaised_lowThenHigh {k : Conn} {c1 c2 : Channel} (hne : c1 ≠ c2)
    (hc1 : ∀ s : State, lineState (s.duty c1) = false → s.bothHigh k = false) :
    Cmd.Keeps (NotRaised k) (do setLine c1 false; setLine c2 true) := by
  have low : lineState (lineDuty false) = false := by decide
  refine Cmd.keeps_of_final fun s => ?_
  obtain ⟨t, gs, ht, hrun⟩ := (DutyRun.setLine c1 false).append (DutyRun.setLine c2 true) s
  rw [hrun.elim (fun h => Cmd.final_ok h.1) (fun h => Cmd.final_error h.1)]
  refine (notRaised_busRel k).trans _ _ _ ?_ ((notRaised_busRel k).bus ht)
  match gs with
  | [] => exact id
  | [_] => exact notRaised_setDuty_low low s
  | _ :: _ :: _ =>
    intro h
    rw [hc1] at h
    · exact absurd h (by simp)
    · simp [State.applyDuties, State.duty_setDuty, hne, low]

/-- R234: the line of the other direction goes low before this direction's goes high. -/
theorem notRaised_setDirection_same (k : Conn) (f : Bool) : Cmd.Keeps (NotRaised k) (setDirection k f) := by
  cases f
  · exact notRaised_lowThenHigh k.in1_ne_in2 fun s h => by simp [State.bothHigh, h]
  · exact notRaised_lowThenHigh k.in1_ne_in2.symm fun s h => by simp [State.bothHigh, h]

/-- BridgeSet, of this bridge or another, with any duty. -/
theorem notRaised_bridgeSet (j k : Conn) (d : Duty) : Cmd.Keeps (NotRaised k) (bridgeSet j d) := by
  refine (notRaised_busRel k).bridgeSet (fun _ => id) (fun d' _ s => ?_) (fun f => ?_)
  · by_cases hjk : j = k
    · subst hjk
      exact notRaised_setDuty_other j.pwm_ne_lines.1 j.pwm_ne_lines.2 d' s
    · exact notRaised_setDuty_connector hjk j.pwm_mem d' s
  · by_cases hjk : j = k
    · subst hjk
      exact notRaised_setDirection_same j f
    · exact (notRaised_busRel k).setDirection (fun _ => notRaised_setDuty_connector hjk j.in1_mem _)
        (fun _ => notRaised_setDuty_connector hjk j.in2_mem _)

/-- A channel the port holds is no line of a configured bridge (R48 item 3). -/
theorem port_ne_lines {s : State} (hI : Inv s) {k : Conn} (hk : (s.bridge k).cfg = true) {c : Channel}
    (hc : s.entry c = .port) : c ≠ k.in1 ∧ c ≠ k.in2 := by
  have hport := ((State.entry_port_iff s c).mp hc).2
  have hne : ∀ c' ∈ k.channels, c ≠ c' := by
    rintro c' hc' rfl
    rw [(hI.bridgeOwns k c hc').mp hk] at hport
    exact absurd hport (by simp)
  exact ⟨hne _ k.in1_mem, hne _ k.in2_mem⟩

/-- The checks of a command on a channel of the port. -/
theorem entry_port_of_checks {s : State} {id : Byte} (h1 : id.toNat < 16) (h2 : (s.entryAt id == some .port) = true) :
    s.entry (chan id) = .port := by
  rw [entryAt_eq s h1] at h2
  simpa using h2

/-! ## Every command -/

theorem notRaised_openChange (k : Conn) (s : State) (a : Addr) : NotRaised k s (s.openChange a) :=
  notRaised_of_duty fun _ => rfl

theorem notRaised_bindBridge (j k : Conn) (s : State) : NotRaised k s (s.bindBridge j) :=
  notRaised_of_lines fun c h => by
    rw [State.duty_bindBridge] at h
    split at h
    · exact absurd h (by decide)
    · exact h

theorem notRaised_act {i : Instr} {s : State} {k : Conn} (hI : Inv s) (hk : (s.bridge k).cfg = true)
    (hc : s.failedCheck i = none) (hb : ∀ id, i = .hbBrake id → Conn.ofByte id ≠ some k) :
    NotRaised k s ((act i).final s) := by
  have hR := notRaised_busRel k
  have hpass := checks_pass hc
  have low0 : lineState 0#16 = false := by decide
  have portOf : ∀ id : Byte, id.toNat < 16 → (s.entryAt id == some .port) = true →
      ∀ d u, NotRaised k u (u.setDuty (chan id) d) := fun id h1 h2 d u =>
    have h := port_ne_lines hI hk (entry_port_of_checks h1 h2)
    notRaised_setDuty_other h.1 h.2 d u
  cases i with
  | regWr reg v => exact (hR.act_regWr reg v).final s
  | regRd reg => exact (hR.act_regRd reg).final s
  | regBurst reg data => exact (hR.act_regBurst reg data).final s
  | ctrlInit addr hz =>
    exact (hR.act_ctrlInit (fun _ => id) (fun _ => id) (notRaised_openChange k) (fun _ _ => id) hz).final s
  | ctrlReset => exact (hR.act_ctrlReset fun _ _ => id).final s
  | ctrlFreq hz => exact (hR.act_ctrlFreq (notRaised_openChange k) (fun _ _ => id) hz).final s
  | ctrlDuty id d => exact (hR.act_ctrlDuty id d).final s
  | chBind id => exact notRaised_setDuty_low low0 _
  | chRelease id => exact fun h => h
  | chDuty id d =>
    simp only [State.checks, List.forall_mem_cons, decide_eq_true_eq] at hpass
    obtain ⟨hid, -, -, hport, -⟩ := hpass
    exact (hR.act_chDuty fun _ => portOf id hid hport d).final s
  | lineSet id b =>
    simp only [State.checks, List.forall_mem_cons, decide_eq_true_eq] at hpass
    obtain ⟨hid, -, hport, -⟩ := hpass
    exact (hR.act_lineSet (portOf id hid hport _)).final s
  | lineGet id => exact fun h => h
  | hbConfig id => exact notRaised_bindBridge (conn id) k s
  | hbSet id d => exact (hR.act_hbSet (notRaised_bridgeSet _ k d)).final s
  | hbBrake id =>
    simp only [State.checks, List.forall_mem_cons] at hpass
    have hne : conn id ≠ k := fun e => hb id rfl (by rw [conn_some hpass.1, e])
    exact (hR.act_hbBrake (notRaised_setDuty_connector hne (conn id).in1_mem _)
      (notRaised_setDuty_connector hne (conn id).in2_mem _)).final s
  | hbRelease id => exact (hR.act_hbRelease fun u _ _ => notRaised_setDuty_low low0 u).final s
  | hbGet id => exact fun h => h
  | seqConfig id bra brb n => exact fun h => h
  | seqStep id dir =>
    exact hR.act_seqStep (notRaised_of_duty fun _ => rfl)
      fun _ _ _ => ⟨notRaised_bridgeSet _ k _, notRaised_bridgeSet _ k _⟩
  | seqRelease id => exact (hR.act_seqRelease (fun j => notRaised_bridgeSet j k _) id).final s
  | seqGet id => exact fun h => h

/-- Settles O46: every command but the bridge's HB_BRAKE leaves its two lines no higher than they were. -/
theorem onlyBrakeRaisesBothLines : Obligations.OnlyBrakeRaisesBothLines := by
  unfold Obligations.OnlyBrakeRaisesBothLines
  intro i s t k hI hex hk hbefore hafter
  by_contra hno
  push Not at hno
  have h : NotRaised k s t := exec_related hex id (fun u e v h => h) fun hc => notRaised_act hI hk hc hno
  simp [h hafter] at hbefore

end Sys2Proof.Machine
end

section
/-! PROOF. The invariant holds at reset, and every step keeps it (`10_state.md` R34, R48). -/

namespace Sys2Proof.Machine

/-! ## The invariant over single writes -/

theorem SeqOk.of_bridges {s t : State} {q : Seq} (h : SeqOk s q)
    (hb : ∀ k, (s.bridge k).cfg = true → (t.bridge k).cfg = true) : SeqOk t q :=
  ⟨h.phases, hb _ h.bridge1, hb _ h.bridge2, h.size, h.index⟩

namespace Inv

variable {s t : State}

/-- Outside the block's own record the invariant asks for little: the channels other blocks hold stay those or fewer, the
devices stay canonical, no frequency change is listed twice. -/
theorem of_sameBlock (h : Inv s) (hphase : t.phase = .uninit → s.phase = .uninit) (halloc : t.alloc = s.alloc)
    (hduty : t.chDuty = s.chDuty) (hbridges : t.bridges = s.bridges) (hseqs : t.seqs = s.seqs)
    (hparams : t.params = s.params) (hheld : ∀ c : Channel, s.heldElsewhere[c] = false → t.heldElsewhere[c] = false)
    (hdev : ∀ d ∈ t.devices, d.mem.wf) (hch : t.changing.Nodup) : Inv t := by
  have ho : ∀ c, t.owner c = s.owner c := fun c => by rw [State.owner, State.owner, halloc]
  have hd : ∀ c, t.duty c = s.duty c := fun c => by rw [State.duty, State.duty, hduty]
  have hb : ∀ k, t.bridge k = s.bridge k := fun k => by rw [State.bridge, State.bridge, hbridges]
  exact
    { seqs := fun q hq hcfg => (h.seqs q (hseqs ▸ hq) hcfg).of_bridges fun k hk => by rw [hb]; exact hk
      bridgeDuty := fun k => by rw [hb]; exact h.bridgeDuty k
      bridgeOwns := fun k c hc => by rw [hb, ho]; exact h.bridgeOwns k c hc
      chDuty := fun c => by rw [ho, hd]; exact h.chDuty c
      exclusive := fun hg c hc => hheld c (h.exclusive (hparams ▸ hg) c (ho c ▸ hc))
      uninit := fun hp => by simpa only [ho, hb, hseqs] using h.uninit (hphase hp)
      params := hparams ▸ h.params
      devices := hdev
      changing := hch }

theorem bus (h : Inv s) {gs : List Group} (e : BusEffect s t gs) : Inv t :=
  h.of_sameBlock (fun hp => e.phase ▸ hp) e.alloc e.chDuty e.bridges e.seqs e.params (fun c hc => by rw [e.held]; exact hc)
    (e.wf h.devices) (e.changing ▸ h.changing)

theorem respond (h : Inv s) (e : Status) (v : BitVec 16) : Inv (s.respond e v) :=
  h.of_sameBlock id rfl rfl rfl rfl rfl (fun _ => id) h.devices h.changing

theorem consume (h : Inv s) (rest : List Word) : Inv (s.consume rest) :=
  h.of_sameBlock id rfl rfl rfl rfl rfl (fun _ => id) h.devices h.changing

theorem setAddr (h : Inv s) (a : Addr) : Inv { s with addr := a } :=
  h.of_sameBlock id rfl rfl rfl rfl rfl (fun _ => id) h.devices h.changing

theorem setReady (h : Inv s) : Inv { s with phase := .ready } :=
  h.of_sameBlock (fun hp => by simp at hp) rfl rfl rfl rfl rfl (fun _ => id) h.devices h.changing

theorem openChange (h : Inv s) (a : Addr) : Inv (s.openChange a) :=
  h.of_sameBlock id rfl rfl rfl rfl rfl (fun _ => id) h.devices (State.openChange_nodup h.changing a)

theorem closeChange (h : Inv s) (a : Addr) : Inv (s.closeChange a) :=
  h.of_sameBlock id rfl rfl rfl rfl rfl (fun _ => id) h.devices (State.closeChange_nodup h.changing a)

/-- A stored duty in [0, ONE], of an owned channel or a free one. -/
theorem setDuty (h : Inv s) (ch : Channel) {d : Duty} (hd : inUnit d = true) : Inv (s.setDuty ch d) :=
  { h with
    seqs := fun q hq hcfg => (h.seqs q hq hcfg).of_bridges fun _ => id
    chDuty := fun c hc => by
      rw [State.duty_setDuty]
      split
      · exact hd
      · exact h.chDuty c hc }

theorem setBridgeDuty (h : Inv s) (k : Conn) {d : Duty} (hd : inSigned d = true) : Inv (s.setBridgeDuty k d) := by
  have hcfg : ∀ j, ((s.setBridgeDuty k d).bridge j).cfg = (s.bridge j).cfg := fun j => by
    rw [State.bridge_setBridgeDuty]
    split
    · next e => rw [e]
    · rfl
  exact
    { seqs := fun q hq hc => (h.seqs q hq hc).of_bridges fun j hj => by rw [hcfg]; exact hj
      bridgeDuty := fun j hj => by
        rw [hcfg] at hj
        rw [State.bridge_setBridgeDuty]
        split
        · exact hd
        · exact h.bridgeDuty j hj
      bridgeOwns := fun j c hc => by rw [hcfg]; exact h.bridgeOwns j c hc
      chDuty := h.chDuty
      exclusive := h.exclusive
      uninit := fun hp => by
        obtain ⟨hfree, hbr, hseqs⟩ := h.uninit hp
        exact ⟨hfree, fun j => (hcfg j).trans (hbr j), hseqs⟩
      params := h.params
      devices := h.devices
      changing := h.changing }

/-- A slot takes a value that is right if it is configured, once the block is READY or the slot stays unconfigured. -/
theorem setSeq (h : Inv s) (i : Nat) {q : Seq} (hq : q.cfg = true → SeqOk s q)
    (hp : s.phase = .uninit → q.cfg = false) : Inv (s.setSeq i q) :=
  { h with
    seqs := fun q' hq' hc => by
      rcases List.mem_or_eq_of_mem_set hq' with hq' | rfl
      · exact (h.seqs q' hq' hc).of_bridges fun _ => id
      · exact (hq hc).of_bridges fun _ => id
    uninit := fun hu => by
      obtain ⟨hfree, hcfg, hseqs⟩ := h.uninit hu
      refine ⟨hfree, hcfg, fun q' hq' => ?_⟩
      rcases List.mem_or_eq_of_mem_set hq' with hq' | rfl
      · exact hseqs q' hq'
      · exact hp hu }

/-! ## The writes of single commands -/

/-- A channel that is free may go to the port, and one of the port may become free: no bridge has it (R200, R202). -/
theorem setOwner (h : Inv s) {ch : Channel} {o : Owner} (hr : s.phase = .ready) (hold : ∀ k, s.owner ch ≠ .bridge k)
    (hnew : ∀ k, o ≠ .bridge k) (hduty : o ≠ .free → inUnit (s.duty ch) = true)
    (hheld : s.params.allocScope = .global → o ≠ .free → s.heldElsewhere[ch] = false) : Inv (s.setOwner ch o) :=
  { h with
    seqs := fun q hq hcfg => (h.seqs q hq hcfg).of_bridges fun _ => id
    bridgeOwns := fun k c hc => by
      rw [State.owner_setOwner]
      split
      · next e =>
        subst e
        exact (h.bridgeOwns k c hc).trans (iff_of_false (hold k) (hnew k))
      · exact h.bridgeOwns k c hc
    chDuty := fun c hc => by
      rw [State.owner_setOwner] at hc
      split at hc
      · next e => exact e ▸ hduty hc
      · exact h.chDuty c hc
    exclusive := fun hg c hc => by
      rw [State.owner_setOwner] at hc
      split at hc
      · next e => exact e ▸ hheld hg hc
      · exact h.exclusive hg c hc
    uninit := fun hu => absurd (hr.symm.trans hu) (by simp) }

theorem not_held_of_entry_free {c : Channel} (hc : s.entry c = .free) (hg : s.params.allocScope = .global) :
    s.heldElsewhere[c] = false := by
  have h := ((State.entry_free_iff s c).mp hc).1
  simpa [hg] using h

/-- HB_CONFIG of a bridge that is not configured, from channels that are free (R230). -/
theorem bindBridge (h : Inv s) {k : Conn} (hr : s.phase = .ready) (hfree : ∀ c ∈ k.channels, s.entry c = .free) :
    Inv (s.bindBridge k) := by
  have howner : ∀ c, (s.bindBridge k).owner c = if c ∈ k.channels then .bridge k else s.owner c := fun c => by
    simp only [State.owner_bindBridge, Conn.mem_channels]
  have hduty : ∀ c, (s.bindBridge k).duty c = if c ∈ k.channels then 0#16 else s.duty c := fun c => by
    simp only [State.duty_bindBridge, Conn.mem_channels]
  have hcfg : ∀ j, (s.bridge j).cfg = true → ((s.bindBridge k).bridge j).cfg = true := fun j hj => by
    rw [State.bridge_bindBridge]
    split
    · rfl
    · exact hj
  exact
    { seqs := fun q hq hc => (h.seqs q hq hc).of_bridges hcfg
      bridgeDuty := fun j hj => by
        rw [State.bridge_bindBridge] at hj ⊢
        split
        · exact (by decide : inSigned 0#16 = true)
        · next hne => exact h.bridgeDuty j (by simpa [hne] using hj)
      bridgeOwns := fun j c hc => by
        rw [State.bridge_bindBridge, howner]
        by_cases hjk : j = k
        · subst hjk
          simp [hc]
        · have hck : c ∉ k.channels := fun hk => hjk (Conn.eq_of_mem_channels hc hk)
          rw [if_neg hjk, if_neg hck]
          exact h.bridgeOwns j c hc
      chDuty := fun c hc => by
        rw [howner] at hc
        rw [hduty]
        split
        · exact (by decide : inUnit 0#16 = true)
        · next hne => exact h.chDuty c (by simpa [hne] using hc)
      exclusive := fun hg c hc => by
        rw [howner] at hc
        by_cases hck : c ∈ k.channels
        · exact not_held_of_entry_free (s := s) (hfree c hck) hg
        · exact h.exclusive hg c (by simpa [hck] using hc)
      uninit := fun hu => absurd (hr.symm.trans hu) (by simp)
      params := h.params
      devices := h.devices
      changing := h.changing }

end Inv

/-- R269: an advanced index is still inside the table. -/
theorem SeqOk.advance {s : State} {q : Seq} (h : SeqOk s q) (d : Dir) : SeqOk s (q.advance d) := by
  have hlt := advanceIdx_lt h.index d
  have hn := q.n.isLt
  refine ⟨h.phases, h.bridge1, h.bridge2, h.size, ?_⟩
  show (BitVec.ofNat 16 (advanceIdx q.idx.toNat q.n.toNat d)).toNat < q.n.toNat
  rw [BitVec.toNat_ofNat, Nat.mod_eq_of_lt (by omega)]
  exact hlt

theorem validN_pos {n : Nat} (h : validN n = true) : 0 < n := by
  simp only [validN, Bool.or_eq_true, beq_iff_eq, decide_eq_true_eq] at h
  omega

/-! ## Every command -/

/-- The invariant holds after if it did before. -/
def KeepsInv (s t : State) : Prop := Inv s → Inv t

theorem keepsInv_busRel : BusRel KeepsInv where
  refl _ := id
  trans _ _ _ h1 h2 := fun h => h2 (h1 h)
  bus e h := h.bus e

theorem keepsInv_setDuty {ch : Channel} {d : Duty} (hd : inUnit d = true) (s : State) : KeepsInv s (s.setDuty ch d) :=
  fun h => h.setDuty ch hd

theorem keepsInv_setLine (ch : Channel) (b : Bool) (s : State) : KeepsInv s (s.setDuty ch (lineDuty b)) :=
  keepsInv_setDuty (inUnit_lineDuty b) s

theorem keepsInv_bridgeSet (k : Conn) {d : Duty} (hd : inSigned d = true) : Cmd.Keeps KeepsInv (bridgeSet k d) :=
  keepsInv_busRel.bridgeSet (fun _ h => h.setBridgeDuty k hd) (fun _ hd' => keepsInv_setDuty hd')
    fun _ => keepsInv_busRel.setDirection (keepsInv_setLine _) (keepsInv_setLine _)

/-- An index that advances, in a slot that is configured or not (R269). -/
theorem Inv.advanceSeq {s : State} (h : Inv s) (i : Nat) (d : Dir) : Inv (s.setSeq i ((s.seq i).advance d)) := by
  have hmem : (s.seq i).cfg = true → s.seq i ∈ s.seqs := fun hc => by
    by_cases hi : i < s.seqs.length
    · simp [State.seq, hi]
    · simp [State.seq, hi, Seq.reset] at hc
  refine h.setSeq i (fun hc => (h.seqs _ (hmem hc) hc).advance d) fun hu => ?_
  by_contra hc
  have hc' : (s.seq i).cfg = true := by simpa [Seq.advance] using hc
  exact absurd ((h.uninit hu).2.2 _ (hmem hc')) (by simp [hc'])

/-- The command is one that needs a READY block, and the block is READY. -/
theorem ready_of_checks {i : Instr} {s : State} (hc : s.failedCheck i = none) (hi : i.op ≠ .ctrlInit) :
    s.phase = .ready := by
  by_contra hr
  simp [State.failedCheck, hi, hr] at hc

theorem inv_act {i : Instr} {s : State} (h : Inv s) (hc : s.failedCheck i = none) : Inv ((act i).final s) := by
  have hR := keepsInv_busRel
  have hpass := checks_pass hc
  have hready := ready_of_checks hc
  have hzero : inUnit 0#16 = true := by decide
  have hzero' : inSigned 0#16 = true := by decide
  cases i with
  | regWr reg v => exact (hR.act_regWr reg v).final s h
  | regRd reg => exact (hR.act_regRd reg).final s h
  | regBurst reg data => exact (hR.act_regBurst reg data).final s h
  | ctrlInit addr hz =>
    exact (hR.act_ctrlInit (fun _ h => h.setAddr addr) (fun _ h => h.setReady) (fun _ a h => h.openChange a)
      (fun _ a h => h.closeChange a) hz).final s h
  | ctrlReset => exact (hR.act_ctrlReset fun _ a h => h.closeChange a).final s h
  | ctrlFreq hz => exact (hR.act_ctrlFreq (fun _ a h => h.openChange a) (fun _ a h => h.closeChange a) hz).final s h
  | ctrlDuty id d => exact (hR.act_ctrlDuty id d).final s h
  | chBind id =>
    simp only [State.checks, List.forall_mem_cons, decide_eq_true_eq] at hpass
    obtain ⟨hid, hfree, -⟩ := hpass
    have hfree : s.entry (chan id) = .free := by simpa [entryAt_eq s hid] using hfree
    have hown := ((State.entry_free_iff s _).mp hfree).2
    have hset := (h.setDuty (chan id) hzero).setOwner (ch := chan id) (o := .port) (hready (by simp [Instr.op]))
      (fun k => by simp [hown]) (by simp) (fun _ => by simp [State.duty_setDuty, hzero])
      (fun hg _ => Inv.not_held_of_entry_free hfree hg)
    exact hset
  | chRelease id =>
    simp only [State.checks, List.forall_mem_cons, decide_eq_true_eq] at hpass
    obtain ⟨hid, -, hport, -⟩ := hpass
    have hown := ((State.entry_port_iff s _).mp (entry_port_of_checks hid hport)).2
    exact h.setOwner (hready (by simp [Instr.op])) (fun k => by simp [hown]) (by simp) (by simp) (by simp)
  | chDuty id d => exact (hR.act_chDuty keepsInv_setDuty).final s h
  | lineSet id b => exact (hR.act_lineSet (keepsInv_setLine _ _)).final s h
  | lineGet id => exact h
  | hbConfig id =>
    simp only [State.checks, List.forall_mem_cons] at hpass
    obtain ⟨hid, -, hfree, -⟩ := hpass
    refine h.bindBridge (hready (by simp [Instr.op])) fun c hc => ?_
    simp only [State.connectorFree, conn_some hid, List.all_eq_true, beq_iff_eq] at hfree
    exact hfree c hc
  | hbSet id d =>
    simp only [State.checks, List.forall_mem_cons] at hpass
    obtain ⟨-, hd, -⟩ := hpass
    exact (hR.act_hbSet (keepsInv_bridgeSet _ hd)).final s h
  | hbBrake id => exact (hR.act_hbBrake (keepsInv_setLine _ _) (keepsInv_setLine _ _)).final s h
  | hbRelease id => exact (hR.act_hbRelease fun u _ _ => keepsInv_setDuty hzero u).final s h
  | hbGet id => exact h
  | seqConfig id bra brb n =>
    simp only [State.checks, List.forall_mem_cons, Bool.and_eq_true] at hpass
    obtain ⟨-, ⟨ha, hb⟩, hne, hn, -, ⟨hca, hcb⟩, -⟩ := hpass
    rw [bridgeCfgAt_eq s ha] at hca
    rw [bridgeCfgAt_eq s hb] at hcb
    rw [← conn_ne ha hb] at hne
    exact h.setSeq id.toNat (fun _ => ⟨by simpa using hne, hca, hcb, hn, validN_pos hn⟩)
      (fun hu => absurd ((hready (by simp [Instr.op])).symm.trans hu) (by simp))
  | seqStep id dir =>
    exact hR.act_seqStep (fun h => h.advanceSeq _ _)
      (fun k n j => ⟨keepsInv_bridgeSet k (inSigned_stepT1 h.params n j),
        keepsInv_bridgeSet k (inSigned_stepT2 h.params n j)⟩) h
  | seqRelease id => exact (hR.act_seqRelease (fun k => keepsInv_bridgeSet k hzero') id).final s h
  | seqGet id => exact h

theorem inv_exec {i : Instr} {s t : State} (h : Inv s) (hex : exec i s = .next t) : Inv t :=
  exec_related (R := fun _ t => Inv t) hex h (fun _ e v hu => hu.respond e v) (inv_act h)

/-! ## Reset and the events of the outside world -/

@[simp] theorem State.owner_reset (c : Channel) : State.reset.owner c = .free := by simp [State.reset, State.owner]

@[simp] theorem State.bridge_reset (k : Conn) : State.reset.bridge k = Bridge.reset := by
  simp [State.reset, State.bridge]

/-- A block with every field at its reset value meets the invariant, whatever stands outside it. -/
theorem Inv.of_reset {s : State} (halloc : s.alloc = State.reset.alloc) (hbridges : s.bridges = State.reset.bridges)
    (hseqs : ∀ q ∈ s.seqs, q = Seq.reset) (hparams : paramsOk s.params = true) (hdev : ∀ d ∈ s.devices, d.mem.wf)
    (hch : s.changing.Nodup) : Inv s := by
  have ho : ∀ c, s.owner c = .free := fun c => by rw [State.owner, halloc]; exact State.owner_reset c
  have hb : ∀ k, (s.bridge k).cfg = false := fun k => by
    rw [State.bridge, hbridges]; exact congrArg Bridge.cfg (State.bridge_reset k)
  have hq : ∀ q ∈ s.seqs, q.cfg = false := fun q hq => by rw [hseqs q hq]; rfl
  exact
    { seqs := fun q hqm hc => by simp [hq q hqm] at hc
      bridgeDuty := fun k hk => by simp [hb k] at hk
      bridgeOwns := fun k c _ => by simp [hb k, ho c]
      chDuty := fun c hc => absurd (ho c) hc
      exclusive := fun _ c hc => absurd (ho c) hc
      uninit := fun _ => ⟨ho, hb, hq⟩
      params := hparams
      devices := hdev
      changing := hch }

/-- Settles O56: every block field stands at its reset value, and the one device at its power-on values. -/
theorem invHoldsAtReset : Obligations.InvHoldsAtReset := by
  unfold Obligations.InvHoldsAtReset
  refine Inv.of_reset rfl rfl (fun q hq => ?_) rfl (fun d hd => ?_) List.nodup_nil
  · exact List.eq_of_mem_replicate hq
  · obtain rfl := List.mem_singleton.mp hd
    exact Memory.wf_nil

theorem Inv.blockReset {s : State} (h : Inv s) : Inv s.blockReset := by
  refine Inv.of_reset rfl rfl (fun q hq => ?_) h.params h.devices h.changing
  obtain ⟨_, -, rfl⟩ := List.mem_map.mp hq
  rfl

/-- The channels another block takes or gives up (R212). -/
theorem getElem_foldl_set (b : Bool) (chs : List Channel) (v : Vector Bool 16) (c : Channel) :
    (chs.foldl (fun v (x : Channel) => v.set x.val b x.isLt) v)[c] = if c ∈ chs then b else v[c] := by
  induction chs generalizing v with
  | nil => simp
  | cons x chs ih =>
    rw [List.foldl_cons, ih]
    by_cases hc : c ∈ chs
    · simp [hc]
    · by_cases hx : c = x
      · simp [hx]
      · have : ¬ x.val = c.val := fun e => hx (Fin.ext e.symm)
        simp [hc, hx, this]

/-- Another block takes only channels that are free in the whole system. -/
theorem Inv.peerBind {s : State} (h : Inv s) (chs : List Channel) : Inv (s.peerBind chs) := by
  unfold State.peerBind
  split
  · next hg =>
    obtain ⟨-, hfree⟩ := hg
    refine { h with
      seqs := fun q hq hc => (h.seqs q hq hc).of_bridges fun _ => id
      exclusive := fun hg c hc => ?_ }
    have hc' : c ∉ chs := fun hm =>
      hc ((State.entry_free_iff s c).mp (by simpa using List.all_eq_true.mp hfree c hm)).2
    show (chs.foldl _ s.heldElsewhere)[c] = false
    rw [getElem_foldl_set, if_neg hc']
    exact h.exclusive hg c hc
  · exact h

theorem Inv.peerRelease {s : State} (h : Inv s) (chs : List Channel) : Inv (s.peerRelease chs) := by
  refine h.of_sameBlock id rfl rfl rfl rfl rfl (fun c hc => ?_) h.devices h.changing
  show (chs.foldl _ s.heldElsewhere)[c] = false
  rw [getElem_foldl_set, hc]
  split <;> rfl

theorem Inv.peerReady {s : State} (h : Inv s) (a : Addr) : Inv (s.peerReady a) := by
  unfold State.peerReady
  split
  · exact h
  · exact h.of_sameBlock id rfl rfl rfl rfl rfl (fun _ => id) h.devices h.changing

theorem Inv.peerChange {s : State} (h : Inv s) (a : Addr) (on : Bool) : Inv (s.peerChange a on) := by
  unfold State.peerChange
  split
  · exact h
  · cases on
    · exact h.closeChange a
    · exact h.openChange a

theorem Inv.hostEvent {s : State} (h : Inv s) (e : HostEvent) : Inv (s.hostEvent e) := by
  cases e with
  | word w => exact h.of_sameBlock id rfl rfl rfl rfl rfl (fun _ => id) h.devices h.changing
  | blockReset => exact h.blockReset
  | peerReady a => exact h.peerReady a
  | peerDown a => exact h.of_sameBlock id rfl rfl rfl rfl rfl (fun _ => id) h.devices h.changing
  | peerBind chs => exact h.peerBind chs
  | peerRelease chs => exact h.peerRelease chs
  | peerChange a on => exact h.peerChange a on
  | foreign g => exact h.of_sameBlock id rfl rfl rfl rfl rfl (fun _ => id) (applyForeign_wf [g] h.devices) h.changing

theorem Inv.idle {s : State} (h : Inv s) : Inv s.idle := by
  unfold State.idle
  split
  · exact h
  · next e es _ =>
    exact Inv.hostEvent (h.of_sameBlock (t := { s with events := es }) id rfl rfl rfl rfl rfl (fun _ => id) h.devices
      h.changing) e

/-- Settles O57: a step is a command, a refusal or an event of the outside world, and each keeps the invariant. -/
theorem stepKeepsInv : Obligations.StepKeepsInv := by
  unfold Obligations.StepKeepsInv
  intro s t h hstep
  unfold step at hstep
  split at hstep
  · next i rest _ => exact inv_exec (h.consume rest) hstep
  · next rest _ =>
    obtain rfl : s.refuseIllegal rest = t := by simpa using hstep
    exact (h.consume rest).respond _ _
  · obtain rfl : s.idle = t := by simpa using hstep
    exact h.idle

end Sys2Proof.Machine
end

section
/-! PROOF. Which commands may change each field of the block (`10_state.md` R31, R32, R34 to R38, `42_channel.md` R203,
`60_exceptions.md` R321, `70_reset_and_hazards.md` R347, R353). -/

namespace Sys2Proof.Machine

/-! ## The frame of a command -/

/-- The commands that send no frame. -/
abbrev silentOps : List Op := [.chBind, .chRelease, .lineGet, .hbConfig, .hbGet, .seqConfig, .seqGet]

/-- Between the two states a command `o` has run, or a part of it: each field changes only by a command that may write it.
The fields a write leaves alone are those it leaves by `rfl`. -/
structure OnlyWrites (o : Op) (s t : State) : Prop where
  phase : o ≠ .ctrlInit → t.phase = s.phase := by intros; rfl
  addr : o ≠ .ctrlInit → t.addr = s.addr := by intros; rfl
  alloc : o ∉ [Op.chBind, Op.chRelease, Op.hbConfig] → t.alloc = s.alloc := by intros; rfl
  chDuty : o ∉ [Op.chBind, Op.chDuty, Op.lineSet, Op.hbConfig, Op.hbSet, Op.hbBrake, Op.hbRelease, Op.seqStep,
    Op.seqRelease] → t.chDuty = s.chDuty := by intros; rfl
  bridges : o ∉ [Op.hbConfig, Op.hbSet, Op.seqStep, Op.seqRelease] → t.bridges = s.bridges := by intros; rfl
  seqs : o ∉ [Op.seqConfig, Op.seqStep] → t.seqs = s.seqs := by intros; rfl
  changing : o ∉ [Op.ctrlInit, Op.ctrlReset, Op.ctrlFreq] → t.changing = s.changing := by intros; rfl
  silent : o ∈ silentOps → t.trace = s.trace ∧ t.devices = s.devices ∧ t.replies = s.replies ∧ t.traffic = s.traffic :=
    by exact fun _ => ⟨rfl, rfl, rfl, rfl⟩
  bridgeCfg : ∀ k, (s.bridge k).cfg = true → (t.bridge k).cfg = true := by exact fun _ h => h
  seqCfg : ∀ j, (s.seq j).cfg = true → (t.seq j).cfg = true := by exact fun _ h => h
  nseq : t.nseq = s.nseq := by rfl
  outside : t.inbox = s.inbox ∧ t.params = s.params ∧ t.peers = s.peers ∧ t.heldElsewhere = s.heldElsewhere ∧
    t.events = s.events := by exact ⟨rfl, rfl, rfl, rfl, rfl⟩

namespace OnlyWrites

variable {o : Op} {s t u : State}

theorem refl (o : Op) (s : State) : OnlyWrites o s s := {}

theorem trans (h : OnlyWrites o s t) (k : OnlyWrites o t u) : OnlyWrites o s u where
  phase ho := (k.phase ho).trans (h.phase ho)
  addr ho := (k.addr ho).trans (h.addr ho)
  alloc ho := (k.alloc ho).trans (h.alloc ho)
  chDuty ho := (k.chDuty ho).trans (h.chDuty ho)
  bridges ho := (k.bridges ho).trans (h.bridges ho)
  seqs ho := (k.seqs ho).trans (h.seqs ho)
  changing ho := (k.changing ho).trans (h.changing ho)
  silent ho := by
    obtain ⟨h1, h2, h3, h4⟩ := h.silent ho
    obtain ⟨k1, k2, k3, k4⟩ := k.silent ho
    exact ⟨k1.trans h1, k2.trans h2, k3.trans h3, k4.trans h4⟩
  bridgeCfg j hj := k.bridgeCfg j (h.bridgeCfg j hj)
  seqCfg j hj := k.seqCfg j (h.seqCfg j hj)
  nseq := k.nseq.trans h.nseq
  outside := by
    obtain ⟨h1, h2, h3, h4, h5⟩ := h.outside
    obtain ⟨k1, k2, k3, k4, k5⟩ := k.outside
    exact ⟨k1.trans h1, k2.trans h2, k3.trans h3, k4.trans h4, k5.trans h5⟩

/-- A command that may send frames. -/
theorem busRel (ho : o ∉ silentOps := by simp [Instr.op]) : BusRel (OnlyWrites o) where
  refl := OnlyWrites.refl o
  trans _ _ _ := OnlyWrites.trans
  bus e :=
    { phase := fun _ => e.phase
      addr := fun _ => e.addr
      alloc := fun _ => e.alloc
      chDuty := fun _ => e.chDuty
      bridges := fun _ => e.bridges
      seqs := fun _ => e.seqs
      changing := fun _ => e.changing
      silent := fun h => absurd h ho
      bridgeCfg := fun k hk => by rw [e.bridge]; exact hk
      seqCfg := fun j hj => by rw [e.seq]; exact hj
      nseq := by rw [State.nseq, State.nseq, e.seqs]
      outside := ⟨e.inbox, e.params, e.peers, e.held, e.events⟩ }

/-! ## Single writes -/

theorem setDuty (ch : Channel) (d : Duty) (s : State) (ho : o ∈ [Op.chBind, Op.chDuty, Op.lineSet, Op.hbConfig,
    Op.hbSet, Op.hbBrake, Op.hbRelease, Op.seqStep, Op.seqRelease] := by simp [Instr.op]) :
    OnlyWrites o s (s.setDuty ch d) :=
  { chDuty := fun h => absurd ho h }

theorem setBridgeDuty (k : Conn) (d : Duty) (s : State)
    (ho : o ∈ [Op.hbConfig, Op.hbSet, Op.seqStep, Op.seqRelease] := by simp [Instr.op]) :
    OnlyWrites o s (s.setBridgeDuty k d) :=
  { bridges := fun h => absurd ho h
    bridgeCfg := fun j hj => by
      rw [State.bridge_setBridgeDuty]
      split
      · next e => exact e ▸ hj
      · exact hj }

theorem setSeq {i : Nat} {q : Seq} (hq : (s.seq i).cfg = true → q.cfg = true)
    (ho : o ∈ [Op.seqConfig, Op.seqStep] := by simp [Instr.op]) : OnlyWrites o s (s.setSeq i q) :=
  { seqs := fun h => absurd ho h
    seqCfg := fun j hj => by
      rw [State.seq_setSeq]
      split
      · next e => exact hq (e.1 ▸ hj)
      · exact hj
    nseq := s.nseq_setSeq i q }

theorem openChange (s : State) (a : Addr) (ho : o ∈ [Op.ctrlInit, Op.ctrlReset, Op.ctrlFreq] := by simp [Instr.op]) :
    OnlyWrites o s (s.openChange a) := { changing := fun h => absurd ho h }

theorem closeChange (s : State) (a : Addr) (ho : o ∈ [Op.ctrlInit, Op.ctrlReset, Op.ctrlFreq] := by simp [Instr.op]) :
    OnlyWrites o s (s.closeChange a) := { changing := fun h => absurd ho h }

theorem bridgeSet (k : Conn) (d : Duty) (ho : o ∈ [Op.hbSet, Op.seqStep, Op.seqRelease] := by simp [Instr.op]) :
    Cmd.Keeps (OnlyWrites o) (bridgeSet k d) := by
  have hR : BusRel (OnlyWrites o) := busRel (by revert ho; cases o <;> decide)
  have hd : ∀ c d' s, OnlyWrites o s (s.setDuty c d') := fun c d' s =>
    setDuty c d' s (by revert ho; cases o <;> decide)
  have hb : ∀ s, OnlyWrites o s (s.setBridgeDuty k d) := fun s =>
    setBridgeDuty k d s (by revert ho; cases o <;> decide)
  exact hR.bridgeSet hb (fun d' _ => hd _ d') fun _ => hR.setDirection (fun _ => hd _ _) (fun _ => hd _ _)

theorem bindBridge (k : Conn) (s : State) : OnlyWrites .hbConfig s (s.bindBridge k) :=
  { alloc := fun h => absurd (by simp) h
    chDuty := fun h => absurd (by simp) h
    bridges := fun h => absurd (by simp) h
    bridgeCfg := fun j hj => by
      rw [State.bridge_bindBridge]
      split
      · rfl
      · exact hj }

end OnlyWrites

/-! ## Every command -/

theorem onlyWrites_act (i : Instr) (s : State) : OnlyWrites i.op s ((act i).final s) := by
  cases i with
  | regWr reg v => exact ((OnlyWrites.busRel).act_regWr reg v).final s
  | regRd reg => exact ((OnlyWrites.busRel).act_regRd reg).final s
  | regBurst reg data => exact ((OnlyWrites.busRel).act_regBurst reg data).final s
  | ctrlInit addr hz =>
    exact ((OnlyWrites.busRel).act_ctrlInit (fun _ => { addr := fun h => absurd rfl h })
      (fun _ => { phase := fun h => absurd rfl h }) OnlyWrites.openChange OnlyWrites.closeChange hz).final s
  | ctrlReset => exact ((OnlyWrites.busRel).act_ctrlReset OnlyWrites.closeChange).final s
  | ctrlFreq hz => exact ((OnlyWrites.busRel).act_ctrlFreq OnlyWrites.openChange OnlyWrites.closeChange hz).final s
  | ctrlDuty id d => exact ((OnlyWrites.busRel).act_ctrlDuty id d).final s
  | chBind id =>
    exact { alloc := fun h => absurd (by simp [Instr.op]) h, chDuty := fun h => absurd (by simp [Instr.op]) h }
  | chRelease id => exact { alloc := fun h => absurd (by simp [Instr.op]) h }
  | chDuty id d => exact ((OnlyWrites.busRel).act_chDuty fun _ => OnlyWrites.setDuty _ _).final s
  | lineSet id b => exact ((OnlyWrites.busRel).act_lineSet (OnlyWrites.setDuty _ _)).final s
  | lineGet id => exact OnlyWrites.refl _ s
  | hbConfig id => exact OnlyWrites.bindBridge (conn id) s
  | hbSet id d => exact ((OnlyWrites.busRel).act_hbSet (OnlyWrites.bridgeSet _ d)).final s
  | hbBrake id => exact ((OnlyWrites.busRel).act_hbBrake (OnlyWrites.setDuty _ _) (OnlyWrites.setDuty _ _)).final s
  | hbRelease id => exact ((OnlyWrites.busRel).act_hbRelease fun u c _ => OnlyWrites.setDuty c _ u).final s
  | hbGet id => exact OnlyWrites.refl _ s
  | seqConfig id bra brb n => exact OnlyWrites.setSeq fun _ => rfl
  | seqStep id dir =>
    exact (OnlyWrites.busRel).act_seqStep (OnlyWrites.setSeq fun h => h)
      fun k _ _ => ⟨OnlyWrites.bridgeSet k _, OnlyWrites.bridgeSet k _⟩
  | seqRelease id => exact ((OnlyWrites.busRel).act_seqRelease (fun k => OnlyWrites.bridgeSet k _) id).final s
  | seqGet id => exact OnlyWrites.refl _ s

theorem onlyWrites_exec {i : Instr} {s t : State} (hex : exec i s = .next t) : OnlyWrites i.op s t :=
  exec_related hex (OnlyWrites.refl _ s) (fun _ _ _ h => h.trans {}) fun _ => onlyWrites_act i s

/-! ## The phase and the address -/

theorem statusOf_respond (s : State) (e : Status) (v : BitVec 16) : statusOf (s.respond e v).lastResponse = e.code := by
  simp [State.lastResponse, statusOf, responseWord_status]

/-- A property that each end of a body has, from the one that each part keeps. -/
theorem Cmd.Keeps.does {α : Type} {c : Cmd α} {P : State → Prop} (h : Cmd.Keeps (fun s t => P s → P t) c) :
    Cmd.Does P c (fun _ => P) (fun _ => P) := by
  intro s hs
  have h' := h s
  cases hc : c s <;> simp only [hc] at h' <;> exact h' hs

/-- R173: CTRL_INIT makes the block READY at its end, or leaves the phase as it was. -/
theorem ctrlInit_phase (addr : Addr) (hz : Word) (p : Phase) : Cmd.Does (fun s => s.phase = p) (act (.ctrlInit addr hz))
    (fun _ t => t.phase = .ready) (fun _ t => t.phase = p) := by
  have hR : BusRel (fun s t : State => s.phase = p → t.phase = p) :=
    ⟨fun _ => id, fun _ _ _ h1 h2 => h2 ∘ h1, fun e h => e.phase.trans h⟩
  exact (Cmd.Keeps.update (f := fun s => { s with addr := addr }) fun _ => id).does.bind fun _ =>
    (hR.resetSeq fun _ _ => id).does.bind fun _ => (hR.freqSeq (fun _ _ => id) (fun _ _ => id) _).does.bind fun _ =>
      fun _ _ => rfl

theorem phase_change {i : Instr} {s t : State} (hex : exec i s = .next t) (hne : t.phase ≠ s.phase) :
    i.op = .ctrlInit ∧ t.phase = .ready ∧ statusOf t.lastResponse = 0#8 := by
  have hi : i.op = .ctrlInit := by
    by_contra hi
    exact hne ((onlyWrites_exec hex).phase hi)
  obtain ⟨addr, hz, rfl⟩ := eq_ctrlInit hi
  have hrun := ctrlInit_phase addr hz s.phase s rfl
  obtain ⟨u, e, v, hu, -, hcase⟩ := exec_next (.ctrlInit addr hz) s
  obtain rfl : u.respond e v = t := by simpa [hu] using hex
  rcases hcase with ⟨-, rfl⟩ | ⟨-, ⟨ha, rfl⟩ | ha⟩
  · exact absurd rfl hne
  · rw [ha] at hrun
    exact ⟨rfl, hrun, statusOf_respond u .ok v⟩
  · rw [ha] at hrun
    exact absurd hrun hne

theorem addr_change {i : Instr} {s t : State} (hex : exec i s = .next t) (hne : t.addr ≠ s.addr) :
    i.op = .ctrlInit ∧ s.phase = .uninit := by
  have hi : i.op = .ctrlInit := by
    by_contra hi
    exact hne ((onlyWrites_exec hex).addr hi)
  obtain ⟨addr, hz, rfl⟩ := eq_ctrlInit hi
  obtain ⟨e, v, rfl | ⟨hc, -⟩⟩ := exec_final hex
  · exact absurd rfl hne
  · have hpass := checks_pass hc
    simp only [State.checks, List.forall_mem_cons] at hpass
    refine ⟨rfl, ?_⟩
    cases hp : s.phase with
    | uninit => rfl
    | ready => simp [hp] at hpass

/-- Settles O58: the frame of each command, and what CTRL_INIT does to the phase and the address. -/
theorem fieldsChangeOnlyByTheirCommands : Obligations.FieldsChangeOnlyByTheirCommands := by
  unfold Obligations.FieldsChangeOnlyByTheirCommands
  intro i s t hex
  have h := onlyWrites_exec hex
  exact ⟨phase_change hex, addr_change hex, not_imp_comm.mp h.alloc, not_imp_comm.mp h.chDuty,
    not_imp_comm.mp h.bridges, not_imp_comm.mp h.seqs, not_imp_comm.mp h.changing, h.silent, h.bridgeCfg, h.seqCfg,
    h.nseq, h.outside⟩

end Sys2Proof.Machine
end

section
/-! PROOF. Under the per-controller scope the channels other blocks hold do not matter (`10_state.md` R34, `42_channel.md`
R212): no command's effect reads them, and its checks read them under the global scope alone. -/

namespace Sys2Proof.Machine

variable {α β : Type}

/-- The state with other channels held by other blocks. -/
def State.hold (s : State) (v : Vector Bool 16) : State := { s with heldElsewhere := v }

/-- The same end of a body, in a state with other channels held by other blocks. -/
def Cmd.holdEnd (v : Vector Bool 16) : EStateM.Result Status State α → EStateM.Result Status State α
  | .ok a t => .ok a (t.hold v)
  | .error e t => .error e (t.hold v)

/-! ## Bodies that do not read them -/

/-- The body runs alike whatever channels other blocks hold, and does not change which. -/
def Cmd.Blind (c : Cmd α) : Prop := ∀ s v, c (State.hold s v) = Cmd.holdEnd v (c s)

namespace Cmd.Blind

theorem pure (a : α) : Cmd.Blind (Pure.pure a : Cmd α) := fun _ _ => rfl

theorem throw (e : Status) : Cmd.Blind (MonadExcept.throw e : Cmd α) := fun _ _ => rfl

theorem check (ok : Bool) (e : Status) : Cmd.Blind (check ok e) := by
  cases ok
  · exact Blind.throw e
  · exact Blind.pure ()

theorem bind {x : Cmd α} {f : α → Cmd β} (hx : Cmd.Blind x) (hf : ∀ a, Cmd.Blind (f a)) : Cmd.Blind (x >>= f) := by
  intro s v
  rw [Cmd.bind_run, Cmd.bind_run, hx s v]
  cases x s with
  | ok a t => exact hf a t v
  | error e t => rfl

/-- A body that reads the state, and goes on alike from what it reads in both. -/
theorem get {f : State → Cmd α} (hread : ∀ s v, f (State.hold s v) = f s) (hf : ∀ s, Cmd.Blind (f s)) :
    Cmd.Blind (MonadState.get >>= f) := by
  intro s v
  show f (s.hold v) (s.hold v) = _
  rw [hread]
  exact hf s s v

theorem update {f : State → State} (hf : ∀ s v, f (State.hold s v) = (f s).hold v) : Cmd.Blind (update f) :=
  fun s v => congrArg (EStateM.Result.ok ()) (hf s v)

theorem onlyIf (c : Bool) {x : Cmd Unit} (hx : Cmd.Blind x) : Cmd.Blind (onlyIf c x) := by
  cases c
  · exact Blind.pure ()
  · exact hx

/-! ## The bus -/

theorem emit (f : Frame) : Cmd.Blind (emit f) := by
  intro s v
  have hsend : (s.hold v).send f = ((s.send f).1, (s.send f).2.hold v) := rfl
  simp only [Machine.emit, Cmd.bind_run, Cmd.get_run, Cmd.set_run, hsend]
  cases (s.send f).1 <;> rfl

theorem emitWrite (reg : Byte) (data : List Byte) : Cmd.Blind (emitWrite reg data) :=
  Blind.get (fun _ _ => rfl) fun _ => (Blind.emit _).bind fun _ => Blind.pure ()

theorem emitRead : Cmd.Blind emitRead := Blind.get (fun _ _ => rfl) fun _ => Blind.emit _

theorem beginGroup : Cmd.Blind beginGroup := Blind.update fun _ _ => rfl

theorem busWrite1 (reg v : Byte) : Cmd.Blind (busWrite1 reg v) := Blind.beginGroup.bind fun _ => Blind.emitWrite reg [v]

theorem busRead1 (reg : Byte) : Cmd.Blind (busRead1 reg) :=
  Blind.beginGroup.bind fun _ => (Blind.emitWrite reg []).bind fun _ => Blind.emitRead

theorem busBurst (start : Byte) (bs : List Byte) : Cmd.Blind (busBurst start bs) :=
  Blind.beginGroup.bind fun _ => (Blind.emitWrite regMode1 []).bind fun _ => Blind.emitRead.bind fun _ =>
    (Blind.onlyIf _ (Blind.emitWrite _ _)).bind fun _ => Blind.emitWrite start bs

theorem busSetBits (reg mask : Byte) {mark : State → State} (hm : ∀ s v, mark (State.hold s v) = (mark s).hold v) :
    Cmd.Blind (busSetBits reg mask mark) :=
  Blind.beginGroup.bind fun _ => (Blind.emitWrite reg []).bind fun _ => Blind.emitRead.bind fun _ =>
    (Blind.update hm).bind fun _ => Blind.emitWrite _ _

theorem busSetBitsIfClear (reg mask : Byte) : Cmd.Blind (busSetBitsIfClear reg mask) :=
  Blind.beginGroup.bind fun _ => (Blind.emitWrite reg []).bind fun _ => Blind.emitRead.bind fun _ =>
    Blind.onlyIf _ (Blind.emitWrite _ _)

theorem busDelay (us : Nat) : Cmd.Blind (busDelay us) :=
  Blind.beginGroup.bind fun _ => Blind.update fun _ _ => rfl

/-! ## The shared operations -/

theorem resetSeq : Cmd.Blind resetSeq :=
  (Blind.busWrite1 _ _).bind fun _ => (Blind.busDelay _).bind fun _ => (Blind.busBurst _ _).bind fun _ =>
    (Blind.update fun _ _ => rfl).bind fun _ => Blind.busSetBitsIfClear _ _

theorem freqSeq (p : Byte) : Cmd.Blind (freqSeq p) :=
  (Blind.busSetBits _ _ fun _ _ => rfl).bind fun _ => (Blind.busWrite1 _ _).bind fun _ => Blind.resetSeq

theorem setDuty (ch : Channel) (d : Duty) : Cmd.Blind (setDuty ch d) :=
  (Blind.check _ _).bind fun _ => (Blind.update fun _ _ => rfl).bind fun _ => Blind.busBurst _ _

theorem setLine (ch : Channel) (b : Bool) : Cmd.Blind (setLine ch b) := Blind.setDuty _ _

theorem setDirection (k : Conn) (forward : Bool) : Cmd.Blind (setDirection k forward) := by
  cases forward
  · exact (Blind.setLine _ _).bind fun _ => Blind.setLine _ _
  · exact (Blind.setLine _ _).bind fun _ => Blind.setLine _ _

theorem bridgeSet (k : Conn) (d : Duty) : Cmd.Blind (bridgeSet k d) :=
  Blind.get (fun _ _ => rfl) fun _ => (Blind.update fun _ _ => rfl).bind fun _ =>
    (Blind.onlyIf _ (Blind.setDuty _ _)).bind fun _ => (Blind.setDirection _ _).bind fun _ => Blind.setDuty _ _

end Cmd.Blind

/-! ## Every command -/

theorem act_blind (i : Instr) : Cmd.Blind (act i) := by
  cases i with
  | regWr reg v => exact (Cmd.Blind.busWrite1 _ _).bind fun _ => Cmd.Blind.pure _
  | regRd reg => exact (Cmd.Blind.busRead1 _).bind fun _ => Cmd.Blind.pure _
  | regBurst reg data => exact (Cmd.Blind.busBurst _ _).bind fun _ => Cmd.Blind.pure _
  | ctrlInit addr hz =>
    exact (Cmd.Blind.update fun _ _ => rfl).bind fun _ => Cmd.Blind.resetSeq.bind fun _ =>
      (Cmd.Blind.freqSeq _).bind fun _ => (Cmd.Blind.update fun _ _ => rfl).bind fun _ => Cmd.Blind.pure _
  | ctrlReset => exact Cmd.Blind.resetSeq.bind fun _ => Cmd.Blind.pure _
  | ctrlFreq hz => exact (Cmd.Blind.freqSeq _).bind fun _ => Cmd.Blind.pure _
  | ctrlDuty id d => exact (Cmd.Blind.busBurst _ _).bind fun _ => Cmd.Blind.pure _
  | chBind id => exact (Cmd.Blind.update fun _ _ => rfl).bind fun _ => Cmd.Blind.pure _
  | chRelease id => exact (Cmd.Blind.update fun _ _ => rfl).bind fun _ => Cmd.Blind.pure _
  | chDuty id d => exact (Cmd.Blind.setDuty _ _).bind fun _ => Cmd.Blind.pure _
  | lineSet id b => exact (Cmd.Blind.setLine _ _).bind fun _ => Cmd.Blind.pure _
  | lineGet id => exact Cmd.Blind.get (fun _ _ => rfl) fun _ => Cmd.Blind.pure _
  | hbConfig id => exact (Cmd.Blind.update fun _ _ => rfl).bind fun _ => Cmd.Blind.pure _
  | hbSet id d => exact (Cmd.Blind.bridgeSet _ _).bind fun _ => Cmd.Blind.pure _
  | hbBrake id =>
    exact (Cmd.Blind.setLine _ _).bind fun _ => (Cmd.Blind.setLine _ _).bind fun _ => Cmd.Blind.pure _
  | hbRelease id =>
    exact (Cmd.Blind.setDuty _ _).bind fun _ => (Cmd.Blind.setLine _ _).bind fun _ =>
      (Cmd.Blind.setLine _ _).bind fun _ => Cmd.Blind.pure _
  | hbGet id => exact Cmd.Blind.get (fun _ _ => rfl) fun _ => Cmd.Blind.pure _
  | seqConfig id bra brb n => exact (Cmd.Blind.update fun _ _ => rfl).bind fun _ => Cmd.Blind.pure _
  | seqStep id dir =>
    exact (Cmd.Blind.update fun _ _ => rfl).bind fun _ => Cmd.Blind.get (fun _ _ => rfl) fun _ =>
      (Cmd.Blind.bridgeSet _ _).bind fun _ => (Cmd.Blind.bridgeSet _ _).bind fun _ => Cmd.Blind.pure _
  | seqRelease id =>
    exact Cmd.Blind.get (fun _ _ => rfl) fun _ => (Cmd.Blind.bridgeSet _ _).bind fun _ =>
      (Cmd.Blind.bridgeSet _ _).bind fun _ => Cmd.Blind.pure _
  | seqGet id => exact Cmd.Blind.get (fun _ _ => rfl) fun _ => Cmd.Blind.pure _

/-- R34: the allocation set of a block is its own under the per-controller scope. -/
theorem entry_hold {s : State} (h : s.params.allocScope = .perController) (v : Vector Bool 16) (c : Channel) :
    (s.hold v).entry c = s.entry c := by
  simp [State.entry, State.hold, h, State.owner]

theorem checks_hold {s : State} (h : s.params.allocScope = .perController) (v : Vector Bool 16) (i : Instr) :
    (s.hold v).checks i = s.checks i := by
  have hat : ∀ id, (s.hold v).entryAt id = s.entryAt id := fun id => by simp only [State.entryAt, entry_hold h]
  have hfree : ∀ id, (s.hold v).connectorFree id = s.connectorFree id := fun id => by
    simp only [State.connectorFree, entry_hold h]
  cases i <;> simp only [State.checks, hat, hfree] <;> rfl

theorem failedCheck_hold {s : State} (h : s.params.allocScope = .perController) (v : Vector Bool 16) (i : Instr) :
    (s.hold v).failedCheck i = s.failedCheck i := by
  unfold State.failedCheck
  rw [checks_hold h]
  rfl

/-- Settles O59: the same check fails, or the same effect runs, and no effect reads what other blocks hold. -/
theorem otherBlocksChannelsDoNotMatter : Obligations.OtherBlocksChannelsDoNotMatter := by
  unfold Obligations.OtherBlocksChannelsDoNotMatter
  intro i s t v hscope hex
  show exec i (s.hold v) = .next (t.hold v)
  rw [exec_eq] at hex ⊢
  rw [failedCheck_hold hscope]
  cases hc : s.failedCheck i with
  | some e =>
    obtain rfl : s.respond e 0#16 = t := by simpa [hc, resultOf] using hex
    rfl
  | none =>
    rw [hc] at hex
    simp only [resultOf, act_blind i s v] at hex ⊢
    cases ha : act i s with
    | ok a u =>
      obtain rfl : u.respond .ok a = t := by simpa [ha, endCommand_ok] using hex
      rfl
    | error e u =>
      obtain rfl : u.respond e 0#16 = t := by simpa [ha, endCommand_error] using hex
      rfl

end Sys2Proof.Machine
end

section
/-! PROOF. What the commands other than REG_WR and REG_BURST write (`20_memory.md` R97, `10_state.md` R46, R47): every
frame they send is of a listed form, a failed one too. -/

namespace Sys2Proof.Machine

variable {α β : Type}

/-! ## The frames a body sends -/

/-- The trace grows by events whose frames meet `P`. -/
def Sends (P : Frame → Prop) (s t : State) : Prop :=
  ∃ es, t.trace.flatten = s.trace.flatten ++ es ∧ ∀ e ∈ es, P e.frame

/-- A frame that is of a listed form if it is a write. -/
def Frame.listed (f : Frame) : Prop := ∀ a reg data, f = .write a reg data → listedWrite reg data

namespace Sends

variable {P : Frame → Prop}

theorem of_trace {s t : State} (h : t.trace.flatten = s.trace.flatten) : Sends P s t := ⟨[], by simp [h], by simp⟩

theorem refl (s : State) : Sends P s s := of_trace rfl

theorem trans (a b c : State) (h : Sends P a b) (k : Sends P b c) : Sends P a c := by
  obtain ⟨es, hes, hP⟩ := h
  obtain ⟨fs, hfs, hQ⟩ := k
  refine ⟨es ++ fs, by rw [hfs, hes, List.append_assoc], fun e he => ?_⟩
  rcases List.mem_append.mp he with he | he
  · exact hP e he
  · exact hQ e he

/-- An event joins the last group. -/
theorem record {s : State} {e : BusEvent} (h : P e.frame) : Sends P s (s.record e) := by
  refine ⟨[e], ?_, by simpa using h⟩
  rcases List.eq_nil_or_concat s.trace with h0 | ⟨gs, g, hg⟩
  · simp [State.record, h0]
  · simp [State.record, hg]

theorem bind {x : Cmd α} {f : α → Cmd β} (hx : Cmd.Keeps (Sends P) x) (hf : ∀ a, Cmd.Keeps (Sends P) (f a)) :
    Cmd.Keeps (Sends P) (x >>= f) := Cmd.Keeps.bind trans hx hf

theorem pure (a : α) : Cmd.Keeps (Sends P) (Pure.pure a : Cmd α) := Cmd.Keeps.pure refl a

theorem get : Cmd.Keeps (Sends P) (MonadState.get : Cmd State) := Cmd.Keeps.get refl

theorem update {f : State → State} (h : ∀ s, (f s).trace = s.trace) : Cmd.Keeps (Sends P) (update f) :=
  Cmd.Keeps.update fun s => of_trace (by rw [h])

theorem beginGroup : Cmd.Keeps (Sends P) beginGroup := Cmd.Keeps.update fun s => of_trace (by simp)

theorem emit {f : Frame} (h : P f) : Cmd.Keeps (Sends P) (emit f) := by
  refine Cmd.keeps_of_final fun s => ?_
  have hfin : (Machine.emit f).final s = (s.send f).2 := by
    simp only [Cmd.final, Machine.emit, Cmd.bind_run, Cmd.get_run, Cmd.set_run]
    cases (s.send f).1 <;> rfl
  rw [hfin]
  exact trans s _ _ (of_trace rfl) (record h)

theorem onlyIf (c : Bool) {x : Cmd Unit} (h : Cmd.Keeps (Sends P) x) : Cmd.Keeps (Sends P) (onlyIf c x) :=
  Cmd.Keeps.onlyIf refl c h

end Sends

/-! ## The listed forms -/

theorem listedWrite_pointer (reg : Byte) : listedWrite reg [] := .inl rfl

theorem listedWrite_mode1 (v : Byte) : listedWrite regMode1 [v] := .inr (.inl ⟨rfl, rfl⟩)

theorem listedWrite_preScale {p : Byte} (h : 3 ≤ p.toNat) : listedWrite regPreScale [p] :=
  .inr (.inr (.inl ⟨rfl, p, rfl, h⟩))

theorem listedWrite_channel (ch : Channel) (d : Duty) : listedWrite (regLed ch) (pattern d) :=
  .inr (.inr (.inr (.inl ⟨ch, rfl, pattern_length d⟩)))

theorem listedWrite_allLed : listedWrite regAllLed fullOff := .inr (.inr (.inr (.inr ⟨rfl, rfl⟩)))

/-- R171: a prescale is at least `PRESCALE_MIN`, and fits its byte. -/
theorem prescale_ge {h : Word} {p : Byte} (hp : prescale h = some p) : 3 ≤ p.toNat := by
  unfold prescale at hp
  split at hp
  · simp at hp
  · dsimp only at hp
    generalize (2 * prescaleNumerator + h.toNat) / (2 * h.toNat) = r at hp
    split at hp
    · simp at hp
    · next hr =>
      simp only [Config.prescaleMin, Config.prescaleMax, not_or, not_lt] at hr
      obtain rfl : BitVec.ofNat 8 (r - 1) = p := by simpa using hp
      rw [BitVec.toNat_ofNat]
      omega

/-- The body sends frames of the listed forms alone. -/
abbrev SendsListed (c : Cmd α) : Prop := Cmd.Keeps (Sends Frame.listed) c

namespace SendsListed

theorem emitWrite {reg : Byte} {data : List Byte} (h : listedWrite reg data) : SendsListed (emitWrite reg data) := by
  refine Sends.get.bind Sends.trans fun s => Sends.bind (Sends.emit ?_) fun _ => Sends.pure ()
  rintro _ _ _ ⟨⟩
  exact h

theorem emitRead : SendsListed emitRead := by
  refine Sends.get.bind Sends.trans fun s => Sends.emit ?_
  rintro _ _ _ ⟨⟩

theorem busWrite1 {reg v : Byte} (h : listedWrite reg [v]) : SendsListed (busWrite1 reg v) :=
  Sends.bind Sends.beginGroup fun _ => emitWrite h

theorem busRead1 (reg : Byte) : SendsListed (busRead1 reg) :=
  Sends.bind Sends.beginGroup fun _ => Sends.bind (emitWrite (listedWrite_pointer reg)) fun _ => emitRead

/-- A burst of a listed form; the AI repair before it writes MODE1 (R76). -/
theorem busBurst {start : Byte} {bs : List Byte} (h : listedWrite start bs) : SendsListed (busBurst start bs) :=
  Sends.bind Sends.beginGroup fun _ => Sends.bind (emitWrite (listedWrite_pointer _)) fun _ =>
    Sends.bind emitRead fun _ => Sends.bind (Sends.onlyIf _ (emitWrite (listedWrite_mode1 _))) fun _ => emitWrite h

theorem busSetBits (mask : Byte) {mark : State → State} (hm : ∀ s, (mark s).trace = s.trace) :
    SendsListed (busSetBits regMode1 mask mark) :=
  Sends.bind Sends.beginGroup fun _ => Sends.bind (emitWrite (listedWrite_pointer _)) fun _ =>
    Sends.bind emitRead fun _ => Sends.bind (Sends.update hm) fun _ => emitWrite (listedWrite_mode1 _)

theorem busSetBitsIfClear (mask : Byte) : SendsListed (busSetBitsIfClear regMode1 mask) :=
  Sends.bind Sends.beginGroup fun _ => Sends.bind (emitWrite (listedWrite_pointer _)) fun _ =>
    Sends.bind emitRead fun _ => Sends.onlyIf _ (emitWrite (listedWrite_mode1 _))

theorem busDelay (us : Nat) : SendsListed (busDelay us) :=
  Sends.bind Sends.beginGroup fun _ => Cmd.Keeps.update fun _ => Sends.record (by rintro _ _ _ ⟨⟩)

theorem resetSeq : SendsListed resetSeq :=
  Sends.bind (busWrite1 (listedWrite_mode1 _)) fun _ => Sends.bind (busDelay _) fun _ =>
    Sends.bind (busBurst listedWrite_allLed) fun _ => Sends.bind (Sends.update fun _ => rfl) fun _ =>
      busSetBitsIfClear _

theorem freqSeq {p : Byte} (hp : 3 ≤ p.toNat) : SendsListed (freqSeq p) :=
  Sends.bind (busSetBits _ fun _ => rfl) fun _ => Sends.bind (busWrite1 (listedWrite_preScale hp)) fun _ => resetSeq

theorem setDuty (ch : Channel) (d : Duty) : SendsListed (setDuty ch d) :=
  Sends.bind (Cmd.Keeps.check Sends.refl _ _) fun _ => Sends.bind (Sends.update fun _ => rfl) fun _ =>
    busBurst (listedWrite_channel ch d)

theorem setLine (ch : Channel) (b : Bool) : SendsListed (setLine ch b) := setDuty ch _

theorem setDirection (k : Conn) (forward : Bool) : SendsListed (setDirection k forward) := by
  cases forward
  · exact Sends.bind (setLine _ _) fun _ => setLine _ _
  · exact Sends.bind (setLine _ _) fun _ => setLine _ _

theorem bridgeSet (k : Conn) (d : Duty) : SendsListed (bridgeSet k d) :=
  Sends.bind Sends.get fun _ => Sends.bind (Sends.update fun _ => rfl) fun _ =>
    Sends.bind (Sends.onlyIf _ (setDuty _ _)) fun _ => Sends.bind (setDirection _ _) fun _ => setDuty _ _

end SendsListed

/-! ## Every command -/

theorem sendsListed_act {i : Instr} {s : State} (hc : s.failedCheck i = none) (hw : i.op ≠ .regWr)
    (hb : i.op ≠ .regBurst) : SendsListed (act i) := by
  have hpre : ∀ hz : Word, (prescale hz).isSome = true → 3 ≤ ((prescale hz).getD 0#8).toNat := fun hz h => by
    obtain ⟨p, hp⟩ := Option.isSome_iff_exists.mp h
    rw [hp]
    exact prescale_ge hp
  have hpass := checks_pass hc
  cases i with
  | regWr reg v => exact absurd rfl hw
  | regBurst reg data => exact absurd rfl hb
  | regRd reg => exact Sends.bind (SendsListed.busRead1 reg) fun _ => Sends.pure _
  | ctrlInit addr hz =>
    simp only [State.checks, List.forall_mem_cons] at hpass
    obtain ⟨-, -, hsome, -⟩ := hpass
    exact Sends.bind (Sends.update fun _ => rfl) fun _ => Sends.bind SendsListed.resetSeq fun _ =>
      Sends.bind (SendsListed.freqSeq (hpre hz hsome)) fun _ => Sends.bind (Sends.update fun _ => rfl) fun _ =>
        Sends.pure _
  | ctrlReset => exact Sends.bind SendsListed.resetSeq fun _ => Sends.pure _
  | ctrlFreq hz =>
    simp only [State.checks, List.forall_mem_cons] at hpass
    obtain ⟨hsome, -⟩ := hpass
    exact Sends.bind (SendsListed.freqSeq (hpre hz hsome)) fun _ => Sends.pure _
  | ctrlDuty id d => exact Sends.bind (SendsListed.busBurst (listedWrite_channel _ d)) fun _ => Sends.pure _
  | chBind id => exact Sends.bind (Sends.update fun _ => rfl) fun _ => Sends.pure _
  | chRelease id => exact Sends.bind (Sends.update fun _ => rfl) fun _ => Sends.pure _
  | chDuty id d => exact Sends.bind (SendsListed.setDuty _ d) fun _ => Sends.pure _
  | lineSet id b => exact Sends.bind (SendsListed.setLine _ b) fun _ => Sends.pure _
  | lineGet id => exact Sends.bind Sends.get fun _ => Sends.pure _
  | hbConfig id => exact Sends.bind (Sends.update fun _ => rfl) fun _ => Sends.pure _
  | hbSet id d => exact Sends.bind (SendsListed.bridgeSet _ d) fun _ => Sends.pure _
  | hbBrake id =>
    exact Sends.bind (SendsListed.setLine _ _) fun _ => Sends.bind (SendsListed.setLine _ _) fun _ => Sends.pure _
  | hbRelease id =>
    exact Sends.bind (SendsListed.setDuty _ _) fun _ => Sends.bind (SendsListed.setLine _ _) fun _ =>
      Sends.bind (SendsListed.setLine _ _) fun _ => Sends.pure _
  | hbGet id => exact Sends.bind Sends.get fun _ => Sends.pure _
  | seqConfig id bra brb n => exact Sends.bind (Sends.update fun _ => rfl) fun _ => Sends.pure _
  | seqStep id dir =>
    exact Sends.bind (Sends.update fun _ => rfl) fun _ => Sends.bind Sends.get fun _ =>
      Sends.bind (SendsListed.bridgeSet _ _) fun _ => Sends.bind (SendsListed.bridgeSet _ _) fun _ => Sends.pure _
  | seqRelease id =>
    exact Sends.bind Sends.get fun _ => Sends.bind (SendsListed.bridgeSet _ _) fun _ =>
      Sends.bind (SendsListed.bridgeSet _ _) fun _ => Sends.pure _
  | seqGet id => exact Sends.bind Sends.get fun _ => Sends.pure _

/-- Settles O20: the effect of the command sends listed frames alone, and the trace grows by what it sends. -/
theorem writeFramesAreOfTheListedForms : Obligations.WriteFramesAreOfTheListedForms := by
  unfold Obligations.WriteFramesAreOfTheListedForms
  intro i s t gs hex htrace hw hb e he a reg data hframe
  obtain ⟨es, hes, hlisted⟩ : Sends Frame.listed s t :=
    exec_related hex (Sends.refl s) (fun _ _ _ h => h) fun hc => (sendsListed_act hc hw hb).final s
  have hgs : gs.flatten = es := by
    rw [htrace, List.flatten_append] at hes
    exact List.append_cancel_left hes
  exact hlisted e (hgs ▸ he) a reg data hframe

end Sys2Proof.Machine
end

section
/-! PROOF. The machine right after reset (`10_state.md` R30, R42, `20_memory.md` R80). -/

namespace Sys2Proof.Machine

@[simp] theorem State.seq_reset (i : Nat) : State.reset.seq i = Seq.reset := by
  unfold State.seq State.reset
  rw [List.getD_eq_getElem?_getD, List.getElem?_replicate]
  split <;> rfl

/-- Every register R42 lists has the model's power-on value. -/
theorem powerOn_of_row {r : Nat} {v : Byte} (h : powerOnRow r = some v) : powerOn r = v := by
  unfold powerOnRow at h
  unfold powerOn
  by_cases hled : 0x06 ≤ r ∧ r ≤ 0x45
  · have hj : (r - 0x06) % 4 < 4 := Nat.mod_lt _ (by omega)
    rw [if_neg (by omega), if_neg (by omega), if_neg (by omega), if_neg (by omega), if_neg (by omega),
      if_neg (by omega), if_pos hled] at h
    rw [if_neg (by omega), if_neg (by omega), if_neg (by omega), if_neg (by omega), if_neg (by omega),
      if_neg (by omega), if_neg (by omega : ¬ r = 0xFE)]
    simp only [hled.1, hled.2, true_and]
    generalize (r - 0x06) % 4 = j at h hj ⊢
    interval_cases j <;> simpa using h
  · have hled3 : ¬ (0x06 ≤ r ∧ r ≤ 0x45 ∧ (r - 0x06) % 4 = 3) := fun h3 => hled ⟨h3.1, h3.2.1⟩
    rw [if_neg hled] at h
    rw [if_neg hled3]
    split_ifs at h ⊢ <;> simp_all

/-- Settles O11: each field is read off, and the device's memory lists no register, so each holds its power-on value. -/
theorem resetStateIsAsListed : Obligations.ResetStateIsAsListed := by
  unfold Obligations.ResetStateIsAsListed
  refine ⟨rfl, State.owner_reset, fun k => by rw [State.bridge_reset]; rfl, rfl, fun i => by rw [State.seq_reset]; rfl,
    rfl, _, rfl, rfl, fun r v hv => ?_⟩
  exact powerOn_of_row hv

end Sys2Proof.Machine
end

section
/-! PROOF. What a channel shows (`10_state.md` R44, R49, `20_memory.md` R92, `60_exceptions.md` R321,
`70_reset_and_hazards.md` R353): the view of the registers, and what the commands make of it on the reference bus. -/

namespace Sys2Proof.Machine

/-! ## The view of the registers -/

/-- A 12-bit count from its two registers (R44). -/
theorem count_eq (h l : Byte) : h.extractLsb' 0 4 ++ l = BitVec.ofNat 12 (h.toNat % 16 * 256 + l.toNat) := by
  apply BitVec.eq_of_toNat_eq
  have hl := l.isLt
  rw [BitVec.toNat_append, BitVec.toNat_ofNat, ← Nat.shiftLeft_add_eq_or_of_lt hl, Nat.shiftLeft_eq,
    BitVec.extractLsb'_toNat, Nat.shiftRight_zero]
  omega

theorem Device.ledReg_eq (d : Device) (n : Channel) (j : Nat) :
    d.ledReg n j = d.reg (BitVec.ofNat 8 (0x06 + 4 * n.val + j)) := by
  rw [Device.ledReg, regLed, ← BitVec.ofNat_add]

/-- R44, R49: the device's view is the statement's. -/
theorem Device.channelOutput_eq (d : Device) (n : Channel) : d.channelOutput n = outputOf d.reg n := by
  simp only [Device.channelOutput, Device.onCount, Device.offCount, count_eq, Device.ledReg_eq, outputOf, bitFull,
    bne_iff_ne]

theorem Device.output_eq (d : Device) (n : Channel) :
    d.output n = if d.reg 0x00#8 &&& 0x10#8 ≠ 0#8 then .stopped else outputOf d.reg n := by
  simp only [Device.output, Device.asleep, regMode1, bitSleep, bne_iff_ne, Device.channelOutput_eq]

theorem led_toNat (n : Channel) {j : Nat} (hj : j < 4) :
    (BitVec.ofNat 8 (0x06 + 4 * n.val + j)).toNat = 0x06 + 4 * n.val + j := by
  rw [BitVec.toNat_ofNat]
  exact Nat.mod_eq_of_lt (by omega)

theorem led_ne_mode1 (n : Channel) {j : Nat} (hj : j < 4) : BitVec.ofNat 8 (0x06 + 4 * n.val + j) ≠ regMode1 := by
  intro e
  have ht := led_toNat n hj
  rw [e, show regMode1.toNat = 0 from rfl] at ht
  omega

/-- Only the channel's own four registers matter to its output. -/
theorem outputOf_congr {f g : Byte → Byte} {n : Channel}
    (h : ∀ j < 4, f (BitVec.ofNat 8 (0x06 + 4 * n.val + j)) = g (BitVec.ofNat 8 (0x06 + 4 * n.val + j))) :
    outputOf f n = outputOf g n := by
  simp only [outputOf, h 0 (by omega), h 1 (by omega), h 2 (by omega), h 3 (by omega)]

/-- The output of four bytes in a channel's registers. -/
theorem outputOf_bytes {f : Byte → Byte} {n : Channel} {bs : List Byte}
    (h : ∀ j < 4, f (BitVec.ofNat 8 (0x06 + 4 * n.val + j)) = bs.getD j 0#8) :
    outputOf f n =
      if bs.getD 3 0#8 &&& 0x10#8 ≠ 0#8 then .low
      else if bs.getD 1 0#8 &&& 0x10#8 ≠ 0#8 then .high
      else .pwm (BitVec.ofNat 12 ((bs.getD 1 0#8).toNat % 16 * 256 + (bs.getD 0 0#8).toNat))
        (BitVec.ofNat 12 ((bs.getD 3 0#8).toNat % 16 * 256 + (bs.getD 2 0#8).toNat)) := by
  simp only [outputOf, h 0 (by omega), h 1 (by omega), h 2 (by omega), h 3 (by omega)]

/-- R179: the off-count of a duty strictly between 0 and ONE. -/
theorem offCount_eq (d : Duty) : offCount d = max 1 (d.toInt.toNat / 4) := by
  unfold offCount Config.one
  dsimp only
  split <;> omega

/-- The two bytes of a count (R70, R179): the high one has no override bit. -/
theorem countHigh_full (c : BitVec 12) : countHigh c &&& 0x10#8 = 0#8 := by
  unfold countHigh
  apply BitVec.eq_of_getElem_eq
  intro i hi
  interval_cases i <;> simp

theorem count_of_bytes (c : BitVec 12) : BitVec.ofNat 12 ((countHigh c).toNat % 16 * 256 + (countLow c).toNat) = c := by
  apply BitVec.eq_of_toNat_eq
  have hc := c.isLt
  simp only [countHigh, countLow, BitVec.toNat_ofNat, BitVec.toNat_setWidth, BitVec.extractLsb'_toNat,
    Nat.shiftRight_eq_div_pow]
  omega

/-- R179 with R49: what the pattern of a duty shows once it stands in the channel's registers. -/
theorem outputOf_pattern {f : Byte → Byte} {n : Channel} {d : Duty}
    (h : ∀ j < 4, f (BitVec.ofNat 8 (0x06 + 4 * n.val + j)) = (pattern d).getD j 0#8) :
    outputOf f n = dutyOutput d := by
  rw [outputOf_bytes h]
  by_cases h1 : 16384 ≤ d.toInt
  · rw [show pattern d = fullOn from if_pos h1, dutyOutput, if_pos h1]
    rfl
  · by_cases h0 : d.toInt ≤ 0
    · rw [show pattern d = fullOff from (if_neg h1).trans (if_pos h0), dutyOutput, if_neg h1, if_pos h0]
      rfl
    · rw [show pattern d = countBytes 0#12 (BitVec.ofNat 12 (offCount d)) from (if_neg h1).trans (if_neg h0), dutyOutput,
        if_neg h1, if_neg h0, offCount_eq]
      simp [countBytes, countHigh_full, count_of_bytes]

/-! ## The view of the machine -/

theorem State.output_none {s : State} {a : Addr} (h : findDevice s.devices a = none) (n : Channel) :
    s.output a n = none := by simp [State.output, h]

theorem State.output_some {s : State} {a : Addr} {d : Device} (h : findDevice s.devices a = some d) (n : Channel) :
    s.output a n = some (if a ∈ s.changing then Config.freeOutput s.responses.length s.events.length a n
      else d.output n) := by simp [State.output, h]

/-- Outside a frequency change the device's registers say it. -/
theorem State.output_steady {s : State} {a : Addr} {d : Device} (h : findDevice s.devices a = some d)
    (hch : a ∉ s.changing) (n : Channel) : s.output a n = some (d.output n) := by
  rw [State.output_some h, if_neg hch]

/-! ## A ResetSeq that ends with OK -/

/-- The reference bus with no other agent, every device in canonical form. -/
def State.OnReference (s : State) : Prop := s.quiet ∧ ∀ d ∈ s.devices, d.mem.wf

/-- On the reference bus, with every channel of the block's device low. -/
def State.AllLow (s : State) : Prop :=
  s.OnReference ∧ s.addr ∉ s.changing ∧ ∃ d, findDevice s.devices s.addr = some d ∧ ∀ n, d.output n = .low

theorem BusEffect.onReference {s t : State} {gs : List Group} (h : BusEffect s t gs) (hs : s.OnReference) :
    t.OnReference := ⟨(h.reference hs.1).1, h.wf hs.2⟩

/-- An acknowledged frame was sent to a device that is there (R91). -/
theorem ReferenceRun.device_of_success {ds ds' : List Device} {e : BusEvent} {es : List BusEvent} {a : Addr}
    (h : ReferenceRun ds (e :: es) ds') (he : e.frame.dest = some a) (hok : e.answer ≠ .fail) :
    ∃ d, findDevice ds a = some d := by
  obtain ⟨hans, -⟩ := h
  cases hd : findDevice ds a with
  | some d => exact ⟨d, rfl⟩
  | none => exact absurd (hans.trans (by simp [transact, he, hd])) hok

/-- R342, R343, R49: after a ResetSeq every channel is full-off, and the device is awake. -/
theorem output_of_resetRegs {d : Device} {f : Byte → Byte} (h : ∀ r, d.reg r = resetRegs f r) (n : Channel) :
    d.output n = .low := by
  have hmode : d.reg 0x00#8 = 0xA0#8 := by rw [h, resetRegs, if_pos (by rfl)]
  have hled : ∀ j < 4, d.reg (BitVec.ofNat 8 (0x06 + 4 * n.val + j)) = fullOff.getD j 0#8 := fun j hj => by
    have hn := n.isLt
    have ht := led_toNat n hj
    rw [h, resetRegs, if_neg (led_ne_mode1 n hj), ht, if_pos (by omega), show (0x06 + 4 * n.val + j - 0x06) % 4 = j by omega]
  rw [Device.output_eq, hmode, if_neg (by decide), outputOf_bytes hled]
  rfl

/-- R353: the ResetSeq also ends a frequency change. -/
theorem resetSeq_allLow :
    Cmd.Does State.OnReference resetSeq (fun _ => State.AllLow) (fun e _ => e = .transportError) := by
  intro s hs
  obtain ⟨t, gs, ht, -, ⟨hrun, hg, hok⟩ | ⟨hrun, -⟩⟩ := resetSeq_run s
  · rw [hrun]
    have hlen : gs.length = 4 := by obtain ⟨g, m, -, rfl⟩ := hg; rfl
    rw [if_pos hlen] at ht
    have hs' : (s.closeChange s.addr).OnReference := hs
    have haddr : t.addr = s.addr := ht.addr
    obtain ⟨-, href⟩ := ht.reference hs'.1
    obtain ⟨d, hd⟩ : ∃ d, findDevice s.devices s.addr = some d := by
      obtain ⟨g, m, -, rfl⟩ := hg
      exact ReferenceRun.device_of_success href rfl (hok _ (by simp))
    obtain ⟨d', hd', -, hreg, -⟩ := hg.reference href hd (hs.2 d (findDevice_mem hd))
    refine ⟨ht.onReference hs', ?_, d', haddr ▸ hd', output_of_resetRegs hreg⟩
    rw [ht.changing, haddr]
    simp
  · rw [hrun]

theorem GroupSpec.onReference {α : Type} {c : Cmd α} {S : Addr → α → Group → Prop} (h : GroupSpec c S) :
    Cmd.Does State.OnReference c (fun _ => State.OnReference) (fun e _ => e = .transportError) := by
  intro s hs
  obtain ⟨t, g, ht, -, ⟨v, hrun, -⟩ | ⟨hrun, -⟩⟩ := h s
  · rw [hrun]; exact ht.onReference hs
  · rw [hrun]

theorem setSleep_onReference (reg mask : Byte) :
    Cmd.Does State.OnReference (busSetBits reg mask (fun s => s.openChange s.addr)) (fun _ => State.OnReference)
      (fun e _ => e = .transportError) := by
  intro s hs
  obtain ⟨t, g, ht, -, -, ⟨hrun, -⟩ | ⟨hrun, -⟩⟩ := busSetBits_open reg mask s
  · rw [hrun]
    refine ht.onReference ?_
    split
    · exact hs
    · exact hs
  · rw [hrun]

/-- FreqSeq ends with a ResetSeq. -/
theorem freqSeq_allLow (p : Byte) :
    Cmd.Does State.OnReference (freqSeq p) (fun _ => State.AllLow) (fun e _ => e = .transportError) :=
  (setSleep_onReference _ _).bind fun _ => (GroupSpec.onReference (busWrite1_spec _ _)).bind fun _ => resetSeq_allLow

/-- Each of the three commands ends with a ResetSeq; what CTRL_INIT does after it, no output shows. -/
theorem controller_allLow {i : Instr} (hi : i.op ∈ [Op.ctrlInit, Op.ctrlReset, Op.ctrlFreq]) :
    Cmd.Does State.OnReference (act i) (fun _ => State.AllLow) (fun e _ => e = .transportError) := by
  cases i with
  | ctrlInit addr hz =>
    have haddr : Cmd.Does State.OnReference (update fun s => { s with addr := addr }) (fun _ => State.OnReference)
        (fun e _ => e = .transportError) := fun _ hs => hs
    exact haddr.bind fun _ =>
      (resetSeq_allLow.weaken (fun _ h => h) (fun _ _ h => h.1) (fun _ _ h => h)).bind fun _ =>
        (freqSeq_allLow _).bind fun _ => fun _ hs => hs
  | ctrlReset => exact resetSeq_allLow.bind fun _ => fun _ hs => hs
  | ctrlFreq hz => exact (freqSeq_allLow _).bind fun _ => fun _ hs => hs
  | _ => simp [Instr.op] at hi

/-- No check raises OK. -/
theorem failedCheck_ne_ok (i : Instr) (s : State) : s.failedCheck i ≠ some .ok := by
  have hlist : ∀ c ∈ s.checks i, c.2 ≠ .ok := by cases i <;> simp [State.checks]
  unfold State.failedCheck
  split
  · intro h
    obtain ⟨c, hc, he⟩ := Option.map_eq_some_iff.mp h
    exact hlist c (List.mem_of_find?_eq_some hc) he
  · simp

theorem controller_output_low {i : Instr} {s t : State} (hs : s.OnReference)
    (hi : i.op ∈ [Op.ctrlInit, Op.ctrlReset, Op.ctrlFreq]) (hex : exec i s = .next t)
    (hok : statusOf t.lastResponse = 0#8) (n : Channel) : t.output t.addr n = some .low := by
  have hrun := controller_allLow hi s hs
  obtain ⟨u, e, v, hu, -, hcase⟩ := exec_next i s
  obtain rfl : u.respond e v = t := by simpa [hu] using hex
  obtain rfl : e = .ok := by
    rw [statusOf_respond] at hok
    revert hok
    cases e <;> decide
  rcases hcase with ⟨hc, -⟩ | ⟨-, ⟨ha, -⟩ | ha⟩
  · exact absurd hc (failedCheck_ne_ok i s)
  · rw [ha] at hrun
    obtain ⟨-, hch, d, hd, hlow⟩ := hrun
    exact (State.output_steady (s := u.respond .ok v) hd hch n).trans (congrArg some (hlow n))
  · rw [ha] at hrun
    exact absurd hrun (by simp)

/-! ## Raw writes of MODE1, and CTRL_DUTY -/

theorem failedCheck_regWr {s : State} (hr : s.phase = .ready) (reg v : Byte) : s.failedCheck (.regWr reg v) = none := by
  rw [failedCheck_ready (Or.inr hr)]; rfl

theorem failedCheck_ctrlDuty {s : State} (hr : s.phase = .ready) {id : Byte} (hid : id.toNat < 16) (d : Duty) :
    s.failedCheck (.ctrlDuty id d) = none := by
  rw [failedCheck_ready (Or.inr hr)]
  simp [State.checks, firstOf, hid]

theorem State.OnReference.answers {s : State} {d : Device} (h : s.OnReference) (hd : findDevice s.devices s.addr = some d) :
    s.answers := by
  obtain ⟨⟨hrep, -⟩, -⟩ := h
  exact ⟨by rw [hd]; rfl, by simp [hrep]⟩

/-- R321: SLEEP in a raw write stops the outputs; without it they are the registers'. -/
theorem regWr_mode1_output {s : State} {d : Device} (hs : s.OnReference) (hr : s.phase = .ready)
    (hch : s.addr ∉ s.changing) (hd : findDevice s.devices s.addr = some d) (v : Byte) (n : Channel) :
    ∃ t, exec (.regWr 0x00#8 v) s = .next t ∧
      t.output s.addr n = some (if v &&& 0x10#8 ≠ 0#8 then .stopped else outputOf d.reg n) := by
  have hw := hs.2 d (findDevice_mem hd)
  obtain ⟨_, t, g, hrun, ht, rfl⟩ := (busWrite1_spec regMode1 v).ok (hs.answers hd)
  have hact : act (.regWr 0x00#8 v) s = .ok 0#16 t := by
    show (busWrite1 regMode1 v >>= fun _ => pure 0#16 : Cmd (BitVec 16)) s = _
    rw [Cmd.bind_run, hrun]; rfl
  refine ⟨_, exec_of_checks_pass (failedCheck_regWr hr _ v) hact, ?_⟩
  obtain ⟨-, href⟩ := ht.reference hs.1
  obtain ⟨-, p, hd'⟩ := ReferenceRun.writeMode1 (by simpa using href) hd
  have hreg : ∀ r, Device.reg { d.setReg regMode1 v with ptr := p } r = if r = regMode1 then v else d.reg r :=
    fun r => by rw [Device.reg_ptr, Device.reg_setReg hw]
  have hmode : Device.reg { d.setReg regMode1 v with ptr := p } 0x00#8 = v := (hreg 0x00#8).trans (if_pos rfl)
  rw [State.output_steady (s := t.respond .ok 0#16) hd' (by simpa [ht.changing] using hch), Device.output_eq, hmode,
    outputOf_congr (g := d.reg) fun j hj => by rw [hreg, if_neg (led_ne_mode1 n hj)]]

/-- The registers of a channel after a burst: the bytes in its own, the old ones in any other's. -/
theorem storeBurst_led (f : Byte → Byte) (b : Burst) (n : Channel) {j : Nat} (hj : j < 4) :
    storeBurst f b (BitVec.ofNat 8 (0x06 + 4 * n.val + j)) =
      if n = b.1 then b.2.getD j 0#8 else f (BitVec.ofNat 8 (0x06 + 4 * n.val + j)) := by
  have hn := n.isLt
  have hb := b.1.isLt
  have ht := led_toNat n hj
  have hsub : (BitVec.ofNat 8 (0x06 + 4 * n.val + j) - regLed b.1).toNat =
      (256 - (6 + 4 * b.1.val) + (6 + 4 * n.val + j)) % 256 := by
    rw [BitVec.toNat_sub, ht, regLed_toNat]
  rw [storeBurst, if_neg (led_ne_mode1 n hj), hsub]
  by_cases h : n = b.1
  · subst h
    rw [if_pos (by omega), if_pos rfl, show (256 - (6 + 4 * b.1.val) + (6 + 4 * b.1.val + j)) % 256 = j by omega]
  · have hne : n.val ≠ b.1.val := fun e => h (Fin.ext e)
    rw [if_neg (by omega), if_neg h]

/-- A burst of a duty changes its own channel's output alone; SLEEP is kept (R76, R181). -/
theorem Device.output_channelBurst {d : Device} (hw : d.mem.wf) (c : Channel) (duty : Duty) (n : Channel) :
    (d.burst (regLed c) (pattern duty)).output n =
      if d.reg 0x00#8 &&& 0x10#8 ≠ 0#8 then .stopped
      else if n = c then dutyOutput duty else outputOf d.reg n := by
  have hreg : ∀ r, (d.burst (regLed c) (pattern duty)).reg r = storeBurst d.reg (c, pattern duty) r :=
    fun r => Device.reg_channelBurst hw c (pattern_length duty) r
  have hsleep : (d.burst (regLed c) (pattern duty)).reg 0x00#8 &&& 0x10#8 = d.reg 0x00#8 &&& 0x10#8 := by
    rw [hreg, storeBurst, if_pos (by rfl)]
    generalize d.reg 0x00#8 = m
    revert m; decide
  rw [Device.output_eq, hsleep]
  congr 1
  split
  · next h => exact outputOf_pattern fun j hj => by rw [hreg, storeBurst_led _ _ _ hj, if_pos h]
  · next h => exact outputOf_congr fun j hj => by rw [hreg, storeBurst_led _ _ _ hj, if_neg h]

theorem ctrlDuty_output {s : State} {d : Device} (hs : s.OnReference) (hr : s.phase = .ready)
    (hch : s.addr ∉ s.changing) (hd : findDevice s.devices s.addr = some d) {id : Byte} (hid : id.toNat < 16)
    (duty : Duty) (n : Channel) :
    ∃ t, exec (.ctrlDuty id duty) s = .next t ∧
      t.output s.addr n = some (
        if d.reg 0x00#8 &&& 0x10#8 ≠ 0#8 then .stopped
        else if n.val = id.toNat then dutyOutput duty
        else outputOf d.reg n) ∧
      ∀ a, a ≠ s.addr → a ∉ s.changing → t.output a n = s.output a n := by
  have hw := hs.2 d (findDevice_mem hd)
  obtain ⟨_, t, g, hrun, ht, hg⟩ := (busBurst_spec (regLed (chan id)) (pattern duty)).ok (hs.answers hd)
  have hact : act (.ctrlDuty id duty) s = .ok 0#16 t := by
    rw [act, Cmd.bind_run, hrun]; rfl
  obtain ⟨-, href⟩ := ht.reference hs.1
  obtain ⟨hd', hother, -⟩ := hg.reference (by simpa using href) hd
  have hchan : n = chan id ↔ n.val = id.toNat := by rw [chan_eq hid, Fin.ext_iff]
  refine ⟨_, exec_of_checks_pass (failedCheck_ctrlDuty hr hid duty) hact, ?_, fun a ha hach => ?_⟩
  · rw [State.output_steady (s := t.respond .ok 0#16) hd' (by simpa [ht.changing] using hch),
      Device.output_channelBurst hw]
    simp only [hchan]
  · have hsame : findDevice (t.respond .ok 0#16).devices a = findDevice s.devices a := hother a ha
    cases hf : findDevice s.devices a with
    | none => rw [State.output_none hf, State.output_none (hsame.trans hf)]
    | some d' =>
      rw [State.output_steady hf hach, State.output_steady (hsame.trans hf) (by simpa [ht.changing] using hach)]

/-- Settles O35: the view is that of the registers, the controller commands end with a ResetSeq, and the two raw writes
change the registers R84 and R181 say. -/
theorem outputsFollowTheRegisters : Obligations.OutputsFollowTheRegisters := by
  unfold Obligations.OutputsFollowTheRegisters
  intro s a ch
  refine ⟨fun h => State.output_none h ch, fun d hd => ?_, fun hquiet hwf => ⟨fun i t hi hex hok => ?_, ?_⟩⟩
  · rw [State.output_some hd, Device.output_eq]
  · exact controller_output_low ⟨hquiet, hwf⟩ hi hex hok ch
  · intro hr hch d hd
    refine ⟨fun v => regWr_mode1_output ⟨hquiet, hwf⟩ hr hch hd v ch, fun id duty hid => ?_⟩
    obtain ⟨t, hex, hown, hother⟩ := ctrlDuty_output ⟨hquiet, hwf⟩ hr hch hd hid duty ch
    exact ⟨t, hex, hown, hother a⟩

end Sys2Proof.Machine
end

section
/-! PROOF. One pass over every command for what bus traffic alone decides: a law that the primitives of `20_memory.md` R74
to R79 meet, with the most frames each sends, and that is kept by composition, holds of every command's effect. -/

namespace Sys2Proof.Machine

/-! ## Laws about bus traffic -/

/-- A write of block fields: it keeps the trace and the answers to come, and neither reads nor writes the devices. -/
structure BlockWrite (f : State → State) : Prop where
  trace : ∀ s, (f s).trace = s.trace := by intros; rfl
  replies : ∀ s, (f s).replies = s.replies := by intros; rfl
  devices : ∀ s ds, f { s with devices := ds } = { f s with devices := ds } := by intros; rfl

/-- A law about bodies, by a bound on the frames they send: pseudocode composes it, and each bus primitive meets it with
its own most frames (R74 to R79). The register contents are seen through frames alone (R106), so a body that reads the
state goes on alike whatever the devices hold. -/
structure BusLaw (P : {α : Type} → Nat → Cmd α → Prop) : Prop where
  mono : ∀ {α m n} {c : Cmd α}, m ≤ n → P m c → P n c
  pure : ∀ {α} (a : α), P 0 (Pure.pure a : Cmd α)
  check : ∀ ok e, P 0 (check ok e)
  bind : ∀ {α β m n} {x : Cmd α} {f : α → Cmd β}, P m x → (∀ a, P n (f a)) → P (m + n) (x >>= f)
  get : ∀ {α n} {f : State → Cmd α}, (∀ s ds, f { s with devices := ds } = f s) → (∀ s, P n (f s)) →
    P n (MonadState.get >>= f)
  update : ∀ {f}, BlockWrite f → P 0 (update f)
  write1 : ∀ reg v, P 1 (busWrite1 reg v)
  read1 : ∀ reg, P 2 (busRead1 reg)
  burst : ∀ start bs, P 4 (busBurst start bs)
  setSleep : ∀ reg mask, P 3 (busSetBits reg mask (fun s => s.openChange s.addr))
  setIfClear : ∀ reg mask, P 3 (busSetBitsIfClear reg mask)
  delay : ∀ us, P 0 (busDelay us)

namespace BusLaw

variable {P : {α : Type} → Nat → Cmd α → Prop} (hP : BusLaw P) {α β : Type}
include hP

theorem andReturn {n : Nat} {x : Cmd β} (hx : P n x) (f : β → α) : P n (x >>= fun b => Pure.pure (f b)) :=
  hP.bind hx fun b => hP.pure (f b)

theorem onlyIf {n : Nat} (c : Bool) {x : Cmd Unit} (hx : P n x) : P n (onlyIf c x) := by
  cases c
  · exact hP.mono (Nat.zero_le n) (hP.pure ())
  · exact hx

/-- A write of block fields at the head of a body. -/
theorem updateThen {n : Nat} {f : State → State} (hf : BlockWrite f) {c : Cmd α} (hc : P n c) :
    P n (Machine.update f >>= fun _ => c) := by
  have h := hP.bind (hP.update hf) fun _ => hc
  rwa [Nat.zero_add] at h

/-! ## The shared operations -/

/-- R170: at most 8 frames. -/
theorem resetSeq : P 8 resetSeq :=
  hP.bind (hP.write1 _ _) fun _ => hP.bind (hP.delay _) fun _ => hP.bind (hP.burst _ _) fun _ =>
    hP.updateThen {} (hP.setIfClear _ _)

/-- R172: at most 12 frames. -/
theorem freqSeq (p : Byte) : P 12 (freqSeq p) :=
  hP.bind (hP.setSleep _ _) fun _ => hP.bind (hP.write1 _ _) fun _ => hP.resetSeq

/-- R209: one burst. -/
theorem setDuty (ch : Channel) (d : Duty) : P 4 (setDuty ch d) :=
  hP.bind (hP.check _ _) fun _ => hP.updateThen {} (hP.burst _ _)

theorem setLine (ch : Channel) (b : Bool) : P 4 (setLine ch b) := hP.setDuty ch _

theorem setDirection (k : Conn) (forward : Bool) : P 8 (setDirection k forward) := by
  cases forward
  · exact hP.bind (hP.setLine _ _) fun _ => hP.setLine _ _
  · exact hP.bind (hP.setLine _ _) fun _ => hP.setLine _ _

/-- R234: at most four bursts. -/
theorem bridgeSet (k : Conn) (d : Duty) : P 16 (bridgeSet k d) :=
  hP.get (fun _ _ => rfl) fun _ => hP.updateThen {} <|
    hP.bind (hP.onlyIf _ (hP.setDuty _ _)) fun _ => hP.bind (hP.setDirection _ _) fun _ => hP.setDuty _ _

/-! ## Every command -/

/-- R324: the law holds of every command's effect with 32 frames, which two BridgeSets may send. -/
theorem act (i : Instr) : P 32 (act i) := by
  cases i with
  | regWr reg v => exact hP.mono (by decide) (hP.andReturn (hP.write1 _ _) _)
  | regRd reg => exact hP.mono (by decide) (hP.andReturn (hP.read1 _) _)
  | regBurst reg data => exact hP.mono (by decide) (hP.andReturn (hP.burst _ _) _)
  | ctrlInit addr hz =>
    exact hP.mono (by decide) <| hP.updateThen {} <| hP.bind hP.resetSeq fun _ =>
      hP.bind (hP.freqSeq _) fun _ => hP.updateThen {} (hP.pure _)
  | ctrlReset => exact hP.mono (by decide) (hP.andReturn hP.resetSeq _)
  | ctrlFreq hz => exact hP.mono (by decide) (hP.andReturn (hP.freqSeq _) _)
  | ctrlDuty id d => exact hP.mono (by decide) (hP.andReturn (hP.burst _ _) _)
  | chBind id => exact hP.mono (by decide) (hP.updateThen {} (hP.pure _))
  | chRelease id => exact hP.mono (by decide) (hP.updateThen {} (hP.pure _))
  | chDuty id d => exact hP.mono (by decide) (hP.andReturn (hP.setDuty _ _) _)
  | lineSet id b => exact hP.mono (by decide) (hP.andReturn (hP.setLine _ _) _)
  | lineGet id => exact hP.mono (by decide) (hP.get (fun _ _ => rfl) fun _ => hP.pure _)
  | hbConfig id => exact hP.mono (by decide) (hP.updateThen {} (hP.pure _))
  | hbSet id d => exact hP.mono (by decide) (hP.andReturn (hP.bridgeSet _ _) _)
  | hbBrake id =>
    exact hP.mono (by decide) <| hP.bind (hP.setLine _ _) fun _ => hP.andReturn (hP.setLine _ _) _
  | hbRelease id =>
    exact hP.mono (by decide) <| hP.bind (hP.setDuty _ _) fun _ => hP.bind (hP.setLine _ _) fun _ =>
      hP.andReturn (hP.setLine _ _) _
  | hbGet id => exact hP.mono (by decide) (hP.get (fun _ _ => rfl) fun _ => hP.pure _)
  | seqConfig id bra brb n => exact hP.mono (by decide) (hP.updateThen {} (hP.pure _))
  | seqStep id dir =>
    exact hP.updateThen {} <| hP.get (fun _ _ => rfl) fun _ =>
      hP.bind (hP.bridgeSet _ _) fun _ => hP.andReturn (hP.bridgeSet _ _) _
  | seqRelease id =>
    exact hP.get (fun _ _ => rfl) fun _ => hP.bind (hP.bridgeSet _ _) fun _ => hP.andReturn (hP.bridgeSet _ _) _
  | seqGet id => exact hP.mono (by decide) (hP.get (fun _ _ => rfl) fun _ => hP.pure _)

end BusLaw

end Sys2Proof.Machine
end

section
/-! PROOF. A failed frame is the last of its command, no group is empty, and every frame goes to the block's address
(`20_memory.md` R73, R79, `10_state.md` R32, `60_exceptions.md` R306). -/

namespace Sys2Proof.Machine

/-! ## No group is empty -/

/-- The trace grows by groups that each hold an event (R73). -/
def GrowsByGroups (s t : State) : Prop := ∃ gs, t.trace = s.trace ++ gs ∧ ∀ g ∈ gs, g ≠ []

theorem FailsAtEnd.ne_nil {es : List BusEvent} (h : FailsAtEnd es) : es ≠ [] := by
  obtain ⟨ds, f, rfl, -⟩ := h
  simp

namespace GrowsByGroups

theorem of_trace {s t : State} (h : t.trace = s.trace) : GrowsByGroups s t := ⟨[], by simp [h], by simp⟩

theorem refl (s : State) : GrowsByGroups s s := of_trace rfl

theorem trans (a b c : State) (h : GrowsByGroups a b) (k : GrowsByGroups b c) : GrowsByGroups a c := by
  obtain ⟨gs, hgs, hne⟩ := h
  obtain ⟨hs, hhs, hne'⟩ := k
  exact ⟨gs ++ hs, by rw [hhs, hgs, List.append_assoc], fun g hg => (List.mem_append.mp hg).elim (hne g) (hne' g)⟩

theorem one {s t : State} {g : Group} (h : t.trace = s.trace ++ [g]) (hg : g ≠ []) : GrowsByGroups s t :=
  ⟨[g], h, by simpa using hg⟩

theorem group {α : Type} {c : Cmd α} {S : Addr → α → Group → Prop} (h : GroupSpec c S)
    (hS : ∀ a v g, S a v g → g ≠ []) : Cmd.Keeps GrowsByGroups c := by
  intro s
  obtain ⟨t, g, ht, -, ⟨v, hv, hshape, -⟩ | ⟨he, hfail, -⟩⟩ := h s
  · rw [hv]; exact one ht.trace (hS _ _ _ hshape)
  · rw [he]; exact one ht.trace hfail.ne_nil

/-- R77: the group of the frame that sets SLEEP. -/
theorem setSleep (reg mask : Byte) :
    Cmd.Keeps GrowsByGroups (busSetBits reg mask (fun s => s.openChange s.addr)) := by
  intro s
  obtain ⟨t, g, ht, -, -, hrun⟩ := busSetBits_open reg mask s
  have htr : t.trace = s.trace ++ [g] := by rw [ht.trace]; split <;> rfl
  rcases hrun with ⟨hv, m, rfl⟩ | ⟨he, hfail, -⟩
  · rw [hv]; exact one htr (by simp)
  · rw [he]; exact one htr hfail.ne_nil

theorem busDelay (us : Nat) : Cmd.Keeps GrowsByGroups (busDelay us) := by
  intro s
  obtain ⟨t, hrun, ht⟩ := busDelay_spec us s
  rw [hrun]
  exact one ht.trace (by simp)

theorem busLaw : BusLaw (fun _ c => Cmd.Keeps GrowsByGroups c) where
  mono := fun _ h => h
  pure := fun a => Cmd.Keeps.pure refl a
  check := fun ok e => Cmd.Keeps.check refl ok e
  bind := fun hx hf => Cmd.Keeps.bind trans hx hf
  get := fun _ hf => Cmd.Keeps.bind trans (Cmd.Keeps.get refl) hf
  update := fun hf => Cmd.Keeps.update fun s => of_trace (hf.trace s)
  write1 := fun reg v => group (busWrite1_spec reg v) fun _ _ _ h => by simp [h]
  read1 := fun reg => group (busRead1_spec reg) fun _ _ _ h => by simp [h]
  burst := fun start bs => group (busBurst_spec start bs) fun _ _ _ ⟨_, h⟩ => by simp [h]
  setSleep := setSleep
  setIfClear := fun reg mask => group (busSetBitsIfClear_spec reg mask) fun _ _ _ ⟨_, h⟩ => by simp [h]
  delay := busDelay

end GrowsByGroups

/-! ## How a command's trace ends -/

/-- Every effect is a body whose trace is known, run from a state with the same trace: CTRL_INIT from the one with its
address. -/
theorem act_traced_from (i : Instr) (s : State) :
    ∃ (c : Cmd (BitVec 16)) (s' : State), act i s = c s' ∧ Traced c ∧ s'.trace = s.trace := by
  by_cases hi : i.op = .ctrlInit
  · obtain ⟨addr, hz, rfl⟩ := eq_ctrlInit hi
    exact ⟨_, { s with addr := addr }, rfl, Traced.resetSeq.bind fun _ => (Traced.freqSeq _).bind fun _ =>
      (Traced.update (by intro; rfl) (by intro; rfl)).bind fun _ => Traced.pure _, rfl⟩
  · exact ⟨act i, s, rfl, act_traced hi, rfl⟩

/-- What the trace of a body shows by the status it ends with. -/
theorem Traced.ends {c : Cmd (BitVec 16)} (hc : Traced c) {s u : State} {e : Status} {v : BitVec 16}
    (hrun : (c s = .ok v u ∧ e = .ok) ∨ c s = .error e u) :
    ∃ gs, u.trace = s.trace ++ gs ∧ (∀ ev ∈ gs.flatten, ev.frame.dest = some u.addr ∨ ev.frame.dest = none) ∧
      (if e = .transportError then FailsAtEnd gs.flatten else ∀ ev ∈ gs.flatten, ev.answer ≠ .fail) := by
  obtain ⟨gs, h⟩ := hc s
  rcases hrun with ⟨hok, rfl⟩ | herr
  · rw [hok] at h
    obtain ⟨htrace, haddr, hdest, hno⟩ := h
    exact ⟨gs, htrace, haddr ▸ hdest, by rwa [if_neg (by decide)]⟩
  · rw [herr] at h
    obtain ⟨htrace, haddr, hdest, ⟨he, hfail⟩ | ⟨he, hno⟩⟩ := h
    · exact ⟨gs, htrace, haddr ▸ hdest, by rwa [if_pos he]⟩
    · exact ⟨gs, htrace, haddr ▸ hdest, by rwa [if_neg he]⟩

/-- No check raises TRANSPORT_ERROR. -/
theorem failedCheck_ne_transportError (i : Instr) (s : State) : s.failedCheck i ≠ some .transportError := by
  have hlist : ∀ c ∈ s.checks i, c.2 ≠ .transportError := by cases i <;> simp [State.checks]
  unfold State.failedCheck
  split
  · intro h
    obtain ⟨c, hc, he⟩ := Option.map_eq_some_iff.mp h
    exact hlist c (List.mem_of_find?_eq_some hc) he
  · simp

theorem Status.code_transportError (e : Status) : e.code = 3#8 ↔ e = .transportError := by
  cases e <;> decide

/-- Settles O17: a failed check sends nothing; otherwise the effect's trace is known, and its groups are not empty. -/
theorem failedFrameEndsTheCommand : Obligations.FailedFrameEndsTheCommand := by
  unfold Obligations.FailedFrameEndsTheCommand
  intro i s t r hex hresp
  have hgrow : GrowsByGroups s t :=
    exec_related hex (GrowsByGroups.refl s) (fun _ _ _ h => h) fun _ => (GrowsByGroups.busLaw.act i).final s
  obtain ⟨gs, htr, hne⟩ := hgrow
  obtain ⟨u, e, v, hu, -, hcase⟩ := exec_next i s
  obtain rfl : u.respond e v = t := by simpa [hu] using hex
  have hstatus : statusOf r = e.code := by
    rw [← statusOf_respond u e v, State.lastResponse, hresp, List.getLastD_concat]
  refine ⟨gs, htr, hne, ?_⟩
  simp only [hstatus, Status.code_transportError]
  rcases hcase with ⟨hc, rfl⟩ | ⟨-, hact⟩
  · obtain rfl : gs = [] := by simpa using htr
    have he : e ≠ .transportError := fun he => failedCheck_ne_transportError i u (he ▸ hc)
    simp [he]
  · obtain ⟨c, s', hrun, htraced, hs'⟩ := act_traced_from i s
    rw [hrun] at hact
    obtain ⟨hs, htr', hdest, hend⟩ := htraced.ends hact
    obtain rfl : hs = gs := List.append_cancel_left (htr'.symm.trans (hs' ▸ htr))
    exact ⟨hdest, hend⟩

end Sys2Proof.Machine
end

section
/-! PROOF. A command depends on the devices only through the bus's answers (`20_memory.md` R96, R106): with its answers
given, every body runs alike whatever the devices hold. -/

namespace Sys2Proof.Machine

variable {α β : Type}

/-- The state with other devices on the bus. -/
def State.withDevices (s : State) (ds : List Device) : State := { s with devices := ds }

/-- The same end of a body, with other devices on the bus. -/
def Cmd.devicesEnd (ds : List Device) : EStateM.Result Status State α → EStateM.Result Status State α
  | .ok a t => .ok a (t.withDevices ds)
  | .error e t => .error e (t.withDevices ds)

/-- The bus's answers to the next `n` frames are given, none left to the reference devices. -/
def State.Answered (s : State) (n : Nat) : Prop := (∀ r ∈ s.replies, r ≠ .reference) ∧ n ≤ s.replies.length

theorem State.Answered.of_drop {s t : State} {m n k : Nat} (h : s.Answered (m + n)) (hk : k ≤ m)
    (ht : t.replies = s.replies.drop k) : t.Answered n := by
  obtain ⟨hgiven, hlen⟩ := h
  refine ⟨fun r hr => hgiven r (List.mem_of_mem_drop (ht ▸ hr)), ?_⟩
  rw [ht, List.length_drop]
  omega

theorem State.Answered.mono {s : State} {m n : Nat} (h : s.Answered n) (hmn : m ≤ n) : s.Answered m :=
  ⟨h.1, hmn.trans h.2⟩

/-- With the answers to `n` frames given, the body takes at most so many and ends alike whatever the devices hold. -/
def Cmd.Oblivious (n : Nat) (c : Cmd α) : Prop :=
  ∀ s : State, s.Answered n → (∃ m ≤ n, (c.final s).replies = s.replies.drop m) ∧
    ∀ ds, ∃ ds', c (s.withDevices ds) = Cmd.devicesEnd ds' (c s)

/-- A given answer is the frame's answer, whatever the devices hold (R96). -/
theorem transact_answer_given {r : Reply} (hr : r ≠ .reference) (ds ds' : List Device) (f : Frame) :
    (transact ds f r).1 = (transact ds' f r).1 := by
  unfold transact
  cases f.dest with
  | none => rfl
  | some a =>
    cases r with
    | reference => exact absurd rfl hr
    | answer v => rfl
    | fail regs ptr => rfl

namespace Cmd.Oblivious

theorem mono {m n : Nat} {c : Cmd α} (hmn : m ≤ n) (h : Cmd.Oblivious m c) : Cmd.Oblivious n c := by
  intro s hs
  obtain ⟨⟨k, hk, hrep⟩, hdev⟩ := h s (hs.mono hmn)
  exact ⟨⟨k, hk.trans hmn, hrep⟩, hdev⟩

theorem pure (a : α) : Cmd.Oblivious 0 (Pure.pure a : Cmd α) := fun _ _ => ⟨⟨0, le_refl 0, rfl⟩, fun ds => ⟨ds, rfl⟩⟩

theorem throw (e : Status) : Cmd.Oblivious 0 (MonadExcept.throw e : Cmd α) :=
  fun _ _ => ⟨⟨0, le_refl 0, rfl⟩, fun ds => ⟨ds, rfl⟩⟩

theorem check (ok : Bool) (e : Status) : Cmd.Oblivious 0 (check ok e) := by
  cases ok
  · exact Oblivious.throw e
  · exact Oblivious.pure ()

theorem bind {m n : Nat} {x : Cmd α} {f : α → Cmd β} (hx : Cmd.Oblivious m x) (hf : ∀ a, Cmd.Oblivious n (f a)) :
    Cmd.Oblivious (m + n) (x >>= f) := by
  intro s hs
  obtain ⟨⟨k, hk, hrep⟩, hdev⟩ := hx s (hs.mono (Nat.le_add_right m n))
  cases hr : x s with
  | error e t =>
    have hfin : (x >>= f).final s = x.final s := by rw [Cmd.final_error hr, Cmd.final, Cmd.bind_run, hr]
    refine ⟨⟨k, hk.trans (Nat.le_add_right m n), by rw [hfin, hrep]⟩, fun ds => ?_⟩
    obtain ⟨ds', hds⟩ := hdev ds
    exact ⟨ds', by rw [Cmd.bind_run, Cmd.bind_run, hds, hr]; rfl⟩
  | ok a t =>
    rw [Cmd.final_ok hr] at hrep
    have hfin : (x >>= f).final s = (f a).final t := by simp only [Cmd.final, Cmd.bind_run, hr]
    obtain ⟨⟨l, hl, hrep'⟩, hdev'⟩ := hf a t (hs.of_drop hk hrep)
    refine ⟨⟨k + l, Nat.add_le_add hk hl, by rw [hfin, hrep', hrep, List.drop_drop]⟩, fun ds => ?_⟩
    obtain ⟨ds', hds⟩ := hdev ds
    obtain ⟨ds'', hds'⟩ := hdev' ds'
    exact ⟨ds'', by rw [Cmd.bind_run, Cmd.bind_run, hds, hr]; exact hds'⟩

theorem get {n : Nat} {f : State → Cmd α} (hread : ∀ s ds, f { s with devices := ds } = f s)
    (hf : ∀ s, Cmd.Oblivious n (f s)) : Cmd.Oblivious n (MonadState.get >>= f) := by
  intro s hs
  obtain ⟨hrep, hdev⟩ := hf s s hs
  refine ⟨hrep, fun ds => ?_⟩
  obtain ⟨ds', hds⟩ := hdev ds
  refine ⟨ds', ?_⟩
  show f (s.withDevices ds) (s.withDevices ds) = _
  rw [State.withDevices, hread]
  exact hds

theorem update {f : State → State} (hrep : ∀ s, (f s).replies = s.replies)
    (hdev : ∀ s ds, f (State.withDevices s ds) = (f s).withDevices ds) : Cmd.Oblivious 0 (update f) :=
  fun s _ => ⟨⟨0, le_refl 0, hrep s⟩, fun ds => ⟨ds, congrArg (EStateM.Result.ok ()) (hdev s ds)⟩⟩

theorem onlyIf {n : Nat} (c : Bool) {x : Cmd Unit} (hx : Cmd.Oblivious n x) : Cmd.Oblivious n (onlyIf c x) := by
  cases c
  · exact (Oblivious.pure ()).mono (Nat.zero_le n)
  · exact hx

/-! ## The bus -/

theorem emit (f : Frame) : Cmd.Oblivious 1 (emit f) := by
  intro s ⟨hgiven, hlen⟩
  have hfin : (Machine.emit f).final s = (s.send f).2 := by
    simp only [Cmd.final, Machine.emit, Cmd.bind_run, Cmd.get_run, Cmd.set_run]
    cases (s.send f).1 <;> rfl
  refine ⟨⟨1, le_refl 1, by rw [hfin, List.drop_one]; rfl⟩, fun ds => ⟨((s.withDevices ds).send f).2.devices, ?_⟩⟩
  obtain ⟨r, rs, hrep⟩ := List.exists_cons_of_length_pos hlen
  have hr : s.replies.headD .reference ≠ .reference := by
    rw [hrep]; exact hgiven r (by simp [hrep])
  have hans : ((s.withDevices ds).send f).1 = (s.send f).1 := transact_answer_given hr ds s.devices f
  have hsend : ((s.withDevices ds).send f).2 = (s.send f).2.withDevices ((s.withDevices ds).send f).2.devices := by
    simp only [State.send] at hans ⊢
    rw [hans]
    rfl
  simp only [Machine.emit, Cmd.bind_run, Cmd.get_run, Cmd.set_run, hans]
  rw [hsend]
  cases (s.send f).1 <;> rfl

theorem emitWrite (reg : Byte) (data : List Byte) : Cmd.Oblivious 1 (emitWrite reg data) :=
  Oblivious.get (fun _ _ => rfl) fun _ => (Oblivious.emit _).bind fun _ => Oblivious.pure ()

theorem emitRead : Cmd.Oblivious 1 emitRead := Oblivious.get (fun _ _ => rfl) fun _ => Oblivious.emit _

/-- Other agents' frames reach whatever devices there are, and take none of the block's answers (R102). -/
theorem beginGroup : Cmd.Oblivious 0 beginGroup :=
  fun s _ => ⟨⟨0, le_refl 0, rfl⟩, fun ds => ⟨applyForeign ds (s.traffic.headD []), rfl⟩⟩

/-- A body inside a group of its own. -/
theorem group {n : Nat} {c : Cmd α} (hc : Cmd.Oblivious n c) : Cmd.Oblivious n (do Machine.beginGroup; c) := by
  have h := Oblivious.beginGroup.bind fun _ => hc
  rwa [Nat.zero_add] at h

theorem busBurst (start : Byte) (bs : List Byte) : Cmd.Oblivious 4 (busBurst start bs) :=
  group <| (Oblivious.emitWrite _ _).bind fun _ => Oblivious.emitRead.bind fun _ =>
    (Oblivious.onlyIf _ (Oblivious.emitWrite _ _)).bind fun _ => Oblivious.emitWrite _ _

theorem setSleep (reg mask : Byte) : Cmd.Oblivious 3 (busSetBits reg mask (fun s => s.openChange s.addr)) :=
  group <| (Oblivious.emitWrite _ _).bind fun _ => Oblivious.emitRead.bind fun _ =>
    (Oblivious.update (f := fun s => s.openChange s.addr) (fun _ => rfl) fun _ _ => rfl).bind fun _ =>
      Oblivious.emitWrite _ _

theorem busSetBitsIfClear (reg mask : Byte) : Cmd.Oblivious 3 (busSetBitsIfClear reg mask) :=
  group <| (Oblivious.emitWrite _ _).bind fun _ => Oblivious.emitRead.bind fun _ =>
    Oblivious.onlyIf _ (Oblivious.emitWrite _ _)

theorem busDelay (us : Nat) : Cmd.Oblivious 0 (busDelay us) :=
  group <| Oblivious.update (f := fun s => s.record { frame := .delay us, answer := .elapsed }) (fun _ => rfl)
    fun _ _ => rfl

theorem busLaw : BusLaw (fun n c => Cmd.Oblivious n c) where
  mono := mono
  pure := pure
  check := check
  bind := bind
  get := get
  update := fun hf => update hf.replies hf.devices
  write1 := fun _ _ => group (Oblivious.emitWrite _ _)
  read1 := fun _ => group ((Oblivious.emitWrite _ _).bind fun _ => Oblivious.emitRead)
  burst := busBurst
  setSleep := setSleep
  setIfClear := busSetBitsIfClear
  delay := busDelay

end Cmd.Oblivious

/-! ## Every command -/

/-- The checks of a command read block fields alone. -/
theorem failedCheck_withDevices (s : State) (ds : List Device) (i : Instr) :
    (s.withDevices ds).failedCheck i = s.failedCheck i := by
  have hchecks : (s.withDevices ds).checks i = s.checks i := by cases i <;> rfl
  unfold State.failedCheck
  rw [hchecks]
  rfl

/-- Settles O60: the same check fails, or the same effect runs, and it sees the devices through the answers alone. -/
theorem onlyTheAnswersMatter : Obligations.OnlyTheAnswersMatter := by
  unfold Obligations.OnlyTheAnswersMatter
  intro i s t ds hgiven hlen hex
  suffices h : ∃ ds', exec i (s.withDevices ds) = .next (t.withDevices ds') by
    obtain ⟨ds', h⟩ := h
    exact ⟨_, h, rfl⟩
  rw [exec_eq] at hex
  rw [exec_eq, failedCheck_withDevices]
  cases hc : s.failedCheck i with
  | some e =>
    obtain rfl : s.respond e 0#16 = t := by simpa [hc, resultOf] using hex
    exact ⟨ds, rfl⟩
  | none =>
    obtain ⟨-, hdev⟩ := Cmd.Oblivious.busLaw.act i s ⟨hgiven, hlen⟩
    obtain ⟨ds', hds⟩ := hdev ds
    refine ⟨ds', ?_⟩
    rw [hc] at hex
    simp only [resultOf, hds] at hex ⊢
    cases ha : act i s with
    | ok a u =>
      obtain rfl : u.respond .ok a = t := by simpa [ha, endCommand_ok] using hex
      rfl
    | error e u =>
      obtain rfl : u.respond e 0#16 = t := by simpa [ha, endCommand_error] using hex
      rfl

end Sys2Proof.Machine
end

section
/-! PROOF. What a frame does on the bus (`20_memory.md` R81, R91, R93, R96), and that a read and a repeated write change
nothing (R94). -/

namespace Sys2Proof.Machine

/-! ## One frame on the bus -/

/-- R81: a frame answered as the reference bus does reaches the device at its address alone. -/
theorem findDevice_transact_other {ds : List Device} {f : Frame} {a b : Addr} {d : Device} (hf : f.dest = some a)
    (hd : findDevice ds a = some d) (hb : b ≠ a) :
    findDevice (transact ds f .reference).2 b = findDevice ds b := by
  rw [transact_reference hf hd]
  exact findDevice_update_other ds hb _ fun d => Device.accept_addr d f

theorem transact_no_device {ds : List Device} {f : Frame} {a : Addr} (hf : f.dest = some a)
    (hd : findDevice ds a = none) : transact ds f .reference = (.fail, ds) := by
  simp [transact, hf, hd]

/-- R96: an oracle's answer is the frame's. -/
theorem transact_answer_fst {f : Frame} {a : Addr} (hf : f.dest = some a) (ds : List Device) (v : Byte) :
    (transact ds f (.answer v)).1 = f.success v := by
  simp [transact, hf]

/-- R93: a failed frame draws the device it was sent to. -/
theorem transact_fail {f : Frame} {a : Addr} (hf : f.dest = some a) (ds : List Device) (regs : List Byte) (ptr : Byte) :
    transact ds f (.fail regs ptr) = (.fail, updateDevice ds a (fun d => d.draw regs ptr)) := by
  simp [transact, hf]

theorem findDevice_draw {ds : List Device} {a : Addr} {d : Device} (hd : findDevice ds a = some d) (regs : List Byte)
    (ptr : Byte) : findDevice (updateDevice ds a fun d => d.draw regs ptr) a = some (d.draw regs ptr) := by
  rw [findDevice_update ds a (fun d => d.draw regs ptr) fun _ => rfl, hd]
  rfl

/-- A draw that lists all 256 registers has the contents it lists. -/
theorem Device.reg_draw (d : Device) (regs : Byte → Byte) (ptr x : Byte) :
    (d.draw ((List.range 256).map fun n => regs (BitVec.ofNat 8 n)) ptr).reg x = regs x := by
  have hx := x.isLt
  rw [Device.reg, Device.draw, Memory.read_ofBytes _ 0 x.toNat hx (Nat.zero_le _)]
  simp [hx]

/-- Settles O22: the reference bus answers with what the device holds, and a frame no device answers changes none. -/
theorem referenceBusAnswersItsDevices : Obligations.ReferenceBusAnswersItsDevices := by
  unfold Obligations.ReferenceBusAnswersItsDevices
  intro ds f a hf
  refine ⟨fun d hd => ⟨?_, fun b hb => findDevice_transact_other hf hd hb⟩, transact_no_device hf⟩
  rw [transact_reference hf hd]
  cases f <;> rfl

/-- Settles O23: the reply that answers with the byte, and the one that fails and lists the contents. -/
theorem everyAnswerAndEveryDrawIsPossible : Obligations.EveryAnswerAndEveryDrawIsPossible := by
  unfold Obligations.EveryAnswerAndEveryDrawIsPossible
  intro ds f a hf hd
  refine ⟨fun v => ⟨.answer v, transact_answer_fst hf ds v⟩, fun regs ptr => ?_⟩
  obtain ⟨d, hd⟩ := Option.isSome_iff_exists.mp hd
  refine ⟨.fail ((List.range 256).map fun n => regs (BitVec.ofNat 8 n)) ptr, ?_⟩
  rw [transact_fail hf]
  exact ⟨rfl, _, findDevice_draw hd _ ptr, rfl, Device.reg_draw d regs ptr⟩

/-! ## Reads and repeated writes (R94) -/

/-- A write to PRE_SCALE leaves MODE1, and so SLEEP, as it is. -/
theorem Device.asleep_devWrite_preScale {d : Device} (h : d.mem.wf) (v : Byte) :
    (d.devWrite regPreScale v).asleep = d.asleep := by
  have hmode : (d.devWrite regPreScale v).reg regMode1 = d.reg regMode1 := by
    rw [Device.reg_devWrite h, if_neg (by decide), if_pos rfl, if_neg fun hm => absurd hm.2 (by decide)]
  rw [Device.asleep, hmode]
  rfl

/-- R94. -/
theorem Device.devWrite_twice {d : Device} (h : d.mem.wf) (r v : Byte) :
    (d.devWrite r v).devWrite r v = d.devWrite r v := by
  have hw := Device.devWrite_wf h r v
  refine Device.ext_reg (Device.devWrite_wf hw r v) hw (by simp) (by simp) fun a => ?_
  rw [Device.reg_devWrite hw]
  have hreg := Device.reg_devWrite h r v a
  by_cases hall : 0xFA ≤ r.toNat ∧ r.toNat ≤ 0xFD
  · rw [if_pos hall] at hreg ⊢
    split
    · next hled => rw [hreg, if_pos hled]
    · rfl
  rw [if_neg hall] at hreg ⊢
  by_cases hpre : r = regPreScale
  · subst hpre
    rw [if_pos rfl] at hreg ⊢
    rw [Device.asleep_devWrite_preScale h]
    split
    · next hs => rw [hreg, if_pos hs]
    · rfl
  rw [if_neg hpre] at hreg ⊢
  by_cases hres : (0x46 ≤ r.toNat ∧ r.toNat ≤ 0xF9) ∨ r.toNat = 0xFF
  · rw [if_pos hres]
  · rw [if_neg hres] at hreg ⊢
    split
    · next ha => rw [hreg, if_pos ha]
    · rfl

theorem Device.autoInc_iff (d : Device) : d.autoInc = true ↔ d.reg 0x00#8 &&& 0x20#8 ≠ 0#8 := bne_iff_ne

/-- R82, R83. -/
theorem Device.advance_eq (d : Device) :
    d.advance = if d.reg 0x00#8 &&& 0x20#8 ≠ 0#8 then { d with ptr := d.ptr + 1#8 } else d := by
  simp only [Device.advance, Device.autoInc_iff]

/-- Settles O25: a read advances the pointer alone, and every case of a write stores the same byte again. -/
theorem readsAndRepeatedWritesChangeNothing : Obligations.ReadsAndRepeatedWritesChangeNothing := by
  unfold Obligations.ReadsAndRepeatedWritesChangeNothing
  intro d a r v h
  exact ⟨Device.advance_eq d, Device.advance_reg d, Device.devWrite_twice h r v⟩

end Sys2Proof.Machine
end

section
/-! PROOF. Where the data bytes of a write frame go (`20_memory.md` R82, R84 to R88, R95): the reference device stores them
as `frameAfter` says, and the closed forms are facts about `frameAfter` alone. -/

namespace Sys2Proof.Machine

/-! ## The device and `frameAfter` -/

/-- R84 to R88: `DevWrite` is `storeByte` on the registers. -/
theorem Device.reg_devWrite_eq {d : Device} (h : d.mem.wf) (p v : Byte) :
    (d.devWrite p v).reg = storeByte d.reg p v := by
  funext r
  have hff : p.toNat = 0xFF ↔ p = 0xFF#8 := BitVec.toNat_inj (y := 0xFF#8)
  have hsleep : d.asleep = true ↔ d.reg 0x00#8 &&& 0x10#8 ≠ 0#8 := bne_iff_ne
  simp only [Device.reg_devWrite h, storeByte, hff, hsleep, regPreScale]
  by_cases hp : p = 0xFE#8
  · subst hp
    simp only [and_comm]
  · simp only [if_neg hp]

/-- R82: the registers and the pointer after one data byte. -/
theorem Device.writeByte_reg_ptr {d : Device} (h : d.mem.wf) (v : Byte) :
    (d.writeByte v).reg = storeByte d.reg d.ptr v ∧ (d.writeByte v).ptr =
      if storeByte d.reg d.ptr v 0x00#8 &&& 0x20#8 ≠ 0#8 then d.ptr + 1#8 else d.ptr := by
  have hreg := Device.reg_devWrite_eq h d.ptr v
  refine ⟨by funext r; rw [Device.writeByte, Device.advance_reg, hreg], ?_⟩
  rw [Device.writeByte, Device.advance_eq, hreg]
  split <;> simp

theorem Device.foldl_writeByte_eq (bs : List Byte) {d : Device} (h : d.mem.wf) :
    (bs.foldl Device.writeByte d).ptr = (frameAfter d.reg d.ptr bs).2 ∧
      ∀ r, (bs.foldl Device.writeByte d).reg r = (frameAfter d.reg d.ptr bs).1 r := by
  induction bs generalizing d with
  | nil => exact ⟨rfl, fun _ => rfl⟩
  | cons v vs ih =>
    obtain ⟨hreg, hptr⟩ := Device.writeByte_reg_ptr h v
    have hvs := ih (Device.writeByte_wf h v)
    rw [hreg, hptr] at hvs
    exact hvs

theorem Device.writeFrame_eq {d : Device} (h : d.mem.wf) (p : Byte) (bs : List Byte) :
    (d.writeFrame p bs).ptr = (frameAfter d.reg p bs).2 ∧
      ∀ r, (d.writeFrame p bs).reg r = (frameAfter d.reg p bs).1 r :=
  Device.foldl_writeByte_eq bs (d := { d with ptr := p }) h

/-! ## One byte -/

/-- R85, R88: below the broadcast registers a byte is stored up to 0x45 and dropped above. -/
theorem storeByte_low {p : Byte} (hp : p.toNat ≤ 0xF9) (reg : Byte → Byte) (v r : Byte) :
    storeByte reg p v r = if r = p ∧ p.toNat ≤ 0x45 then v else reg r := by
  have hpre : p ≠ 0xFE#8 := by rintro rfl; exact absurd hp (by decide)
  have hff : p ≠ 0xFF#8 := by rintro rfl; exact absurd hp (by decide)
  rw [storeByte, if_neg (by omega), if_neg hpre]
  by_cases hlow : p.toNat ≤ 0x45
  · rw [if_neg (by simp only [hff, or_false]; omega)]
    simp only [hlow, and_true]
  · rw [if_pos (Or.inl ⟨by omega, hp⟩), if_neg fun h => hlow h.2]

/-- R88: the last register keeps nothing. -/
theorem storeByte_last (reg : Byte → Byte) (v : Byte) : storeByte reg 0xFF#8 v = reg := by
  funext r
  rw [storeByte, if_neg (by decide), if_neg (by decide), if_pos (by decide)]

/-- Above MODE1 a byte below the broadcast registers leaves AI as it is. -/
theorem storeByte_keeps_mode1 {p : Byte} (h1 : 1 ≤ p.toNat) (hp : p.toNat ≤ 0xF9) (reg : Byte → Byte) (v : Byte) :
    storeByte reg p v 0x00#8 = reg 0x00#8 := by
  have h0 : 0x00#8 ≠ p := by rintro rfl; exact absurd h1 (by decide)
  rw [storeByte_low hp, if_neg fun h => h0 h.1]

/-! ## Frames in closed form -/

/-- AI clear: the pointer stays at its register, which keeps the last byte. -/
theorem frameAfter_still (bs : List Byte) {reg : Byte → Byte} {p : Byte} (hai : reg 0x00#8 &&& 0x20#8 = 0#8)
    (h1 : 1 ≤ p.toNat) (hp : p.toNat ≤ 0x45) :
    (frameAfter reg p bs).2 = p ∧ ∀ r, (frameAfter reg p bs).1 r = if r = p then bs.getLastD (reg p) else reg r := by
  induction bs generalizing reg with
  | nil =>
    refine ⟨rfl, fun r => ?_⟩
    split
    · next hr => rw [hr]; rfl
    · rfl
  | cons v vs ih =>
    have hmode := storeByte_keeps_mode1 h1 (by omega) reg v
    obtain ⟨hptr, hreg⟩ := ih (reg := storeByte reg p v) (by rw [hmode]; exact hai)
    rw [frameAfter, hmode, if_neg (not_not.mpr hai)]
    refine ⟨hptr, fun r => ?_⟩
    have hstore : ∀ r, storeByte reg p v r = if r = p then v else reg r := fun r => by
      simp only [storeByte_low (by omega : p.toNat ≤ 0xF9), hp, and_true]
    rw [hreg, hstore, hstore, if_pos rfl, List.getLastD_cons]
    by_cases hr : r = p
    · rw [if_pos hr, if_pos hr]
    · rw [if_neg hr, if_neg hr, if_neg hr]

/-- AI set: a run of bytes that ends before the broadcast registers, those past 0x45 dropped. -/
theorem frameAfter_run (bs : List Byte) {reg : Byte → Byte} {p : Byte} (hai : reg 0x00#8 &&& 0x20#8 ≠ 0#8)
    (h1 : 1 ≤ p.toNat) (hp : p.toNat + bs.length ≤ 0xFA) :
    (frameAfter reg p bs).2.toNat = p.toNat + bs.length ∧ ∀ r : Byte, (frameAfter reg p bs).1 r =
      if p.toNat ≤ r.toNat ∧ r.toNat < p.toNat + bs.length ∧ r.toNat ≤ 0x45 then bs.getD (r.toNat - p.toNat) 0#8
      else reg r := by
  induction bs generalizing reg p with
  | nil => exact ⟨rfl, fun r => by rw [if_neg (by simp only [List.length_nil]; omega)]; rfl⟩
  | cons v vs ih =>
    rw [List.length_cons] at hp
    have hmode := storeByte_keeps_mode1 h1 (by omega) reg v
    have hnext : (p + 1#8).toNat = p.toNat + 1 := by
      rw [BitVec.toNat_add]
      exact Nat.mod_eq_of_lt (by simp only [BitVec.toNat_ofNat]; omega)
    obtain ⟨hptr, hreg⟩ := ih (reg := storeByte reg p v) (p := p + 1#8) (by rw [hmode]; exact hai) (by omega) (by omega)
    rw [frameAfter, hmode, if_pos hai, List.length_cons]
    refine ⟨by omega, fun r => ?_⟩
    rw [hreg, hnext, storeByte_low (by omega)]
    by_cases hr : r = p
    · subst hr
      rw [if_neg (by omega), Nat.sub_self]
      simp
    · have hne : r.toNat ≠ p.toNat := fun h => hr (BitVec.eq_of_toNat_eq h)
      rw [if_neg (c := r = p ∧ _) fun h => hr h.1]
      by_cases hin : p.toNat + 1 ≤ r.toNat ∧ r.toNat < p.toNat + 1 + vs.length ∧ r.toNat ≤ 0x45
      · rw [if_pos hin, if_pos (by omega), show r.toNat - p.toNat = r.toNat - (p.toNat + 1) + 1 by omega,
          List.getD_cons_succ]
      · rw [if_neg hin, if_neg (by omega)]

/-- A byte at MODE1: AI is tested in the byte itself (R95). -/
theorem frameAfter_mode1 (reg : Byte → Byte) (v : Byte) (vs : List Byte) :
    frameAfter reg 0x00#8 (v :: vs) = frameAfter (fun r => if r = 0x00#8 then v else reg r)
      (if v &&& 0x20#8 ≠ 0#8 then 0x01#8 else 0x00#8) vs := by
  have hstore : storeByte reg 0x00#8 v = fun r => if r = 0x00#8 then v else reg r := by
    funext r
    simp [storeByte_low (p := 0x00#8) (by decide)]
  rw [frameAfter, hstore]
  rfl

/-- AI set, a byte at 0xFF: it is dropped, and the frame goes on at MODE1 (R82, R88). -/
theorem frameAfter_wrap {reg : Byte → Byte} (hai : reg 0x00#8 &&& 0x20#8 ≠ 0#8) (v : Byte) (vs : List Byte) :
    frameAfter reg 0xFF#8 (v :: vs) = frameAfter reg 0x00#8 vs := by
  rw [frameAfter, storeByte_last, if_pos hai]
  rfl

theorem frameAfter_mode1_set (reg : Byte → Byte) {v : Byte} (hv : v &&& 0x20#8 ≠ 0#8) (w : Byte) :
    (frameAfter reg 0x00#8 [v, w]).2 = 0x02#8 ∧ ∀ r, (frameAfter reg 0x00#8 [v, w]).1 r =
      if r = 0x00#8 then v else if r = 0x01#8 then w else reg r := by
  rw [frameAfter_mode1, if_pos hv]
  obtain ⟨hptr, hreg⟩ := frameAfter_run [w] (reg := fun r => if r = 0x00#8 then v else reg r) (p := 0x01#8) hv
    (by decide) (by simp)
  refine ⟨BitVec.eq_of_toNat_eq hptr, fun r => ?_⟩
  rw [hreg]
  by_cases h1 : r = 0x01#8
  · subst h1; rfl
  · have hne : r.toNat ≠ 1 := fun h => h1 (BitVec.eq_of_toNat_eq h)
    rw [if_neg (by simp only [BitVec.toNat_ofNat, List.length_singleton]; omega), if_neg h1]

theorem frameAfter_mode1_clear (reg : Byte → Byte) {v : Byte} (hv : v &&& 0x20#8 = 0#8) (w : Byte) :
    (frameAfter reg 0x00#8 [v, w]).2 = (if w &&& 0x20#8 ≠ 0#8 then 0x01#8 else 0x00#8) ∧
      ∀ r, (frameAfter reg 0x00#8 [v, w]).1 r = if r = 0x00#8 then w else reg r := by
  rw [frameAfter_mode1, if_neg (not_not.mpr hv), frameAfter_mode1]
  refine ⟨rfl, fun r => ?_⟩
  simp only [frameAfter]
  split <;> rfl

/-- Settles O24: the device follows `frameAfter`, whose closed forms are the clauses. -/
theorem writeFrameFollowsThePointer : Obligations.WriteFrameFollowsThePointer := by
  unfold Obligations.WriteFrameFollowsThePointer
  intro d p bs h
  have hset := Device.autoInc_iff d
  have hclear : d.autoInc = false ↔ d.reg 0x00#8 &&& 0x20#8 = 0#8 := bne_eq_false_iff_eq
  refine ⟨Device.writeFrame_eq h p bs, ?_⟩
  simp only [(Device.writeFrame_eq h _ _).1, (Device.writeFrame_eq h _ _).2, hset, hclear]
  refine ⟨fun hai h1 hp hbs => ?_, fun hai h1 hp => frameAfter_run bs hai h1 hp,
    fun v w => ⟨fun hv => frameAfter_mode1_set d.reg hv w, fun hv => frameAfter_mode1_clear d.reg hv w⟩,
    fun hai v w => ?_⟩
  · obtain ⟨b, bs, rfl⟩ := List.exists_cons_of_ne_nil hbs
    simpa only [List.getLastD_cons] using frameAfter_still (b :: bs) hai h1 hp
  · rw [frameAfter_wrap hai, frameAfter_mode1]
    exact ⟨rfl, fun r => rfl⟩

end Sys2Proof.Machine
end

section
/-! PROOF. A word and its fields (`00_scope.md` R13): what a field of an assembled word is, and a word put together again
from its fields. -/

namespace Sys2Proof

/-! ## A field of an assembled word -/

@[simp] theorem field_or (lo n : Nat) (x y : Word) : field lo n (x ||| y) = field lo n x ||| field lo n y :=
  BitVec.extractLsb'_or

@[simp] theorem field_place_same {n lo : Nat} (h : lo + n ≤ 32) (x : BitVec n) : field lo n (place lo x) = x := by
  ext i hi
  have hlo : lo + i < 32 := by omega
  simp [field, place, hi, hlo, BitVec.getLsbD_eq_getElem]

@[simp] theorem field_place_disjoint {n m lo lo' : Nat} (h : lo + n ≤ lo' ∨ lo' + m ≤ lo) (x : BitVec m) :
    field lo n (place lo' x) = 0#n := by
  ext i hi
  have hx : lo + i < lo' ∨ m ≤ lo + i - lo' := by omega
  rcases hx with hx | hx
  · simp [field, place, hx]
  · simp [field, place, BitVec.getLsbD_of_ge x _ hx]

@[simp] theorem place_zero (lo n : Nat) : place lo 0#n = 0#32 := by simp [place]

/-! ## A word from its fields -/

/-- A field put back where it stood is the word with every other bit cleared. -/
theorem place_field (lo n : Nat) (w : Word) : place lo (field lo n w) = w &&& place lo (BitVec.allOnes n) := by
  ext i hi
  by_cases hlo : i < lo
  · simp [place, hlo]
  · by_cases hn : i - lo < n
    · have hi' : lo + (i - lo) = i := by omega
      simp [place, field, hlo, hn, hi', BitVec.getLsbD_eq_getElem hi]
    · simp [place, field, hlo, hn]

/-- A word is what it keeps outside bits that are 0. -/
theorem and_eq_self_of_clear {w kept cleared : Word} (h : w &&& cleared = 0#32)
    (hall : kept ||| cleared = BitVec.allOnes 32) : w &&& kept = w := by
  calc w &&& kept = w &&& kept ||| w &&& cleared := by rw [h, BitVec.or_zero]
    _ = w &&& (kept ||| cleared) := BitVec.and_or_distrib_left.symm
    _ = w := by rw [hall, BitVec.and_allOnes]

/-- A word from its four bytes (R116). -/
theorem place_bytes (w : Word) :
    place 0 (field 0 8 w) ||| place 8 (field 8 8 w) ||| place 16 (field 16 8 w) ||| place 24 (field 24 8 w) = w := by
  simp only [place_field, ← BitVec.and_or_distrib_left]
  exact and_eq_self_of_clear (cleared := 0#32) BitVec.and_zero (by decide)

/-- Shifting a word right by bytes leaves nothing exactly when every byte from there on is 0. -/
theorem shiftRight_bytes_eq_zero_iff (w : Word) (n : Nat) :
    w >>> (8 * n) = 0#32 ↔ ∀ j, n ≤ j → j < 4 → field (8 * j) 8 w = 0#8 := by
  constructor
  · intro h j hn hj
    ext i hi
    have hbit := congrArg (fun x : Word => x.getLsbD (8 * j + i - 8 * n)) h
    have hpos : 8 * n + (8 * j + i - 8 * n) = 8 * j + i := by omega
    simpa [field, hpos] using hbit
  · intro h
    ext i hi
    by_cases hout : 32 ≤ 8 * n + i
    · simp [BitVec.getLsbD_of_ge w _ hout]
    · have hbit := congrArg (fun x : Byte => x.getLsbD ((8 * n + i) % 8)) (h ((8 * n + i) / 8) (by omega) (by omega))
      have hpos : 8 * ((8 * n + i) / 8) + (8 * n + i) % 8 = 8 * n + i := by omega
      simpa only [field, BitVec.getLsbD_extractLsb', Nat.mod_lt _ (show 8 > 0 by decide), hpos, decide_true,
        Bool.true_and, BitVec.getLsbD_zero, BitVec.getElem_ushiftRight, BitVec.getElem_zero] using hbit

end Sys2Proof
end

section
/-! PROOF. The encoding in both directions (`30_encoding.md` R110 to R125): a command's words decode to it, and the words a
command decodes from are its encoding. -/

namespace Sys2Proof

/-! ## The decoder by the opcode's length -/

theorem wordCount_eq (opc : Byte) : wordCount opc = 1 ∨ wordCount opc = 2 := by
  unfold wordCount
  split <;> simp

/-- The decoder on the words of a command, as many as its opcode takes. -/
theorem decode_append {r : OpcodeRow} (hr : r ∈ opcodeMap) {w0 : Word} {ws : List Word} (h : r.accepts w0 = true)
    (hlen : (w0 :: ws).length = wordCount r.opc) (rest : List Word) :
    decode (w0 :: ws ++ rest) = .of (r.op.build w0 (ws.headD 0#32)) rest := by
  match ws, wordCount_eq r.opc, hlen with
  | [], .inl h1, _ => exact decode_one hr h (by rw [h1]; decide) rest
  | [w1], .inr h2, _ => exact decode_two hr h h2 w1 rest
  | [], .inr h2, hlen => simp [h2] at hlen
  | [_], .inl h1, hlen => simp [h1] at hlen
  | _ :: _ :: _, hc, hlen => simp at hlen; omega

/-! ## Decoding an encoding -/

theorem encodeHead (i : Instr) : Laws.EncodeHead.Statement i := by
  cases i with
  | regWr reg data => exact Laws.EncodeHead.regWr reg data
  | regRd reg => exact Laws.EncodeHead.regRd reg
  | regBurst reg data => exact Laws.EncodeHead.regBurst reg data
  | ctrlInit addr hz => exact Laws.EncodeHead.ctrlInit addr hz
  | ctrlReset => exact Laws.EncodeHead.ctrlReset
  | ctrlFreq hz => exact Laws.EncodeHead.ctrlFreq hz
  | ctrlDuty id duty => exact Laws.EncodeHead.ctrlDuty id duty
  | chBind id => exact Laws.EncodeHead.chBind id
  | chRelease id => exact Laws.EncodeHead.chRelease id
  | chDuty id duty => exact Laws.EncodeHead.chDuty id duty
  | lineSet id b => exact Laws.EncodeHead.lineSet id b
  | lineGet id => exact Laws.EncodeHead.lineGet id
  | hbConfig id => exact Laws.EncodeHead.hbConfig id
  | hbSet id duty => exact Laws.EncodeHead.hbSet id duty
  | hbBrake id => exact Laws.EncodeHead.hbBrake id
  | hbRelease id => exact Laws.EncodeHead.hbRelease id
  | hbGet id => exact Laws.EncodeHead.hbGet id
  | seqConfig id bra brb nsteps => exact Laws.EncodeHead.seqConfig id bra brb nsteps
  | seqStep id dir => exact Laws.EncodeHead.seqStep id dir
  | seqRelease id => exact Laws.EncodeHead.seqRelease id
  | seqGet id => exact Laws.EncodeHead.seqGet id

@[simp] theorem field_id_formatK (opc id : Byte) : field 16 8 (formatK opc id) = id := by simp [formatK]

@[simp] theorem field_id_formatC (opc id : Byte) (d : Duty) : field 16 8 (formatC opc id d) = id := by simp [formatC]

@[simp] theorem field_duty_formatC (opc id : Byte) (d : Duty) : field 0 16 (formatC opc id d) = d := by simp [formatC]

/-- The extra decode condition of REG_BURST: LEN from 1 to 4, and every byte of the operand word beyond it 0 (R125). -/
theorem build_regBurst_ok_iff (w0 w1 : Word) (i : Instr) : Op.build w0 w1 .regBurst = .ok i ↔
    (1 ≤ (field 16 3 w0).toNat ∧ (field 16 3 w0).toNat ≤ 4 ∧
      ∀ j, (field 16 3 w0).toNat ≤ j → j < 4 → field (8 * j) 8 w1 = 0#8) ∧
    i = .regBurst (field 8 8 w0) ((burstBytes w1).take (field 16 3 w0).toNat) := by
  simp only [Op.build, ← shiftRight_bytes_eq_zero_iff]
  generalize (field 16 3 w0).toNat = len
  by_cases hlen : len = 0 ∨ 4 < len
  · rw [if_pos (by simpa using hlen)]
    refine iff_of_false (by simp) ?_
    rintro ⟨⟨h1, h4, -⟩, -⟩
    omega
  · have hbounds : 1 ≤ len ∧ len ≤ 4 := by omega
    by_cases hpad : w1 >>> (8 * len) = 0#32
    · rw [if_neg (by simpa using hlen), if_neg (by simp [hpad])]
      simpa [hpad, hbounds] using eq_comm
    · have hne : len ≠ 4 := by rintro rfl; exact hpad (BitVec.ushiftRight_eq_zero (by decide))
      have hlt : len < 4 := by omega
      simp [hlen, hpad, hlt]

/-- The extra decode condition of SEQ_CONFIG (R125). -/
theorem build_seqConfig_ok_iff (w0 w1 : Word) (i : Instr) : Op.build w0 w1 .seqConfig = .ok i ↔
    field 16 16 w1 = 0#16 ∧ i = .seqConfig (field 16 8 w0) (field 8 8 w0) (field 0 8 w0) (field 0 16 w1) := by
  by_cases h : field 16 16 w1 = 0#16
  · simpa [Op.build, h] using eq_comm
  · simp [Op.build, h]

/-- The four bytes of a REG_BURST's operand word are its data, padded with zeros (R116). -/
theorem field_paddedBytes (data : List Byte) {j : Nat} (hj : j < 4) :
    field (8 * j) 8 (place 0 (data.getD 0 0#8) ||| place 8 (data.getD 1 0#8) ||| place 16 (data.getD 2 0#8) |||
      place 24 (data.getD 3 0#8)) = data.getD j 0#8 := by
  interval_cases j <;> simp

theorem take_burstBytes_paddedBytes {data : List Byte} (h4 : data.length ≤ 4) :
    (burstBytes (place 0 (data.getD 0 0#8) ||| place 8 (data.getD 1 0#8) ||| place 16 (data.getD 2 0#8) |||
      place 24 (data.getD 3 0#8))).take data.length = data := by
  match data, h4 with
  | [], _ => rfl
  | [_], _ | [_, _], _ | [_, _, _], _ | [_, _, _, _], _ => simp [burstBytes]

theorem build_regBurst_encode (reg : Byte) {data : List Byte} (h1 : 1 ≤ data.length) (h4 : data.length ≤ 4) :
    Op.build ((encode (.regBurst reg data)).headD 0#32) ((encode (.regBurst reg data)).tail.headD 0#32) .regBurst =
      .ok (.regBurst reg data) := by
  have hlen : (field 16 3 ((encode (.regBurst reg data)).headD 0#32)).toNat = data.length := by
    simp [encode, Nat.mod_eq_of_lt (show data.length < 8 by omega)]
  have hreg : field 8 8 ((encode (.regBurst reg data)).headD 0#32) = reg := by simp [encode]
  rw [build_regBurst_ok_iff, hlen, hreg]
  refine ⟨⟨h1, h4, fun j hj hj4 => ?_⟩, ?_⟩
  · exact (field_paddedBytes data hj4).trans (List.getD_eq_default _ _ hj)
  · exact congrArg _ (take_burstBytes_paddedBytes h4).symm

/-- A well-formed command is built again from the words of its encoding. -/
theorem build_encode {i : Instr} (h : i.wellFormed = true) :
    i.op.build ((encode i).headD 0#32) ((encode i).tail.headD 0#32) = .ok i := by
  cases i with
  | regBurst reg data =>
    obtain ⟨h1, h4⟩ : 1 ≤ data.length ∧ data.length ≤ 4 := by simpa [Instr.wellFormed] using h
    exact build_regBurst_encode reg h1 h4
  | lineSet id b => cases b <;> simp [encode, Op.build, Instr.op]
  | _ => simp [encode, Op.build, Instr.op]

/-- Settles O2: the first word selects the command's row, whose operands are the fields the encoder filled. -/
theorem decodeOfEncode : Obligations.DecodeOfEncode := by
  unfold Obligations.DecodeOfEncode
  intro i rest hwf
  obtain ⟨r, hr, hop, w, ws, henc, haccepts, hlen⟩ := encodeHead i
  have hbuild := build_encode hwf
  rw [henc, List.headD_cons, List.tail_cons] at hbuild
  rw [henc, decode_append hr haccepts hlen, hop, hbuild, Decoded.of]

/-! ## Encoding a decoded command -/

/-- The opcode of a command (R125). -/
def Op.opcode : Op → Byte
  | .regWr => 0x01#8
  | .regRd => 0x02#8
  | .regBurst => 0x03#8
  | .ctrlInit => 0x10#8
  | .ctrlReset => 0x11#8
  | .ctrlFreq => 0x12#8
  | .ctrlDuty => 0x13#8
  | .chBind => 0x20#8
  | .chRelease => 0x21#8
  | .chDuty => 0x22#8
  | .lineSet => 0x23#8
  | .lineGet => 0x24#8
  | .hbConfig => 0x30#8
  | .hbSet => 0x31#8
  | .hbBrake => 0x32#8
  | .hbRelease => 0x33#8
  | .hbGet => 0x34#8
  | .seqConfig => 0x40#8
  | .seqStep => 0x41#8
  | .seqRelease => 0x42#8
  | .seqGet => 0x43#8

theorem row_op : ∀ r ∈ opcodeMap, r.opc = r.op.opcode ∧ r.mask &&& 0x00FFFFFF#32 = Machine.reservedZero r.op := by
  decide

/-- A row accepts the words with its command's opcode whose reserved-zero bits are 0 (R114 to R125). -/
theorem accepts_iff_op {r : OpcodeRow} (hr : r ∈ opcodeMap) (w : Word) :
    r.accepts w = true ↔ opcodeOf w = r.op.opcode ∧ w &&& Machine.reservedZero r.op = 0#32 := by
  obtain ⟨hopc, hmask⟩ := row_op r hr
  rw [accepts_iff hr, hopc, hmask]

/-- The word of a REG_BURST's data, when the bytes beyond them are 0, is the word they were taken from (R116). -/
theorem place_take_burstBytes {w : Word} {n : Nat} (hpad : ∀ j, n ≤ j → j < 4 → field (8 * j) 8 w = 0#8) :
    place 0 (((burstBytes w).take n).getD 0 0#8) ||| place 8 (((burstBytes w).take n).getD 1 0#8) |||
      place 16 (((burstBytes w).take n).getD 2 0#8) ||| place 24 (((burstBytes w).take n).getD 3 0#8) = w := by
  have hbyte : ∀ j < 4, ((burstBytes w).take n).getD j 0#8 = field (8 * j) 8 w := by
    intro j hj
    by_cases hn : j < n
    · rw [List.getD_eq_getElem?_getD, List.getElem?_take_of_lt hn]
      interval_cases j <;> rfl
    · rw [hpad j (by omega) hj]
      exact List.getD_eq_default _ _ (by rw [List.length_take]; omega)
  rw [hbyte 0 (by decide), hbyte 1 (by decide), hbyte 2 (by decide), hbyte 3 (by decide)]
  exact place_bytes w

theorem ofBool_beq_one : ∀ x : BitVec 1, BitVec.ofBool (x == 1#1) = x := by decide

/-- The words a command is built from are its encoding: each is put together again from its fields. -/
theorem encode_of_build {op : Op} {w0 w1 : Word} {i : Instr} (hopc : opcodeOf w0 = op.opcode)
    (hzero : w0 &&& Machine.reservedZero op = 0#32) (h : op.build w0 w1 = .ok i) :
    i.wellFormed = true ∧ encode i = [w0, w1].take (wordCount op.opcode) := by
  have hop : place 24 op.opcode = w0 &&& place 24 (BitVec.allOnes 8) := by rw [← hopc]; exact place_field 24 8 w0
  have hhead : ∀ {kept : Word}, kept ||| Machine.reservedZero op = BitVec.allOnes 32 → w0 &&& kept = w0 :=
    and_eq_self_of_clear hzero
  cases op with
  | regBurst =>
    obtain ⟨⟨h1, h4, hpad⟩, rfl⟩ := (build_regBurst_ok_iff w0 w1 i).mp h
    have hlen : ((burstBytes w1).take (field 16 3 w0).toNat).length = (field 16 3 w0).toNat := by
      rw [List.length_take]; exact Nat.min_eq_left h4
    refine ⟨by simp [Instr.wellFormed, hlen, h1, h4], ?_⟩
    simp only [Op.opcode] at hop
    simp (disch := decide) only [encode, place_take_burstBytes hpad, hlen, BitVec.ofNat_toNat, BitVec.setWidth_eq, hop,
      place_field, ← BitVec.and_or_distrib_left, hhead]
    rfl
  | seqConfig =>
    obtain ⟨hpad, rfl⟩ := (build_seqConfig_ok_iff w0 w1 i).mp h
    have hw1 : place 0 (field 0 16 w1) = w1 := by
      rw [place_field]
      exact and_eq_self_of_clear (by rw [← place_field 16 16 w1, hpad, place_zero]) (by decide)
    refine ⟨rfl, ?_⟩
    simp only [Op.opcode] at hop
    simp (disch := decide) only [encode, hw1, hop, place_field, ← BitVec.and_or_distrib_left, hhead]
    rfl
  | _ =>
    obtain rfl : _ = i := Except.ok.inj h
    refine ⟨rfl, ?_⟩
    simp only [Op.opcode] at hop
    simp (disch := decide) only [encode, formatK, formatC, ofBool_beq_one, hop, place_field,
      ← BitVec.and_or_distrib_left, hhead]
    rfl

/-! ## The words of a decoded command -/

/-- Only the two-word commands read the second word (R112). -/
theorem build_of_wordCount {op : Op} (h : wordCount op.opcode ≠ 2) (w0 w1 : Word) :
    op.build w0 w1 = op.build w0 0#32 := by
  cases op with
  | regBurst | ctrlInit | ctrlFreq | seqConfig => exact absurd rfl h
  | _ => rfl

/-- One-word formats ignore the second word. -/
theorem decodeCommand_of_wordCount {w0 : Word} (h : wordCount (opcodeOf w0) ≠ 2) (w1 : Word) :
    decodeCommand w0 w1 = decodeCommand w0 0#32 := by
  by_cases hrow : ∃ r ∈ opcodeMap, r.accepts w0 = true
  · obtain ⟨r, hr, haccepts⟩ := hrow
    rw [((accepts_iff_op hr w0).mp haccepts).1] at h
    rw [decodeCommand_row hr haccepts, decodeCommand_row hr haccepts, build_of_wordCount h]
  · have hnone : opcodeMap.find? (fun r => r.accepts w0) = none := List.find?_eq_none.mpr (by simpa using hrow)
    rw [decodeCommand, decodeCommand, hnone]

/-- The decoder when a second word is there, whether the command takes it or not (R111). -/
theorem decode_cons_cons (w0 w1 : Word) (rest : List Word) : decode (w0 :: w1 :: rest) =
    .of (decodeCommand w0 w1) (if wordCount (opcodeOf w0) = 2 then rest else w1 :: rest) := by
  by_cases h : wordCount (opcodeOf w0) = 2
  · simp [decode, h]
  · simp [decode, h, decodeCommand_of_wordCount h w1]

/-- What the decoder can do: wait for a first word or for the second of a two-word command, or take as many words as the
opcode says (R110, R111, R127). -/
theorem decode_cases (ws : List Word) :
    (decode ws = .incomplete ∧ (ws = [] ∨ ∃ w0, ws = [w0] ∧ wordCount (opcodeOf w0) = 2)) ∨
    ∃ w0 w1 rest, decode ws = .of (decodeCommand w0 w1) rest ∧
      ws = [w0, w1].take (wordCount (opcodeOf w0)) ++ rest := by
  match ws with
  | [] => exact .inl ⟨rfl, .inl rfl⟩
  | [w0] =>
    rcases wordCount_eq (opcodeOf w0) with h | h
    · exact .inr ⟨w0, 0#32, [], by simp [decode, h], by rw [h]; rfl⟩
    · exact .inl ⟨by simp [decode, h], .inr ⟨w0, rfl, h⟩⟩
  | w0 :: w1 :: tail =>
    refine .inr ⟨w0, w1, _, decode_cons_cons w0 w1 tail, ?_⟩
    rcases wordCount_eq (opcodeOf w0) with h | h <;> simp [h]

theorem Decoded.of_eq_command {r : Except Illegal Instr} {ws rest : List Word} {i : Instr}
    (h : Decoded.of r ws = .command i rest) : r = .ok i ∧ ws = rest := by
  cases r with
  | ok j => simpa [Decoded.of] using h
  | error why => simp [Decoded.of] at h

theorem decode_command {ws : List Word} {i : Instr} {rest : List Word} (h : decode ws = .command i rest) :
    ∃ w0 w1, decodeCommand w0 w1 = .ok i ∧ ws = [w0, w1].take (wordCount (opcodeOf w0)) ++ rest := by
  obtain ⟨hwait, -⟩ | ⟨w0, w1, rest', hdec, hws⟩ := decode_cases ws
  · simp [hwait] at h
  · obtain ⟨hok, rfl⟩ := Decoded.of_eq_command (hdec.symm.trans h)
    exact ⟨w0, w1, hok, hws⟩

/-- A command is decoded by the row its first word matches. -/
theorem decodeCommand_ok {w0 w1 : Word} {i : Instr} (h : decodeCommand w0 w1 = .ok i) :
    ∃ op : Op, opcodeOf w0 = op.opcode ∧ w0 &&& Machine.reservedZero op = 0#32 ∧ op.build w0 w1 = .ok i := by
  by_cases hrow : ∃ r ∈ opcodeMap, r.accepts w0 = true
  · obtain ⟨r, hr, haccepts⟩ := hrow
    obtain ⟨hopc, hzero⟩ := (accepts_iff_op hr w0).mp haccepts
    exact ⟨r.op, hopc, hzero, decodeCommand_row hr haccepts w1 ▸ h⟩
  · obtain ⟨why, herr⟩ := decodeCommand_none (w0 := w0) (by simpa using hrow) w1
    simp [herr] at h

/-- Settles O3: the command is built from fields of the words, and those fields make up the words. -/
theorem encodeOfDecode : Obligations.EncodeOfDecode := by
  unfold Obligations.EncodeOfDecode
  intro ws i rest h
  obtain ⟨w0, w1, hdec, hws⟩ := decode_command h
  obtain ⟨op, hopc, hzero, hbuild⟩ := decodeCommand_ok hdec
  obtain ⟨hwf, henc⟩ := encode_of_build hopc hzero hbuild
  exact ⟨hwf, by rw [hws, henc, hopc]⟩

end Sys2Proof
end

section
/-! PROOF. Which commands are illegal, and how many words any command takes (`30_encoding.md` R111, R125 to R127). -/

namespace Sys2Proof

theorem mem_twoWordOpcodes_iff (opc : Byte) : opc ∈ Machine.twoWordOpcodes ↔ wordCount opc = 2 := by
  simp only [Machine.twoWordOpcodes, wordCount, List.mem_cons, List.not_mem_nil, or_false, Bool.or_eq_true,
    decide_eq_true_eq, or_assoc, ite_eq_left_iff, OfNat.one_ne_ofNat, imp_false, not_not]

/-! ## Rows -/

/-- Settles O6: a row that matches has the word's opcode, and no two rows have the same. -/
theorem opcodeRowsNeverOverlap : Obligations.OpcodeRowsNeverOverlap := by
  unfold Obligations.OpcodeRowsNeverOverlap
  intro w r r' hr hr' h h'
  obtain ⟨hopc, -⟩ := (accepts_iff hr w).mp h
  obtain ⟨hopc', -⟩ := (accepts_iff hr' w).mp h'
  exact ⟨row_unique r hr r' hr' (hopc.symm.trans hopc'), hopc.symm⟩

/-- The command an opcode names is the one of its row. -/
theorem opOfOpcode_eq_some {opc : Byte} {op : Op} (h : Machine.opOfOpcode opc = some op) :
    ∃ r ∈ opcodeMap, r.op = op ∧ r.opc = opc := by
  obtain ⟨r, hfind, hop⟩ := Option.map_eq_some_iff.mp h
  exact ⟨r, List.mem_of_find?_eq_some hfind, hop, by simpa using List.find?_some hfind⟩

theorem opOfOpcode_eq_none {opc : Byte} (h : Machine.opOfOpcode opc = none) : ∀ r ∈ opcodeMap, r.opc ≠ opc := by
  simpa [Machine.opOfOpcode] using h

/-! ## Illegal commands -/

theorem exists_error_iff (r : Except Illegal Instr) : (∃ why, r = .error why) ↔ ∀ i, r ≠ .ok i := by
  cases r <;> simp

/-- The extra decode conditions of R125: those of REG_BURST and of SEQ_CONFIG. -/
theorem build_eq_error_iff (op : Op) (w0 w1 : Word) : (∃ why, op.build w0 w1 = .error why) ↔
    (op = .regBurst ∧ ((field 16 3 w0).toNat = 0 ∨ 4 < (field 16 3 w0).toNat ∨
      ∃ j, (field 16 3 w0).toNat ≤ j ∧ j < 4 ∧ field (8 * j) 8 w1 ≠ 0#8)) ∨
    (op = .seqConfig ∧ field 16 16 w1 ≠ 0#16) := by
  rw [exists_error_iff]
  cases op with
  | regBurst =>
    simp only [ne_eq, build_regBurst_ok_iff, true_and, reduceCtorEq, false_and, or_false]
    constructor
    · intro h
      by_contra! hn
      obtain ⟨h0, h4, hpad⟩ := hn
      exact h _ ⟨⟨Nat.one_le_iff_ne_zero.mpr h0, h4, hpad⟩, rfl⟩
    · rintro (h0 | h4 | ⟨j, hj, hj4, hne⟩) i ⟨⟨h1, h4', hpad⟩, -⟩
      · omega
      · omega
      · exact hne (hpad j hj hj4)
  | seqConfig => simp [build_seqConfig_ok_iff]
  | _ => simp [Op.build]

theorem illegalWords_of_none {w0 : Word} (h : Machine.opOfOpcode (opcodeOf w0) = none) (w1 : Word) :
    Machine.illegalWords w0 w1 := by
  unfold Machine.illegalWords
  rw [show Machine.opOfOpcode (w0.extractLsb' 24 8) = none from h]
  trivial

theorem illegalWords_iff_of_some {w0 : Word} {op : Op} (h : Machine.opOfOpcode (opcodeOf w0) = some op) (w1 : Word) :
    Machine.illegalWords w0 w1 ↔
      w0 &&& Machine.reservedZero op ≠ 0#32 ∨ ∃ why, op.build w0 w1 = .error why := by
  unfold Machine.illegalWords
  rw [show Machine.opOfOpcode (w0.extractLsb' 24 8) = some op from h, build_eq_error_iff]
  rfl

/-- The decoder refuses exactly the illegal words (R126). -/
theorem decodeCommand_eq_error_iff (w0 w1 : Word) :
    (∃ why, decodeCommand w0 w1 = .error why) ↔ Machine.illegalWords w0 w1 := by
  cases hop : Machine.opOfOpcode (opcodeOf w0) with
  | none =>
    refine iff_of_true (decodeCommand_none (fun r hr => Bool.eq_false_iff.mpr fun h => ?_) w1)
      (illegalWords_of_none hop w1)
    exact opOfOpcode_eq_none hop r hr ((accepts_iff hr w0).mp h).1.symm
  | some op =>
    obtain ⟨r, hr, rfl, hopc⟩ := opOfOpcode_eq_some hop
    have haccepts : r.accepts w0 = true ↔ w0 &&& Machine.reservedZero r.op = 0#32 := by
      rw [accepts_iff_op hr, ← (row_op r hr).1, hopc]
      simp
    rw [illegalWords_iff_of_some hop]
    by_cases hzero : w0 &&& Machine.reservedZero r.op = 0#32
    · rw [decodeCommand_row hr (haccepts.mpr hzero)]
      simp [hzero]
    · refine iff_of_true (decodeCommand_none (fun r' hr' => Bool.eq_false_iff.mpr fun h => ?_) w1) (.inl hzero)
      obtain rfl : r' = r := row_unique r' hr' r hr (((accepts_iff hr' w0).mp h).1.symm.trans hopc.symm)
      exact hzero (haccepts.mp h)

/-- Settles O4: the decoder consumes by the opcode alone, and refuses exactly the illegal words. -/
theorem illegalCommandsAreExactlyThese : Obligations.IllegalCommandsAreExactlyThese := by
  unfold Obligations.IllegalCommandsAreExactlyThese
  intro w0 w1 rest
  simp only [mem_twoWordOpcodes_iff, ← decodeCommand_eq_error_iff, decode_cons_cons]
  refine ⟨?_, fun hlegal => ?_⟩
  · rintro ⟨why, hwhy⟩
    exact ⟨why, by rw [hwhy]; rfl⟩
  · cases hdec : decodeCommand w0 w1 with
    | error why => exact absurd ⟨why, hdec⟩ hlegal
    | ok i => exact ⟨i, rfl⟩

/-! ## Lengths -/

/-- Settles O5: the cases of the decoder, by the opcode's word count. -/
theorem commandLengthComesFromTheOpcode : Obligations.CommandLengthComesFromTheOpcode := by
  unfold Obligations.CommandLengthComesFromTheOpcode
  intro ws
  simp only [mem_twoWordOpcodes_iff]
  obtain ⟨hwait, hws⟩ | ⟨w0, w1, rest, hdec, hws⟩ := decode_cases ws
  · rw [hwait]; exact hws
  · have hlen : ∃ (v : Word) (tail : List Word), ws = v :: tail ∧
        if wordCount (opcodeOf v) = 2 then ∃ w1, tail = w1 :: rest else tail = rest := by
      rcases wordCount_eq (opcodeOf w0) with h | h
      · exact ⟨w0, rest, by rw [hws, h]; rfl, by simp [h]⟩
      · exact ⟨w0, w1 :: rest, by rw [hws, h]; rfl, by simp [h]⟩
    rw [hdec]
    cases decodeCommand w0 w1 with
    | ok i => exact hlen
    | error why => exact hlen

end Sys2Proof
end

section
/-! PROOF. Every command answers with one response word, whose data are 0 for all but the four queries (`30_encoding.md`
R110, R113, `60_exceptions.md` R300, R308). -/

namespace Sys2Proof.Machine

variable {α : Type}

/-! ## Commands that answer no data -/

/-- A body that returns `v` whenever it returns. -/
def Cmd.Returns (c : Cmd α) (v : α) : Prop := ∀ s t a, c s = .ok a t → a = v

theorem Cmd.Returns.pure (v : α) : Cmd.Returns (Pure.pure v : Cmd α) v := by
  intro s t a h
  cases h
  rfl

/-- What a body returns is what its last part does. -/
theorem Cmd.Returns.after {β : Type} {x : Cmd β} {f : β → Cmd α} {v : α} (h : ∀ b, Cmd.Returns (f b) v) :
    Cmd.Returns (x >>= f) v := by
  intro s t a hrun
  rw [Cmd.bind_run] at hrun
  cases hx : x s with
  | ok b u => exact h b u t a (by simpa [hx] using hrun)
  | error e u => simp [hx] at hrun

/-- The commands that return data (R113). -/
def queries : List Op := [Op.regRd, Op.lineGet, Op.hbGet, Op.seqGet]

/-- Every other command responds with 0. -/
theorem act_returns_zero {i : Instr} (h : i.op ∉ queries) : Cmd.Returns (act i) 0#16 := by
  have hend {β : Type} {x : Cmd β} : Cmd.Returns (x >>= fun _ => Pure.pure 0#16) 0#16 :=
    .after fun _ => .pure _
  cases i with
  | regRd | lineGet | hbGet | seqGet => exact absurd (by simp [queries, Instr.op]) h
  | ctrlInit addr hz => exact .after fun _ => .after fun _ => .after fun _ => hend
  | hbBrake id => exact .after fun _ => hend
  | hbRelease id => exact .after fun _ => .after fun _ => hend
  | seqStep id dir => exact .after fun _ => .after fun _ => .after fun _ => hend
  | seqRelease id => exact .after fun _ => .after fun _ => hend
  | _ => exact hend

/-! ## Responses -/

/-- No effect answers of itself (R110). -/
theorem act_responses (i : Instr) (s : State) : ((act i).final s).responses = s.responses := by
  have hR : BusRel fun s t => t.responses = s.responses :=
    ⟨fun _ => rfl, fun _ _ _ h k => k.trans h, fun h => h.responses⟩
  have hset : ∀ k d, Cmd.Keeps (fun s t => t.responses = s.responses) (bridgeSet k d) := fun k d =>
    hR.bridgeSet (fun _ => rfl) (fun _ _ _ => rfl) fun _ => hR.setDirection (fun _ _ => rfl) fun _ _ => rfl
  cases i with
  | regWr reg v => exact (hR.act_regWr reg v).final s
  | regRd reg => exact (hR.act_regRd reg).final s
  | regBurst reg data => exact (hR.act_regBurst reg data).final s
  | ctrlInit addr hz =>
    exact (hR.act_ctrlInit (fun _ => rfl) (fun _ => rfl) (fun _ _ => rfl) (fun _ _ => rfl) hz).final s
  | ctrlReset => exact (hR.act_ctrlReset fun _ _ => rfl).final s
  | ctrlFreq hz => exact (hR.act_ctrlFreq (fun _ _ => rfl) (fun _ _ => rfl) hz).final s
  | ctrlDuty id d => exact (hR.act_ctrlDuty id d).final s
  | chDuty id d => exact (hR.act_chDuty fun _ _ => rfl).final s
  | lineSet id b => exact (hR.act_lineSet fun _ => rfl).final s
  | hbSet id d => exact (hR.act_hbSet (hset _ d)).final s
  | hbBrake id => exact (hR.act_hbBrake (fun _ => rfl) fun _ => rfl).final s
  | hbRelease id => exact (hR.act_hbRelease fun _ _ _ => rfl).final s
  | seqStep id dir => exact hR.act_seqStep rfl fun k _ _ => ⟨hset k _, hset k _⟩
  | seqRelease id => exact (hR.act_seqRelease (fun k => hset k _) id).final s
  | chBind | chRelease | lineGet | hbConfig | hbGet | seqConfig | seqGet => rfl

/-- A command responds once, with data only when its effect ran and returned them (R308). -/
theorem exec_responds (i : Instr) (s : State) : ∃ u e v, exec i s = .next (State.respond u e v) ∧
    u.responses = s.responses ∧ (v ≠ 0#16 → e = .ok ∧ act i s = .ok v u) := by
  rw [exec_eq]
  cases hc : s.failedCheck i with
  | some e => exact ⟨s, e, 0#16, rfl, rfl, fun h => absurd rfl h⟩
  | none =>
    have hresp := act_responses i s
    simp only [resultOf]
    cases ha : act i s with
    | ok v u => exact ⟨u, .ok, v, rfl, Cmd.final_ok ha ▸ hresp, fun _ => ⟨rfl, rfl⟩⟩
    | error e u => exact ⟨u, e, 0#16, rfl, Cmd.final_error ha ▸ hresp, fun h => absurd rfl h⟩

theorem Status.code_le_six (e : Status) : e.code.toNat ≤ 6 := by cases e <;> decide

/-- Settles O12: a command answers once, with data only when a query's effect returned them. -/
theorem everyCommandAnswersOnce : Obligations.EveryCommandAnswersOnce := by
  unfold Obligations.EveryCommandAnswersOnce
  intro i s
  obtain ⟨u, e, v, hexec, hresp, hdata⟩ := exec_responds i s
  refine ⟨u.respond e v, responseWord e v, hexec, by rw [State.respond_responses, hresp], ?_, responseWord_zero e v, ?_⟩
  · rw [statusOf, responseWord_status]; exact e.code_le_six
  · rw [statusOf, responseWord_status, responseWord_data]
    intro hv
    obtain ⟨rfl, hact⟩ := hdata hv
    exact ⟨rfl, by_contra fun hq => hv (act_returns_zero hq s u v hact)⟩

end Sys2Proof.Machine
end

section
/-! PROOF. What a step does with the words at the command port (`30_encoding.md` R110, R127, `20_memory.md` R70, R102,
`60_exceptions.md` R319, R322), and the encoding examples of R130. -/

namespace Sys2Proof

/-! ## Bytes of the transport (R70) -/

theorem wordsOfBytes_bytesOfWord (w : Word) (bs : List Byte) :
    wordsOfBytes (bytesOfWord w ++ bs) = w :: wordsOfBytes bs := congrArg (· :: _) (place_bytes w)

theorem wordsOfBytes_flatMap (ws : List Word) : wordsOfBytes (ws.flatMap bytesOfWord) = ws := by
  induction ws with
  | nil => rfl
  | cons w ws ih => rw [List.flatMap_cons, wordsOfBytes_bytesOfWord, ih]

/-- The words of an opcode-table row are as many as its opcode takes, so none is left over. -/
theorem decode_tableWords (nbits w : Nat) : ∃ r, decode (tableWords nbits w) = .of r [] := by
  unfold tableWords
  simp only
  split
  · next h => exact ⟨_, by rw [decode_cons_cons, if_pos h]⟩
  · next h => exact ⟨_, by rw [decode, if_neg h]⟩

theorem decode_tableWords_of_decodeTableWord {nbits w : Nat} {i : Instr} (h : decodeTableWord nbits w = some i) :
    decode (tableWords nbits w) = .command i [] := by
  obtain ⟨r, hr⟩ := decode_tableWords nbits w
  unfold decodeTableWord decodeBytes at h
  rw [wordsOfBytes_flatMap, hr] at h
  cases r with
  | ok j => rw [hr, ← Option.some.inj h]; rfl
  | error why => simp [Decoded.of] at h

namespace Machine

/-- Settles O7: `step` runs what the decoder reads, and the bytes of a table row's words are read as those words. -/
theorem stepRunsTheDecodedCommand : Obligations.StepRunsTheDecodedCommand := by
  unfold Obligations.StepRunsTheDecodedCommand
  have hstep : ∀ (s : State) (i : Instr) (rest : List Word), decode s.inbox = .command i rest →
      step s = exec i { s with inbox := rest } := by
    intro s i rest h
    rw [step, State.fetch, h]
    rfl
  exact ⟨hstep, fun s i nbits w h => hstep (s.withFetchWord nbits w) i [] (decode_tableWords_of_decodeTableWord h)⟩

/-! ## Events of the outside world -/

namespace State

variable (s : State)

theorem peerBind_eq (chs : List Channel) : ∃ held, s.peerBind chs = { s with heldElsewhere := held } := by
  unfold peerBind
  split
  · exact ⟨_, rfl⟩
  · exact ⟨s.heldElsewhere, rfl⟩

theorem peerReady_eq (a : Addr) : ∃ peers, s.peerReady a = { s with peers := peers } := by
  unfold peerReady
  split
  · exact ⟨s.peers, rfl⟩
  · exact ⟨_, rfl⟩

theorem peerChange_eq (a : Addr) (on : Bool) : ∃ changing, s.peerChange a on = { s with changing := changing } := by
  unfold peerChange
  split
  · exact ⟨s.changing, rfl⟩
  · cases on
    · exact ⟨_, rfl⟩
    · exact ⟨_, rfl⟩

/-- Another block's frequency change is seen, but not at the address this block is READY at (R173, R353). -/
theorem mem_peerChange (a b : Addr) (on : Bool) : b ∈ (s.peerChange a on).changing ↔
    if b = a ∧ ¬ (s.phase = .ready ∧ s.addr = a) then on = true else b ∈ s.changing := by
  unfold peerChange
  by_cases hown : s.phase = .ready ∧ s.addr = a
  · simp [hown]
  · by_cases hb : b = a <;> cases on <;> simp [hown, hb]

/-- What an event does not touch, whichever it is. -/
structure EventFrame (s t : State) (e : HostEvent) : Prop where
  outside : t.responses = s.responses ∧ t.params = s.params ∧ t.replies = s.replies ∧ t.traffic = s.traffic ∧
    t.events = s.events := by exact ⟨rfl, rfl, rfl, rfl, rfl⟩
  devices : (∀ g, e ≠ .foreign g) → t.devices = s.devices := by intros; rfl
  changing : (∀ a on, e ≠ .peerChange a on) → t.changing = s.changing := by intros; rfl
  block : e ≠ .blockReset → t.phase = s.phase ∧ t.addr = s.addr ∧ t.alloc = s.alloc ∧ t.chDuty = s.chDuty ∧
    t.bridges = s.bridges ∧ t.seqs = s.seqs ∧ t.trace = s.trace ∧ s.inbox <+: t.inbox := by
      exact fun _ => ⟨rfl, rfl, rfl, rfl, rfl, rfl, rfl, List.prefix_rfl⟩

theorem hostEvent_frame (e : HostEvent) : EventFrame s (s.hostEvent e) e := by
  cases e with
  | word w => exact { block := fun _ => ⟨rfl, rfl, rfl, rfl, rfl, rfl, rfl, List.prefix_append _ _⟩ }
  | blockReset => exact { block := fun h => absurd rfl h }
  | peerReady a =>
    obtain ⟨peers, h⟩ := s.peerReady_eq a
    rw [hostEvent, h]
    exact {}
  | peerDown a => exact {}
  | peerBind chs =>
    obtain ⟨held, h⟩ := s.peerBind_eq chs
    rw [hostEvent, h]
    exact {}
  | peerRelease chs => exact {}
  | peerChange a on =>
    obtain ⟨changing, h⟩ := s.peerChange_eq a on
    rw [hostEvent, h]
    exact { changing := fun h => absurd rfl (h a on) }
  | foreign g => exact { devices := fun h => absurd rfl (h g) }

end State

/-- Settles O9: the step takes the next event, and each event touches no more than its own part. -/
theorem incompleteCommandWaits : Obligations.IncompleteCommandWaits := by
  unfold Obligations.IncompleteCommandWaits
  intro s hwait
  refine ⟨s.idle, by rw [step, State.fetch, hwait], ?_⟩
  unfold State.idle
  cases hev : s.events with
  | nil => simp [hev]
  | cons e es =>
    obtain ⟨⟨hresp, hparams, hreplies, htraffic, hevents⟩, hdev, hch, hblock⟩ :=
      State.hostEvent_frame { s with events := es } e
    refine ⟨hresp, hparams, hreplies, htraffic, hevents, by simp, ?_, ?_, ?_, ?_, ?_, ?_⟩
    · rintro w es' ⟨⟩
      rfl
    · rintro g es' ⟨⟩
      rfl
    · exact fun h => hdev fun g hg => h g es (by rw [hg])
    · exact fun h => hch fun a on ha => h a on es (by rw [ha])
    · rintro a on es' ⟨⟩ b
      exact State.mem_peerChange { s with events := es } a b on
    · exact fun h => hblock fun he => h es (by rw [he])

/-! ## The examples of R130 -/

/-- A direction that is none fails a check, whichever slot the command names. -/
theorem exec_seqStep_noDirection (s : State) (id : Byte) (h : s.phase = .ready) :
    exec (.seqStep id 2#2) s = .next (s.respond .configurationError 0#16) := by
  have hcheck : s.failedCheck (.seqStep id 2#2) = some .configurationError := by
    rw [failedCheck_ready (.inr h)]
    by_cases hid : id.toNat < s.nseq <;> simp [State.checks, firstOf, hid]
  rw [exec_eq, hcheck, resultOf]

/-- Settles O1: the assembler and the decoder run on each example; the direction `10` fails a check of SEQ_STEP. -/
theorem sampleWordsDecode : Obligations.SampleWordsDecode := by
  unfold Obligations.SampleWordsDecode
  refine ⟨by decide, by decide, by decide, by decide, by decide, by decide, by decide, by decide, by decide, by decide,
    by decide, by decide, by decide, by decide, by decide, by decide, by decide, by decide, by decide, by decide,
    by decide, fun s h => exec_seqStep_noDirection s 0#8 h, by decide⟩

end Machine

end Sys2Proof
end

section
/-! PROOF. The register-bus commands (`40_register_bus.md` R150 to R155): each sends one group, and on the reference bus that
group takes the block's device from `d` to a device that `20_memory.md` R82 to R89 describe. -/

namespace Sys2Proof.Machine

/-! ## A command of one group -/

/-- A command whose effect is one bus primitive, on a bus that answers. -/
theorem exec_of_group {α : Type} {i : Instr} {c : Cmd α} {f : α → BitVec 16} {S : Addr → α → Group → Prop} {s : State}
    (hact : act i = c >>= fun v => pure (f v)) (hspec : GroupSpec c S) (hc : s.failedCheck i = none) (hs : s.answers) :
    ∃ t v g, exec i s = .next (t.respond .ok (f v)) ∧ BusEffect s t [g] ∧ S s.addr v g := by
  obtain ⟨v, t, g, hrun, ht, hg⟩ := hspec.ok hs
  have hdone : act i s = .ok (f v) t := by
    rw [hact, Cmd.bind_run, hrun]
    rfl
  exact ⟨t, v, g, exec_of_checks_pass hc hdone, ht, hg⟩

theorem failedCheck_regRd {s : State} (hr : s.phase = .ready) (reg : Byte) : s.failedCheck (.regRd reg) = none := by
  rw [failedCheck_ready (Or.inr hr)]; rfl

theorem failedCheck_regBurst {s : State} (hr : s.phase = .ready) (reg : Byte) (data : List Byte) :
    s.failedCheck (.regBurst reg data) = none := by
  rw [failedCheck_ready (Or.inr hr)]; rfl

/-! ## What a group does to the block's device -/

/-- On the reference bus the block's device goes from `d` to `F d`, and no other device changes (R81). -/
def TakesDevice (s t : State) (F : Device → Device) : Prop :=
  s.quiet → ∀ d, findDevice s.devices s.addr = some d →
    findDevice t.devices s.addr = some (F d) ∧ ∀ b, b ≠ s.addr → findDevice t.devices b = findDevice s.devices b

theorem TakesDevice.registers {s t : State} {gs : List Group} {F : Device → Device} {f : (Byte → Byte) → Byte → Byte}
    (h : TakesDevice s t F) (ht : BusEffect s t gs) (hf : ∀ d, d.mem.wf → ∀ r, (F d).reg r = f d.reg r) :
    ReferenceRegisters s t f := by
  unfold ReferenceRegisters
  rw [ht.addr]
  intro hq d hd hw
  obtain ⟨hd', hother⟩ := h hq d hd
  exact ⟨F d, hd', hf d hw, hother⟩

/-- Frames sent to one device are taken by it one after the other (R91). -/
theorem ReferenceRun.foldl_accept {ds ds' : List Device} {es : List BusEvent} {a : Addr} {d : Device}
    (h : ReferenceRun ds es ds') (hes : ∀ e ∈ es, e.frame.dest = some a) (hd : findDevice ds a = some d) :
    findDevice ds' a = some (es.foldl (fun d e => d.accept e.frame) d) ∧
      ∀ b, b ≠ a → findDevice ds' b = findDevice ds b := by
  induction es generalizing ds d with
  | nil =>
    cases h
    exact ⟨hd, fun _ _ => rfl⟩
  | cons e es ih =>
    obtain ⟨ds1, -, hd1, hother1, hrest⟩ := h.cons (hes e (by simp)) hd
    obtain ⟨hd', hother⟩ := ih hrest (fun x hx => hes x (by simp [hx])) hd1
    exact ⟨hd', fun b hb => (hother b hb).trans (hother1 b hb)⟩

theorem BusEffect.run {s t : State} {g : Group} (h : BusEffect s t [g]) (hq : s.quiet) :
    ReferenceRun s.devices g t.devices := by
  simpa using (h.reference hq).2

theorem BusEffect.takesDevice {s t : State} {g : Group} (h : BusEffect s t [g])
    (hg : ∀ e ∈ g, e.frame.dest = some s.addr) : TakesDevice s t (fun d => g.foldl (fun d e => d.accept e.frame) d) :=
  fun hq _ hd => (h.run hq).foldl_accept hg hd

theorem BurstGroup.takesDevice {s t : State} {start : Byte} {bs : List Byte} {g : Group}
    (hg : BurstGroup s.addr start bs g) (h : BusEffect s t [g]) : TakesDevice s t (fun d => d.burst start bs) :=
  fun hq _ hd =>
    have ⟨hd', hother, _⟩ := hg.reference (h.run hq) hd
    ⟨hd', hother⟩

/-! ## REG_WR -/

/-- Settles O26: the device takes the one frame, whose one byte is stored as `storeByte` says. -/
theorem regWrWritesOneRegister : Obligations.RegWrWritesOneRegister := by
  unfold Obligations.RegWrWritesOneRegister
  intro s reg v hr hs
  obtain ⟨t, _, _, hex, ht, rfl⟩ :=
    exec_of_group (i := .regWr reg v) (f := fun _ => 0#16) rfl (busWrite1_spec reg v) (failedCheck_regWr hr reg v) hs
  exact ⟨t, hex, ht, (ht.takesDevice (by simp [Frame.dest])).registers ht fun d hw =>
    (Device.writeFrame_eq hw reg [v]).2⟩

/-! ## REG_RD -/

/-- R83: the pointer write places the pointer, so the byte read is that register's. -/
theorem ReferenceRun.read_value {ds ds' : List Device} {a : Addr} {reg v : Byte} {d : Device}
    (h : ReferenceRun ds [wrote a reg [], didRead a v] ds') (hd : findDevice ds a = some d) : v = d.devRead reg := by
  obtain ⟨ds1, -, hd1, -, hread⟩ := h.cons rfl hd
  obtain ⟨_, hans, -⟩ := hread.cons rfl hd1
  have hdata : Answer.data v = Answer.data (d.devRead reg) := hans
  injection hdata

/-- R89, with the last register by its name. -/
theorem Device.devRead_eq (d : Device) (r : Byte) :
    d.devRead r = if (0x46 ≤ r.toNat ∧ r.toNat ≤ 0xFD) ∨ r = 0xFF#8 then 0x00#8 else d.reg r := by
  have hff : r.toNat = 0xFF ↔ r = 0xFF#8 := BitVec.toNat_inj (y := 0xFF#8)
  simp only [Device.devRead, hff]

/-- Settles O27: the device takes a pointer and a read, which store nothing, and answers the read from that pointer. -/
theorem regRdReturnsTheDeviceByte : Obligations.RegRdReturnsTheDeviceByte := by
  unfold Obligations.RegRdReturnsTheDeviceByte
  intro s reg hr hs
  obtain ⟨t, v, _, hex, ht, rfl⟩ :=
    exec_of_group (i := .regRd reg) (f := fun v => v.setWidth 16) rfl (busRead1_spec reg) (failedCheck_regRd hr reg) hs
  refine ⟨t, v, hex, ht, (ht.takesDevice (by simp [Frame.dest])).registers ht fun d _ r =>
    Device.advance_reg { d with ptr := reg } r, fun hq d hd => ?_⟩
  rw [(ht.run hq).read_value hd, Device.devRead_eq]

/-! ## REG_BURST -/

/-- The group of a burst as the statement writes it. -/
theorem BurstGroup.exists_eq {a : Addr} {start : Byte} {bs : List Byte} {g : Group} (h : BurstGroup a start bs g) :
    ∃ m : Byte, g = [wrote a 0x00#8 [], didRead a m] ++
      (if m &&& 0x20#8 = 0#8 then [wrote a 0x00#8 [m ||| 0x20#8]] else []) ++ [wrote a start bs] := by
  obtain ⟨m, rfl⟩ := h
  refine ⟨m, ?_⟩
  simp only [setEvents, beq_iff_eq, regMode1, bitAI]

theorem withAI_mode1 (reg : Byte → Byte) : withAI reg 0x00#8 = reg 0x00#8 ||| 0x20#8 := rfl

theorem withAI_of_ne (reg : Byte → Byte) {r : Byte} (h : r ≠ 0x00#8) : withAI reg r = reg r := if_neg h

/-- The AI check leaves AI set and SLEEP as it was. -/
theorem withAI_bits (reg : Byte → Byte) : withAI reg 0x00#8 &&& 0x20#8 ≠ 0#8 ∧
    withAI reg 0x00#8 &&& 0x10#8 = reg 0x00#8 &&& 0x10#8 := by
  rw [withAI_mode1]
  generalize reg 0x00#8 = m
  revert m
  decide

/-- R76, R82: the burst is a frame after the AI check. -/
theorem Device.burst_eq {d : Device} (h : d.mem.wf) (start : Byte) (bs : List Byte) :
    (d.burst start bs).ptr = (frameAfter (withAI d.reg) start bs).2 ∧
      ∀ r, (d.burst start bs).reg r = (frameAfter (withAI d.reg) start bs).1 r := by
  have hreg : d.enableAI.reg = withAI d.reg := funext fun r => Device.reg_enableAI h r
  rw [← hreg]
  exact Device.writeFrame_eq (Device.enableAI_wf h) start bs

/-- Bytes at MODE1 that have AI clear keep the pointer there; the last one stays (R95). -/
theorem frameAfter_mode1_still (bs : List Byte) (reg : Byte → Byte) (hbs : ∀ v ∈ bs, v &&& 0x20#8 = 0#8) (r : Byte) :
    (frameAfter reg 0x00#8 bs).1 r = if r = 0x00#8 then bs.getLastD (reg 0x00#8) else reg r := by
  induction bs generalizing reg with
  | nil =>
    split
    · next hr => subst hr; rfl
    · rfl
  | cons v vs ih =>
    rw [frameAfter_mode1, if_neg (not_not.mpr (hbs v (by simp))), ih _ fun w hw => hbs w (by simp [hw]), if_pos rfl,
      List.getLastD_cons]
    split <;> rfl

/-- PRE_SCALE takes its byte only while SLEEP is set (R86). -/
theorem storeByte_preScale (reg : Byte → Byte) (v r : Byte) :
    storeByte reg 0xFE#8 v r = if r = 0xFE#8 ∧ reg 0x00#8 &&& 0x10#8 ≠ 0#8 then v else reg r := by
  rw [storeByte, if_neg (by decide), if_pos rfl]

/-- AI set, three bytes from PRE_SCALE: the second is dropped at 0xFF, the third goes to MODE1 (R82, R86, R88). -/
theorem frameAfter_preScale {reg : Byte → Byte} (hai : reg 0x00#8 &&& 0x20#8 ≠ 0#8) (p u v r : Byte) :
    (frameAfter reg 0xFE#8 [p, u, v]).1 r =
      if r = 0xFE#8 ∧ reg 0x00#8 &&& 0x10#8 ≠ 0#8 then p else if r = 0x00#8 then v else reg r := by
  have hmode : storeByte reg 0xFE#8 p 0x00#8 = reg 0x00#8 := by
    rw [storeByte_preScale, if_neg fun h => absurd h.1 (by decide)]
  have hrest : frameAfter reg 0xFE#8 [p, u, v] = frameAfter (storeByte reg 0xFE#8 p) 0x00#8 [v] := by
    rw [frameAfter, hmode, if_pos hai]
    exact frameAfter_wrap (by rw [hmode]; exact hai) u [v]
  rw [hrest, frameAfter_mode1]
  show (if r = 0x00#8 then v else storeByte reg 0xFE#8 p r) = _
  rw [storeByte_preScale]
  by_cases hr : r = 0x00#8
  · subst hr
    rw [if_pos rfl, if_neg fun h => absurd h.1 (by decide), if_pos rfl]
  · rw [if_neg hr, if_neg hr]

theorem Device.reg_burst_mode1 {d : Device} (h : d.mem.wf) {bs : List Byte} (hlen : 1 ≤ bs.length)
    (hbs : ∀ v ∈ bs, v &&& 0x20#8 = 0#8) (r : Byte) :
    (d.burst 0x00#8 bs).reg r = if r = 0x00#8 then bs.getLastD 0#8 else d.reg r := by
  obtain ⟨v, vs, rfl⟩ := List.exists_cons_of_length_pos hlen
  rw [(Device.burst_eq h _ _).2, frameAfter_mode1_still _ _ hbs, List.getLastD_cons, List.getLastD_cons]
  split
  · rfl
  · next hr => exact withAI_of_ne d.reg hr

theorem Device.reg_burst_preScale {d : Device} (h : d.mem.wf) (p u v r : Byte) :
    (d.burst 0xFE#8 [p, u, v]).reg r =
      if r = 0xFE#8 ∧ d.reg 0x00#8 &&& 0x10#8 ≠ 0#8 then p else if r = 0x00#8 then v else d.reg r := by
  obtain ⟨hai, hsleep⟩ := withAI_bits d.reg
  rw [(Device.burst_eq h _ _).2, frameAfter_preScale hai, hsleep]
  congr 1
  split
  · rfl
  · next hr => exact withAI_of_ne d.reg hr

theorem Device.reg_burst_allLed {d : Device} (h : d.mem.wf) {bs : List Byte} (hlen : bs.length = 4) (r : Byte) :
    (d.burst 0xFA#8 bs).reg r =
      if 0x06 ≤ r.toNat ∧ r.toNat ≤ 0x45 then bs.getD ((r.toNat - 0x06) % 4) 0#8 else withAI d.reg r := by
  obtain ⟨v0, v1, v2, v3, rfl⟩ := List.length_eq_four.mp hlen
  exact Device.reg_allLedBurst h v0 v1 v2 v3 r

/-- Settles O28: the group is a burst, which takes the device as `frameAfter` says, and the closed forms are facts about the
device after a burst. -/
theorem regBurstSetsAutoIncrement : Obligations.RegBurstSetsAutoIncrement := by
  unfold Obligations.RegBurstSetsAutoIncrement
  intro s reg data hr hs hpos _
  obtain ⟨t, _, g, hex, ht, hg⟩ := exec_of_group (i := .regBurst reg data) (f := fun _ => 0#16) rfl
    (busBurst_spec reg data) (failedCheck_regBurst hr reg data) hs
  have htakes := hg.takesDevice ht
  obtain ⟨m, hm⟩ := hg.exists_eq
  refine ⟨t, m, hex, hm ▸ ht, htakes.registers ht fun d hw => (Device.burst_eq hw reg data).2,
    fun hq d hd hw => ⟨_, (htakes hq d hd).1, (Device.burst_eq hw reg data).1⟩, ?_, ?_, ?_, ?_⟩
  · intro h1 hend
    refine htakes.registers ht fun d hw r => ?_
    rw [(Device.burst_eq hw reg data).2, (frameAfter_run data (withAI_bits d.reg).1 h1 hend).2]
  · rintro rfl hbs
    exact htakes.registers ht fun d hw => Device.reg_burst_mode1 hw hpos hbs
  · rintro p u v rfl rfl
    exact htakes.registers ht fun d hw => Device.reg_burst_preScale hw p u v
  · rintro rfl hlen
    exact htakes.registers ht fun d hw => Device.reg_burst_allLed hw hlen

end Sys2Proof.Machine
end

section
/-! PROOF. The two conversions of the controller: a frequency to its prescale (`41_controller.md` R171), and a duty to the
four bytes of its channel (R179) with the output they show (`10_state.md` R49). -/

namespace Sys2Proof.Machine

/-! ## Prescale (R171) -/

/-- R171: the quotient is in range exactly for the accepted raw frequencies. -/
theorem prescaleQuotient_range (n : Nat) :
    (4 ≤ (800000000 + n) / (2 * n) ∧ (800000000 + n) / (2 * n) ≤ 256) ↔ 1559455 ≤ n ∧ n ≤ 114285714 := by
  rcases Nat.eq_zero_or_pos n with rfl | hn
  · simp
  · have hlow : 4 ≤ (800000000 + n) / (2 * n) ↔ 4 * (2 * n) ≤ 800000000 + n := Nat.le_div_iff_mul_le (by omega)
    have hhigh : (800000000 + n) / (2 * n) < 257 ↔ 800000000 + n < 257 * (2 * n) := Nat.div_lt_iff_lt_mul (by omega)
    omega

/-- R171: the quotient is `400 000 000 / n` rounded half up. -/
theorem prescaleQuotient_rounds {n : Nat} (hn : 0 < n) :
    2 * n * ((800000000 + n) / (2 * n)) ≤ 800000000 + n ∧
      800000000 < n * (2 * ((800000000 + n) / (2 * n)) + 1) := by
  refine ⟨Nat.mul_div_le _ _, ?_⟩
  have hlt : 800000000 + n < 2 * n * ((800000000 + n) / (2 * n) + 1) := Nat.lt_mul_div_succ _ (by omega)
  generalize (800000000 + n) / (2 * n) = q at hlt ⊢
  linarith [show 2 * n * (q + 1) = n * (2 * q + 1) + n by ring]

theorem prescale_eq_some_iff (h : Word) (p : Byte) :
    prescale h = some p ↔ 3 ≤ p.toNat ∧ p.toNat + 1 = (800000000 + h.toNat) / (2 * h.toNat) := by
  have hp := p.isLt
  have hquot : (2 * prescaleNumerator + h.toNat) / (2 * h.toNat) = (800000000 + h.toNat) / (2 * h.toNat) := rfl
  unfold prescale
  dsimp only
  rw [hquot]
  split
  · next h0 => simp [h0]
  · generalize (800000000 + h.toNat) / (2 * h.toNat) = q
    split
    · next hout =>
      simp only [Config.prescaleMin, Config.prescaleMax] at hout
      simp only [reduceCtorEq, false_iff]
      omega
    · next hin =>
      simp only [Config.prescaleMin, Config.prescaleMax] at hin
      rw [Option.some_inj, ← BitVec.toNat_inj, BitVec.toNat_ofNat]
      omega

theorem prescale_isSome_iff (h : Word) :
    (prescale h).isSome = true ↔ 1559455 ≤ h.toNat ∧ h.toNat ≤ 114285714 := by
  simp only [Option.isSome_iff_exists, prescale_eq_some_iff]
  rw [← prescaleQuotient_range]
  generalize (800000000 + h.toNat) / (2 * h.toNat) = q
  constructor
  · rintro ⟨p, hmin, hq⟩
    have hp := p.isLt
    omega
  · rintro ⟨hmin, hmax⟩
    refine ⟨BitVec.ofNat 8 (q - 1), ?_⟩
    rw [BitVec.toNat_ofNat]
    omega

/-- Settles O29: the prescale is R171's quotient less 1, and a quotient outside the byte's range is refused. -/
theorem prescaleIsRoundedHalfUp : Obligations.PrescaleIsRoundedHalfUp := by
  unfold Obligations.PrescaleIsRoundedHalfUp
  intro h
  refine ⟨prescale_isSome_iff h, fun p hp => ?_⟩
  obtain ⟨hmin, hq⟩ := (prescale_eq_some_iff h p).mp hp
  obtain ⟨hpos, -⟩ := (prescale_isSome_iff h).mp (by rw [hp]; rfl)
  obtain ⟨hlow, hhigh⟩ := prescaleQuotient_rounds (n := h.toNat) (by omega)
  rw [← hq] at hlow hhigh
  exact ⟨hmin, hq, hlow, by linarith⟩

/-! ## Pattern (R179) -/

/-- The bytes of a count that starts at 0, low bytes first (R44, R70). -/
theorem countBytes_zero {n : Nat} (hn : n ≤ 4095) :
    countBytes 0#12 (BitVec.ofNat 12 n) = [0x00#8, 0x00#8, BitVec.ofNat 8 n, BitVec.ofNat 8 (n / 256)] := by
  have hlow : countLow (BitVec.ofNat 12 n) = BitVec.ofNat 8 n := by
    apply BitVec.eq_of_toNat_eq
    simp only [countLow, BitVec.extractLsb'_toNat, BitVec.toNat_ofNat, Nat.shiftRight_zero]
    omega
  have hhigh : countHigh (BitVec.ofNat 12 n) = BitVec.ofNat 8 (n / 256) := by
    apply BitVec.eq_of_toNat_eq
    simp only [countHigh, BitVec.toNat_setWidth, BitVec.extractLsb'_toNat, BitVec.toNat_ofNat, Nat.shiftRight_eq_div_pow]
    omega
  rw [countBytes, hlow, hhigh]
  rfl

theorem pattern_full_on {d : Duty} (h : 16384 ≤ d.toInt) : pattern d = fullOn := if_pos h

theorem pattern_full_off {d : Duty} (h : d.toInt ≤ 0) : pattern d = fullOff := by
  have hone : ¬ (Config.one : Int) ≤ d.toInt := by simp only [Config.one]; omega
  rw [pattern, if_neg hone, if_pos h]

/-- R179: between 0 and +1.0 the channel is on from 0 to a count of 1 to 4095. -/
theorem pattern_between {d : Duty} (h0 : 0 < d.toInt) (h1 : d.toInt < 16384) :
    pattern d = [0x00#8, 0x00#8, BitVec.ofNat 8 (max 1 (d.toInt.toNat / 4)),
      BitVec.ofNat 8 (max 1 (d.toInt.toNat / 4) / 256)] ∧ max 1 (d.toInt.toNat / 4) ≤ 4095 := by
  have hone : ¬ (Config.one : Int) ≤ d.toInt := by simp only [Config.one]; omega
  have hmax : max 1 (d.toInt.toNat / 4) ≤ 4095 := by omega
  rw [pattern, if_neg hone, if_neg (by omega), offCount_eq]
  exact ⟨countBytes_zero hmax, hmax⟩

/-- R49, R76, R181: after the burst of a duty its channel shows the duty, and every other channel what it showed. -/
theorem Device.channelOutput_burst {d : Device} (hw : d.mem.wf) (c n : Channel) (duty : Duty) :
    (d.burst (regLed c) (pattern duty)).channelOutput n = if n = c then dutyOutput duty else d.channelOutput n := by
  have hled : ∀ j < 4, (d.burst (regLed c) (pattern duty)).reg (BitVec.ofNat 8 (0x06 + 4 * n.val + j)) =
      if n = c then (pattern duty).getD j 0#8 else d.reg (BitVec.ofNat 8 (0x06 + 4 * n.val + j)) := fun j hj => by
    rw [Device.reg_channelBurst hw c (pattern_length duty)]
    exact storeBurst_led d.reg (c, pattern duty) n hj
  rw [Device.channelOutput_eq, Device.channelOutput_eq]
  split
  · next h => exact outputOf_pattern fun j hj => by rw [hled j hj, if_pos h]
  · next h => exact outputOf_congr fun j hj => by rw [hled j hj, if_neg h]

/-- Settles O30: the three ranges of a duty give their bytes, and a burst changes the output of its channel alone. -/
theorem patternGivesItsOutput : Obligations.PatternGivesItsOutput := by
  unfold Obligations.PatternGivesItsOutput
  intro d ch dev hw
  exact ⟨pattern_length d, pattern_full_on, pattern_full_off,
    (Device.channelOutput_burst hw ch ch d).trans (if_pos rfl),
    fun c hc => (Device.channelOutput_burst hw ch c d).trans (if_neg hc), pattern_between⟩

end Sys2Proof.Machine
end

section
/-! PROOF. The controller commands (`41_controller.md` R170 to R181) on a bus that answers: CTRL_INIT, CTRL_RESET and
CTRL_FREQ are made of ResetSeq and FreqSeq, whose groups take the registers of the device as `70_reset_and_hazards.md` R342
to R344 say, and CTRL_DUTY is one channel burst. -/

namespace Sys2Proof.Machine

/-! ## The checks pass -/

theorem failedCheck_ctrlInit {s : State} {addr : Addr} {hz : Word} (hu : s.phase = .uninit) (ha : addr ∉ s.peers)
    (hp : (prescale hz).isSome = true) : s.failedCheck (.ctrlInit addr hz) = none := by
  rw [failedCheck_ready (Or.inl rfl)]
  simp [State.checks, firstOf, hu, ha, hp]

theorem failedCheck_ctrlReset {s : State} (hr : s.phase = .ready) : s.failedCheck .ctrlReset = none := by
  rw [failedCheck_ready (Or.inr hr)]
  rfl

theorem failedCheck_ctrlFreq {s : State} (hr : s.phase = .ready) {hz : Word} (hp : (prescale hz).isSome = true) :
    s.failedCheck (.ctrlFreq hz) = none := by
  rw [failedCheck_ready (Or.inr hr)]
  simp [State.checks, firstOf, hp]

/-! ## ResetSeq and FreqSeq when the bus answers -/

theorem resetSeq_ok {s : State} (hs : s.answers) :
    ∃ t gs, resetSeq s = .ok () t ∧ BusEffect (s.closeChange s.addr) t gs ∧ ResetGroups s.addr gs := by
  obtain ⟨t, gs, ht, -, ⟨hrun, hg, -⟩ | ⟨-, -, hn⟩⟩ := resetSeq_run s
  · have hlen : gs.length = 4 := by obtain ⟨_, _, _, rfl⟩ := hg; rfl
    rw [if_pos hlen] at ht
    exact ⟨t, gs, hrun, ht, hg⟩
  · exact absurd hs hn

theorem FreqGroups.afterFreq {a : Addr} {p : Byte} {gs : List Group} (h : FreqGroups a p gs) (s : State) :
    s.afterFreq gs = s.closeChange s.addr := by
  obtain ⟨_, _, ⟨_, _, _, rfl⟩, rfl⟩ := h
  rfl

theorem freqSeq_ok {s : State} (hs : s.answers) (p : Byte) :
    ∃ t gs, freqSeq p s = .ok () t ∧ BusEffect (s.closeChange s.addr) t gs ∧ FreqGroups s.addr p gs := by
  obtain ⟨t, gs, ht, -, ⟨hrun, hg, -⟩ | ⟨-, -, hn⟩⟩ := freqSeq_run p s
  · exact ⟨t, gs, hrun, hg.afterFreq s ▸ ht, hg⟩
  · exact absurd hs hn

/-! ## What the groups do to the device -/

/-- On the reference bus the groups `gs` take the registers of the device at `a` from `reg` to `f reg`, leave its pointer
at MODE2, and change no other device. -/
def SetsRegisters (a : Addr) (gs : List Group) (f : (Byte → Byte) → Byte → Byte) : Prop :=
  ∀ ds ds' d, ReferenceRun ds gs.flatten ds' → findDevice ds a = some d → d.mem.wf →
    ∃ d', findDevice ds' a = some d' ∧ d'.mem.wf ∧ (∀ r, d'.reg r = f d.reg r) ∧ d'.ptr = 0x01#8 ∧
      ∀ b, b ≠ a → findDevice ds' b = findDevice ds b

theorem ResetGroups.setsRegisters {a : Addr} {gs : List Group} (h : ResetGroups a gs) : SetsRegisters a gs resetRegs :=
  fun _ _ _ => h.reference

theorem FreqGroups.setsRegisters {a : Addr} {p : Byte} {gs : List Group} (h : FreqGroups a p gs) :
    SetsRegisters a gs (freqRegs p) :=
  fun _ _ _ => h.reference

namespace SetsRegisters

variable {a : Addr} {gs hs : List Group} {f g : (Byte → Byte) → Byte → Byte} {s t : State}

theorem append (h : SetsRegisters a gs f) (k : SetsRegisters a hs g) : SetsRegisters a (gs ++ hs) (fun reg => g (f reg)) := by
  intro ds ds' d hrun hd hw
  rw [List.flatten_append] at hrun
  obtain ⟨ds1, hrun1, hrun2⟩ := hrun.split
  obtain ⟨d1, hd1, hw1, hreg1, -, hother1⟩ := h ds ds1 d hrun1 hd hw
  obtain ⟨d2, hd2, hw2, hreg2, hptr2, hother2⟩ := k ds1 ds' d1 hrun2 hd1 hw1
  refine ⟨d2, hd2, hw2, fun r => ?_, hptr2, fun b hb => (hother2 b hb).trans (hother1 b hb)⟩
  rw [hreg2, funext hreg1]

theorem registers (h : SetsRegisters s.addr gs f) (ht : BusEffect (s.closeChange s.addr) t gs) :
    ReferenceRegisters s t f := by
  have haddr : t.addr = s.addr := ht.addr
  unfold ReferenceRegisters
  rw [haddr]
  intro hq d hd hw
  obtain ⟨d', hd', -, hreg, -, hother⟩ := h s.devices t.devices d (ht.reference hq).2 hd hw
  exact ⟨d', hd', hreg, hother⟩

theorem pointer (h : SetsRegisters s.addr gs f) (ht : BusEffect (s.closeChange s.addr) t gs) (hq : s.quiet)
    {d : Device} (hd : findDevice s.devices s.addr = some d) (hw : d.mem.wf) :
    ∃ d', findDevice t.devices s.addr = some d' ∧ d'.ptr = 0x01#8 := by
  obtain ⟨d', hd', -, -, hptr, -⟩ := h s.devices t.devices d (ht.reference hq).2 hd hw
  exact ⟨d', hd', hptr⟩

end SetsRegisters

/-- R343, R344: the registers after a ResetSeq, the channel bytes written out. -/
theorem resetRegs_eq (reg : Byte → Byte) (r : Byte) : resetRegs reg r =
    if r = 0x00#8 then 0xA0#8
    else if 0x06 ≤ r.toNat ∧ r.toNat ≤ 0x45 then (if (r.toNat - 0x06) % 4 = 3 then 0x10#8 else 0x00#8)
    else reg r := by
  have hoff : ∀ j < 4, fullOff.getD j 0#8 = if j = 3 then 0x10#8 else 0x00#8 := by decide
  rw [resetRegs, hoff _ (Nat.mod_lt _ (by omega)), regMode1]

/-- A FreqSeq writes every register that a ResetSeq before it wrote. -/
theorem freqRegs_resetRegs (p : Byte) (reg : Byte → Byte) : freqRegs p (resetRegs reg) = freqRegs p reg := by
  have hidem : ∀ r, resetRegs (resetRegs reg) r = resetRegs reg r := fun r => by
    rw [resetRegs]
    split
    · next hm => rw [resetRegs, if_pos hm]
    · next hm =>
      split
      · next hl => rw [resetRegs, if_neg hm, if_pos hl]
      · rfl
  funext r
  rw [freqRegs, freqRegs, hidem]

/-! ## CTRL_RESET and CTRL_FREQ -/

/-- Settles O32: the effect is a ResetSeq. -/
theorem ctrlResetForcesEveryChannelOff : Obligations.CtrlResetForcesEveryChannelOff := by
  unfold Obligations.CtrlResetForcesEveryChannelOff
  intro s hr hs
  obtain ⟨t, gs, hrun, ht, hg⟩ := resetSeq_ok hs
  have hact : act .ctrlReset s = .ok 0#16 t := by simp [act, hrun]
  refine ⟨t, gs, exec_of_checks_pass (failedCheck_ctrlReset hr) hact, ht, hg, ?_⟩
  simp only [← resetRegs_eq]
  exact hg.setsRegisters.registers ht

/-- Settles O33: the effect is a FreqSeq. -/
theorem ctrlFreqWritesThePrescale : Obligations.CtrlFreqWritesThePrescale := by
  unfold Obligations.CtrlFreqWritesThePrescale
  intro s hz p hr hs hp
  obtain ⟨t, gs, hrun, ht, hg⟩ := freqSeq_ok hs p
  have hact : act (.ctrlFreq hz) s = .ok 0#16 t := by simp [act, hp, hrun]
  refine ⟨t, gs, exec_of_checks_pass (failedCheck_ctrlFreq hr (by rw [hp]; rfl)) hact, ht, hg, ?_⟩
  simp only [← resetRegs_eq]
  exact hg.setsRegisters.registers ht

/-! ## CTRL_INIT -/

theorem State.closeChange_closeChange (s : State) (a : Addr) : (s.closeChange a).closeChange a = s.closeChange a := by
  simp [State.closeChange]

/-- R173: a ResetSeq and a FreqSeq, one after the other. -/
theorem resetSeq_freqSeq_ok {s : State} (hs : s.answers) (p : Byte) :
    ∃ t u gs hs, resetSeq s = .ok () t ∧ freqSeq p t = .ok () u ∧ BusEffect (s.closeChange s.addr) u (gs ++ hs) ∧
      ResetGroups s.addr gs ∧ FreqGroups s.addr p hs := by
  obtain ⟨t, gs, hreset, ht, hgs⟩ := resetSeq_ok hs
  obtain ⟨u, hs', hfreq, hu, hhs⟩ := freqSeq_ok (ht.answers hs) p
  have haddr : t.addr = s.addr := ht.addr
  rw [haddr] at hu hhs
  have hclosed := ht.closeChange s.addr
  rw [State.closeChange_closeChange] at hclosed
  exact ⟨t, u, gs, hs', hreset, hfreq, hclosed.trans hu, hgs, hhs⟩

/-- Settles O31: after the address is taken the effect is a ResetSeq and a FreqSeq, and the FreqSeq's registers stand. -/
theorem ctrlInitConstructsTheController : Obligations.CtrlInitConstructsTheController := by
  unfold Obligations.CtrlInitConstructsTheController
  intro s addr hz p hu ha hp hs
  obtain ⟨t, u, gs, hs', hreset, hfreq, heff, hgs, hhs⟩ := resetSeq_freqSeq_ok (s := { s with addr := addr }) hs p
  have hact : act (.ctrlInit addr hz) s = .ok 0#16 { u with phase := .ready } := by simp [act, hp, hreset, hfreq]
  have hsets : SetsRegisters addr (gs ++ hs') (freqRegs p) := by
    simpa only [freqRegs_resetRegs] using hgs.setsRegisters.append hhs.setsRegisters
  exact ⟨u, gs, hs', exec_of_checks_pass (failedCheck_ctrlInit hu ha (by rw [hp]; rfl)) hact, heff, hgs, hhs,
    hsets.registers (s := { s with addr := addr }) heff,
    fun hq d hd hw => hsets.pointer (s := { s with addr := addr }) heff hq hd hw⟩

/-! ## CTRL_DUTY -/

/-- Settles O34: the one group is a burst into the channel's four registers. -/
theorem ctrlDutyWritesOneChannel : Obligations.CtrlDutyWritesOneChannel := by
  unfold Obligations.CtrlDutyWritesOneChannel
  intro s id d hid hr hs
  obtain ⟨t, _, g, hex, ht, hg⟩ := exec_of_group (i := .ctrlDuty id d) (f := fun _ => 0#16) rfl
    (busBurst_spec (regLed (chan id)) (pattern d)) (failedCheck_ctrlDuty hr hid d) hs
  rw [chan_eq hid] at hg
  exact ⟨t, g, hex, ht, hg, (hg.takesDevice ht).registers ht fun _ hw =>
    Device.reg_channelBurst hw ⟨id.toNat, hid⟩ (pattern_length d)⟩

end Sys2Proof.Machine
end

section
/-! PROOF. The channel and line commands (`42_channel.md` R200 to R211): the checks of a command for a channel the port
holds, what a run of SetDuty does on a bus that answers, and the five commands. -/

namespace Sys2Proof.Machine

/-! ## The checks pass -/

theorem failedCheck_chBind {s : State} {id : Byte} (hr : s.phase = .ready) (hid : id.toNat < 16)
    (hfree : s.entry ⟨id.toNat, hid⟩ = .free) : s.failedCheck (.chBind id) = none := by
  have hentry : s.entryAt id = some .free := by rw [entryAt_eq s hid, chan_eq hid, hfree]
  rw [failedCheck_ready (Or.inr hr)]
  simp [State.checks, firstOf, hid, hentry]

/-- CH_RELEASE, LINE_SET and LINE_GET have the same checks, which pass on a channel the port holds (R202, R206, R208). -/
theorem failedCheck_of_port {s : State} {i : Instr} {id : Byte} (hi : s.checks i = s.checks (.chRelease id))
    (hr : s.phase = .ready) (hid : id.toNat < 16) (hport : s.entry ⟨id.toNat, hid⟩ = .port) : s.failedCheck i = none := by
  have hentry : s.entryAt id = some .port := by rw [entryAt_eq s hid, chan_eq hid, hport]
  rw [failedCheck_ready (Or.inr hr), hi]
  simp [State.checks, firstOf, hid, hentry]

/-- CH_DUTY checks the duty too (R204). -/
theorem failedCheck_chDuty {s : State} {id : Byte} {d : Duty} (hr : s.phase = .ready) (hid : id.toNat < 16)
    (hd : inUnit d = true) (hport : s.entry ⟨id.toNat, hid⟩ = .port) : s.failedCheck (.chDuty id d) = none := by
  have hentry : s.entryAt id = some .port := by rw [entryAt_eq s hid, chan_eq hid, hport]
  rw [failedCheck_ready (Or.inr hr)]
  simp [State.checks, firstOf, hid, hd, hentry]

/-! ## Commands that send no frame -/

/-- R113: the response word of a command that ends with OK is its data. -/
theorem State.respond_ok (s : State) (v : BitVec 16) :
    s.respond .ok v = { s with responses := s.responses ++ [v.setWidth 32] } := by
  simp [State.respond, responseWord, Status.code, place]

/-- Settles O37: the checks pass, and the effects write `alloc`, and for CH_BIND `chDuty`, at the one channel. -/
theorem chBindAndChReleaseTakeAndFreeAChannel : Obligations.ChBindAndChReleaseTakeAndFreeAChannel := by
  unfold Obligations.ChBindAndChReleaseTakeAndFreeAChannel
  intro s id hid hr
  constructor
  · intro hfree
    have hact : act (.chBind id) s = .ok 0#16 ((s.setOwner (chan id) .port).setDuty (chan id) 0#16) := rfl
    rw [exec_of_checks_pass (failedCheck_chBind hr hid hfree) hact, chan_eq hid, State.respond_ok]
    rfl
  · intro hport
    have hact : act (.chRelease id) s = .ok 0#16 (s.setOwner (chan id) .free) := rfl
    rw [exec_of_checks_pass (failedCheck_of_port rfl hr hid hport) hact, chan_eq hid, State.respond_ok]
    rfl

/-- Settles O40: the checks pass, and the effect returns the line state of the stored duty. -/
theorem lineGetReadsTheStoredDuty : Obligations.LineGetReadsTheStoredDuty := by
  unfold Obligations.LineGetReadsTheStoredDuty
  intro s id hid hr hport
  have hact : act (.lineGet id) s = .ok (if lineState (s.duty (chan id)) then 1#16 else 0#16) s := rfl
  have hline : lineState (s.duty (chan id)) = decide (16384 ≤ (s.chDuty[id.toNat]).toInt) := by rw [chan_eq hid]; rfl
  have hchecks : s.failedCheck (.lineGet id) = none := failedCheck_of_port rfl hr hid hport
  rw [exec_of_checks_pass hchecks hact, hline, State.respond_ok]
  by_cases h : 16384 ≤ (s.chDuty[id.toNat]).toInt <;> simp [h]

/-! ## Commands that commit duties -/

/-- On a bus that answers, every duty of the run is stored, and its burst sent (R209). -/
theorem DutyRun.ok {c : Cmd Unit} {ws : List (Channel × Duty)} (h : DutyRun c ws) {s : State} (hs : s.answers) :
    ∃ t gs, c s = .ok () t ∧ BusEffect (s.applyDuties ws) t gs ∧ BurstGroups s.addr (ws.map dutyBurst) gs := by
  obtain ⟨t, gs, ht, ⟨hrun, hgs, -⟩ | ⟨-, -, -, hn⟩⟩ := h s
  · have hlen : gs.length = ws.length := by rw [hgs.length, List.length_map]
    rw [hlen, List.take_length] at ht
    exact ⟨t, gs, hrun, ht, hgs⟩
  · exact absurd hs hn

/-- On the reference bus the block's device takes the bursts. -/
theorem BurstGroups.registers {s t : State} {bs : List Burst} {gs : List Group} (hg : BurstGroups s.addr bs gs)
    (hb : ∀ b ∈ bs, b.2.length = 4) (ht : BusEffect s t gs) : ReferenceRegisters s t (registersAfter bs) := by
  unfold ReferenceRegisters
  rw [ht.addr]
  intro hq d hd hw
  obtain ⟨d', hd', -, hreg, hother⟩ := hg.reference hb (ht.reference hq).2 hd hw
  exact ⟨d', hd', hreg, hother⟩

/-- A command whose effect commits the duties `ws`, on a bus that answers. -/
theorem exec_of_dutyRun {i : Instr} {c : Cmd Unit} {ws : List (Channel × Duty)} {s : State}
    (hact : act i = do c; return 0#16) (hrun : DutyRun c ws) (hc : s.failedCheck i = none) (hs : s.answers) :
    ∃ t gs, exec i s = .next (t.respond .ok 0#16) ∧ BusEffect (s.applyDuties ws) t gs ∧
      BurstGroups s.addr (ws.map dutyBurst) gs ∧ ReferenceRegisters s t (registersAfter (ws.map dutyBurst)) := by
  obtain ⟨t, gs, hok, ht, hgs⟩ := hrun.ok hs
  have hdone : act i s = .ok 0#16 t := by
    rw [hact, Cmd.bind_run, hok]
    rfl
  have hregs : ReferenceRegisters (s.applyDuties ws) t (registersAfter (ws.map dutyBurst)) :=
    BurstGroups.registers (by rwa [State.applyDuties_addr]) (dutyBurst_length ws) ht
  rw [State.applyDuties_rest] at hregs
  exact ⟨t, gs, exec_of_checks_pass hc hdone, ht, hgs, hregs⟩

/-- A command whose effect is one SetDuty sends one group (R209). -/
theorem exec_of_setDuty {i : Instr} {ch : Channel} {d : Duty} {s : State}
    (hact : act i = do setDuty ch d; return 0#16) (hd : inUnit d = true) (hc : s.failedCheck i = none) (hs : s.answers) :
    ∃ t g, exec i s = .next (t.respond .ok 0#16) ∧ BusEffect (s.setDuty ch d) t [g] ∧
      BurstGroup s.addr (regLed ch) (pattern d) g ∧ ReferenceRegisters s t (registersAfter [(ch, pattern d)]) := by
  obtain ⟨t, _, hex, ht, ⟨g, _, rfl, hg, rfl⟩, hregs⟩ := exec_of_dutyRun hact (DutyRun.setDuty hd) hc hs
  exact ⟨t, g, hex, ht, hg, hregs⟩

/-- Settles O38: the effect is one SetDuty. -/
theorem chDutyStoresAndSendsTheDuty : Obligations.ChDutyStoresAndSendsTheDuty := by
  unfold Obligations.ChDutyStoresAndSendsTheDuty
  intro s id d hid hr hs h0 h1 hport
  have hd : inUnit d = true := (inUnit_iff d).mpr ⟨h0, h1⟩
  have hact : act (.chDuty id d) = do setDuty ⟨id.toNat, hid⟩ d; return 0#16 := by rw [← chan_eq hid]; rfl
  exact exec_of_setDuty hact hd (failedCheck_chDuty hr hid hd hport) hs

/-- Settles O39: the effect is one SetDuty of the line's duty, whose pattern is an override. -/
theorem lineSetSendsAnOverride : Obligations.LineSetSendsAnOverride := by
  unfold Obligations.LineSetSendsAnOverride
  intro s id b hid hr hs hport
  have hact : act (.lineSet id b) = do setDuty ⟨id.toNat, hid⟩ (lineDuty b); return 0#16 := by rw [← chan_eq hid]; rfl
  have h := exec_of_setDuty hact (inUnit_lineDuty b) (failedCheck_of_port rfl hr hid hport) hs
  rw [pattern_lineDuty] at h
  exact h

end Sys2Proof.Machine
end

section
/-! PROOF. The H-bridge commands (`43_hbridge.md` R233 to R243) and SEQ_GET (`44_sequencer.md` R277): each command's checks,
the duties HB_SET, HB_BRAKE and HB_RELEASE commit on a bus that answers, and what the device shows after each burst. -/

namespace Sys2Proof.Machine

/-! ## The checks pass -/

/-- HB_BRAKE, HB_RELEASE and HB_GET have the same checks, which pass on a configured bridge (R238, R240, R242). -/
theorem failedCheck_of_configured {s : State} {i : Instr} {id : Byte} {k : Conn} (hi : s.checks i = s.checks (.hbGet id))
    (hr : s.phase = .ready) (hk : Conn.ofByte id = some k) (hcfg : (s.bridge k).cfg = true) : s.failedCheck i = none := by
  have hid : (Conn.ofByte id).isSome = true := by rw [hk]; rfl
  have hset : s.bridgeCfgAt id = true := by rw [bridgeCfgAt_eq s hid, conn_eq hk, hcfg]
  rw [failedCheck_ready (Or.inr hr), hi]
  simp [State.checks, firstOf, hid, hset]

/-- HB_SET checks the duty too (R233). -/
theorem failedCheck_hbSet {s : State} {id : Byte} {d : Duty} {k : Conn} (hr : s.phase = .ready)
    (hk : Conn.ofByte id = some k) (hd : inSigned d = true) (hcfg : (s.bridge k).cfg = true) :
    s.failedCheck (.hbSet id d) = none := by
  have hid : (Conn.ofByte id).isSome = true := by rw [hk]; rfl
  have hset : s.bridgeCfgAt id = true := by rw [bridgeCfgAt_eq s hid, conn_eq hk, hcfg]
  rw [failedCheck_ready (Or.inr hr)]
  simp [State.checks, firstOf, hid, hd, hset]

theorem failedCheck_seqGet {s : State} {id : Byte} (hr : s.phase = .ready) (hid : id.toNat < s.nseq)
    (hcfg : (s.seq id.toNat).cfg = true) : s.failedCheck (.seqGet id) = none := by
  rw [failedCheck_ready (Or.inr hr)]
  simp [State.checks, firstOf, hid, hcfg]

/-! ## HB_GET and SEQ_GET -/

/-- Settles O53: the checks pass, and each effect returns its stored field. -/
theorem hbGetAndSeqGetReturnStoredState : Obligations.HbGetAndSeqGetReturnStoredState := by
  unfold Obligations.HbGetAndSeqGetReturnStoredState
  intro s id hr
  constructor
  · intro k hk hcfg
    have hact : act (.hbGet id) s = .ok (s.bridge (conn id)).duty s := rfl
    rw [exec_of_checks_pass (failedCheck_of_configured rfl hr hk hcfg) hact, conn_eq hk, State.respond_ok]
  · intro hid hcfg
    have hact : act (.seqGet id) s = .ok (s.seq id.toNat).idx s := rfl
    rw [exec_of_checks_pass (failedCheck_seqGet hr hid hcfg) hact, State.respond_ok]

/-! ## Commands that commit the duties of a bridge's channels -/

/-- The command ends with OK: it stores `bridges` and commits the channel duties `ws` in order, a burst each. -/
def CommitsDuties (i : Instr) (s : State) (bridges : Vector Bridge 4) (ws : List (Channel × Duty)) : Prop :=
  ∃ t gs, exec i s = .next (t.respond .ok 0#16) ∧ BusEffect ({ s with bridges := bridges }.applyDuties ws) t gs ∧
    BurstGroups s.addr (ws.map dutyBurst) gs

/-- On a bus that answers, BridgeSet stores the bridge duty and commits all its channel duties (R234). -/
theorem bridgeSet_ok (k : Conn) {d : Duty} (hd : inSigned d = true) {s : State} (hs : s.answers) :
    ∃ t gs, bridgeSet k d s = .ok () t ∧
      BusEffect ((s.setBridgeDuty k d).applyDuties (bridgeWrites k (polarity (s.bridge k).duty) d)) t gs ∧
      BurstGroups s.addr ((bridgeWrites k (polarity (s.bridge k).duty) d).map dutyBurst) gs := by
  obtain ⟨t, gs, ht, ⟨hrun, hgs, -⟩ | ⟨-, -, -, hn⟩⟩ := bridgeSet_run k hd s
  · rw [State.bridgeAfter, hgs.length, List.length_map, List.take_length] at ht
    exact ⟨t, gs, hrun, ht, hgs⟩
  · exact absurd hs hn

section
variable {s : State} {id : Byte} {k : Conn} (hr : s.phase = .ready) (hs : s.answers) (hk : Conn.ofByte id = some k)
  (hcfg : (s.bridge k).cfg = true)
include hr hs hk hcfg

theorem hbSet_commits {d : Duty} (hd : inSigned d = true) :
    CommitsDuties (.hbSet id d) s (s.setBridgeDuty k d).bridges (bridgeWrites k (polarity (s.bridge k).duty) d) := by
  obtain ⟨t, gs, hrun, ht, hgs⟩ := bridgeSet_ok k hd hs
  have hact : act (.hbSet id d) s = .ok 0#16 t := by simp [act, conn_eq hk, hrun]
  exact ⟨t, gs, exec_of_checks_pass (failedCheck_hbSet hr hk hd hcfg) hact, ht, hgs⟩

theorem hbBrake_commits : CommitsDuties (.hbBrake id) s s.bridges [(k.in1, dutyOne), (k.in2, dutyOne)] := by
  have hact : act (.hbBrake id) = do
      (do setLine k.in1 true; setLine k.in2 true)
      return 0#16 := by simp [act, conn_eq hk]
  obtain ⟨t, gs, hex, ht, hgs, -⟩ := exec_of_dutyRun hact ((DutyRun.setLine k.in1 true).append (DutyRun.setLine k.in2 true))
    (failedCheck_of_configured rfl hr hk hcfg) hs
  exact ⟨t, gs, hex, ht, hgs⟩

theorem hbRelease_commits :
    CommitsDuties (.hbRelease id) s s.bridges [(k.pwm, 0#16), (k.in1, 0#16), (k.in2, 0#16)] := by
  have hact : act (.hbRelease id) = do
      (do setDuty k.pwm 0#16; setLine k.in1 false; setLine k.in2 false)
      return 0#16 := by simp [act, conn_eq hk]
  obtain ⟨t, gs, hex, ht, hgs, -⟩ := exec_of_dutyRun hact ((DutyRun.setDuty (ch := k.pwm) (d := 0#16) (by decide)).append
    ((DutyRun.setLine k.in1 false).append (DutyRun.setLine k.in2 false))) (failedCheck_of_configured rfl hr hk hcfg) hs
  exact ⟨t, gs, hex, ht, hgs⟩

end

/-! ## What such a command leaves -/

/-- The stored duties after a run do not depend on the bridges. -/
theorem State.duty_applyDuties_bridges (s : State) (b : Vector Bridge 4) (ws : List (Channel × Duty)) (c : Channel) :
    ({ s with bridges := b }.applyDuties ws).duty c = (s.applyDuties ws).duty c := by
  induction ws generalizing s with
  | nil => rfl
  | cons w ws ih => exact ih (s.setDuty w.1 w.2)

/-- The bridges and channel duties stored, everything else kept, and the device's registers written by the bursts. -/
theorem CommitsDuties.result {i : Instr} {s : State} {b : Vector Bridge 4} {ws : List (Channel × Duty)}
    (h : CommitsDuties i s b ws) :
    ∃ t gs, exec i s = .next (t.respond .ok 0#16) ∧ BusEffect { s with chDuty := t.chDuty, bridges := b } t gs ∧
      BurstGroups s.addr (ws.map dutyBurst) gs ∧ t.bridges = b ∧ (∀ c, t.duty c = (s.applyDuties ws).duty c) ∧
      ReferenceRegisters s t (registersAfter (ws.map dutyBurst)) := by
  obtain ⟨t, gs, hex, ht, hgs⟩ := h
  have hduty : ∀ c, t.duty c = (s.applyDuties ws).duty c := fun c =>
    (ht.duty c).trans (s.duty_applyDuties_bridges b ws c)
  have hch := ht.chDuty
  rw [State.applyDuties_rest] at ht hch
  have hregs : ReferenceRegisters s t (registersAfter (ws.map dutyBurst)) :=
    BurstGroups.registers (s := { s with chDuty := _, bridges := b }) hgs (dutyBurst_length ws) ht
  refine ⟨t, gs, hex, ?_, hgs, ht.bridges, hduty, hregs⟩
  rw [hch]
  exact ht

/-- A run that gives every channel the same duty. -/
theorem State.duty_applyDuties_const (s : State) (cs : List Channel) (v : Duty) (c : Channel) :
    (s.applyDuties (cs.map (·, v))).duty c = if c ∈ cs then v else s.duty c := by
  induction cs generalizing s with
  | nil => rfl
  | cons ch cs ih =>
    rw [List.map_cons, State.applyDuties_cons, ih, State.duty_setDuty]
    simp only [List.mem_cons, or_comm (a := c = ch), ite_or]

theorem dutyBurst_zero (c : Channel) : dutyBurst (c, 0#16) = (c, fullOff) :=
  congrArg (Prod.mk c) (pattern_full_off (d := 0#16) (by decide))

theorem dutyBurst_one (c : Channel) : dutyBurst (c, dutyOne) = (c, fullOn) :=
  congrArg (Prod.mk c) (pattern_full_on (d := dutyOne) (by decide))

/-- The bursts of BridgeSet are those of the duties it commits. -/
theorem bridgeWrites_bursts (k : Conn) (p : Bool) (d : Duty) :
    (bridgeWrites k p d).map dutyBurst = bridgeBursts k p d := by
  have hmag : dutyBurst (k.pwm, magnitude d) = (k.pwm, pattern (magnitude d)) := rfl
  simp only [bridgeWrites, bridgeBursts, List.map_append, apply_ite (List.map dutyBurst), List.map_cons, List.map_nil,
    dutyBurst_zero, dutyBurst_one, hmag]

theorem bridgeBursts_length (k : Conn) (p : Bool) (d : Duty) :
    (bridgeBursts k p d).length = if polarity d = p then 3 else 4 := by
  unfold bridgeBursts
  cases p <;> cases polarity d <;> rfl

/-- The last write of each channel stands. -/
theorem duty_bridgeWrites (s : State) (k : Conn) (p : Bool) (d : Duty) (c : Channel) :
    (s.applyDuties (bridgeWrites k p d)).duty c = bridgeDuties k d s.duty c := by
  rw [bridgeWrites, State.applyDuties_append, State.applyDuties_append, bridgeDuties]
  simp only [State.applyDuties_cons, State.applyDuties_nil, State.duty_setDuty]
  by_cases hpwm : c = k.pwm
  · rw [if_pos hpwm, if_pos hpwm]
  · rw [if_neg hpwm, if_neg hpwm]
    have hflip : (s.applyDuties (if polarity d != p then [(k.pwm, 0#16)] else [])).duty c = s.duty c := by
      split <;> simp [State.duty_setDuty, hpwm]
    generalize s.applyDuties (if polarity d != p then [(k.pwm, 0#16)] else []) = u at hflip ⊢
    cases polarity d with
    | true => simp [State.duty_setDuty, hflip, lineDuty]
    | false =>
      by_cases h1 : c = k.in1
      · simp [State.duty_setDuty, h1, k.in1_ne_in2, lineDuty]
      · simp [State.duty_setDuty, hflip, h1, lineDuty]

/-! ## The statements about one command -/

/-- Settles O42: the duties HB_SET commits are those of BridgeSet. -/
theorem hbSetWritesLinesThenPower : Obligations.HbSetWritesLinesThenPower := by
  unfold Obligations.HbSetWritesLinesThenPower
  intro s id d k hr hs hk hlow hhigh hcfg
  have hd : inSigned d = true := (inSigned_iff d).mpr ⟨hlow, hhigh⟩
  obtain ⟨t, gs, hex, ht, hgs, hb, hduty, hregs⟩ := (hbSet_commits hr hs hk hcfg hd).result
  rw [← hb] at ht
  rw [bridgeWrites_bursts] at hgs hregs
  have hbridge : ∀ k', t.bridge k' = if k' = k then { cfg := true, duty := d } else s.bridge k' := fun k' => by
    rw [State.bridge, hb, ← hcfg]
    exact s.bridge_setBridgeDuty k k' d
  refine ⟨t, gs, hex, ht, hgs, hgs.length.trans (bridgeBursts_length k _ d),
    fun c => (hduty c).trans (duty_bridgeWrites s k _ d c), hbridge, ?_, hregs⟩
  rw [State.bridgeState, hbridge k, if_pos rfl]
  rfl

/-- Settles O43: HB_BRAKE commits +1.0 to IN1 and then to IN2. -/
theorem hbBrakeSetsBothLinesHigh : Obligations.HbBrakeSetsBothLinesHigh := by
  unfold Obligations.HbBrakeSetsBothLinesHigh
  intro s id k hr hs hk hcfg
  obtain ⟨t, gs, hex, ht, hgs, -, hduty, hregs⟩ := (hbBrake_commits hr hs hk hcfg).result
  simp only [List.map_cons, List.map_nil, dutyBurst_one] at hgs hregs
  refine ⟨t, gs, hex, ht, hgs, fun c => (hduty c).trans ?_, hregs⟩
  exact (s.duty_applyDuties_const [k.in1, k.in2] dutyOne c).trans (if_congr (by simp) rfl rfl)

/-- Settles O44: HB_RELEASE commits 0 to the power line, IN1 and IN2. -/
theorem hbReleaseFreesTheMotor : Obligations.HbReleaseFreesTheMotor := by
  unfold Obligations.HbReleaseFreesTheMotor
  intro s id k hr hs hk hcfg
  obtain ⟨t, gs, hex, ht, hgs, -, hduty, hregs⟩ := (hbRelease_commits hr hs hk hcfg).result
  simp only [List.map_cons, List.map_nil, dutyBurst_zero] at hgs hregs
  refine ⟨t, gs, hex, ht, hgs, fun c => (hduty c).trans ?_, hregs⟩
  exact (s.duty_applyDuties_const [k.pwm, k.in1, k.in2] 0#16 c).trans (if_congr (by simp; tauto) rfl rfl)

/-! ## What the device shows, burst by burst (R243) -/

/-- The outputs of the channels after each committed duty, from the outputs `out`. -/
def outputHistory (out : Channel → Output) : List (Channel × Duty) → List (Channel → Output)
  | [] => []
  | w :: ws => Function.update out w.1 (dutyOutput w.2) :: outputHistory (Function.update out w.1 (dutyOutput w.2)) ws

/-- The triple (IN1, IN2, P) of a connector. -/
def Conn.triple (k : Conn) (out : Channel → Output) : Output × Output × Output := (out k.in1, out k.in2, out k.pwm)

/-- On the reference bus the lines of a connector show, burst by burst, what the committed duties say. -/
theorem BurstGroups.triples {a : Addr} {ws : List (Channel × Duty)} {gs : List Group} {ds ds' : List Device} {d : Device}
    (hg : BurstGroups a (ws.map dutyBurst) gs) (hr : ReferenceRun ds gs.flatten ds') (hd : findDevice ds a = some d)
    (hw : d.mem.wf) (k : Conn) :
    (deviceHistory ds gs).map (fun ds => (findDevice ds a).map (·.bridgeTriple k)) =
      ((outputHistory d.channelOutput ws).map k.triple).map some := by
  induction ws generalizing gs ds d with
  | nil => cases hg; rfl
  | cons w ws ih =>
    obtain ⟨g, gs', rfl, hg1, hgs⟩ := hg
    rw [List.flatten_cons] at hr
    obtain ⟨ds1, hr1, hr2⟩ := hr.split
    obtain ⟨hd1, -, -⟩ := hg1.reference hr1 hd
    have hout : (d.burst (regLed w.1) (pattern w.2)).channelOutput =
        Function.update d.channelOutput w.1 (dutyOutput w.2) := funext fun n => by
      rw [Device.channelOutput_burst hw, Function.update_apply]
    have hrest := ih hgs hr2 hd1 (Device.burst_wf hw _ _)
    rw [deviceHistory, ← hr1.devices, outputHistory, List.map_cons, List.map_cons, List.map_cons, hrest, hd1, ← hout]
    rfl

theorem State.quiet_answers {s : State} {d : Device} (hq : s.quiet) (hd : findDevice s.devices s.addr = some d) :
    s.answers :=
  ⟨by rw [hd]; rfl, by simp [hq.1]⟩

theorem CommitsDuties.triples {i : Instr} {s : State} {b : Vector Bridge 4} {ws : List (Channel × Duty)} {d : Device}
    (h : CommitsDuties i s b ws) (hq : s.quiet) (hd : findDevice s.devices s.addr = some d) (hw : d.mem.wf) (k : Conn) :
    ∃ t gs, exec i s = .next t ∧ t.trace = s.trace ++ gs ∧
      (deviceHistory s.devices gs).map (fun ds => (findDevice ds s.addr).map (·.bridgeTriple k)) =
        ((outputHistory d.channelOutput ws).map k.triple).map some := by
  obtain ⟨t, gs, hex, ht, hgs, -⟩ := h.result
  exact ⟨t.respond .ok 0#16, gs, hex, ht.trace, hgs.triples (ht.reference hq).2 hd hw k⟩

section
variable (k : Conn) (out : Channel → Output) (o : Output)

@[simp] theorem Conn.triple_update_in1 :
    k.triple (Function.update out k.in1 o) = (o, (k.triple out).2) := by cases k <;> rfl

@[simp] theorem Conn.triple_update_in2 :
    k.triple (Function.update out k.in2 o) = ((k.triple out).1, o, (k.triple out).2.2) := by cases k <;> rfl

@[simp] theorem Conn.triple_update_pwm :
    k.triple (Function.update out k.pwm o) = ((k.triple out).1, (k.triple out).2.1, o) := by cases k <;> rfl

end

@[simp] theorem dutyOutput_zero : dutyOutput 0#16 = .low := rfl

@[simp] theorem dutyOutput_one : dutyOutput dutyOne = .high := rfl

/-- The rows of the table for BridgeSet, by the polarity before and after. -/
theorem outputHistory_bridgeWrites {k : Conn} {out : Channel → Output} {a b p : Output} (h : k.triple out = (a, b, p))
    (before : Bool) (d : Duty) : (outputHistory out (bridgeWrites k before d)).map k.triple =
      hbSetTriples before (polarity d) a b p (dutyOutput (magnitude d)) := by
  unfold bridgeWrites
  cases before <;> cases polarity d <;> simp [outputHistory, hbSetTriples, h]

/-- Settles O45: each command's history is that of the duties it commits, from any outputs of the three lines. -/
theorem bridgeDeviceStatesFollowTheTable : Obligations.BridgeDeviceStatesFollowTheTable := by
  unfold Obligations.BridgeDeviceStatesFollowTheTable
  intro s id k dev a b p hr hq hd hw hk hcfg htriple
  have hs := State.quiet_answers hq hd
  have hout : k.triple dev.channelOutput = (a, b, p) := htriple
  refine ⟨fun d hlow hhigh => ?_, ?_, ?_⟩
  · have h := (hbSet_commits hr hs hk hcfg ((inSigned_iff d).mpr ⟨hlow, hhigh⟩)).triples hq hd hw k
    rwa [outputHistory_bridgeWrites hout] at h
  · simpa [outputHistory, hout] using (hbBrake_commits hr hs hk hcfg).triples hq hd hw k
  · simpa [outputHistory, hout] using (hbRelease_commits hr hs hk hcfg).triples hq hd hw k

end Sys2Proof.Machine
end

section
/-! PROOF. The step tables (`44_sequencer.md` R260 to R265). The arithmetic of log entry 10 takes Taylor polynomials at an
angle that differs from the exact one only by the error of `halfPi`; their distance from the cosine and the sine bounds
every generated entry, and the ends of a table follow from that bound. -/

namespace Sys2Proof.Machine

/-! ## The worked tables -/

/-- Settles O47: the fixed tables by unfolding, the generated ones by running their arithmetic. -/
theorem tablesAreAsListed : Obligations.TablesAreAsListed := by
  unfold Obligations.TablesAreAsListed
  exact ⟨fun p => ⟨rfl, rfl, rfl, rfl⟩, by decide, by decide, by decide, by decide, by decide, by decide, by decide⟩

/-! ## `nestedSeries` as a sum -/

open Nat (factorial)

/-- The first `n` terms of the Taylor series of cos x (`j = 0`) and of sin x / x (`j = 1`), with `y = x²`. -/
noncomputable def seriesSum (y : ℝ) (n j : ℕ) : ℝ :=
  ∑ k ∈ Finset.range n, (-y) ^ k * (factorial j / factorial (j + 2 * k))

theorem seriesSum_succ (y : ℝ) (n j : ℕ) :
    seriesSum y (n + 1) j = 1 - y / ((j + 1) * (j + 2)) * seriesSum y n (j + 2) := by
  have hterm : ∀ k : ℕ, (-y) ^ (k + 1) * ((factorial j : ℝ) / factorial (j + 2 * (k + 1))) =
      -(y / ((j + 1) * (j + 2)) * ((-y) ^ k * (factorial (j + 2) / factorial (j + 2 + 2 * k)))) := fun k => by
    have hfac : (factorial (j + 2) : ℝ) = (j + 2) * ((j + 1) * factorial j) := by
      rw [Nat.factorial_succ, Nat.factorial_succ]; push_cast; ring
    have hj : ((j : ℝ) + 1) * (j + 2) ≠ 0 := by positivity
    rw [show j + 2 * (k + 1) = j + 2 + 2 * k by ring, hfac, pow_succ]
    field_simp
  have hfirst : (-y) ^ 0 * ((factorial j : ℝ) / factorial (j + 2 * 0)) = 1 := by
    rw [pow_zero, one_mul, mul_zero, add_zero, div_self (by positivity)]
  rw [seriesSum, Finset.sum_range_succ', hfirst, seriesSum, Finset.mul_sum]
  simp only [hterm, Finset.sum_neg_distrib]
  ring

section
variable {a2 b2 : ℕ}

theorem nestedSeries_den_pos (hb : 0 < b2) (levels j : ℕ) : 0 < (nestedSeries a2 b2 levels j).2 := by
  induction levels generalizing j with
  | zero => exact Nat.one_pos
  | succ l ih =>
    have := ih (j + 2)
    simp only [nestedSeries]
    positivity

theorem nestedSeries_num_le (levels j : ℕ) : (nestedSeries a2 b2 levels j).1 ≤ (nestedSeries a2 b2 levels j).2 := by
  cases levels with
  | zero => exact le_refl 1
  | succ l => exact Nat.sub_le _ _

/-- For `x² ≤ 1` no subtraction is cut off, and the fraction is the Taylor polynomial. -/
theorem nestedSeries_eq_seriesSum (hb : 0 < b2) (hab : a2 ≤ b2) (levels j : ℕ) :
    ((nestedSeries a2 b2 levels j).1 : ℝ) / (nestedSeries a2 b2 levels j).2 = seriesSum (a2 / b2) (levels + 1) j := by
  induction levels generalizing j with
  | zero => simp [nestedSeries, seriesSum, Nat.factorial_ne_zero]
  | succ l ih =>
    rw [seriesSum_succ, ← ih]
    have hpos := nestedSeries_den_pos (a2 := a2) hb l (j + 2)
    have hle := nestedSeries_num_le (a2 := a2) (b2 := b2) l (j + 2)
    simp only [nestedSeries]
    generalize nestedSeries a2 b2 l (j + 2) = r at hpos hle ⊢
    have hsub : a2 * r.1 ≤ r.2 * ((j + 1) * (j + 2) * b2) := calc
      a2 * r.1 ≤ b2 * r.2 := Nat.mul_le_mul hab hle
      _ ≤ (j + 1) * (j + 2) * (b2 * r.2) := Nat.le_mul_of_pos_left _ (by positivity)
      _ = r.2 * ((j + 1) * (j + 2) * b2) := by ring
    have hr : (r.2 : ℝ) ≠ 0 := by positivity
    have hb' : (b2 : ℝ) ≠ 0 := by positivity
    rw [Nat.cast_sub hsub]
    push_cast
    field_simp

end

/-! ## The sums and the exponential -/

/-- The partial sums of exp(ix) have the two series as their real and imaginary parts. -/
theorem sum_exp_imaginary (x : ℝ) (n : ℕ) :
    ∑ m ∈ Finset.range (2 * n), ((x : ℂ) * Complex.I) ^ m / factorial m =
      (seriesSum (x ^ 2) n 0 : ℂ) + (x * seriesSum (x ^ 2) n 1 : ℝ) * Complex.I := by
  induction n with
  | zero => simp [seriesSum]
  | succ n ih =>
    have hsum : ∀ j, seriesSum (x ^ 2) (n + 1) j =
        seriesSum (x ^ 2) n j + (-x ^ 2) ^ n * (factorial j / factorial (j + 2 * n)) :=
      fun j => Finset.sum_range_succ _ _
    have hpow : ((x : ℂ) * Complex.I) ^ (2 * n) = (-x ^ 2) ^ n := by
      rw [pow_mul, mul_pow, Complex.I_sq, mul_neg_one]
    rw [show 2 * (n + 1) = 2 * n + 1 + 1 from rfl, Finset.sum_range_succ, Finset.sum_range_succ, ih, hsum, hsum,
      pow_succ _ (2 * n), hpow, add_comm 1 (2 * n), Nat.factorial_zero, Nat.factorial_one, zero_add]
    push_cast
    ring

/-- Fifteen terms of each series are near the cosine and the sine. -/
theorem seriesSum_near {x : ℝ} (hx : |x| ≤ 1) : |seriesSum (x ^ 2) 15 0 - Real.cos x| ≤ 1 / 10 ^ 30 ∧
    |x * seriesSum (x ^ 2) 15 1 - Real.sin x| ≤ 1 / 10 ^ 30 := by
  have hnorm : ‖(x : ℂ) * Complex.I‖ = |x| := by simp
  have h := Complex.exp_bound (x := x * Complex.I) (by rwa [hnorm]) (n := 2 * 15) (by norm_num)
  rw [sum_exp_imaginary, Complex.exp_mul_I, hnorm] at h
  have hfactor : (((2 * 15).succ : ℕ) : ℝ) * ((factorial (2 * 15) : ℝ) * (2 * 15 : ℕ))⁻¹ ≤ 1 / 10 ^ 30 := by
    norm_num [Nat.factorial]
  have hsmall := mul_le_mul (pow_le_one₀ (n := 2 * 15) (abs_nonneg x) hx) hfactor (by positivity) zero_le_one
  rw [one_mul] at hsmall
  have hre := (Complex.abs_re_le_norm _).trans (h.trans hsmall)
  have him := (Complex.abs_im_le_norm _).trans (h.trans hsmall)
  rw [abs_sub_comm, abs_sub_comm (x * _)]
  exact ⟨by simpa [Complex.cos_ofReal_re] using hre, by simpa [Complex.sin_ofReal_re] using him⟩

/-! ## Entries near their exact values -/

/-- `n` is 16384 times `y` to the nearest integer, with the margin of log entry 10. -/
def NearestTo (n : ℤ) (y : ℝ) : Prop := |(n : ℝ) - 16384 * y| ≤ 1 / 2 + 1 / 2 ^ 40

theorem NearestTo.neg {n : ℤ} {y : ℝ} (h : NearestTo n y) : NearestTo (-n) (-y) := by
  unfold NearestTo at *
  rwa [Int.cast_neg, mul_neg, neg_sub_neg, abs_sub_comm]

/-- The rounded quotient of `nearestDuty` is within one half of 16384 times the fraction. -/
theorem roundedQuotient_near {num den : ℕ} (hden : 0 < den) :
    |(((2 * 16384 * num + den) / (2 * den) : ℕ) : ℝ) - 16384 * (num / den)| ≤ 1 / 2 := by
  have hlow := Nat.div_mul_le_self (2 * 16384 * num + den) (2 * den)
  have hhigh : 2 * 16384 * num + den < ((2 * 16384 * num + den) / (2 * den) + 1) * (2 * den) :=
    Nat.lt_mul_of_div_lt (Nat.lt_succ_self _) (by positivity)
  generalize (2 * 16384 * num + den) / (2 * den) = q at hlow hhigh ⊢
  have hden' : (0 : ℝ) < den := by exact_mod_cast hden
  have hlow' : (q : ℝ) * (2 * den) ≤ 2 * 16384 * num + den := by exact_mod_cast hlow
  have hhigh' : 2 * 16384 * (num : ℝ) + den < (q + 1) * (2 * den) := by exact_mod_cast hhigh
  have hnum : (num : ℝ) = num / den * den := (div_mul_cancel₀ _ hden'.ne').symm
  rw [hnum] at hlow' hhigh'
  exact abs_le.mpr ⟨le_of_mul_le_mul_right (by linarith) hden', le_of_mul_le_mul_right (by linarith) hden'⟩

/-- The limit at ONE does not move the quotient away from 16384 times a `y` of at most 1. -/
theorem nearestTo_nearestDuty {num den : ℕ} {y : ℝ} (hden : 0 < den) (hy : y ≤ 1)
    (h : |(num : ℝ) / den - y| ≤ 1 / 10 ^ 18) : NearestTo (nearestDuty num den) y := by
  have hround := roundedQuotient_near (num := num) hden
  have hvalue : (nearestDuty num den : ℝ) = min 16384 (((2 * 16384 * num + den) / (2 * den) : ℕ) : ℝ) :=
    Nat.cast_min 16384 _
  unfold NearestTo
  rw [Int.cast_natCast, hvalue]
  generalize (((2 * 16384 * num + den) / (2 * den) : ℕ) : ℝ) = q at hround ⊢
  have hlimit := abs_min_sub_min_le_max 16384 q 16384 (16384 * y)
  rw [min_eq_right (by linarith : 16384 * y ≤ 16384), sub_self, abs_zero, max_eq_right (abs_nonneg _)] at hlimit
  calc |min 16384 q - 16384 * y| ≤ |q - 16384 * y| := hlimit
    _ ≤ |q - 16384 * (num / den)| + |16384 * (num / den) - 16384 * y| := abs_sub_le _ _ _
    _ ≤ 1 / 2 + 16384 * (1 / 10 ^ 18) := by
      rw [← mul_sub, abs_mul, abs_of_pos (by norm_num : (0 : ℝ) < 16384)]
      gcongr
    _ ≤ 1 / 2 + 1 / 2 ^ 40 := by norm_num

/-- `halfPi` is π/2 to twenty places. -/
theorem halfPi_near : |(halfPi : ℝ) / halfPiDen - Real.pi / 2| ≤ 1 / 10 ^ 20 := by
  have h1 := Real.pi_gt_d20
  have h2 := Real.pi_lt_d20
  rw [abs_le]
  constructor <;> norm_num [halfPi, halfPiDen] at * <;> linarith

/-- The angle of an octant: in [0, 1], and near the exact one. -/
theorem octantAngle_near {r D : ℕ} (hD : 0 < D) (hr : 2 * r ≤ D) :
    halfPi * r ≤ halfPiDen * D ∧
      |((halfPi * r : ℕ) : ℝ) / (halfPiDen * D : ℕ) - Real.pi / 2 * (r / D)| ≤ 1 / 10 ^ 20 := by
  constructor
  · calc halfPi * r ≤ 2 * halfPiDen * r := Nat.mul_le_mul_right r (by decide)
      _ = halfPiDen * (2 * r) := by ring
      _ ≤ halfPiDen * D := Nat.mul_le_mul_left _ hr
  · have hD' : (0 : ℝ) < D := by exact_mod_cast hD
    have hfrac : (r : ℝ) / D ≤ 1 := by
      rw [div_le_one hD']
      exact_mod_cast (by omega : r ≤ D)
    have hsplit : ((halfPi * r : ℕ) : ℝ) / (halfPiDen * D : ℕ) - Real.pi / 2 * (r / D) =
        ((halfPi : ℝ) / halfPiDen - Real.pi / 2) * (r / D) := by
      push_cast
      ring
    rw [hsplit, abs_mul, abs_of_nonneg (by positivity : (0 : ℝ) ≤ r / D)]
    calc _ ≤ 1 / 10 ^ 20 * (1 : ℝ) := mul_le_mul halfPi_near hfrac (by positivity) (by positivity)
      _ = 1 / 10 ^ 20 := mul_one _

theorem octantCosSin_near {r D : ℕ} (hD : 0 < D) (hr : 2 * r ≤ D) :
    NearestTo (octantCosSin r D).1 (Real.cos (Real.pi / 2 * (r / D))) ∧
      NearestTo (octantCosSin r D).2 (Real.sin (Real.pi / 2 * (r / D))) := by
  obtain ⟨hab, hangle⟩ := octantAngle_near hD hr
  have hb : 0 < halfPiDen * D := Nat.mul_pos (by decide) hD
  unfold octantCosSin
  dsimp only
  generalize halfPi * r = a at hab hangle ⊢
  generalize halfPiDen * D = b at hab hangle hb ⊢
  have hb' : (0 : ℝ) < b := by exact_mod_cast hb
  have hx : |(a : ℝ) / b| ≤ 1 := by
    rw [abs_of_nonneg (by positivity), div_le_one hb']
    exact_mod_cast hab
  have hsq : ((a * a : ℕ) : ℝ) / (b * b : ℕ) = (a / b) ^ 2 := by push_cast; ring
  have hbb : 0 < b * b := Nat.mul_pos hb hb
  have hseries := fun j => nestedSeries_eq_seriesSum hbb (Nat.mul_le_mul hab hab) 14 j
  simp only [hsq] at hseries
  obtain ⟨hcos, hsin⟩ := seriesSum_near hx
  constructor
  · refine nearestTo_nearestDuty (nestedSeries_den_pos hbb 14 0) (Real.cos_le_one _) ?_
    rw [hseries]
    have := (abs_sub_le _ _ _).trans (add_le_add hcos ((Real.abs_cos_sub_cos_le _ _).trans hangle))
    exact this.trans (by norm_num)
  · refine nearestTo_nearestDuty (Nat.mul_pos hb (nestedSeries_den_pos hbb 14 1)) (Real.sin_le_one _) ?_
    rw [Nat.cast_mul, Nat.cast_mul, mul_div_mul_comm, hseries]
    have := (abs_sub_le _ _ _).trans (add_le_add hsin ((Real.abs_sin_sub_sin_le _ _).trans hangle))
    exact this.trans (by norm_num)

/-- Past the middle of the quadrant the two swap, at the angle from its other end. -/
theorem quadrantCosSin_near {r D : ℕ} (hr : r < D) :
    NearestTo (quadrantCosSin r D).1 (Real.cos (Real.pi / 2 * (r / D))) ∧
      NearestTo (quadrantCosSin r D).2 (Real.sin (Real.pi / 2 * (r / D))) := by
  have hD : 0 < D := by omega
  unfold quadrantCosSin
  split
  · next h => exact octantCosSin_near hD h
  · obtain ⟨hcos, hsin⟩ := octantCosSin_near (r := D - r) hD (by omega)
    have hangle : Real.pi / 2 * ((D - r : ℕ) / D) = Real.pi / 2 - Real.pi / 2 * (r / D) := by
      have hD' : (D : ℝ) ≠ 0 := by positivity
      rw [Nat.cast_sub hr.le]
      field_simp
    rw [hangle, Real.cos_pi_div_two_sub] at hcos
    rw [hangle, Real.sin_pi_div_two_sub] at hsin
    exact ⟨hsin, hcos⟩

/-- The angle of entry `i`: a part in the first quadrant, some right angles, and some whole turns. -/
theorem circleAngle_eq {D : ℕ} (hD : 0 < D) (i : ℕ) : 2 * Real.pi * i / D =
    Real.pi / 2 * ((4 * i % D : ℕ) / D) + (4 * i / D % 4 : ℕ) * (Real.pi / 2) + (4 * i / D / 4 : ℕ) * (2 * Real.pi) := by
  have hnat : 4 * i = 4 * i % D + D * (4 * i / D % 4 + 4 * (4 * i / D / 4)) := by
    rw [Nat.mod_add_div (4 * i / D) 4, Nat.mod_add_div]
  have hreal : 4 * (i : ℝ) = (4 * i % D : ℕ) + D * ((4 * i / D % 4 : ℕ) + 4 * (4 * i / D / 4 : ℕ)) := by
    exact_mod_cast hnat
  have hD' : (D : ℝ) ≠ 0 := by positivity
  generalize (4 * i % D : ℕ) = r at hreal ⊢
  generalize (4 * i / D % 4 : ℕ) = q at hreal ⊢
  generalize (4 * i / D / 4 : ℕ) = m at hreal ⊢
  field_simp
  linear_combination hreal

/-- The quadrant of an angle turns its cosine and sine by so many right angles. -/
theorem circleCosSin_near {D : ℕ} (hD : 0 < D) (i : ℕ) :
    NearestTo (circleCosSin i D).1 (Real.cos (2 * Real.pi * i / D)) ∧
      NearestTo (circleCosSin i D).2 (Real.sin (2 * Real.pi * i / D)) := by
  obtain ⟨hcos, hsin⟩ := quadrantCosSin_near (Nat.mod_lt (4 * i) hD)
  rw [circleAngle_eq hD, Real.cos_add_nat_mul_two_pi, Real.sin_add_nat_mul_two_pi]
  unfold circleCosSin
  dsimp only
  generalize Real.pi / 2 * ((4 * i % D : ℕ) / D) = φ at hcos hsin
  have hq : 4 * i / D % 4 < 4 := Nat.mod_lt _ (by norm_num)
  generalize 4 * i / D % 4 = q at hq ⊢
  interval_cases q
  · rw [Nat.cast_zero, zero_mul, add_zero]
    exact ⟨hcos, hsin⟩
  · rw [Nat.cast_one, one_mul, Real.cos_add_pi_div_two, Real.sin_add_pi_div_two]
    exact ⟨hsin.neg, hcos⟩
  · rw [Nat.cast_two, mul_div_cancel₀ _ two_ne_zero, Real.cos_add_pi, Real.sin_add_pi]
    exact ⟨hcos.neg, hsin.neg⟩
  · have h3 : φ + (3 : ℕ) * (Real.pi / 2) = φ + Real.pi + Real.pi / 2 := by push_cast; ring
    rw [h3, Real.cos_add_pi_div_two, Real.sin_add_pi_div_two, Real.cos_add_pi, Real.sin_add_pi, neg_neg]
    exact ⟨hsin, hcos.neg⟩

/-! ## Generated tables (R264, R265) -/

/-- An entry of a generated table with the default quantisation, as an integer. -/
theorem step_toInt {p : Params} {n : ℕ} (hq : p.trigQ = .rne) (hn : 8 < n) (i : ℕ) :
    (stepT1 p n i).toInt = (circleCosSin i (trigDivisorOf p.trigDivisor n)).1 ∧
      (stepT2 p n i).toInt = (circleCosSin i (trigDivisorOf p.trigDivisor n)).2 := by
  obtain ⟨hcos, hsin⟩ := circleCosSin_range i (trigDivisorOf p.trigDivisor n)
  have h4 : n ≠ 4 := by omega
  have h8 : n ≠ 8 := by omega
  simp only [stepT1, stepT2, if_neg h4, if_neg h8, trigPair, hq]
  exact ⟨toInt_dutyOfInt hcos, toInt_dutyOfInt hsin⟩

theorem trigDivisorOf_pos {n : ℕ} (hn : 8 < n) (t : TrigDivisor) : 0 < trigDivisorOf t n := by
  cases t <;> simp only [trigDivisorOf] <;> omega

theorem step_near {p : Params} {n : ℕ} (hq : p.trigQ = .rne) (hn : 8 < n) (i : ℕ) :
    NearestTo (stepT1 p n i).toInt (Real.cos (2 * Real.pi * i / trigDivisorOf p.trigDivisor n)) ∧
      NearestTo (stepT2 p n i).toInt (Real.sin (2 * Real.pi * i / trigDivisorOf p.trigDivisor n)) := by
  rw [(step_toInt hq hn i).1, (step_toInt hq hn i).2]
  exact circleCosSin_near (trigDivisorOf_pos hn _) i

/-- Settles O49: every entry is one of `circleCosSin`. -/
theorem generatedTablesAreCosAndSin : Obligations.GeneratedTablesAreCosAndSin := by
  unfold Obligations.GeneratedTablesAreCosAndSin
  intro p n i D hq hn _ _ hD
  have hdiv : D = trigDivisorOf p.trigDivisor n := hD
  rw [hdiv]
  exact step_near hq hn i

/-- Where the exact value is an integer, the entry is that integer. -/
theorem NearestTo.eq {n m : ℤ} {y : ℝ} (h : NearestTo n y) (hy : 16384 * y = m) : n = m := by
  unfold NearestTo at h
  rw [hy] at h
  have hlt : |(n : ℝ) - m| < 1 := h.trans_lt (by norm_num)
  have : |n - m| < 1 := by exact_mod_cast hlt
  exact sub_eq_zero.mp (Int.abs_lt_one_iff.mp this)

/-- An entry at a whole number of turns is (ONE, 0). -/
theorem step_whole_turns {p : Params} {n i : ℕ} (hq : p.trigQ = .rne) (hn : 8 < n) (m : ℕ)
    (hi : i = m * trigDivisorOf p.trigDivisor n) : stepT1 p n i = 0x4000#16 ∧ stepT2 p n i = 0x0000#16 := by
  obtain ⟨hcos, hsin⟩ := step_near hq hn i
  have hD : (trigDivisorOf p.trigDivisor n : ℝ) ≠ 0 := by exact_mod_cast (trigDivisorOf_pos hn _).ne'
  have hangle : 2 * Real.pi * i / trigDivisorOf p.trigDivisor n = 0 + m * (2 * Real.pi) := by
    rw [hi]
    push_cast
    field_simp
    ring
  rw [hangle, Real.cos_add_nat_mul_two_pi, Real.cos_zero] at hcos
  rw [hangle, Real.sin_add_nat_mul_two_pi, Real.sin_zero] at hsin
  have h1 : (stepT1 p n i).toInt = 16384 := hcos.eq (by norm_num)
  have h2 : (stepT2 p n i).toInt = 0 := hsin.eq (by norm_num)
  exact ⟨BitVec.eq_of_toInt_eq h1, BitVec.eq_of_toInt_eq h2⟩

/-- Settles O48: R265 item 1 for the range; the first index is no turn, and index N − 1 with that divisor is one. -/
theorem tableEntriesAreDuties : Obligations.TableEntriesAreDuties := by
  unfold Obligations.TableEntriesAreDuties
  constructor
  · intro p n i hp
    exact ⟨(inSigned_iff _).mp (inSigned_stepT1 hp n i), (inSigned_iff _).mp (inSigned_stepT2 hp n i)⟩
  · intro p n hq hn _
    obtain ⟨h1, h2⟩ := step_whole_turns hq hn (i := 0) 0 (by rw [Nat.zero_mul])
    exact ⟨h1, h2, fun hdiv => step_whole_turns hq hn 1 (by rw [hdiv, Nat.one_mul]; rfl)⟩

end Sys2Proof.Machine
end

section
/-! PROOF. The sequencer commands (`44_sequencer.md` R266 to R279): each command's checks, what two BridgeSets in a row
commit on a bus that answers, and how the steps of a slot move its index, whatever the bus answers. -/

namespace Sys2Proof.Machine

/-! ## The checks pass -/

theorem failedCheck_seqConfig {s : State} {id bra brb : Byte} {n : BitVec 16} {ka kb : Conn} (hr : s.phase = .ready)
    (hid : id.toNat < s.nseq) (ha : Conn.ofByte bra = some ka) (hb : Conn.ofByte brb = some kb) (hab : ka ≠ kb)
    (hn : validN n.toNat = true) (hfree : (s.seq id.toNat).cfg = false) (hca : (s.bridge ka).cfg = true)
    (hcb : (s.bridge kb).cfg = true) : s.failedCheck (.seqConfig id bra brb n) = none := by
  have hne : (bra != brb) = true := bne_iff_ne.mpr fun h => hab (Option.some.inj (by rw [← ha, ← hb, h]))
  have hseta : s.bridgeCfgAt bra = true := by rw [bridgeCfgAt_eq s (by rw [ha]; rfl), conn_eq ha, hca]
  have hsetb : s.bridgeCfgAt brb = true := by rw [bridgeCfgAt_eq s (by rw [hb]; rfl), conn_eq hb, hcb]
  rw [failedCheck_ready (Or.inr hr)]
  simp [State.checks, firstOf, hid, ha, hb, hne, hn, hfree, hseta, hsetb]

theorem failedCheck_seqStep {s : State} {id : Byte} {dir : BitVec 2} (hr : s.phase = .ready) (hid : id.toNat < s.nseq)
    (hdir : dir ≠ 2#2) (hcfg : (s.seq id.toNat).cfg = true) : s.failedCheck (.seqStep id dir) = none := by
  rw [failedCheck_ready (Or.inr hr)]
  simp [State.checks, firstOf, hid, hdir, hcfg]

theorem failedCheck_seqRelease {s : State} {id : Byte} (hr : s.phase = .ready) (hid : id.toNat < s.nseq)
    (hcfg : (s.seq id.toNat).cfg = true) : s.failedCheck (.seqRelease id) = none := by
  rw [failedCheck_ready (Or.inr hr)]
  simp [State.checks, firstOf, hid, hcfg]

/-! ## SEQ_CONFIG -/

theorem validN_iff (n : Nat) : validN n = true ↔ n = 4 ∨ n = 8 ∨ 8 < n := by
  simp [validN, or_assoc]

/-- Settles O50: the checks pass, and the effect writes the one slot. -/
theorem seqConfigConfiguresASlot : Obligations.SeqConfigConfiguresASlot := by
  unfold Obligations.SeqConfigConfiguresASlot
  intro s id bra brb n ka kb hr hid ha hb hab hn hfree hca hcb
  have hact : act (.seqConfig id bra brb n) s =
      .ok 0#16 (s.setSeq id.toNat { cfg := true, ph1 := ka, ph2 := kb, n := n, idx := 0#16 }) := by
    simp [act, conn_eq ha, conn_eq hb]
  rw [exec_of_checks_pass (failedCheck_seqConfig hr hid ha hb hab ((validN_iff _).mpr hn) hfree hca hcb) hact,
    State.respond_ok]
  rfl

/-! ## Two BridgeSets in a row -/

/-- The bursts of a BridgeSet on `k1` and then one on `k2`, from the polarities stored in `s` (R272). -/
abbrev pairBursts (s : State) (k1 : Conn) (d1 : Duty) (k2 : Conn) (d2 : Duty) : List Burst :=
  bridgeBursts k1 (polarity (s.bridge k1).duty) d1 ++ bridgeBursts k2 (polarity (s.bridge k2).duty) d2

/-- What two BridgeSets on different connectors leave when the bus answers: both bridge duties and the channel duties
stored, nothing else of the block changed, and the reference device's registers written by the bursts. -/
structure PairWritten (s t : State) (k1 : Conn) (d1 : Duty) (k2 : Conn) (d2 : Duty) (gs : List Group) : Prop where
  effect : BusEffect { s with chDuty := t.chDuty, bridges := t.bridges } t gs
  groups : BurstGroups s.addr (pairBursts s k1 d1 k2 d2) gs
  duties : ∀ c, t.duty c = bridgeDuties k2 d2 (bridgeDuties k1 d1 s.duty) c
  bridges : ∀ k, t.bridge k = if k = k1 then { s.bridge k with duty := d1 }
    else if k = k2 then { s.bridge k with duty := d2 } else s.bridge k
  registers : ReferenceRegisters s t (registersAfter (pairBursts s k1 d1 k2 d2))

namespace PairWritten

variable {s t : State} {k1 k2 : Conn} {d1 d2 : Duty} {gs : List Group} (h : PairWritten s t k1 d1 k2 d2 gs)
include h

theorem bridgeDuty1 : (t.bridge k1).duty = d1 := by rw [h.bridges, if_pos rfl]

theorem bridgeDuty2 (hne : k1 ≠ k2) : (t.bridge k2).duty = d2 := by rw [h.bridges, if_neg hne.symm, if_pos rfl]

end PairWritten

theorem pairBursts_data_length (s : State) (k1 : Conn) (d1 : Duty) (k2 : Conn) (d2 : Duty) :
    ∀ b ∈ pairBursts s k1 d1 k2 d2, b.2.length = 4 := by
  rw [pairBursts, ← bridgeWrites_bursts, ← bridgeWrites_bursts, ← List.map_append]
  exact dutyBurst_length _

/-- Stored duties commute with bus traffic. -/
theorem BusEffect.setDuties {s t : State} {gs : List Group} (h : BusEffect s t gs) (c : Vector Duty 16)
    (b : Vector Bridge 4) : BusEffect { s with chDuty := c, bridges := b } { t with chDuty := c, bridges := b } gs := by
  refine ⟨?_, h.addrs, h.wf, h.replies, h.reference⟩
  conv_lhs => rw [h.rest]

/-- One BridgeSet when the bus answers, with what it stores written out. -/
theorem bridgeSet_result (k : Conn) {d : Duty} (hd : inSigned d = true) {s : State} (hs : s.answers) :
    ∃ t gs, bridgeSet k d s = .ok () t ∧ BusEffect { s with chDuty := t.chDuty, bridges := t.bridges } t gs ∧
      BurstGroups s.addr (bridgeBursts k (polarity (s.bridge k).duty) d) gs ∧
      (∀ c, t.duty c = bridgeDuties k d s.duty c) ∧
      ∀ j, t.bridge j = if j = k then { s.bridge k with duty := d } else s.bridge j := by
  obtain ⟨t, gs, hrun, ht, hgs⟩ := bridgeSet_ok k hd hs
  have hduty := fun c => (ht.duty c).trans (duty_bridgeWrites (s.setBridgeDuty k d) k _ d c)
  have hbridge := fun j => (ht.bridge j).trans ((State.applyDuties_bridge _ _ j).trans (s.bridge_setBridgeDuty k j d))
  have hch := ht.chDuty
  have hbr := ht.bridges
  rw [bridgeWrites_bursts] at hgs
  rw [State.applyDuties_rest] at ht hch hbr
  refine ⟨t, gs, hrun, ?_, hgs, hduty, hbridge⟩
  rw [hch, hbr]
  exact ht

/-- The second BridgeSet starts from the polarity its bridge had before the first. -/
theorem bridgeSet_pair {k1 k2 : Conn} (hne : k1 ≠ k2) {d1 d2 : Duty} (h1 : inSigned d1 = true)
    (h2 : inSigned d2 = true) {s : State} (hs : s.answers) :
    ∃ t gs, (do bridgeSet k1 d1; bridgeSet k2 d2; return 0#16 : Cmd (BitVec 16)) s = .ok 0#16 t ∧
      PairWritten s t k1 d1 k2 d2 gs := by
  obtain ⟨u, gs1, hrun1, hu, hgs1, hduty1, hbridge1⟩ := bridgeSet_result k1 h1 hs
  obtain ⟨t, gs2, hrun2, ht, hgs2, hduty2, hbridge2⟩ := bridgeSet_result k2 h2 (hu.answers hs)
  have hother : u.bridge k2 = s.bridge k2 := by rw [hbridge1, if_neg hne.symm]
  have haddr : u.addr = s.addr := hu.addr
  rw [hother, haddr] at hgs2
  have heffect : BusEffect { s with chDuty := t.chDuty, bridges := t.bridges } t (gs1 ++ gs2) :=
    (hu.setDuties t.chDuty t.bridges).trans ht
  have hgroups : BurstGroups s.addr (pairBursts s k1 d1 k2 d2) (gs1 ++ gs2) := hgs1.append hgs2
  have hregs : ReferenceRegisters s t (registersAfter (pairBursts s k1 d1 k2 d2)) :=
    BurstGroups.registers (s := { s with chDuty := t.chDuty, bridges := t.bridges }) hgroups
      (pairBursts_data_length s k1 d1 k2 d2) heffect
  refine ⟨t, gs1 ++ gs2, by simp [hrun1, hrun2], heffect, hgroups, fun c => ?_, fun k => ?_, hregs⟩
  · rw [hduty2, funext hduty1]
  · rw [hbridge2, hother, hbridge1]
    by_cases hk1 : k = k1
    · subst hk1
      rw [if_neg hne, if_pos rfl, if_pos rfl]
    · rw [if_neg hk1, if_neg hk1]
      split
      · next hk2 => rw [hk2]
      · rfl

/-! ## SEQ_STEP and SEQ_RELEASE when the bus answers -/

/-- SEQ_STEP, with the slot after its index has advanced (R270, R272). -/
theorem exec_seqStep {s : State} {id : Byte} {dir : BitVec 2} {d : Dir} (hr : s.phase = .ready) (hs : s.answers)
    (hid : id.toNat < s.nseq) (hdir : Dir.ofBits dir = some d) (hcfg : (s.seq id.toNat).cfg = true)
    (hne : (s.seq id.toNat).ph1 ≠ (s.seq id.toNat).ph2) {q : Seq} (hq : (s.seq id.toNat).advance d = q)
    (h1 : inSigned (stepT1 s.params q.n.toNat q.idx.toNat) = true)
    (h2 : inSigned (stepT2 s.params q.n.toNat q.idx.toNat) = true) :
    ∃ t gs, exec (.seqStep id dir) s = .next (t.respond .ok 0#16) ∧
      PairWritten (s.setSeq id.toNat q) t q.ph1 (stepT1 s.params q.n.toNat q.idx.toNat)
        q.ph2 (stepT2 s.params q.n.toNat q.idx.toNat) gs := by
  have hph : q.ph1 ≠ q.ph2 := by rw [← hq]; exact hne
  have hslot : (s.setSeq id.toNat q).seq id.toNat = q := by rw [State.seq_setSeq, if_pos ⟨rfl, hid⟩]
  obtain ⟨t, gs, hrun, hpair⟩ := bridgeSet_pair hph h1 h2 (s := s.setSeq id.toNat q) hs
  have hact : act (.seqStep id dir) s = .ok 0#16 t := by
    rw [← hrun]
    simp only [act, hdir, Option.getD_some, Cmd.bind_run, update_run, Cmd.get_run, hq, hslot, State.setSeq_params]
  have hdir2 : dir ≠ 2#2 := by rintro rfl; cases hdir
  exact ⟨t, gs, exec_of_checks_pass (failedCheck_seqStep hr hid hdir2 hcfg) hact, hpair⟩

/-- Settles O52: the effect is the two BridgeSets at duty 0. -/
theorem seqReleaseZeroesBothPhases : Obligations.SeqReleaseZeroesBothPhases := by
  unfold Obligations.SeqReleaseZeroesBothPhases
  rintro s id q hr hs hid rfl hcfg hne
  obtain ⟨t, gs, hrun, hpair⟩ := bridgeSet_pair hne (d1 := 0#16) (d2 := 0#16) (by decide) (by decide) hs
  refine ⟨t, gs, exec_of_checks_pass (failedCheck_seqRelease hr hid hcfg) hrun, hpair.effect, hpair.groups,
    hpair.duties, fun k => ?_, hpair.registers⟩
  rw [hpair.bridges, ite_or]

/-! ## The index (R269) -/

theorem Seq.advance_idx {q : Seq} (h : q.idx.toNat < q.n.toNat) (d : Dir) :
    (q.advance d).idx.toNat = advanceIdx q.idx.toNat q.n.toNat d :=
  (BitVec.toNat_ofNat _ _).trans (Nat.mod_eq_of_lt ((advanceIdx_lt h d).trans q.n.isLt))

/-- Settles O51: each legal direction is one of `Dir`, and then the effect is the two BridgeSets at the new index. -/
theorem seqStepAdvancesThenWritesThePair : Obligations.SeqStepAdvancesThenWritesThePair := by
  unfold Obligations.SeqStepAdvancesThenWritesThePair
  rintro s id dir q idx hr hs hp hid rfl hcfg hne hlt hdir
  obtain ⟨d, hd, rfl⟩ : ∃ d, Dir.ofBits dir = some d ∧
      idx = advanceIdx (s.seq id.toNat).idx.toNat (s.seq id.toNat).n.toNat d := by
    rcases hdir with ⟨rfl, h⟩ | ⟨rfl, h⟩ | ⟨rfl, h⟩
    · exact ⟨.hold, rfl, h⟩
    · exact ⟨.forward, rfl, h⟩
    · exact ⟨.backward, rfl, h⟩
  obtain ⟨t, gs, hex, hpair⟩ :=
    exec_seqStep hr hs hid hd hcfg hne rfl (inSigned_stepT1 hp _ _) (inSigned_stepT2 hp _ _)
  rw [Seq.advance_idx hlt] at hpair
  have hseqs := hpair.effect.seqs
  refine ⟨t, gs, _, _, rfl, rfl, hex, ?_, hpair.groups, hseqs, hpair.duties, hpair.bridges, hpair.registers⟩
  rw [hseqs]
  exact hpair.effect

/-- The slot `k` places further on in its table. -/
def Seq.shift (q : Seq) (k : Nat) : Seq := { q with idx := BitVec.ofNat 16 ((q.idx.toNat + k) % q.n.toNat) }

/-- How many places a step in a direction moves forward, modulo the table size. -/
def Dir.places (n : Nat) : Dir → Nat
  | .hold => 0
  | .forward => 1
  | .backward => n - 1

theorem Seq.shift_idx {q : Seq} (hn : 0 < q.n.toNat) (k : Nat) :
    (q.shift k).idx.toNat = (q.idx.toNat + k) % q.n.toNat :=
  (BitVec.toNat_ofNat _ _).trans (Nat.mod_eq_of_lt ((Nat.mod_lt _ hn).trans q.n.isLt))

theorem Seq.shift_shift {q : Seq} (hn : 0 < q.n.toNat) (k l : Nat) : (q.shift k).shift l = q.shift (k + l) := by
  have hidx : ((q.shift k).idx.toNat + l) % q.n.toNat = (q.idx.toNat + (k + l)) % q.n.toNat := by
    rw [Seq.shift_idx hn, Nat.mod_add_mod, Nat.add_assoc]
  exact congrArg (fun x => { q with idx := BitVec.ofNat 16 x }) hidx

/-- R278: whole turns of the table lead back to the same slot. -/
theorem Seq.shift_turns {q : Seq} (h : q.idx.toNat < q.n.toNat) (m : Nat) : q.shift (m * q.n.toNat) = q := by
  rw [Seq.shift, Nat.add_mul_mod_self_right, Nat.mod_eq_of_lt h, BitVec.ofNat_toNat, BitVec.setWidth_eq]

theorem Seq.shift_zero {q : Seq} (h : q.idx.toNat < q.n.toNat) : q.shift 0 = q := by
  rw [← Nat.zero_mul q.n.toNat, Seq.shift_turns h]

theorem Seq.advance_eq_shift {q : Seq} (h : q.idx.toNat < q.n.toNat) (d : Dir) :
    q.advance d = q.shift (d.places q.n.toNat) := by
  cases d with
  | hold =>
    rw [Dir.places, Seq.shift_zero h, Seq.advance, advanceIdx, BitVec.ofNat_toNat, BitVec.setWidth_eq]
  | forward => rfl
  | backward => rw [Dir.places, Seq.shift, ← Nat.add_sub_assoc (by omega)]; rfl

/-! ## Steps on any bus (R273, R278) -/

/-- Between the two states the slots and the phase are left alone. -/
def SameSlots (s t : State) : Prop := t.phase = s.phase ∧ t.seqs = s.seqs

theorem sameSlots_busRel : BusRel SameSlots where
  refl _ := ⟨rfl, rfl⟩
  trans _ _ _ h k := ⟨k.1.trans h.1, k.2.trans h.2⟩
  bus e := ⟨e.phase, e.seqs⟩

theorem sameSlots_bridgeSet (k : Conn) (d : Duty) : Cmd.Keeps SameSlots (bridgeSet k d) :=
  sameSlots_busRel.bridgeSet (fun _ => ⟨rfl, rfl⟩) (fun _ _ _ => ⟨rfl, rfl⟩) fun _ =>
    sameSlots_busRel.setDirection (fun _ _ => ⟨rfl, rfl⟩) fun _ _ => ⟨rfl, rfl⟩

/-- A READY block whose slot `i` is configured and holds `q`, its index inside the table. -/
structure HoldsSlot (i : Nat) (q : Seq) (s : State) : Prop where
  ready : s.phase = .ready
  inRange : i < s.nseq
  slot : s.seq i = q
  cfg : q.cfg = true
  index : q.idx.toNat < q.n.toNat

theorem HoldsSlot.sameSlots {i : Nat} {q : Seq} {s t : State} (h : HoldsSlot i q s) (hst : SameSlots s t) :
    HoldsSlot i q t := by
  obtain ⟨hphase, hseqs⟩ := hst
  exact ⟨hphase.trans h.ready, by rw [State.nseq, hseqs]; exact h.inRange, by rw [State.seq, hseqs]; exact h.slot,
    h.cfg, h.index⟩

theorem HoldsSlot.advance {i : Nat} {q : Seq} {s : State} (h : HoldsSlot i q s) (d : Dir) :
    HoldsSlot i (q.advance d) (s.setSeq i (q.advance d)) := by
  refine ⟨h.ready, by rw [State.nseq_setSeq]; exact h.inRange, by rw [State.seq_setSeq, if_pos ⟨rfl, h.inRange⟩],
    h.cfg, ?_⟩
  rw [Seq.advance_idx h.index]
  exact advanceIdx_lt h.index d

/-- R273: the index has moved before the bus can fail. -/
theorem HoldsSlot.step {s : State} {id : Byte} {q : Seq} (h : HoldsSlot id.toNat q s) {dir : BitVec 2} {d : Dir}
    (hd : Dir.ofBits dir = some d) :
    ∃ t, exec (.seqStep id dir) s = .next t ∧ HoldsSlot id.toNat (q.advance d) t := by
  have hdir : dir ≠ 2#2 := by rintro rfl; cases hd
  have hfinal : SameSlots (s.setSeq id.toNat (q.advance d)) ((act (.seqStep id dir)).final s) := by
    rw [act, Cmd.final_update, Cmd.final_get, hd, Option.getD_some, h.slot]
    exact (sameSlots_busRel.bind (sameSlots_bridgeSet _ _) fun _ =>
      sameSlots_busRel.andReturn (sameSlots_bridgeSet _ _) _).final _
  obtain ⟨t, e, v, hex, -, ⟨hc, -⟩ | ⟨-, hrun⟩⟩ := exec_next (.seqStep id dir) s
  · rw [failedCheck_seqStep h.ready h.inRange hdir (by rw [h.slot]; exact h.cfg)] at hc
    cases hc
  · have ht : (act (.seqStep id dir)).final s = t := hrun.elim (fun h => Cmd.final_ok h.1) Cmd.final_error
    rw [ht] at hfinal
    exact ⟨_, hex, ((h.advance d).sameSlots hfinal).sameSlots ⟨rfl, rfl⟩⟩

/-- `m` steps in one direction. -/
theorem HoldsSlot.steps {id : Byte} {dir : BitVec 2} {d : Dir} (hd : Dir.ofBits dir = some d) (m : Nat) {q : Seq}
    {s : State} (h : HoldsSlot id.toNat q s) :
    ∃ t, runAll (List.replicate m (.seqStep id dir)) s = some t ∧
      t.seq id.toNat = q.shift (m * d.places q.n.toNat) := by
  induction m generalizing q s with
  | zero => exact ⟨s, rfl, by rw [h.slot, Nat.zero_mul, Seq.shift_zero h.index]⟩
  | succ m ih =>
    obtain ⟨u, hex, hu⟩ := h.step hd
    obtain ⟨t, hrun, ht⟩ := ih hu
    have hshift : (q.advance d).shift (m * d.places q.n.toNat) = q.shift ((m + 1) * d.places q.n.toNat) := by
      rw [Seq.advance_eq_shift h.index, Seq.shift_shift (by have := h.index; omega), Nat.succ_mul, Nat.add_comm]
    rw [List.replicate_succ, runAll, hex]
    exact ⟨t, hrun, ht.trans hshift⟩

/-- Settles O54: forward steps add 1 to the index and backward steps N − 1, modulo N. -/
theorem stepsArePeriodic : Obligations.StepsArePeriodic := by
  unfold Obligations.StepsArePeriodic
  intro s id q m hr hid hq hcfg hlt
  have h : HoldsSlot id.toNat q s := ⟨hr, hid, hq, hcfg, hlt⟩
  have hn : 0 < q.n.toNat := by omega
  refine ⟨?_, ?_, ?_, ?_⟩
  · obtain ⟨t, hrun, ht⟩ := h.steps (dir := 1#2) rfl m
    refine ⟨t, hrun, ?_⟩
    rw [ht, Seq.shift_idx hn, Dir.places, Nat.mul_one]
  · obtain ⟨t, hrun, ht⟩ := h.steps (dir := 3#2) rfl m
    have hback : q.idx.toNat + m * (q.n.toNat - 1) + m = q.idx.toNat + m * q.n.toNat := by
      rw [Nat.add_assoc, ← Nat.mul_succ, Nat.succ_eq_add_one, Nat.sub_add_cancel hn]
    refine ⟨t, hrun, ?_, ?_⟩ <;> rw [ht, Seq.shift_idx hn, Dir.places]
    · rw [Nat.mod_add_mod, hback, Nat.add_mul_mod_self_right, Nat.mod_eq_of_lt hlt]
    · exact Nat.mod_lt _ hn
  · obtain ⟨t, hrun, ht⟩ := h.steps (dir := 1#2) rfl q.n.toNat
    refine ⟨t, hrun, ht.trans ?_⟩
    rw [Dir.places, Nat.mul_comm, Seq.shift_turns hlt]
  · obtain ⟨u, hex1, hu⟩ := h.step (dir := 1#2) rfl
    obtain ⟨t, hex2, ht⟩ := hu.step (dir := 3#2) rfl
    refine ⟨t, by rw [runAll, hex1]; simp only [runAll, hex2], ht.slot.trans ?_⟩
    have hturn : Dir.forward.places q.n.toNat + Dir.backward.places q.n.toNat = 1 * q.n.toNat := by
      simp only [Dir.places]
      omega
    have hsize : (q.advance .forward).n = q.n := rfl
    rw [Seq.advance_eq_shift hu.index, hsize, Seq.advance_eq_shift hlt, Seq.shift_shift hn, hturn, Seq.shift_turns hlt]

/-! ## The whole-step scenario (R279) -/

/-- A step on a bus that answers leaves the two entries as the stored duties of the phases, and a bus that answers. -/
theorem HoldsSlot.step_ok {s : State} {id : Byte} {q : Seq} (h : HoldsSlot id.toNat q s) (hs : s.answers)
    (hne : q.ph1 ≠ q.ph2) {dir : BitVec 2} {d : Dir} (hd : Dir.ofBits dir = some d) {i : Nat}
    (hi : (q.advance d).idx.toNat = i) (h1 : inSigned (stepT1 s.params q.n.toNat i) = true)
    (h2 : inSigned (stepT2 s.params q.n.toNat i) = true) :
    ∃ t, exec (.seqStep id dir) s = .next t ∧ HoldsSlot id.toNat (q.advance d) t ∧ t.answers ∧
      (t.bridge q.ph1).duty = stepT1 s.params q.n.toNat i ∧ (t.bridge q.ph2).duty = stepT2 s.params q.n.toNat i := by
  subst hi
  obtain ⟨t, hex, ht⟩ := h.step hd
  obtain ⟨hr, hid, rfl, hcfg, -⟩ := h
  obtain ⟨u, gs, hex', hpair⟩ := exec_seqStep hr hs hid hd hcfg hne rfl h1 h2
  obtain rfl : u.respond .ok 0#16 = t := by simpa [hex'] using hex
  have hans : u.answers := hpair.effect.answers hs
  exact ⟨_, hex, ht, hans, hpair.bridgeDuty1, hpair.bridgeDuty2 hne⟩

/-- The entry of the whole-step table at an index, as the pair of duties (R262). -/
def wholePair (i : Nat) : Duty × Duty := (unitDuty (wholeT1.getD i 0), unitDuty (wholeT2.getD i 0))

/-- One step forward of a whole-step slot that is `k` places on from index 0. -/
theorem HoldsSlot.step_whole {s : State} {id : Byte} {q : Seq} {k : Nat} (h : HoldsSlot id.toNat (q.shift k) s)
    (hs : s.answers) (hne : q.ph1 ≠ q.ph2) (hn : q.n = 4#16) (hidx : q.idx = 0#16) :
    ∃ t, exec (.seqStep id 1#2) s = .next t ∧ HoldsSlot id.toNat (q.shift (k + 1)) t ∧ t.answers ∧
      ((t.bridge q.ph1).duty, (t.bridge q.ph2).duty) = wholePair ((k + 1) % 4) := by
  have hsize : (q.shift k).n.toNat = 4 := congrArg BitVec.toNat hn
  have hpos : 0 < q.n.toNat := by rw [hn]; decide
  have hadv : (q.shift k).advance .forward = q.shift (k + 1) := Seq.shift_shift hpos k 1
  have hi : ((q.shift k).advance .forward).idx.toNat = (k + 1) % 4 := by
    rw [hadv, Seq.shift_idx hpos, hidx, hn]
    simp
  obtain ⟨t, hex, ht, hans, hd1, hd2⟩ := h.step_ok hs hne (dir := 1#2) rfl hi
    (by rw [hsize]; exact inSigned_unitDuty wholeT1 (by decide) _)
    (by rw [hsize]; exact inSigned_unitDuty wholeT2 (by decide) _)
  rw [hsize] at hd1 hd2
  exact ⟨t, hex, hadv ▸ ht, hans, Prod.ext hd1 hd2⟩

/-- Settles O55: four steps, one entry each, and one turn of the table. -/
theorem wholeStepScenario : Obligations.WholeStepScenario := by
  unfold Obligations.WholeStepScenario
  intro s id q hr hs hid hq hcfg hne hn hidx
  have hlt : q.idx.toNat < q.n.toNat := by rw [hn, hidx]; decide
  have h0 : HoldsSlot id.toNat (q.shift 0) s := by
    rw [Seq.shift_zero hlt]
    exact ⟨hr, hid, hq, hcfg, hlt⟩
  obtain ⟨t1, hex1, h1, hs1, hd1⟩ := h0.step_whole hs hne hn hidx
  obtain ⟨t2, hex2, h2, hs2, hd2⟩ := h1.step_whole hs1 hne hn hidx
  obtain ⟨t3, hex3, h3, hs3, hd3⟩ := h2.step_whole hs2 hne hn hidx
  obtain ⟨t4, hex4, h4, -, hd4⟩ := h3.step_whole hs3 hne hn hidx
  refine ⟨t1, t2, t3, t4, hex1, hex2, hex3, hex4, ?_, h4.slot.trans ?_⟩
  · simp only [List.map_cons, List.map_nil, hd1, hd2, hd3, hd4]
    rfl
  · rw [show 0 + 1 + 1 + 1 + 1 = 1 * q.n.toNat by rw [hn]; rfl, Seq.shift_turns hlt]

end Sys2Proof.Machine
end

section
/-! PROOF. Commands that are refused (`60_exceptions.md` R301 to R304, R307): an illegal command, a command in the wrong
phase, and the first failed check. -/

namespace Sys2Proof.Machine

/-- Settles O8: the step answers ILLEGAL_COMMAND, and the decoder consumed by the opcode alone. -/
theorem illegalCommandIsRefusedWithoutEffect : Obligations.IllegalCommandIsRefusedWithoutEffect := by
  unfold Obligations.IllegalCommandIsRefusedWithoutEffect
  intro s why rest hdec
  refine ⟨by rw [step, State.fetch, hdec]; rfl, ?_⟩
  have hlen := commandLengthComesFromTheOpcode s.inbox
  rw [hdec] at hlen
  obtain ⟨w0, tail, hin, htail⟩ := hlen
  refine ⟨w0, by rw [hin, List.head?_cons], ?_⟩
  rw [hin]
  split at htail
  · next htwo =>
    obtain ⟨w1, rfl⟩ := htail
    rw [if_pos htwo]
    rfl
  · next hone =>
    rw [if_neg hone, htail]
    rfl

/-- Settles O14: a command is its first failed check, if it has one. -/
theorem firstFailedCheckIsReported : Obligations.FirstFailedCheckIsReported := by
  unfold Obligations.FirstFailedCheckIsReported
  intro i s e h
  rw [exec_eq, h, resultOf]

/-- R173: CTRL_INIT fails its first check when the block is READY. -/
theorem failedCheck_ctrlInit_ready {s : State} (hr : s.phase = .ready) (addr : Addr) (hz : Word) :
    s.failedCheck (.ctrlInit addr hz) = some .configurationError := by
  rw [failedCheck_ready (Or.inl rfl)]
  simp [State.checks, firstOf, hr]

/-- Settles O13: the ready check fails, or CTRL_INIT's own check of the phase. -/
theorem notReadyBeforeInit : Obligations.NotReadyBeforeInit := by
  unfold Obligations.NotReadyBeforeInit
  intro i s
  constructor
  · intro hu hi
    rw [exec_uninit hi (by simp [hu])]
    rfl
  · intro hr hi
    obtain ⟨addr, hz, rfl⟩ := eq_ctrlInit hi
    rw [firstFailedCheckIsReported _ _ _ (failedCheck_ctrlInit_ready hr addr hz)]
    rfl

end Sys2Proof.Machine
end

section
/-! PROOF. How a command's effect ends once its checks have passed (`60_exceptions.md` R304 to R307, R310): with OK, or
with TRANSPORT_ERROR at a failed frame and the partial block state of the groups it reached. -/

namespace Sys2Proof.Machine

variable {α β : Type}

/-! ## The same block state -/

/-- Between the two states nothing has changed but the trace, the responses, the record of frequency changes, the
devices and what is to come of answers and of other agents' traffic. -/
def SameBlock (s t : State) : Prop :=
  t = { s with
    trace := t.trace, responses := t.responses, devices := t.devices, changing := t.changing, replies := t.replies,
    traffic := t.traffic }

theorem sameBlock_busRel : BusRel SameBlock where
  refl _ := rfl
  trans a b c hab hbc := by
    unfold SameBlock at *
    rw [hbc, hab]
  bus h := by
    unfold SameBlock
    rw [h.rest]

theorem sameBlock_changing (s : State) (changing : List Addr) : SameBlock s { s with changing := changing } := rfl

theorem SameBlock.bus {s u t : State} {gs : List Group} (h : SameBlock s u) (ht : BusEffect u t gs) : SameBlock s t :=
  sameBlock_busRel.trans s u t h (sameBlock_busRel.bus ht)

/-- FreqSeq's beginning and end of a frequency change are in that record alone (R353). -/
theorem State.afterFreq_rest (s : State) (gs : List Group) :
    s.afterFreq gs = { s with changing := (s.afterFreq gs).changing } := by
  unfold State.afterFreq
  split
  · rfl
  · split <;> rfl
  · split <;> rfl

/-- A BridgeSet that has begun has stored duties alone (R234). -/
theorem State.bridgeAfter_rest (s : State) (k : Conn) (d : Duty) (n : Nat) : s.bridgeAfter k d n =
    { s with chDuty := (s.bridgeAfter k d n).chDuty, bridges := (s.setBridgeDuty k d).bridges } := by
  rw [State.bridgeAfter, State.applyDuties_rest]
  rfl

/-! ## How a body ends -/

/-- From `s` the body, whose frames go to address `a`, returns, or it raises TRANSPORT_ERROR because the bus failed a
frame there: then it has reached at least one group, and the block is as `after` says for the number of groups (R306,
R310). -/
def Ends (c : Cmd α) (s : State) (a : Addr) (after : Nat → State) : Prop :=
  (∃ v t, c s = .ok v t) ∨
    ∃ t gs, c s = .error .transportError t ∧ t.trace = s.trace ++ gs ∧ gs ≠ [] ∧ SameBlock (after gs.length) t ∧
      ¬ s.answersAt a

namespace Ends

variable {s : State} {a : Addr} {after : Nat → State}

/-- A body that returns from `s`. -/
theorem returns {c : Cmd α} {v : α} {t : State} (h : c s = .ok v t) : Ends c s a after := .inl ⟨v, t, h⟩

/-- Only the numbers of groups a failed body can have reached matter. -/
theorem congr {after' : Nat → State} {c : Cmd α} (h : Ends c s a after) (heq : ∀ n, 0 < n → after n = after' n) :
    Ends c s a after' := by
  rcases h with h | ⟨t, gs, hrun, htr, hne, hsame, hn⟩
  · exact .inl h
  · exact .inr ⟨t, gs, hrun, htr, hne, heq _ (List.length_pos_iff.mpr hne) ▸ hsame, hn⟩

/-- What follows the last frame cannot fail. -/
theorem andThen {x : Cmd α} {f : α → Cmd β} (h : Ends x s a after) (hf : ∀ v t, ∃ w u, f v t = .ok w u) :
    Ends (x >>= f) s a after := by
  rcases h with ⟨v, t, hrun⟩ | ⟨t, gs, hrun, hrest⟩
  · obtain ⟨w, u, hu⟩ := hf v t
    exact .inl ⟨w, u, by rw [Cmd.bind_run, hrun]; exact hu⟩
  · exact .inr ⟨t, gs, by rw [Cmd.bind_run, hrun], hrest⟩

theorem andReturn {x : Cmd α} (h : Ends x s a after) (f : α → β) : Ends (x >>= fun v => pure (f v)) s a after :=
  h.andThen fun v t => ⟨f v, t, rfl⟩

/-- A body that starts with a write of block fields, which sends nothing. -/
theorem updateThen {f : State → State} {c : Cmd α} (htr : (f s).trace = s.trace)
    (hans : s.answersAt a → (f s).answersAt a) (h : Ends c (f s) a after) :
    Ends (update f >>= fun _ => c) s a after := by
  rcases h with ⟨v, t, hrun⟩ | ⟨t, gs, hrun, hgs, hne, hsame, hn⟩
  · exact returns (hrun : (update f >>= fun _ => c) s = _)
  · exact .inr ⟨t, gs, hrun, by rw [hgs, htr], hne, hsame, hn ∘ hans⟩

theorem getThen {f : State → Cmd α} (h : Ends (f s) s a after) : Ends (get >>= f) s a after := h

/-- A failed frame after bus traffic from a state with the trace of `s`. -/
theorem fails {c : Cmd α} {u t : State} {gs : List Group} (hrun : c s = .error .transportError t)
    (ht : BusEffect u t gs) (htr : u.trace = s.trace) (hfail : FailsAtEnd gs.flatten)
    (hsame : SameBlock (after gs.length) u) (hn : ¬ s.answersAt a) : Ends c s a after := by
  have hne : gs ≠ [] := by
    rintro rfl
    exact hfail.ne_nil rfl
  exact .inr ⟨t, gs, hrun, by rw [ht.trace, htr], hne, hsame.bus ht, hn⟩

/-- A body that goes on after a part that has returned with `gs` on the bus. -/
theorem after_ok {x : Cmd α} {f : α → Cmd β} {v : α} {t : State} {gs : List Group} {after' : Nat → State}
    (hrun : x s = .ok v t) (htr : t.trace = s.trace ++ gs) (hans : s.answersAt a → t.answersAt a)
    (hf : Ends (f v) t a after') (hafter : ∀ n, 0 < n → SameBlock (after (gs.length + n)) (after' n)) :
    Ends (x >>= f) s a after := by
  have hbind : (x >>= f) s = f v t := by rw [Cmd.bind_run, hrun]
  rcases hf with ⟨w, u, hu⟩ | ⟨u, hs, hu, hutr, hne, hsame, hn⟩
  · exact returns (hbind.trans hu)
  · refine .inr ⟨u, gs ++ hs, hbind.trans hu, by rw [hutr, htr, List.append_assoc], by simp [hne], ?_, hn ∘ hans⟩
    rw [List.length_append]
    exact sameBlock_busRel.trans _ _ _ (hafter _ (List.length_pos_iff.mpr hne)) hsame

/-! ## The shared operations -/

theorem group {c : Cmd α} {S : Addr → α → Group → Prop} (h : GroupSpec c S) (s : State) :
    Ends c s s.addr fun _ => s := by
  obtain ⟨t, g, ht, -, ⟨v, hrun, -⟩ | ⟨hrun, hfail, hn⟩⟩ := h s
  · exact returns hrun
  · exact fails hrun ht rfl (by simpa using hfail) rfl hn

theorem dutyRun {c : Cmd Unit} {ws : List (Channel × Duty)} (h : DutyRun c ws) (s : State) :
    Ends c s s.addr fun n => s.applyDuties (ws.take n) := by
  obtain ⟨t, gs, ht, ⟨hrun, -⟩ | ⟨hrun, hfail, -, hn⟩⟩ := h s
  · exact returns hrun
  · exact fails hrun ht (by rw [State.applyDuties_rest]) hfail rfl hn

/-- R310: CH_DUTY and LINE_SET have stored the duty before their one group. -/
theorem setDuty {ch : Channel} {d : Duty} (hd : inUnit d = true) (s : State) :
    Ends (setDuty ch d) s s.addr fun _ => s.setDuty ch d := by
  refine (dutyRun (DutyRun.setDuty hd) s).congr fun n hn => ?_
  rw [List.take_of_length_le (Nat.succ_le_of_lt hn)]
  rfl

theorem bridgeSet (k : Conn) {d : Duty} (hd : inSigned d = true) (s : State) :
    Ends (bridgeSet k d) s s.addr (s.bridgeAfter k d) := by
  obtain ⟨t, gs, ht, ⟨hrun, -⟩ | ⟨hrun, hfail, -, hn⟩⟩ := bridgeSet_run k hd s
  · exact returns hrun
  · exact fails hrun ht (by rw [State.bridgeAfter_rest]) hfail rfl hn

/-- R172: FreqSeq writes no block field, wherever it fails. -/
theorem freqSeq (p : Byte) (s : State) : Ends (freqSeq p) s s.addr fun _ => s := by
  obtain ⟨t, gs, ht, -, ⟨hrun, -⟩ | ⟨hrun, hfail, hn⟩⟩ := freqSeq_run p s
  · exact returns hrun
  · rw [State.afterFreq_rest] at ht
    exact fails hrun ht rfl hfail rfl hn

/-- R170, R173: a body that goes on after a ResetSeq and leaves the block as that did. -/
theorem resetSeqThen {c : Cmd α} (hc : ∀ t, Ends c t t.addr fun _ => t) (s : State) :
    Ends (Machine.resetSeq >>= fun _ => c) s s.addr fun _ => s := by
  obtain ⟨t, gs, ht, -, hrun⟩ := resetSeq_run s
  obtain ⟨changing, hu⟩ : ∃ changing, (if gs.length = 4 then s.closeChange s.addr else s) =
      { s with changing := changing } := by
    split
    · exact ⟨_, rfl⟩
    · exact ⟨s.changing, rfl⟩
  rw [hu] at ht
  rcases hrun with ⟨hrun, -⟩ | ⟨hrun, hfail, hn⟩
  · have haddr : t.addr = s.addr := ht.addr
    exact after_ok hrun ht.trace ht.answersAt (haddr ▸ hc t) fun _ _ => (sameBlock_changing s changing).bus ht
  · exact fails (by rw [Cmd.bind_run, hrun]) ht rfl hfail rfl hn

/-- R310: two BridgeSets, the second after all writes of the first. -/
theorem bridgeSets (k1 k2 : Conn) {d1 d2 : Duty} (h1 : inSigned d1 = true) (h2 : inSigned d2 = true) (v : α)
    (s : State) : Ends (do Machine.bridgeSet k1 d1; Machine.bridgeSet k2 d2; return v) s s.addr
      (s.twoBridgesAfter k1 d1 k2 d2) := by
  obtain ⟨t, gs, ht, ⟨hrun, hgs, -⟩ | ⟨hrun, hfail, hlen, hn⟩⟩ := bridgeSet_run k1 h1 s
  · have hlen : gs.length = (bridgeWrites k1 (polarity (s.bridge k1).duty) d1).length := by
      rw [hgs.length, List.length_map]
    have hrest := ht
    rw [State.bridgeAfter_rest] at hrest
    have haddr : t.addr = s.addr := hrest.addr
    refine after_ok hrun hrest.trace hrest.answersAt (haddr ▸ (bridgeSet k2 h2 t).andReturn _) fun n hn => ?_
    have htwo : s.twoBridgesAfter k1 d1 k2 d2 (gs.length + n) =
        (s.bridgeAfter k1 d1 gs.length).bridgeAfter k2 d2 n := by
      rw [State.twoBridgesAfter, ← hlen, if_neg (by omega), Nat.add_sub_cancel_left]
    rw [htwo]
    exact sameBlock_busRel.bus (ht.bridgeAfter k2 d2 n)
  · refine fails (by rw [Cmd.bind_run, hrun]) ht (by rw [State.bridgeAfter_rest]) hfail ?_ hn
    rw [State.twoBridgesAfter, if_pos hlen]
    rfl

end Ends

/-! ## Every command -/

/-- The address a command's frames go to (R32, R173). -/
def State.target (s : State) : Instr → Addr
  | .ctrlInit addr _ => addr
  | _ => s.addr

/-- A command whose checks pass ends as R310 says. -/
theorem act_ends {i : Instr} {s : State} (hp : paramsOk s.params = true) (hc : s.failedCheck i = none) :
    Ends (act i) s (s.target i) (s.partialAfter i) := by
  have hpass := checks_pass hc
  cases i with
  | regWr reg v => exact (Ends.group (busWrite1_spec reg v) s).andReturn _
  | regRd reg => exact (Ends.group (busRead1_spec reg) s).andReturn _
  | regBurst reg data => exact (Ends.group (busBurst_spec reg data) s).andReturn _
  | ctrlInit addr hz =>
    exact Ends.updateThen rfl id
      (Ends.resetSeqThen (fun t => (Ends.freqSeq _ t).andThen fun _ _ => ⟨_, _, rfl⟩) { s with addr := addr })
  | ctrlReset => exact Ends.resetSeqThen (fun _ => Ends.returns rfl) s
  | ctrlFreq hz => exact (Ends.freqSeq _ s).andReturn _
  | ctrlDuty id d => exact (Ends.group (busBurst_spec _ _) s).andReturn _
  | chBind id => exact Ends.returns rfl
  | chRelease id => exact Ends.returns rfl
  | chDuty id d =>
    simp only [State.checks, List.forall_mem_cons, decide_eq_true_eq] at hpass
    obtain ⟨hid, hd, -⟩ := hpass
    exact ((Ends.setDuty hd s).andReturn _).congr fun n _ => by rw [State.partialAfter, dif_pos hid, chan_eq hid]
  | lineSet id b =>
    simp only [State.checks, List.forall_mem_cons, decide_eq_true_eq] at hpass
    obtain ⟨hid, -⟩ := hpass
    exact ((Ends.setDuty (inUnit_lineDuty b) s).andReturn _).congr fun n _ => by
      rw [State.partialAfter, dif_pos hid, chan_eq hid]
  | lineGet id => exact Ends.returns rfl
  | hbConfig id => exact Ends.returns rfl
  | hbSet id d =>
    simp only [State.checks, List.forall_mem_cons] at hpass
    obtain ⟨hid, hd, -⟩ := hpass
    exact ((Ends.bridgeSet (conn id) hd s).andReturn _).congr fun n _ => by rw [State.partialAfter, conn_some hid]
  | hbBrake id =>
    simp only [State.checks, List.forall_mem_cons] at hpass
    obtain ⟨hid, -⟩ := hpass
    have hact : act (.hbBrake id) = do
        (do setLine (conn id).in1 true; setLine (conn id).in2 true)
        return 0#16 := by simp [act]
    rw [hact]
    exact ((Ends.dutyRun ((DutyRun.setLine (conn id).in1 true).append (DutyRun.setLine (conn id).in2 true))
      s).andReturn _).congr fun n _ => by rw [State.partialAfter, conn_some hid]; rfl
  | hbRelease id =>
    simp only [State.checks, List.forall_mem_cons] at hpass
    obtain ⟨hid, -⟩ := hpass
    have hact : act (.hbRelease id) = do
        (do setDuty (conn id).pwm 0#16; setLine (conn id).in1 false; setLine (conn id).in2 false)
        return 0#16 := by simp [act]
    rw [hact]
    exact ((Ends.dutyRun ((DutyRun.setDuty (ch := (conn id).pwm) (d := 0#16) (by decide)).append
      ((DutyRun.setLine (conn id).in1 false).append (DutyRun.setLine (conn id).in2 false))) s).andReturn _).congr
      fun n _ => by rw [State.partialAfter, conn_some hid]; rfl
  | hbGet id => exact Ends.returns rfl
  | seqConfig id bra brb n => exact Ends.returns rfl
  | seqStep id dir =>
    simp only [State.checks, List.forall_mem_cons, decide_eq_true_eq, bne_iff_ne] at hpass
    obtain ⟨hid, hdir, -⟩ := hpass
    have hslot : ∀ q, (s.setSeq id.toNat q).seq id.toNat = q := fun q => by rw [State.seq_setSeq, if_pos ⟨rfl, hid⟩]
    refine Ends.updateThen rfl (fun h => h) (Ends.getThen ?_)
    simp only [hslot]
    exact (Ends.bridgeSets _ _ (inSigned_stepT1 hp _ _) (inSigned_stepT2 hp _ _) 0#16 _).congr fun n _ => by
      rw [State.partialAfter, ofBits_some hdir]; rfl
  | seqRelease id => exact Ends.getThen (Ends.bridgeSets _ _ (by decide) (by decide) 0#16 s)
  | seqGet id => exact Ends.returns rfl

/-! ## The statements -/

/-- The status of the one response a command has given. -/
theorem statusOf_response {u : State} {e : Status} {v : BitVec 16} {rs : List Word} {r : Word}
    (h : (u.respond e v).responses = rs ++ [r]) : statusOf r = e.code := by
  rw [← statusOf_respond u e v, State.lastResponse, h, List.getLastD_concat]

/-- A command has answered OK, or the status of its first failed check with no other effect, or TRANSPORT_ERROR with the
partial effect of the groups it reached (R304 to R307, R310). -/
theorem exec_cases {i : Instr} {s t : State} (hp : paramsOk s.params = true) (hex : exec i s = .next t) :
    (∃ u v, t = State.respond u .ok v) ∨ (∃ e, s.failedCheck i = some e ∧ t = s.respond e 0#16) ∨
      ∃ u gs, t = State.respond u .transportError 0#16 ∧ u.trace = s.trace ++ gs ∧
        SameBlock (s.partialAfter i gs.length) u := by
  rw [exec_eq] at hex
  cases hc : s.failedCheck i with
  | some e =>
    rw [hc] at hex
    cases hex
    exact .inr (.inl ⟨e, rfl, rfl⟩)
  | none =>
    rcases act_ends hp hc with ⟨v, u, hrun⟩ | ⟨u, gs, hrun, htr, -, hsame, -⟩
    · rw [hc, resultOf, hrun] at hex
      cases hex
      exact .inl ⟨u, v, rfl⟩
    · rw [hc, resultOf, hrun] at hex
      cases hex
      exact .inr (.inr ⟨u, gs, rfl, htr, hsame⟩)

/-- Settles O21: the effect raised TRANSPORT_ERROR, and the trace tells how many groups it had reached. -/
theorem transportErrorLeavesThePartialEffects : Obligations.TransportErrorLeavesThePartialEffects := by
  unfold Obligations.TransportErrorLeavesThePartialEffects
  intro i s t r gs hp hex hresp hstatus htrace
  rcases exec_cases hp hex with ⟨u, v, rfl⟩ | ⟨e, hc, rfl⟩ | ⟨u, hs, rfl, hu, hsame⟩
  · rw [statusOf_response hresp] at hstatus
    exact absurd hstatus (by decide)
  · rw [statusOf_response hresp, Status.code_transportError] at hstatus
    exact absurd (hstatus ▸ hc) (failedCheck_ne_transportError i s)
  · obtain rfl : hs = gs := List.append_cancel_left (hu.symm.trans htrace)
    exact sameBlock_busRel.trans _ _ _ hsame rfl

/-- Settles O16: a status other than OK and TRANSPORT_ERROR is a failed check's; for an illegal command it is R301. -/
theorem failedChecksHaveNoEffect : Obligations.FailedChecksHaveNoEffect := by
  unfold Obligations.FailedChecksHaveNoEffect
  refine ⟨fun i s t r hp hex hresp hok hte => ?_, fun s why rest hdec =>
    ⟨0x04000000#32, by decide, (illegalCommandIsRefusedWithoutEffect s why rest hdec).1⟩⟩
  rcases exec_cases hp hex with ⟨u, v, rfl⟩ | ⟨e, -, rfl⟩ | ⟨u, gs, rfl, -, -⟩
  · exact absurd (statusOf_response hresp) hok
  · rw [← hresp]
    rfl
  · exact absurd (statusOf_response hresp) hte

/-- Settles O15: the effect could end otherwise only at a failed frame. -/
theorem commandsWithoutFailedCheckComplete : Obligations.CommandsWithoutFailedCheckComplete := by
  unfold Obligations.CommandsWithoutFailedCheckComplete
  intro i s hp hc hinit hother
  have hans : s.answersAt (s.target i) := by
    cases i with
    | ctrlInit addr hz => exact hinit addr hz rfl
    | _ => exact hother (by simp [Instr.op])
  rcases act_ends hp hc with ⟨v, t, hrun⟩ | ⟨-, -, -, -, -, -, hn⟩
  · exact ⟨t.respond .ok v, exec_of_checks_pass hc hrun, statusOf_respond t .ok v⟩
  · exact absurd hans hn

end Sys2Proof.Machine
end

section
/-! PROOF. How many frames and Delay events a command sends, whatever the bus answers (`60_exceptions.md` R324). -/

namespace Sys2Proof.Machine

variable {α β : Type}

/-! ## Counting the events of a body -/

/-- The trace grows by events of which at most `n` meet `p`. -/
def GrowsWithin (p : BusEvent → Bool) (n : Nat) (s t : State) : Prop :=
  ∃ es, t.trace.flatten = s.trace.flatten ++ es ∧ (es.filter p).length ≤ n

namespace GrowsWithin

variable {p : BusEvent → Bool} {m n : Nat}

theorem of_flatten {s t : State} (h : t.trace.flatten = s.trace.flatten) : GrowsWithin p 0 s t :=
  ⟨[], by simp [h], by simp⟩

theorem of_trace {s t : State} (h : t.trace = s.trace) : GrowsWithin p 0 s t := of_flatten (by rw [h])

theorem weaken {s t : State} (h : GrowsWithin p m s t) (hmn : m ≤ n) : GrowsWithin p n s t := by
  obtain ⟨es, hes, hle⟩ := h
  exact ⟨es, hes, hle.trans hmn⟩

theorem trans {s t u : State} (h : GrowsWithin p m s t) (k : GrowsWithin p n t u) : GrowsWithin p (m + n) s u := by
  obtain ⟨es, hes, hle⟩ := h
  obtain ⟨fs, hfs, hle'⟩ := k
  refine ⟨es ++ fs, by rw [hfs, hes, List.append_assoc], ?_⟩
  rw [List.filter_append, List.length_append]
  exact Nat.add_le_add hle hle'

/-- Bus traffic whose groups hold so many. -/
theorem of_groups {s t : State} {gs : List Group} (h : t.trace = s.trace ++ gs)
    (hle : (gs.flatten.filter p).length ≤ n) : GrowsWithin p n s t := ⟨gs.flatten, by rw [h, List.flatten_append], hle⟩

/-- An event joins the last group. -/
theorem record (s : State) (e : BusEvent) : GrowsWithin p 1 s (s.record e) := by
  refine ⟨[e], ?_, List.length_filter_le p [e]⟩
  rcases List.eq_nil_or_concat s.trace with h0 | ⟨gs, g, hg⟩
  · simp [State.record, h0]
  · simp [State.record, hg]

end GrowsWithin

/-- The body sends at most `n` events that meet `p`. -/
abbrev SendsWithin (p : BusEvent → Bool) (n : Nat) (c : Cmd α) : Prop := Cmd.Keeps (GrowsWithin p n) c

namespace SendsWithin

variable {p : BusEvent → Bool} {m n : Nat}

theorem mono {c : Cmd α} (hmn : m ≤ n) (h : SendsWithin p m c) : SendsWithin p n c :=
  Cmd.keeps_of_final fun s => (h.final s).weaken hmn

theorem pure (a : α) : SendsWithin p 0 (Pure.pure a : Cmd α) := fun _ => .of_trace rfl

theorem check (ok : Bool) (e : Status) : SendsWithin p 0 (check ok e) := Cmd.Keeps.check (fun _ => .of_trace rfl) ok e

theorem update {f : State → State} (h : ∀ s, (f s).trace = s.trace) : SendsWithin p 0 (update f) :=
  Cmd.Keeps.update fun s => .of_trace (h s)

theorem bind {x : Cmd α} {f : α → Cmd β} (hx : SendsWithin p m x) (hf : ∀ a, SendsWithin p n (f a)) :
    SendsWithin p (m + n) (x >>= f) := by
  refine Cmd.keeps_of_final fun s => ?_
  have h := hx.final s
  cases hr : x s with
  | error e t =>
    rw [Cmd.final_error hr] at h
    rw [Cmd.final_error (e := e) (t := t) (by rw [Cmd.bind_run, hr])]
    exact h.weaken (Nat.le_add_right m n)
  | ok a t =>
    have hfin : (x >>= f).final s = (f a).final t := by simp only [Cmd.final, Cmd.bind_run, hr]
    rw [Cmd.final_ok hr] at h
    rw [hfin]
    exact h.trans ((hf a).final t)

theorem andReturn {x : Cmd β} (hx : SendsWithin p n x) (f : β → α) : SendsWithin p n (x >>= fun v => Pure.pure (f v)) :=
  bind hx fun v => pure (f v)

theorem getThen {f : State → Cmd α} (hf : ∀ s, SendsWithin p n (f s)) : SendsWithin p n (get >>= f) := fun s => hf s s

/-- A write of block fields at the head of a body. -/
theorem updateThen {f : State → State} {c : Cmd α} (hc : SendsWithin p n c)
    (h : ∀ s, (f s).trace = s.trace := by intros; rfl) : SendsWithin p n (Machine.update f >>= fun _ => c) := by
  have hbind := bind (update h) fun _ => hc
  rwa [Nat.zero_add] at hbind

theorem onlyIf (c : Bool) {x : Cmd Unit} (hx : SendsWithin p n x) : SendsWithin p n (onlyIf c x) := by
  cases c
  · exact (pure ()).mono (Nat.zero_le n)
  · exact hx

end SendsWithin

/-! ## Frames -/

/-- The event of a frame that is no Delay. -/
abbrev isFrame (e : BusEvent) : Bool := e.frame.dest.isSome

theorem emit_final (f : Frame) (s : State) : (emit f).final s = (s.send f).2 := by
  simp only [Cmd.final, emit, Cmd.bind_run, Cmd.get_run, Cmd.set_run]
  cases (s.send f).1 <;> rfl

namespace SendsWithin

variable {p : BusEvent → Bool} {n : Nat}

theorem emit (f : Frame) : SendsWithin p 1 (emit f) := by
  refine Cmd.keeps_of_final fun s => ?_
  rw [emit_final]
  exact (GrowsWithin.of_trace rfl).trans (GrowsWithin.record _ _)

theorem emitWrite (reg : Byte) (data : List Byte) : SendsWithin p 1 (emitWrite reg data) :=
  getThen fun _ => (emit _).bind fun _ => pure ()

theorem emitRead : SendsWithin p 1 emitRead := getThen fun _ => emit _

/-- A body inside a group of its own. -/
theorem inGroup {c : Cmd α} (hc : SendsWithin p n c) : SendsWithin p n (do beginGroup; c) := by
  have hbegin : SendsWithin p 0 beginGroup := Cmd.Keeps.update fun s => .of_flatten (by simp)
  have h := hbegin.bind fun _ => hc
  rwa [Nat.zero_add] at h

/-- R74 to R79: the most frames of each bus primitive. -/
theorem busLaw : BusLaw (fun n c => SendsWithin isFrame n c) where
  mono := mono
  pure := pure
  check := check
  bind := bind
  get := fun _ hf => getThen hf
  update := fun hf => update hf.trace
  write1 := fun _ _ => inGroup (emitWrite _ _)
  read1 := fun _ => inGroup ((emitWrite _ _).bind fun _ => emitRead)
  burst := fun _ _ => inGroup <| (emitWrite _ _).bind fun _ => emitRead.bind fun _ =>
    (onlyIf _ (emitWrite _ _)).bind fun _ => emitWrite _ _
  setSleep := fun _ _ => inGroup <| (emitWrite _ _).bind fun _ => emitRead.bind fun _ =>
    updateThen (emitWrite _ _)
  setIfClear := fun _ _ => inGroup <| (emitWrite _ _).bind fun _ => emitRead.bind fun _ => onlyIf _ (emitWrite _ _)
  delay := fun us => Cmd.keeps_of_final fun s => by
    obtain ⟨t, hrun, ht⟩ := busDelay_spec us s
    rw [Cmd.final_ok hrun]
    exact .of_groups ht.trace (by simp [Frame.dest])

end SendsWithin

/-! ## Delay events -/

/-- The event of a Delay. -/
abbrev isDelay (e : BusEvent) : Bool := e.frame.dest.isNone

/-- The body sends no Delay. -/
abbrev NoDelay (c : Cmd α) : Prop := SendsWithin isDelay 0 c

namespace NoDelay

/-- A group sent to the block's device holds no Delay. -/
theorem of_sent {s t : State} {g : Group} (h : t.trace = s.trace ++ [g]) (hg : ∀ e ∈ g, e.frame.dest = some s.addr) :
    GrowsWithin isDelay 0 s t := by
  have hnone : [g].flatten.filter isDelay = [] := List.filter_eq_nil_iff.mpr fun e he => by
    simp [isDelay, hg e (by simpa using he)]
  exact .of_groups h (by rw [hnone]; rfl)

theorem group {c : Cmd α} {S : Addr → α → Group → Prop} (h : GroupSpec c S) : NoDelay c := by
  refine Cmd.keeps_of_final fun s => ?_
  obtain ⟨t, g, ht, hg, hrun⟩ := h s
  have hfin : c.final s = t := hrun.elim (fun ⟨_, h, _⟩ => Cmd.final_ok h) fun ⟨h, _⟩ => Cmd.final_error h
  rw [hfin]
  exact of_sent ht.trace hg

theorem setSleep (reg mask : Byte) : NoDelay (busSetBits reg mask (fun s => s.openChange s.addr)) := by
  refine Cmd.keeps_of_final fun s => ?_
  obtain ⟨t, g, ht, hg, -, hrun⟩ := busSetBits_open reg mask s
  rw [hrun.elim (fun h => Cmd.final_ok h.1) (fun h => Cmd.final_error h.1)]
  exact of_sent (by rw [ht.trace]; split <;> rfl) hg

theorem setDuty (ch : Channel) (d : Duty) : NoDelay (setDuty ch d) :=
  (SendsWithin.check _ _).bind fun _ => SendsWithin.updateThen (group (busBurst_spec _ _))

theorem setLine (ch : Channel) (b : Bool) : NoDelay (setLine ch b) := setDuty ch _

theorem setDirection (k : Conn) (forward : Bool) : NoDelay (setDirection k forward) := by
  cases forward
  · exact (setLine _ _).bind fun _ => setLine _ _
  · exact (setLine _ _).bind fun _ => setLine _ _

theorem bridgeSet (k : Conn) (d : Duty) : NoDelay (bridgeSet k d) :=
  SendsWithin.getThen fun _ => SendsWithin.updateThen <|
    (SendsWithin.onlyIf _ (setDuty _ _)).bind fun _ => (setDirection _ _).bind fun _ => setDuty _ _

end NoDelay

/-- R170: one Delay, after the MODE1 clear. -/
theorem delays_resetSeq : SendsWithin isDelay 1 resetSeq := by
  have hdelay : SendsWithin isDelay 1 (busDelay Config.tOscMinUs) := SendsWithin.inGroup
    (Cmd.Keeps.update fun s => GrowsWithin.record s _)
  exact (NoDelay.group (busWrite1_spec _ _)).bind fun _ => hdelay.bind fun _ =>
    (NoDelay.group (busBurst_spec _ _)).bind fun _ => SendsWithin.updateThen
      (NoDelay.group (busSetBitsIfClear_spec _ _))

theorem delays_freqSeq (p : Byte) : SendsWithin isDelay 1 (freqSeq p) :=
  (NoDelay.setSleep _ _).bind fun _ => (NoDelay.group (busWrite1_spec _ _)).bind fun _ => delays_resetSeq

/-- R324: two Delay events at most, those of CTRL_INIT. -/
theorem delays_act (i : Instr) : SendsWithin isDelay 2 (act i) := by
  have hzero {c : Cmd (BitVec 16)} (h : NoDelay c) : SendsWithin isDelay 2 c := h.mono (by decide)
  cases i with
  | regWr reg v => exact hzero ((NoDelay.group (busWrite1_spec _ _)).andReturn _)
  | regRd reg => exact hzero ((NoDelay.group (busRead1_spec _)).andReturn _)
  | regBurst reg data => exact hzero ((NoDelay.group (busBurst_spec _ _)).andReturn _)
  | ctrlInit addr hz =>
    exact SendsWithin.updateThen <| delays_resetSeq.bind fun _ => (delays_freqSeq _).bind fun _ =>
      SendsWithin.updateThen (.pure _)
  | ctrlReset => exact (delays_resetSeq.andReturn _).mono (by decide)
  | ctrlFreq hz => exact ((delays_freqSeq _).andReturn _).mono (by decide)
  | ctrlDuty id d => exact hzero ((NoDelay.group (busBurst_spec _ _)).andReturn _)
  | chDuty id d => exact hzero ((NoDelay.setDuty _ _).andReturn _)
  | lineSet id b => exact hzero ((NoDelay.setLine _ _).andReturn _)
  | hbSet id d => exact hzero ((NoDelay.bridgeSet _ _).andReturn _)
  | hbBrake id => exact hzero ((NoDelay.setLine _ _).bind fun _ => (NoDelay.setLine _ _).andReturn _)
  | hbRelease id =>
    exact hzero ((NoDelay.setDuty _ _).bind fun _ => (NoDelay.setLine _ _).bind fun _ =>
      (NoDelay.setLine _ _).andReturn _)
  | seqStep id dir =>
    exact hzero (SendsWithin.updateThen <| SendsWithin.getThen fun _ =>
      (NoDelay.bridgeSet _ _).bind fun _ => (NoDelay.bridgeSet _ _).andReturn _)
  | seqRelease id =>
    exact hzero (SendsWithin.getThen fun _ => (NoDelay.bridgeSet _ _).bind fun _ => (NoDelay.bridgeSet _ _).andReturn _)
  | chBind | chRelease | lineGet | hbConfig | hbGet | seqConfig | seqGet =>
    exact hzero fun _ => .of_trace rfl

/-! ## The statement -/

/-- What bounds the events of every effect bounds those of the command. -/
theorem exec_growsWithin {p : BusEvent → Bool} {n : Nat} {i : Instr} (h : SendsWithin p n (act i)) {s t : State}
    (hex : exec i s = .next t) {gs : List Group} (htr : t.trace = s.trace ++ gs) :
    (gs.flatten.filter p).length ≤ n := by
  obtain ⟨es, hes, hle⟩ : GrowsWithin p n s t :=
    exec_related hex ((GrowsWithin.of_trace rfl).weaken (Nat.zero_le n)) (fun _ _ _ h => h) fun _ => h.final s
  rw [htr, List.flatten_append] at hes
  rwa [List.append_cancel_left hes]

/-- Settles O18: the frames by one pass over the bus primitives, the Delays by the two sequences that wait. -/
theorem framesAreBounded : Obligations.FramesAreBounded := by
  unfold Obligations.FramesAreBounded
  intro i s
  obtain ⟨u, e, v, hex, -⟩ := exec_next i s
  obtain ⟨gs, htr, -⟩ : GrowsByGroups s (u.respond e v) :=
    exec_related hex (GrowsByGroups.refl s) (fun _ _ _ h => h) fun _ => (GrowsByGroups.busLaw.act i).final s
  exact ⟨u.respond e v, gs, hex, htr, exec_growsWithin (SendsWithin.busLaw.act i) hex htr,
    exec_growsWithin (delays_act i) hex htr⟩

end Sys2Proof.Machine
end

section
/-! PROOF. Block reset (`70_reset_and_hazards.md` R340): the block takes its reset values, and nothing outside it changes. -/

namespace Sys2Proof.Machine

/-- Outside a frequency change a channel shows what the devices say (R49, R313). -/
theorem State.output_of_devices {s t : State} {a : Addr} (hdev : t.devices = s.devices) (hch : t.changing = s.changing)
    (ha : a ∉ s.changing) (ch : Channel) : t.output a ch = s.output a ch := by
  simp only [State.output, hdev, hch, if_neg ha]

/-- The slots of a block after reset are unconfigured, those past the last one too. -/
theorem State.seq_blockReset (s : State) (i : Nat) : s.blockReset.seq i = Seq.reset := by
  simp only [State.seq, State.blockReset, List.getD_eq_getElem?_getD, List.getElem?_map]
  cases s.seqs[i]? <;> rfl

/-- Settles O10: the step takes the event, and before CTRL_INIT every other command fails its ready check. -/
theorem blockResetRestoresTheBlock : Obligations.BlockResetRestoresTheBlock := by
  unfold Obligations.BlockResetRestoresTheBlock
  intro s es hwait hev
  have hstep : step s = .next (State.blockReset { s with events := es }) := by
    rw [step, State.fetch, hwait]
    simp only [State.idle, hev]
    rfl
  refine ⟨_, hstep, rfl, State.owner_reset, fun k => congrArg Bridge.cfg (State.bridge_reset k), List.length_map _,
    fun i => by rw [State.seq_blockReset]; rfl, rfl, rfl, rfl, rfl, rfl, rfl, rfl, rfl, rfl, rfl, ?_, ?_⟩
  · exact fun a ch ha => State.output_of_devices (s := s) (t := State.blockReset { s with events := es }) rfl rfl ha ch
  · exact fun i hi => exec_uninit hi (by decide : Phase.uninit ≠ .ready)

end Sys2Proof.Machine
end

section
/-! PROOF. When a frequency change of the block's device is under way (`70_reset_and_hazards.md` R353): FreqSeq begins it,
ResetSeq ends it, and no other command has a part in it. -/

namespace Sys2Proof.Machine

/-! ## The record of frequency changes -/

/-- A frequency change of the block's device is under way. -/
def State.ownChange (s : State) : Bool := decide (s.addr ∈ s.changing)

@[simp] theorem State.ownChange_openChange (s : State) : (s.openChange s.addr).ownChange = true := by
  simp [State.ownChange]

@[simp] theorem State.ownChange_closeChange (s : State) : (s.closeChange s.addr).ownChange = false := by
  simp [State.ownChange]

/-- From `s` to `t` the block has sent `gs`, and at the address of its device alone a frequency change may have begun or
ended; whether one is under way there in `t` is `w`. -/
structure ChangesOwn (s t : State) (gs : List Group) (w : Bool) : Prop where
  trace : t.trace = s.trace ++ gs
  addr : t.addr = s.addr
  own : t.ownChange = w
  others : ∀ b, b ≠ s.addr → (b ∈ t.changing ↔ b ∈ s.changing)

namespace ChangesOwn

variable {s t u : State} {gs hs : List Group} {v w : Bool}

theorem trans (h : ChangesOwn s t gs v) (k : ChangesOwn t u hs w) : ChangesOwn s u (gs ++ hs) w where
  trace := by rw [k.trace, h.trace, List.append_assoc]
  addr := k.addr.trans h.addr
  own := k.own
  others b hb := (k.others b (h.addr ▸ hb)).trans (h.others b hb)

/-- Bus traffic alone begins and ends no frequency change. -/
theorem bus (h : BusEffect s t gs) : ChangesOwn s t gs s.ownChange where
  trace := h.trace
  addr := h.addr
  own := by rw [State.ownChange, h.addr, h.changing, State.ownChange]
  others b _ := by rw [h.changing]

theorem begins (h : BusEffect (s.openChange s.addr) t gs) : ChangesOwn s t gs true := by
  have hopen : ChangesOwn s (s.openChange s.addr) [] true :=
    ⟨by simp, rfl, s.ownChange_openChange, fun b hb => by simp [hb]⟩
  simpa using hopen.trans (bus h)

theorem ends (h : BusEffect (s.closeChange s.addr) t gs) : ChangesOwn s t gs false := by
  have hclose : ChangesOwn s (s.closeChange s.addr) [] false :=
    ⟨by simp, rfl, s.ownChange_closeChange, fun b hb => by simp [hb]⟩
  simpa using hclose.trans (bus h)

/-! ## ResetSeq and FreqSeq -/

/-- R170, R353: ResetSeq ends a change when its third group has succeeded, that is when its fourth has begun. -/
theorem resetSeq (s : State) : ∃ gs, ChangesOwn s (Machine.resetSeq.final s) gs (resetWindow s.ownChange gs) ∧
    gs.length ≤ 4 ∧ ∀ t, Machine.resetSeq s = .ok () t → gs.length = 4 := by
  obtain ⟨t, gs, ht, hle, hrun⟩ := resetSeq_run s
  have hfin : Machine.resetSeq.final s = t := hrun.elim (fun h => Cmd.final_ok h.1) fun h => Cmd.final_error h.1
  refine ⟨gs, ?_, hle, fun u hu => ?_⟩
  · rw [hfin]
    by_cases h4 : gs.length = 4
    · rw [if_pos h4] at ht
      simpa [resetWindow, h4] using ends ht
    · rw [if_neg h4] at ht
      simpa [resetWindow, show gs.length ≤ 3 by omega] using bus ht
  · rcases hrun with ⟨-, ⟨_, _, _, rfl⟩, -⟩ | ⟨herr, -⟩
    · rfl
    · simp [herr] at hu

/-- R172, R353: FreqSeq begins a change with the third frame of its first group and ends it when its sixth group, the one
after the ALL_LED burst, has begun. -/
theorem freqSeq (p : Byte) (s : State) :
    ∃ gs, gs ≠ [] ∧ ChangesOwn s ((Machine.freqSeq p).final s) gs (freqWindow s.ownChange gs) := by
  obtain ⟨t, gs, ht, hle, hrun⟩ := freqSeq_run p s
  have hfin : (Machine.freqSeq p).final s = t := hrun.elim (fun h => Cmd.final_ok h.1) fun h => Cmd.final_error h.1
  have hne : gs ≠ [] := by
    rintro rfl
    rcases hrun with ⟨-, ⟨_, _, _, hgs⟩, -⟩ | ⟨-, hfail, -⟩
    · simp at hgs
    · exact hfail.ne_nil rfl
  refine ⟨gs, hne, ?_⟩
  rw [hfin]
  match gs with
  | [g] =>
    by_cases h3 : g.length = 3
    · simp only [State.afterFreq, if_pos h3] at ht
      simpa [freqWindow, h3] using begins ht
    · simp only [State.afterFreq, if_neg h3] at ht
      simpa [freqWindow, h3] using bus ht
  | g :: g' :: rest =>
    simp only [List.length_cons] at hle
    by_cases h4 : rest.length = 4
    · have ht' : BusEffect (s.closeChange s.addr) t (g :: g' :: rest) := by simpa [State.afterFreq, h4] using ht
      simpa [freqWindow, h4] using ends ht'
    · have ht' : BusEffect (s.openChange s.addr) t (g :: g' :: rest) := by simpa [State.afterFreq, h4] using ht
      have hwindow : freqWindow s.ownChange (g :: g' :: rest) = true := by
        simp only [freqWindow, List.length_cons, decide_eq_true_eq]
        omega
      exact hwindow ▸ begins ht'

end ChangesOwn

/-! ## Every command -/

theorem Cmd.final_bind_ok {α β : Type} {x : Cmd α} {f : α → Cmd β} {s t : State} {v : α} (h : x s = .ok v t) :
    (x >>= f).final s = (f v).final t := by
  rw [Cmd.final, Cmd.bind_run, h]
  rfl

theorem Cmd.final_bind_error {α β : Type} {x : Cmd α} {f : α → Cmd β} {s t : State} {e : Status}
    (h : x s = .error e t) : (x >>= f).final s = t := Cmd.final_error (by rw [Cmd.bind_run, h])

theorem windowAfter_nil (i : Instr) (w : Bool) : windowAfter i w [] = w := by
  cases i with
  | ctrlInit | ctrlReset => simp [windowAfter, Instr.op, resetWindow]
  | _ => rfl

theorem windowAfter_other {i : Instr} (hi : i.op ∉ [Op.ctrlInit, Op.ctrlReset, Op.ctrlFreq]) (w : Bool)
    (gs : List Group) : windowAfter i w gs = w := by
  cases i with
  | ctrlInit | ctrlReset | ctrlFreq => simp [Instr.op] at hi
  | _ => rfl

/-- R173: CTRL_INIT is a ResetSeq of four groups and then, if that has returned, a FreqSeq, which begins outside a change. -/
theorem ChangesOwn.resetSeq_freqSeq (p : Byte) (s : State) : ∃ gs,
    ChangesOwn s ((do Machine.resetSeq; Machine.freqSeq p : Cmd Unit).final s) gs
      (if gs.length ≤ 4 then resetWindow s.ownChange gs else freqWindow false (gs.drop 4)) := by
  obtain ⟨gs, hreset, hle, hfour⟩ := ChangesOwn.resetSeq s
  cases hrun : Machine.resetSeq s with
  | error e t =>
    rw [Cmd.final_error hrun] at hreset
    rw [Cmd.final_bind_error hrun]
    exact ⟨gs, by rwa [if_pos hle]⟩
  | ok v t =>
    have h4 := hfour t hrun
    rw [Cmd.final_ok hrun] at hreset
    rw [Cmd.final_bind_ok hrun]
    obtain ⟨hs, hne, hfreq⟩ := ChangesOwn.freqSeq p t
    have hclosed : t.ownChange = false := by simp [hreset.own, resetWindow, h4]
    have hpos := List.length_pos_iff.mpr hne
    refine ⟨gs ++ hs, ?_⟩
    rw [if_neg (by rw [List.length_append]; omega), ← h4, List.drop_left, ← hclosed]
    exact hreset.trans hfreq

/-- What follows the last frame of a body, with no part in frequency changes. -/
theorem ChangesOwn.andThen {α β : Type} {x : Cmd α} {f : α → Cmd β} {s : State} {gs : List Group} {w : Bool}
    (h : ChangesOwn s (x.final s) gs w)
    (hf : ∀ v t, ((f v).final t).trace = t.trace ∧ ((f v).final t).addr = t.addr ∧ ((f v).final t).changing = t.changing) :
    ChangesOwn s ((x >>= f).final s) gs w := by
  cases hrun : x s with
  | error e t =>
    rw [Cmd.final_bind_error hrun, ← Cmd.final_error hrun]
    exact h
  | ok v t =>
    rw [Cmd.final_ok hrun] at h
    rw [Cmd.final_bind_ok hrun]
    obtain ⟨htrace, haddr, hch⟩ := hf v t
    exact
      { trace := htrace.trans h.trace
        addr := haddr.trans h.addr
        own := by rw [← h.own, State.ownChange, haddr, hch, State.ownChange]
        others := by rw [hch]; exact h.others }

/-- R353: the effect of a controller command, from the state in which the address its frames go to has been taken. -/
theorem ChangesOwn.act {i : Instr} (hi : i.op ∈ [Op.ctrlInit, Op.ctrlReset, Op.ctrlFreq]) (s : State) : ∃ gs,
    ChangesOwn { s with addr := s.target i } ((act i).final s) gs
      (windowAfter i (State.ownChange { s with addr := s.target i }) gs) := by
  cases i with
  | ctrlInit addr hz =>
    obtain ⟨gs, h⟩ := ChangesOwn.resetSeq_freqSeq ((prescale hz).getD 0#8) { s with addr := addr }
    have hact : (Machine.act (.ctrlInit addr hz)).final s = (do
        (do Machine.resetSeq; Machine.freqSeq ((prescale hz).getD 0#8))
        update (fun s => { s with phase := .ready })
        return 0#16 : Cmd (BitVec 16)).final { s with addr := addr } := by
      simp only [Machine.act, Cmd.final_update, bind_assoc]
    rw [hact]
    exact ⟨gs, h.andThen fun _ _ => ⟨rfl, rfl, rfl⟩⟩
  | ctrlReset =>
    obtain ⟨gs, h, -⟩ := ChangesOwn.resetSeq s
    exact ⟨gs, h.andThen fun _ _ => ⟨rfl, rfl, rfl⟩⟩
  | ctrlFreq hz =>
    obtain ⟨gs, -, h⟩ := ChangesOwn.freqSeq ((prescale hz).getD 0#8) s
    exact ⟨gs, h.andThen fun _ _ => ⟨rfl, rfl, rfl⟩⟩
  | _ => simp [Instr.op] at hi

/-- Settles O36: a command that is no controller command writes no frequency change; a controller command that fails a check
sends no group, and otherwise its effect says what becomes of the change. -/
theorem frequencyChangesBeginAndEnd : Obligations.FrequencyChangesBeginAndEnd := by
  unfold Obligations.FrequencyChangesBeginAndEnd
  intro i s t gs hex htr
  by_cases hi : i.op ∈ [Op.ctrlInit, Op.ctrlReset, Op.ctrlFreq]
  · obtain ⟨e, v, rfl | ⟨-, rfl⟩⟩ := exec_final hex
    · obtain rfl : gs = [] := by simpa using htr
      exact ⟨by rw [windowAfter_nil, decide_eq_true_iff]; rfl, fun _ _ => Iff.rfl⟩
    · obtain ⟨hs, h⟩ := ChangesOwn.act hi s
      obtain rfl : hs = gs := List.append_cancel_left (h.trace.symm.trans htr)
      have haddr : ((act i).final s).addr = s.target i := h.addr
      refine ⟨?_, fun b hb => h.others b (haddr ▸ hb)⟩
      have hown := h.own
      simp only [State.ownChange, ← haddr] at hown
      exact decide_eq_true_iff.symm.trans (Bool.eq_iff_iff.mp hown)
  · have hch := (onlyWrites_exec hex).changing hi
    rw [windowAfter_other hi, hch, decide_eq_true_iff]
    exact ⟨Iff.rfl, fun _ _ => Iff.rfl⟩

end Sys2Proof.Machine
end

section
/-! PROOF. What a command that ends with OK puts on the bus (`70_reset_and_hazards.md` R362): the rows of the table add up
along the pseudocode. -/

namespace Sys2Proof.Machine

variable {α β : Type}

/-! ## Rows of the table -/

/-- The groups are as many, and hold as many frames and Delays, as the row says. -/
def Activity.Allows (A : Activity) (gs : List Group) : Prop :=
  A.groupsMin ≤ gs.length ∧ gs.length ≤ A.groupsMax ∧ A.framesMin ≤ frameCount gs ∧ frameCount gs ≤ A.framesMax ∧
    delayCount gs = A.delays

/-- The row of a part that sends nothing. -/
abbrev Activity.silent : Activity := ⟨0, 0, 0, 0, 0⟩

/-- The row of one group of so many frames. -/
abbrev Activity.group (framesMin framesMax : Nat) : Activity := ⟨1, 1, framesMin, framesMax, 0⟩

/-- The row of two parts, one after the other. -/
def Activity.plus (A B : Activity) : Activity :=
  ⟨A.groupsMin + B.groupsMin, A.groupsMax + B.groupsMax, A.framesMin + B.framesMin, A.framesMax + B.framesMax,
    A.delays + B.delays⟩

/-- Every range of `A` lies in that of `B`. -/
def Activity.Within (A B : Activity) : Prop :=
  B.groupsMin ≤ A.groupsMin ∧ A.groupsMax ≤ B.groupsMax ∧ B.framesMin ≤ A.framesMin ∧ A.framesMax ≤ B.framesMax ∧
    A.delays = B.delays

theorem frameCount_append (gs hs : List Group) : frameCount (gs ++ hs) = frameCount gs + frameCount hs := by
  simp [frameCount]

theorem delayCount_append (gs hs : List Group) : delayCount (gs ++ hs) = delayCount gs + delayCount hs := by
  simp [delayCount]

theorem Activity.Allows.append {A B : Activity} {gs hs : List Group} (h : A.Allows gs) (k : B.Allows hs) :
    (A.plus B).Allows (gs ++ hs) := by
  unfold Allows at *
  simp only [plus, List.length_append, frameCount_append, delayCount_append]
  omega

theorem Activity.Allows.within {A B : Activity} {gs : List Group} (h : A.Allows gs) (hAB : A.Within B) : B.Allows gs := by
  unfold Allows Within at *
  omega

theorem Activity.silent_allows : Activity.silent.Allows [] := ⟨le_rfl, le_rfl, le_rfl, le_rfl, rfl⟩

/-- A group whose events are all frames. -/
theorem Activity.allows_group {m n : Nat} {g : Group} (hg : ∀ e ∈ g, e.frame.dest.isSome = true) (hm : m ≤ g.length)
    (hn : g.length ≤ n) : (Activity.group m n).Allows [g] := by
  have hframes : frameCount [g] = g.length := by
    rw [frameCount, List.flatten_singleton, List.filter_eq_self.mpr hg]
  have hdelays : delayCount [g] = 0 := by
    rw [delayCount, List.flatten_singleton, List.length_eq_zero_iff, List.filter_eq_nil_iff]
    exact fun e he => by simp [Option.ne_none_iff_isSome.mpr (hg e he)]
  simp [Allows, hframes, hdelays, hm, hn]

/-- The frame that sets a bit may be left out. -/
theorem setEvents_length_le (a : Addr) (reg m mask : Byte) (write : Bool) :
    (setEvents a reg m mask write).length ≤ 1 := by
  unfold setEvents
  split <;> simp

/-! ## Bodies -/

/-- From `s` the body returns after groups the row allows, or it raises a status that is not OK. -/
def Puts (A : Activity) (c : Cmd α) (s : State) : Prop :=
  match c s with
  | .ok _ t => ∃ gs, t.trace = s.trace ++ gs ∧ A.Allows gs
  | .error e _ => e ≠ .ok

namespace Puts

variable {A B : Activity} {s : State}

theorem returns {c : Cmd α} {v : α} {t : State} {gs : List Group} (hrun : c s = .ok v t) (htr : t.trace = s.trace ++ gs)
    (hgs : A.Allows gs) : Puts A c s := by
  simp only [Puts, hrun]
  exact ⟨gs, htr, hgs⟩

theorem raises {c : Cmd α} {e : Status} {t : State} (hrun : c s = .error e t) (he : e ≠ .ok) : Puts A c s := by
  simpa only [Puts, hrun] using he

/-- A body that returns and has sent nothing. -/
theorem silent {c : Cmd α} {v : α} {t : State} (hrun : c s = .ok v t) (htr : t.trace = s.trace) : Puts .silent c s :=
  returns hrun (by rw [htr, List.append_nil]) Activity.silent_allows

theorem within {c : Cmd α} (h : Puts A c s) (hAB : A.Within B) : Puts B c s := by
  unfold Puts at *
  split at h
  · obtain ⟨gs, htr, hgs⟩ := h
    exact ⟨gs, htr, hgs.within hAB⟩
  · exact h

theorem bind {x : Cmd α} {f : α → Cmd β} (hx : Puts A x s) (hf : ∀ v t, Puts B (f v) t) :
    Puts (A.plus B) (x >>= f) s := by
  unfold Puts at hx
  split at hx
  · next v t hrun =>
    obtain ⟨gs, htr, hgs⟩ := hx
    have hbind : (x >>= f) s = f v t := by rw [Cmd.bind_run, hrun]
    have h := hf v t
    unfold Puts at h
    split at h
    · next w u hrun' =>
      obtain ⟨hs, htr', hhs⟩ := h
      exact returns (hbind.trans hrun') (by rw [htr', htr, List.append_assoc]) (hgs.append hhs)
    · next e u hrun' => exact raises (hbind.trans hrun') h
  · next e t hrun => exact raises (by rw [Cmd.bind_run, hrun]) hx

theorem andReturn {x : Cmd β} (hx : Puts A x s) (f : β → α) : Puts A (x >>= fun v => pure (f v)) s :=
  hx.bind fun _ _ => silent rfl rfl

/-- A write of block fields at the head of a body. -/
theorem updateThen {f : State → State} {c : Cmd α} (h : Puts A c (f s)) (htr : (f s).trace = s.trace := by rfl) :
    Puts A (update f >>= fun _ => c) s := by
  unfold Puts at *
  rw [htr] at h
  exact h

theorem getThen {f : State → Cmd α} (h : Puts A (f s) s) : Puts A (get >>= f) s := h

theorem check (ok : Bool) {e : Status} (he : e ≠ .ok) (s : State) : Puts .silent (check ok e) s := by
  cases ok
  · exact raises rfl he
  · exact silent rfl rfl

theorem onlyIf (c : Bool) {x : Cmd Unit} (hx : Puts A x s) : Puts (if c then A else .silent) (onlyIf c x) s := by
  cases c
  · exact silent rfl rfl
  · exact hx

/-! ## The bus primitives (R74 to R79) -/

theorem group {c : Cmd α} {S : Addr → α → Group → Prop} (h : GroupSpec c S) {m n : Nat}
    (hS : ∀ a v g, S a v g → m ≤ g.length ∧ g.length ≤ n) (s : State) : Puts (.group m n) c s := by
  obtain ⟨t, g, ht, hdest, ⟨v, hrun, hshape, -⟩ | ⟨hrun, -⟩⟩ := h s
  · obtain ⟨hm, hn⟩ := hS _ _ _ hshape
    exact returns hrun ht.trace (Activity.allows_group (fun e he => by simp [hdest e he]) hm hn)
  · exact raises hrun (by decide)

theorem write1 (reg v : Byte) (s : State) : Puts (.group 1 1) (busWrite1 reg v) s :=
  group (busWrite1_spec reg v) (fun _ _ _ h => by simp [h]) s

theorem read1 (reg : Byte) (s : State) : Puts (.group 2 2) (busRead1 reg) s :=
  group (busRead1_spec reg) (fun _ _ _ h => by simp [h]) s

theorem burst (start : Byte) (bs : List Byte) (s : State) : Puts (.group 3 4) (busBurst start bs) s :=
  group (busBurst_spec start bs) (fun a _ g ⟨m, hg⟩ => by
    have hset := setEvents_length_le a regMode1 m bitAI (m &&& bitAI == 0#8)
    simp only [hg, List.length_append, List.length_cons, List.length_nil]
    omega) s

theorem setIfClear (reg mask : Byte) (s : State) : Puts (.group 2 3) (busSetBitsIfClear reg mask) s :=
  group (busSetBitsIfClear_spec reg mask) (fun a _ g ⟨m, hg⟩ => by
    have hset := setEvents_length_le a reg m mask (m &&& mask == 0#8)
    simp only [hg, List.length_append, List.length_cons, List.length_nil]
    omega) s

/-- The frame that sets SLEEP is always sent. -/
theorem setSleep (reg mask : Byte) (s : State) :
    Puts (.group 3 3) (busSetBits reg mask (fun s => s.openChange s.addr)) s := by
  obtain ⟨t, g, ht, hdest, -, ⟨hrun, m, hg⟩ | ⟨hrun, -⟩⟩ := busSetBits_open reg mask s
  · refine returns hrun (gs := [g]) (by rw [ht.trace]; split <;> rfl) (Activity.allows_group (fun e he => ?_) ?_ ?_)
    · simp [hdest e he]
    · simp [hg]
    · simp [hg]
  · exact raises hrun (by decide)

theorem delay (us : Nat) (s : State) : Puts ⟨1, 1, 0, 0, 1⟩ (busDelay us) s := by
  obtain ⟨t, hrun, ht⟩ := busDelay_spec us s
  exact returns hrun ht.trace (by simp [Activity.Allows, frameCount, delayCount, Frame.dest])

/-! ## The shared operations -/

/-- R170. -/
theorem resetSeq (s : State) : Puts ⟨4, 4, 6, 8, 1⟩ resetSeq s :=
  (write1 _ _ s).bind fun _ _ => (delay _ _).bind fun _ _ => (burst _ _ _).bind fun _ _ =>
    updateThen (setIfClear _ _ _)

/-- R172. -/
theorem freqSeq (p : Byte) (s : State) : Puts ⟨6, 6, 10, 12, 1⟩ (freqSeq p) s :=
  (setSleep _ _ s).bind fun _ _ => (write1 _ _ _).bind fun _ _ => resetSeq _

/-- R209. -/
theorem setDuty (ch : Channel) (d : Duty) (s : State) : Puts (.group 3 4) (setDuty ch d) s :=
  (check _ (by decide) s).bind fun _ _ => updateThen (burst _ _ _)

theorem setLine (ch : Channel) (b : Bool) (s : State) : Puts (.group 3 4) (setLine ch b) s := setDuty ch _ s

theorem setDirection (k : Conn) (forward : Bool) (s : State) : Puts ⟨2, 2, 6, 8, 0⟩ (setDirection k forward) s := by
  cases forward
  · exact (setLine _ _ s).bind fun _ _ => setLine _ _ _
  · exact (setLine _ _ s).bind fun _ _ => setLine _ _ _

/-- R234: a burst more when the polarity flips. -/
theorem bridgeSet (k : Conn) (d : Duty) (s : State) :
    Puts (if polarity (s.bridge k).duty = polarity d then ⟨3, 3, 9, 12, 0⟩ else ⟨4, 4, 12, 16, 0⟩) (bridgeSet k d) s := by
  have h : Puts (Activity.plus (if polarity d != polarity (s.bridge k).duty then .group 3 4 else .silent)
      ⟨3, 3, 9, 12, 0⟩) (Machine.bridgeSet k d) s :=
    getThen <| updateThen <| (onlyIf _ (setDuty _ _ _)).bind fun _ _ =>
      (setDirection _ _ _).bind fun _ _ => setDuty _ _ _
  by_cases hpol : polarity (s.bridge k).duty = polarity d
  · simpa [hpol, Activity.plus] using h
  · simpa [hpol, Ne.symm hpol, Activity.plus] using h

/-- R234: three or four bursts, whatever the polarities. -/
theorem bridgeSet_any (k : Conn) (d : Duty) (s : State) : Puts ⟨3, 4, 9, 16, 0⟩ (Machine.bridgeSet k d) s := by
  refine (bridgeSet k d s).within ?_
  split <;> simp [Activity.Within]

theorem bridgeSets (k1 k2 : Conn) (d1 d2 : Duty) (v : α) (s : State) :
    Puts ⟨6, 8, 18, 32, 0⟩ (do Machine.bridgeSet k1 d1; Machine.bridgeSet k2 d2; return v) s :=
  (bridgeSet_any k1 d1 s).bind fun _ _ => (bridgeSet_any k2 d2 _).andReturn _

/-! ## Every command -/

/-- R362: the row of each command, once its checks have passed. -/
theorem act {i : Instr} {s : State} (hc : s.failedCheck i = none) : Puts (s.activity i) (act i) s := by
  cases i with
  | regWr reg v => exact (write1 reg v s).andReturn _
  | regRd reg => exact (read1 reg s).andReturn _
  | regBurst reg data => exact (burst reg data s).andReturn _
  | ctrlInit addr hz =>
    exact updateThen <| (resetSeq _).bind fun _ _ => (freqSeq _ _).bind fun _ _ =>
      updateThen (silent rfl rfl)
  | ctrlReset => exact (resetSeq s).andReturn _
  | ctrlFreq hz => exact (freqSeq _ s).andReturn _
  | ctrlDuty id d => exact (burst _ _ s).andReturn _
  | chDuty id d => exact (setDuty _ d s).andReturn _
  | lineSet id b => exact (setLine _ b s).andReturn _
  | hbSet id d =>
    have hpass := checks_pass hc
    simp only [State.checks, List.forall_mem_cons] at hpass
    obtain ⟨hid, -⟩ := hpass
    simp only [State.activity, conn_some hid]
    exact (bridgeSet (conn id) d s).andReturn _
  | hbBrake id => exact (setLine _ _ s).bind fun _ _ => (setLine _ _ _).andReturn _
  | hbRelease id =>
    exact (setDuty _ _ s).bind fun _ _ => (setLine _ _ _).bind fun _ _ => (setLine _ _ _).andReturn _
  | seqStep id dir => exact updateThen <| getThen <| bridgeSets _ _ _ _ _ _
  | seqRelease id => exact getThen <| bridgeSets _ _ _ _ _ _
  | chBind | chRelease | lineGet | hbConfig | hbGet | seqConfig | seqGet => exact silent rfl rfl

end Puts

/-! ## The statement -/

theorem Status.code_ok (e : Status) : e.code = 0#8 ↔ e = .ok := by cases e <;> decide

/-- Settles O19: a failed check does not end with OK, and otherwise the effect returned with groups its row allows. -/
theorem busActivityIsAsListed : Obligations.BusActivityIsAsListed := by
  unfold Obligations.BusActivityIsAsListed
  intro i s t gs hex hok htr
  obtain ⟨u, e, v, hu, -, hcase⟩ := exec_next i s
  obtain rfl : u.respond e v = t := by simpa [hu] using hex
  obtain rfl : e = .ok := (Status.code_ok e).mp (statusOf_respond u e v ▸ hok)
  rcases hcase with ⟨hc, -⟩ | ⟨hc, hact⟩
  · exact absurd hc (failedCheck_ne_ok i s)
  · have hputs := Puts.act hc
    unfold Puts at hputs
    rcases hact with ⟨ha, -⟩ | ha
    · rw [ha] at hputs
      obtain ⟨hs, hu', hallows⟩ := hputs
      obtain rfl : hs = gs := List.append_cancel_left (hu'.symm.trans htr)
      exact hallows
    · rw [ha] at hputs
      exact absurd rfl hputs

end Sys2Proof.Machine
end
